-- ==== Sys2Proof/Word.lean ====
section
/-! DEFINITION. The word types of the part, and the fixed-size table every record array is held in. -/

namespace Sys2Proof

/-- A word of a port window or a system address (R169). -/
abbrev Word := BitVec 32

/-- The data of one unit of up to 8 bytes; byte 0, in bits 0 to 7, is the byte at the lowest address. -/
abbrev UnitData := BitVec 64

/-- A fixed number of like records. -/
abbrev Tab (α : Type) (n : Nat) := Vector α n

namespace Tab

variable {α : Type} {n : Nat}

/-- The record at an index. -/
def get (t : Tab α n) (i : Fin n) : α := t[i.val]

/-- The table with the record at one index replaced. -/
def put (t : Tab α n) (i : Fin n) (x : α) : Tab α n := t.set i.val x i.isLt

/-- The table with the same record at every index. -/
def fill (n : Nat) (x : α) : Tab α n := Vector.replicate n x

end Tab

end Sys2Proof
end

