-- ==== Sys2Proof/Config.lean ====
section
/-! DEFINITION. The principal figures of the part (00_scope.md, Principal Figures) as index types.
The manual leaves no value of the part to the implementation, so there is no free value here. -/

namespace Sys2Proof

/-- Ports P0 to P3; also withdraw lines and interrupt outputs. -/
abbrev PortIx := Fin 4

/-- Privilege levels 0 to 3, 0 the most privileged. -/
abbrev Level := Fin 4

/-- Windows W0 to W15. -/
abbrev WindowIx := Fin 16

/-- Gates G0 to G63. -/
abbrev GateIx := Fin 64

/-- Trigger lines TL0 to TL31. -/
abbrev LineIx := Fin 32

/-- Descriptors D0 to D127. -/
abbrev DescIx := Fin 128

/-- Priorities 0 to 7, 7 the highest. -/
abbrev Priority := Fin 8

/-- Strobe channels STB0 to STB7. -/
abbrev ChannelIx := Fin 8

/-- A byte offset in the part's target space: four port windows of 256 bytes (R156). -/
abbrev TargetOffset := Fin 1024

/-- Argument words A0 to A15 or result words Q0 to Q15. -/
abbrev PortWords := Tab Word 16

namespace Config

/-- The greatest sweep interval, in microseconds (R144). -/
def maxInterval : Nat := 65535

/-- The greatest strobe wait limit, in microseconds (R103). -/
def maxStrobeLimit : Nat := 4095

/-- The strobe wait limit after the reset pin (R103). -/
def resetStrobeLimit : Nat := 1000

/-- The most deferred sweep visits (R144). -/
def maxDeferred : Nat := 2

/-- The greatest pending count (R5). -/
def maxPending : Nat := 2

/-- Where the missed count and the reload count saturate (R5). -/
def saturation : Nat := 255

/-- One past the top of the 32-bit address space (R27). -/
def addressSpan : Nat := 2 ^ 32

end Config

end Sys2Proof
end

