-- ==== Sys2Proof/Syntax.lean ====
section
/-! DEFINITION. The commands of the part: one constructor of `Instr` for each row of spec/opcode_table.json.
A row that takes something another block handed on names which one is taken: a port's command by the port and the
command's identity (R159), the other hand-offs by their place in the list of those waiting (log 1). -/

namespace Sys2Proof

/-- The words of a port window that a write leaves as they are (R156). -/
inductive IgnoredWrite where
  /-- The result code word. -/
  | resultCode
  /-- The port status word. -/
  | portStatus
  /-- A result word Q0 to Q15. -/
  | resultWord (i : Fin 16)
  /-- An unassigned word, by its byte offset in the window. -/
  | unassigned (offset : Nat)
  /-- The command word, written narrower than 32 bits: the bytes written. -/
  | narrowCommand (bytes : BitVec 4)
  deriving DecidableEq, Repr

/-- How a 4-byte guard read ends: with the word read, or with a bus error (R115, R120). -/
inductive ReadEnd where
  | word (w : Word)
  | busError
  deriving DecidableEq, Repr

/-- The commands: what can be done to the part, or taken by one of its blocks. -/
inductive Instr where
  /-- Processor p writes the bytes marked in `bytes` of argument word `i` (R156). -/
  | argumentWordWrite (p : PortIx) (i : Fin 16) (bytes : BitVec 4) (value : Word)
  /-- Processor p writes a word that ignores writes (R156). -/
  | registerWriteIgnored (p : PortIx) (target : IgnoredWrite) (value : Word)
  /-- The Port Interface admits or refuses the pending command of port p (R158). -/
  | admission (p : PortIx)
  /-- The verdict for command `id` of port p reaches the Port Interface (R159). -/
  | verdictPost (p : PortIx) (id : Word)
  | load (p : PortIx) (id : Word)
  | readDescriptor (p : PortIx) (id : Word)
  | arm (p : PortIx) (id : Word)
  | disarm (p : PortIx) (id : Word)
  | release (p : PortIx) (id : Word)
  | invoke (p : PortIx) (id : Word)
  | setGate (p : PortIx) (id : Word)
  | clearGate (p : PortIx) (id : Word)
  | readGate (p : PortIx) (id : Word)
  | setWindow (p : PortIx) (id : Word)
  | clearWindow (p : PortIx) (id : Word)
  | readWindow (p : PortIx) (id : Word)
  | setRoute (p : PortIx) (id : Word)
  | readRoute (p : PortIx) (id : Word)
  | setSweep (p : PortIx) (id : Word)
  | setStrobeLimit (p : PortIx) (id : Word)
  | pause (p : PortIx) (id : Word)
  | resume (p : PortIx) (id : Word)
  | setPortLevel (p : PortIx) (id : Word)
  | readStatus (p : PortIx) (id : Word)
  /-- The admission of a CLEAR_STATUS pending at port p (R167). -/
  | clearStatus (p : PortIx)
  /-- The Lease Sweep takes the clear that CLEAR_STATUS `id` of port p handed it (R167). -/
  | sweepLateClear (p : PortIx) (id : Word)
  | takeFault (p : PortIx) (id : Word)
  | takeRetired (p : PortIx) (id : Word)
  | setNotice (p : PortIx) (id : Word)
  | withdraw (p : PortIx) (id : Word)
  /-- The Descriptor Table takes the n-th waiting invocation (R52). -/
  | invocationAtTarget (n : Nat)
  | triggerLineEvent (l : LineIx)
  | triggerLineRelease (l : LineIx)
  /-- The Gate Table takes the n-th waiting line invocation (R51). -/
  | lineInvocation (n : Nat)
  | withdrawLineEvent (p : PortIx)
  | withdrawLineRelease (p : PortIx)
  | portReturnOpen (p : PortIx)
  | resetPin
  /-- The reset pin is released with the trigger and withdraw lines at these levels (R63, R180). -/
  | resetRelease (lines : Tab Bool 32) (withdrawLines : Tab Bool 4)
  | selection
  | busGrant
  | releaseRequest
  /-- The engine's guard read ends on the bus (R72). -/
  | guardReadEnd (result : ReadEnd)
  /-- The source read of a unit completes with this data (R86, R88). -/
  | unitReadEnd (data : UnitData)
  /-- The destination write of a unit completes (R91). -/
  | unitCompletion
  | accessBusError
  | accept (c : ChannelIx)
  | supply (c : ChannelIx) (data : UnitData)
  | refuse (c : ChannelIx)
  | waitTimerExpiry (c : ChannelIx)
  /-- The Strobe Interface takes the n-th waiting end request (R134). -/
  | endRequest (n : Nat)
  /-- The Descriptor Table takes the n-th waiting chain (R136). -/
  | chain (n : Nat)
  /-- The Fault and Notice Unit takes the oldest waiting fault report (R173). -/
  | faultReport
  | sweepTimerExpiry
  /-- The sweep's guard re-read ends on the bus (R152). -/
  | sweepReadEnd (result : ReadEnd)
  /-- The Descriptor Table takes the n-th waiting guard result (R120). -/
  | guardResult (n : Nat)
  /-- Processor p writes a 32-bit code to its command word (R157). -/
  | commandWrite (p : PortIx) (code : Word)
  deriving DecidableEq, Repr

end Sys2Proof
end

