-- ==== Sys2Proof/Decode.lean ====
section
/-! DEFINITION. What the bus and the opcode table spell: the decode of the part's target space into port windows and
words, the command a bus write is, and the command a word spells (none: no row of the table has bits, log 21). -/

namespace Sys2Proof

/-- The port whose window holds an offset of the target space: windows of 256 bytes at 0x000, 0x100, 0x200 and 0x300
(R156). -/
def TargetOffset.port (offset : TargetOffset) : PortIx := ⟨offset.val / 256, by omega⟩

/-- The word of its port window that an offset lies in, counted from the window's first (section 9.8; log 25). -/
def TargetOffset.word (offset : TargetOffset) : Fin 64 := ⟨offset.val % 256 / 4, by omega⟩

/-- The command that a write of the marked bytes at an offset of the target space is: of an argument word, of the whole
command word, or of a word that ignores it (R156, the window's layout in section 9.8). -/
def Instr.ofTargetWrite (offset : TargetOffset) (bytes : BitVec 4) (value : Word) : Instr :=
  let p := offset.port
  let w := offset.word
  if h : w.val < 16 then .argumentWordWrite p ⟨w.val, h⟩ bytes value
  else if w.val = 16 then
    if bytes = 15 then .commandWrite p value else .registerWriteIgnored p (.narrowCommand bytes) value
  else if w.val = 17 then .registerWriteIgnored p .resultCode value
  else if w.val = 18 then .registerWriteIgnored p .portStatus value
  else if h : 32 ≤ w.val ∧ w.val < 48 then .registerWriteIgnored p (.resultWord ⟨w.val - 32, by omega⟩) value
  else .registerWriteIgnored p (.unassigned (4 * w.val)) value

/-- The command a word spells by the table's bits: none, since no row of the table has bits. -/
def decodeTableWord (_nbits _w : Nat) : Option Instr := none

end Sys2Proof
end

