-- ==== Sys2Proof/Machine/Types.lean ====
section
/-! DEFINITION. The records of the eleven blocks, field by field as the manual names them. -/

namespace Sys2Proof.Machine

/-! ### Codes and enumerations (section 9.8) -/

/-- The codes of results, retire reasons and fault reports: one value stands for each wherever it appears (R164). -/
inductive Code where
  | ok | saturated | none | busy | closing | unknown | level | owner | range | state | inUse | malformed
  | nullGate | gateRange | gateAbsent | gateLevel | targetAbsent | targetLevel | targetNotArmed | targetRetired
  | windowAbsent | windowLevel | windowAccess | windowLimit | alignment
  | busError | peripheralError | peripheralTimeout
  | chainAbsent | chainNotArmed | chainRetired | chainLevel
  | done | cancelled | leaseExpired
  deriving DecidableEq, Repr

/-- The commands of the permission table (R163). -/
inductive Command where
  | load | readDescriptor | arm | disarm | release | invoke
  | setGate | clearGate | readGate | setWindow | clearWindow | readWindow | setRoute | readRoute
  | setSweep | setStrobeLimit | pause | resume
  | setPortLevel | readStatus | clearStatus | takeFault | takeRetired | setNotice | withdraw
  deriving DecidableEq, Repr

/-- The side of a fault detail or of an access (R5). -/
inductive SideName where
  | source | destination | guard | peripheral
  deriving DecidableEq, Repr

/-- A byte offset within a window, or below zero (R40). -/
inductive Offset where
  | at (o : Word)
  | belowZero
  deriving DecidableEq, Repr

/-! ### Windows, gates and routes -/

/-- Access rights of a window (R27). -/
inductive Access where
  | read | readWrite
  deriving DecidableEq, Repr

/-- A present window (R27). -/
structure Window where
  base : Word
  size : Nat
  level : Level
  access : Access
  deriving DecidableEq, Repr

/-- The verb of a gate (R43). -/
inductive GateKind where
  | trigger | renew | cancel
  deriving DecidableEq, Repr

/-- A present gate (R43). -/
structure Gate where
  kind : GateKind
  reach : Level
  author : Level
  target : DescIx
  deriving DecidableEq, Repr

/-- The route of one trigger line (R60). -/
structure Route where
  gate : Option GateIx
  level : Level
  deriving DecidableEq, Repr

/-! ### Descriptors -/

/-- The states of a descriptor other than EMPTY; an EMPTY slot has no record at all (R1, R7). -/
inductive DescState where
  | loaded | armed | queued | active | waiting | retired
  deriving DecidableEq, Repr

/-- Unit sizes 1, 2, 4 and 8 bytes (R2). -/
inductive UnitSize where
  | one | two | four | eight
  deriving DecidableEq, Repr

/-- How much work one trigger asks for (R2). -/
inductive Mode where
  | single | block | run
  deriving DecidableEq, Repr

/-- How a side's offset changes after each unit (R3, R92). -/
inductive Stepping where
  | fixed | up | down | upWrap
  deriving DecidableEq, Repr

/-- The six guard conditions (R4, R113). -/
inductive Condition where
  | equal | notEqual | above | notAbove | greater | notGreater
  deriving DecidableEq, Repr

/-- A source or destination side (R3). -/
structure Side where
  window : WindowIx
  start : Word
  stepping : Stepping
  deriving DecidableEq, Repr

/-- The strobe part (R3). -/
structure Strobe where
  channel : ChannelIx
  endPulse : Bool
  deriving DecidableEq, Repr

/-- The kind with exactly the parts it has present (the table of R3). -/
inductive Movement where
  | copy (src dst : Side)
  | send (src : Side) (strobe : Strobe)
  | receive (dst : Side) (strobe : Strobe)
  | fill (dst : Side) (pattern : UnitData)
  deriving DecidableEq, Repr

/-- The guard of a descriptor (R4). -/
structure Guard where
  window : WindowIx
  offset : Word
  mask : Word
  reference : Word
  condition : Condition
  deriving DecidableEq, Repr

/-- The static part (R2 to R4). -/
structure StaticPart where
  level : Level
  priority : Priority
  movement : Movement
  unitSize : UnitSize
  mode : Mode
  /-- Block length B, 1 to 256. -/
  blockLen : Nat
  /-- Block count N, 1 to 65536. -/
  blockCount : Nat
  reload : Bool
  notice : Bool
  initialLease : Nat
  guard : Option Guard
  successor : Option DescIx
  deriving DecidableEq, Repr

/-- The stop request of the ACTIVE descriptor (R124). -/
inductive StopRequest where
  | none | cancelled | leaseExpired | withdrawn
  deriving DecidableEq, Repr

/-- The retire reason with its fault detail (R5, R140). -/
structure Retirement where
  reason : Code
  detail : Option (SideName × Offset)
  deriving DecidableEq, Repr

/-- The progress part (R5). The offset of an absent side stands at 0 and is not reported (log 18). -/
structure Progress where
  src : Offset
  dst : Offset
  blocksRem : Nat
  unitsInBlock : Nat
  unitsMoved : Nat
  lease : Nat
  pending : Nat
  missed : Nat
  resume : Bool
  stop : StopRequest
  retired : Option Retirement
  reloads : Nat
  deriving DecidableEq, Repr

/-- The record of a descriptor that is not EMPTY (R1). -/
structure Desc where
  state : DescState
  owner : PortIx
  st : StaticPart
  pr : Progress
  deriving DecidableEq, Repr

/-! ### Transfer Engine and Master Port -/

/-- The engine states (R70). -/
inductive EngineState where
  | idle | paused | waitPort | guard | move | peripheral
  deriving DecidableEq, Repr

/-- What the unit in flight, or the guard read, has outstanding (R70, R85). -/
inductive AccessKind where
  | guardRead | sourceRead | destinationWrite | offer | ask
  deriving DecidableEq, Repr

/-- The unit in flight (R85): the access or exchange outstanding, the side, window and offset checked for it, the
address the check handed back, and the data once they have been read, supplied or taken from the pattern. While an
exchange is outstanding the side is the memory side (DESIGN CHOICE, safe; log 30). -/
structure InFlight where
  kind : AccessKind
  side : SideName
  window : WindowIx
  offset : Offset
  address : Word
  data : Option UnitData
  deriving DecidableEq, Repr

/-- The Transfer Engine (R70). -/
structure Engine where
  state : EngineState
  active : Option DescIx
  spellBegun : Bool
  unitsSince : Nat
  pauseReq : Bool
  inFlight : Option InFlight
  deriving DecidableEq, Repr

/-- The grant state of the system bus (R80). -/
inductive BusState where
  | notRequesting | requesting | granted
  deriving DecidableEq, Repr

/-- The holder of the master port (R80). -/
inductive Holder where
  | engine | sweep
  deriving DecidableEq, Repr

/-- The Master Port (R80). -/
structure MasterPort where
  bus : BusState
  holder : Option Holder
  engineClaim : Bool
  releaseReq : Bool
  deriving DecidableEq, Repr

/-! ### Strobe Interface and Lease Sweep -/

/-- A channel's state with the limit in force, the unit size and, in OFFERING, the unit's data (R103). -/
inductive ChannelState where
  | idle
  | offering (limit : Nat) (size : UnitSize) (data : UnitData)
  | asking (limit : Nat) (size : UnitSize)
  deriving DecidableEq, Repr

/-- A strobe channel (R103). -/
structure Channel where
  state : ChannelState
  timer : Nat
  deriving DecidableEq, Repr

/-- The sweep's guard read on the bus (R144, R39): the descriptor, the address, and the guard being read (log 29). -/
structure SweepRead where
  desc : DescIx
  address : Word
  guard : Guard
  deriving DecidableEq, Repr

/-- The Lease Sweep (R144). -/
structure Sweep where
  interval : Nat
  timer : Nat
  cursor : DescIx
  deferred : Nat
  late : Bool
  read : Option SweepRead
  deriving DecidableEq, Repr

/-! ### Ports, faults and notices -/

/-- The state of a port (R155). -/
inductive PortState where
  | opened | closing
  deriving DecidableEq, Repr

/-- The held command: the code written, its identity, the copy of A0 to A15 (R157), and whether it has been
admitted (R158, log 14). -/
structure HeldCommand where
  code : Word
  id : Word
  args : PortWords
  admitted : Bool
  deriving DecidableEq, Repr

/-- A port record (R155); command pending is `held.isSome`. -/
structure PortRec where
  state : PortState
  level : Level
  held : Option HeldCommand
  writeRefused : Bool
  args : PortWords
  lastResult : Code
  results : PortWords
  count : Word
  lastAdmitted : Word
  deriving DecidableEq, Repr

/-- The fields of a fault report (R171); side and offset are present together. -/
structure Report where
  code : Code
  descriptor : Option DescIx
  gate : Option GateIx
  line : Option LineIx
  window : Option WindowIx
  detail : Option (SideName × Offset)
  deriving DecidableEq, Repr

/-- What the Fault and Notice Unit holds for one port (R171, R176, R178); the retired set by membership. -/
structure NoticeRec where
  record : Option Report
  overflow : Bool
  retired : Tab Bool 128
  notice : Bool
  deriving DecidableEq, Repr

/-! ### Events handed from block to block (R158, R168) -/

/-- A command handed to its owning block, with the level read at admission (R158). -/
structure Handed where
  command : Command
  port : PortIx
  id : Word
  level : Level
  args : PortWords
  deriving DecidableEq, Repr

/-- The clear of SWEEP_LATE that CLEAR_STATUS hands on, with FAULT_DROPPED as noted (R167). -/
structure LateClear where
  port : PortIx
  id : Word
  droppedNoted : Bool
  deriving DecidableEq, Repr

/-- A verdict on its way to the Port Interface (R159). -/
structure Verdict where
  port : PortIx
  id : Word
  code : Code
  words : PortWords
  deriving DecidableEq, Repr

/-- Who invokes a gate: a port's INVOKE with its identity, or a trigger line (R51). -/
inductive Invoker where
  | port (p : PortIx) (id : Word)
  | line (l : LineIx)
  deriving DecidableEq, Repr

/-- A line's invocation on its way to the Gate Table (R63). -/
structure LineInv where
  line : LineIx
  gate : GateIx
  level : Level
  deriving DecidableEq, Repr

/-- An invocation handed to its target, with copies of the gate's fields (R51). -/
structure Invocation where
  invoker : Invoker
  gate : GateIx
  kind : GateKind
  target : DescIx
  author : Level
  deriving DecidableEq, Repr

/-- A chain, with the completed descriptor's index, level and owner (R135). -/
structure Chain where
  successor : DescIx
  completed : DescIx
  level : Level
  owner : PortIx
  deriving DecidableEq, Repr

/-- What a sweep guard re-read found (R120). -/
inductive GuardOutcome where
  | isTrue
  | isFalse
  | failed (code : Code)
  deriving DecidableEq, Repr

/-- A guard result on its way to the Descriptor Table (R120). `past` says that its descriptor has left WAITING since the
visit and has returned to it (R25, R123; DEDUCED, unsafe, log 17). -/
structure GuardResult where
  desc : DescIx
  guard : Guard
  outcome : GuardOutcome
  past : Bool
  deriving DecidableEq, Repr

end Sys2Proof.Machine
end

