-- ==== Sys2Proof/Machine/Fields.lean ====
section
/-! DEFINITION. Bit fields of port window words, the numbers of codes and enumerations (section 9.8), and the bytes of
units. -/

namespace Sys2Proof.Machine

/-! ### Bit fields -/

/-- The number in `len` bits of a word, from bit `lo` up. -/
def field (w : Word) (lo len : Nat) : Nat := w.toNat / 2 ^ lo % 2 ^ len

/-- One bit of a word. -/
def bit (w : Word) (i : Nat) : Bool := w.getLsbD i

/-- The word whose fields are the listed values, each with the bit it starts at. -/
def pack (fields : List (Nat × Nat)) : Word :=
  fields.foldl (fun w f => w ||| BitVec.ofNat 32 (f.1 * 2 ^ f.2)) 0

/-- A Bool as a bit. -/
def flag (b : Bool) : Nat := if b then 1 else 0

/-- The result words that begin with the listed ones, every word not listed 0 (R159). -/
def image (ws : List Word) : PortWords := Vector.ofFn fun i => ws.getD i.val 0

/-- All result words 0. -/
def noWords : PortWords := Tab.fill 16 0

/-- A number below a bound as an index. -/
def index? (n : Nat) (k : Nat) : Option (Fin n) := if h : k < n then some ⟨k, h⟩ else none

/-- The word with the bytes marked in `bytes` taken from `new` and the others kept (R156). -/
def mergeBytes (bytes : BitVec 4) (old new : Word) : Word :=
  let mask : Word := pack ((List.range 4).map fun i => (if bytes.getLsbD i then 0xFF else 0, 8 * i))
  (new &&& mask) ||| (old &&& ~~~mask)

/-! ### Numbers of codes and enumerations -/

/-- The value of a code (the code table of section 9.8). -/
def Code.value : Code → Nat
  | .ok => 0x00 | .saturated => 0x01 | .none => 0x02 | .busy => 0x03 | .closing => 0x04 | .unknown => 0x05
  | .level => 0x06 | .owner => 0x07 | .range => 0x08 | .state => 0x09 | .inUse => 0x0A | .malformed => 0x0B
  | .nullGate => 0x10 | .gateRange => 0x11 | .gateAbsent => 0x12 | .gateLevel => 0x13
  | .targetAbsent => 0x14 | .targetLevel => 0x15 | .targetNotArmed => 0x16 | .targetRetired => 0x17
  | .windowAbsent => 0x20 | .windowLevel => 0x21 | .windowAccess => 0x22 | .windowLimit => 0x23
  | .alignment => 0x24 | .busError => 0x25 | .peripheralError => 0x26 | .peripheralTimeout => 0x27
  | .chainAbsent => 0x30 | .chainNotArmed => 0x31 | .chainRetired => 0x32 | .chainLevel => 0x33
  | .done => 0x40 | .cancelled => 0x41 | .leaseExpired => 0x42

/-- The command code of a command (the permission table, R163). -/
def Command.code : Command → Nat
  | .load => 0x01 | .readDescriptor => 0x02 | .arm => 0x03 | .disarm => 0x04 | .release => 0x05
  | .invoke => 0x08 | .setGate => 0x10 | .clearGate => 0x11 | .readGate => 0x12
  | .setWindow => 0x18 | .clearWindow => 0x19 | .readWindow => 0x1A | .setRoute => 0x20 | .readRoute => 0x21
  | .setSweep => 0x28 | .setStrobeLimit => 0x29 | .pause => 0x2A | .resume => 0x2B
  | .setPortLevel => 0x30 | .readStatus => 0x31 | .clearStatus => 0x32
  | .takeFault => 0x38 | .takeRetired => 0x39 | .setNotice => 0x3A | .withdraw => 0x40

/-- The commands in the order of the permission table. -/
def Command.all : List Command :=
  [.load, .readDescriptor, .arm, .disarm, .release, .invoke, .setGate, .clearGate, .readGate, .setWindow,
   .clearWindow, .readWindow, .setRoute, .readRoute, .setSweep, .setStrobeLimit, .pause, .resume, .setPortLevel,
   .readStatus, .clearStatus, .takeFault, .takeRetired, .setNotice, .withdraw]

/-- The command a written code names; the whole word is the code (log 16). -/
def Command.ofCode (code : Word) : Option Command := Command.all.find? fun c => c.code == code.toNat

/-- The number of a descriptor's state; EMPTY, the absent record, is 0. -/
def stateNumber : Option Desc → Nat
  | none => 0
  | some x =>
    match x.state with
    | .loaded => 1 | .armed => 2 | .queued => 3 | .active => 4 | .waiting => 5 | .retired => 6

def SideName.number : SideName → Nat
  | .source => 0 | .destination => 1 | .guard => 2 | .peripheral => 3

def StopRequest.number : StopRequest → Nat
  | .none => 0 | .cancelled => 1 | .leaseExpired => 2 | .withdrawn => 3

def EngineState.number : EngineState → Nat
  | .idle => 0 | .paused => 1 | .waitPort => 2 | .guard => 3 | .move => 4 | .peripheral => 5

def Movement.number : Movement → Nat
  | .copy .. => 0 | .send .. => 1 | .receive .. => 2 | .fill .. => 3

def Mode.number : Mode → Nat
  | .single => 0 | .block => 1 | .run => 2

def Mode.ofNumber? : Nat → Option Mode
  | 0 => some .single | 1 => some .block | 2 => some .run | _ => none

def Stepping.number : Stepping → Nat
  | .fixed => 0 | .up => 1 | .down => 2 | .upWrap => 3

def Stepping.ofNumber? : Nat → Option Stepping
  | 0 => some .fixed | 1 => some .up | 2 => some .down | 3 => some .upWrap | _ => none

def Condition.number : Condition → Nat
  | .equal => 0 | .notEqual => 1 | .above => 2 | .notAbove => 3 | .greater => 4 | .notGreater => 5

def Condition.ofNumber? : Nat → Option Condition
  | 0 => some .equal | 1 => some .notEqual | 2 => some .above | 3 => some .notAbove | 4 => some .greater
  | 5 => some .notGreater | _ => none

def GateKind.number : GateKind → Nat
  | .trigger => 0 | .renew => 1 | .cancel => 2

def GateKind.ofNumber? : Nat → Option GateKind
  | 0 => some .trigger | 1 => some .renew | 2 => some .cancel | _ => none

def Access.number : Access → Nat
  | .read => 0 | .readWrite => 1

def Access.ofNumber? : Nat → Option Access
  | 0 => some .read | 1 => some .readWrite | _ => none

/-! ### Units -/

/-- The unit size in bytes (R2). -/
def UnitSize.bytes : UnitSize → Nat
  | .one => 1 | .two => 2 | .four => 4 | .eight => 8

def UnitSize.ofBytes? : Nat → Option UnitSize
  | 1 => some .one | 2 => some .two | 4 => some .four | 8 => some .eight | _ => none

/-- The first unit-size bytes of the data, the others 0 (R87; log 23). -/
def UnitSize.trim (size : UnitSize) (data : UnitData) : UnitData :=
  data &&& BitVec.ofNat 64 (2 ^ (8 * size.bytes) - 1)

/-- An offset as a port window word: below zero is reported as 0 beside its bit (R170). -/
def Offset.word : Offset → Word
  | .at o => o
  | .belowZero => 0

/-- The below-zero bit (R170). -/
def Offset.isBelow : Offset → Bool
  | .at _ => false
  | .belowZero => true

end Sys2Proof.Machine
end

