-- ==== Sys2Proof/Machine/Operands.lean ====
section
/-! DEFINITION. The argument layouts of the commands and the images of their results (section 9.8). Bits a layout does
not assign are ignored (R169); an absent part is reported with its presence bit 0 and its fields 0 (R170). -/

namespace Sys2Proof.Machine

/-! ### Arguments -/

/-- The index field, bits 0 to 7 of A0, that every command naming an object carries. -/
def argIndex (a : PortWords) : Nat := field (a.get 0) 0 8

/-- The level field of a LOAD. -/
def argLoadLevel (a : PortWords) : Nat := field (a.get 0) 8 4

/-- A side of a LOAD: window and stepping in A3 from bit `lo`, start offset in word `startWord` (R3, R15). -/
def parseSide (a : PortWords) (lo : Nat) (startWord : Fin 16) : Option Side := do
  let window ← index? 16 (field (a.get 3) lo 8)
  let stepping ← Stepping.ofNumber? (field (a.get 3) (lo + 8) 4)
  return { window, start := a.get startWord, stepping }

/-- The source side of a LOAD. -/
def parseSource (a : PortWords) : Option Side := parseSide a 0 4

/-- The destination side of a LOAD. -/
def parseDestination (a : PortWords) : Option Side := parseSide a 16 5

/-- The strobe part of a LOAD (R3, R15). -/
def parseStrobe (a : PortWords) : Option Strobe := do
  let channel ← index? 8 (field (a.get 2) 16 4)
  return { channel, endPulse := bit (a.get 2) 20 }

/-- The fill pattern of a LOAD: byte 0 in bits 0 to 7 of A6. -/
def parsePattern (a : PortWords) : UnitData := (a.get 7) ++ (a.get 6)

/-- The kind of a LOAD with its parts; the presence marks must match the kind (R3, R15). -/
def parseMovement (a : PortWords) : Option Movement :=
  match field (a.get 0) 16 4, bit (a.get 1) 27, bit (a.get 1) 28, bit (a.get 1) 29 with
  | 0, true, true, false => do return .copy (← parseSource a) (← parseDestination a)
  | 1, true, false, true => do return .send (← parseSource a) (← parseStrobe a)
  | 2, false, true, true => do return .receive (← parseDestination a) (← parseStrobe a)
  | 3, false, true, false => do return .fill (← parseDestination a) (parsePattern a)
  | _, _, _, _ => none

/-- The guard of a LOAD that marks one present (R4, R15). -/
def parseGuard (a : PortWords) : Option Guard := do
  let window ← index? 16 (field (a.get 8) 0 8)
  let condition ← Condition.ofNumber? (field (a.get 8) 8 4)
  if (a.get 9).toNat % 4 = 0 then
    return { window, offset := a.get 9, mask := a.get 10, reference := a.get 11, condition }
  else none

/-- An optional part: absent when not marked present, and otherwise it must parse. -/
def parseOptional {α : Type} (present : Bool) (part : Option α) : Option (Option α) :=
  if present then part.map some else some none

/-- A block length from 1 to 256 (R15). -/
def parseBlockLen (a : PortWords) : Option Nat :=
  let b := field (a.get 1) 16 9
  if 1 ≤ b ∧ b ≤ 256 then some b else none

/-- A block count, 0 standing for 65536 (R2). -/
def parseBlockCount (a : PortWords) : Nat :=
  let n := field (a.get 1) 0 16
  if n = 0 then 65536 else n

/-- The static part that the arguments of a LOAD give, or none when they are malformed (R15, R16). -/
def parseStatic (a : PortWords) : Option StaticPart := do
  let level ← index? 4 (argLoadLevel a)
  let priority ← index? 8 (field (a.get 0) 12 4)
  let movement ← parseMovement a
  let unitSize ← UnitSize.ofBytes? (field (a.get 0) 24 8)
  let mode ← Mode.ofNumber? (field (a.get 0) 20 4)
  let blockLen ← parseBlockLen a
  let guard ← parseOptional (bit (a.get 1) 30) (parseGuard a)
  let successor ← parseOptional (bit (a.get 1) 31) (index? 128 (field (a.get 2) 8 8))
  return { level, priority, movement, unitSize, mode, blockLen, blockCount := parseBlockCount a,
           reload := bit (a.get 1) 25, notice := bit (a.get 1) 26, initialLease := field (a.get 2) 0 8,
           guard, successor }

/-- The window a SET_WINDOW gives: the size is A2 with bit 0 of A3 as bit 32 (R29). -/
def parseWindow (a : PortWords) : Option Window := do
  let base := a.get 1
  let size := (a.get 2).toNat + 2 ^ 32 * flag (bit (a.get 3) 0)
  let level ← index? 4 (field (a.get 0) 8 4)
  let access ← Access.ofNumber? (field (a.get 0) 12 4)
  if base.toNat % 8 = 0 ∧ size ≠ 0 ∧ size % 8 = 0 ∧ base.toNat + size ≤ Config.addressSpan then
    return { base, size, level, access }
  else none

/-- The gate a SET_GATE by an issuer of the given level gives (R46, R47). -/
def parseGate (a : PortWords) (author : Level) : Option Gate := do
  let kind ← GateKind.ofNumber? (field (a.get 0) 8 4)
  let reach ← index? 4 (field (a.get 0) 12 4)
  let target ← index? 128 (field (a.get 0) 16 8)
  return { kind, reach, author, target }

/-- A gate index from 1 to 63. -/
def routeGate? (n : Nat) : Option GateIx := if n = 0 then none else index? 64 n

/-- The route a SET_ROUTE gives (R61). -/
def parseRoute (a : PortWords) : Option Route := do
  let gate ← parseOptional (bit (a.get 0) 8) (routeGate? (field (a.get 0) 16 8))
  let level ← index? 4 (field (a.get 0) 24 4)
  return { gate, level }

/-! ### The parts of a movement -/

/-- The source side, where the kind has one (R3). -/
def Movement.source? : Movement → Option Side
  | .copy src _ => some src
  | .send src _ => some src
  | .receive .. => none
  | .fill .. => none

/-- The destination side, where the kind has one (R3). -/
def Movement.destination? : Movement → Option Side
  | .copy _ dst => some dst
  | .send .. => none
  | .receive dst _ => some dst
  | .fill dst _ => some dst

/-- The strobe part, where the kind has one (R3). -/
def Movement.strobe? : Movement → Option Strobe
  | .copy .. => none
  | .send _ strobe => some strobe
  | .receive _ strobe => some strobe
  | .fill .. => none

/-- The fill pattern, where the kind has one (R3). -/
def Movement.pattern? : Movement → Option UnitData
  | .copy .. => none
  | .send .. => none
  | .receive .. => none
  | .fill _ pattern => some pattern

/-! ### Result images -/

/-- Q0 of READ_DESCRIPTOR: state, owner present, owner (R17). -/
def descriptorWord (x : Option Desc) : Word :=
  match x with
  | none => pack [(stateNumber none, 0)]
  | some x => pack [(stateNumber (some x), 0), (1, 4), (x.owner.val, 8)]

/-- The window and stepping bits of a side in A3, 0 for an absent side. -/
def sideFields (side : Option Side) (lo : Nat) : List (Nat × Nat) :=
  match side with
  | none => []
  | some s => [(s.window.val, lo), (s.stepping.number, lo + 8)]

/-- A side's start offset, 0 for an absent side. -/
def startWord (side : Option Side) : Word :=
  match side with
  | none => 0
  | some s => s.start

/-- The LOAD image A0 to A11 of a static part, with the descriptor's own index in A0 (log 13). -/
def loadImage (d : DescIx) (x : StaticPart) : List Word :=
  let m := x.movement
  let pattern := m.pattern?.getD 0
  [ pack [(d.val, 0), (x.level.val, 8), (x.priority.val, 12), (m.number, 16), (x.mode.number, 20),
          (x.unitSize.bytes, 24)],
    pack [(x.blockCount % 65536, 0), (x.blockLen, 16), (flag x.reload, 25), (flag x.notice, 26),
          (flag m.source?.isSome, 27), (flag m.destination?.isSome, 28), (flag m.strobe?.isSome, 29),
          (flag x.guard.isSome, 30), (flag x.successor.isSome, 31)],
    pack ([(x.initialLease, 0), ((x.successor.map Fin.val).getD 0, 8)] ++
          match m.strobe? with
          | none => []
          | some s => [(s.channel.val, 16), (flag s.endPulse, 20)]),
    pack (sideFields m.source? 0 ++ sideFields m.destination? 16),
    startWord m.source?,
    startWord m.destination?,
    pattern.setWidth 32,
    (pattern >>> 32).setWidth 32 ] ++
  match x.guard with
  | none => [0, 0, 0, 0]
  | some g => [pack [(g.window.val, 0), (g.condition.number, 8)], g.offset, g.mask, g.reference]

/-- READ_DESCRIPTOR, part STATIC (R17). -/
def staticImage (d : DescIx) (x : Desc) : PortWords :=
  image ([descriptorWord (some x)] ++ loadImage d x.st ++ [BitVec.ofNat 32 x.st.blockCount])

/-- Q7 and Q8 of part PROGRESS: the retire reason and fault detail. -/
def retirementWords (r : Option Retirement) : List Word :=
  match r with
  | none => [0, 0]
  | some r =>
    match r.detail with
    | none => [pack [(r.reason.value, 0), (1, 8)], 0]
    | some (side, offset) =>
      [pack [(r.reason.value, 0), (1, 8), (side.number, 16), (1, 19), (flag offset.isBelow, 20)], offset.word]

/-- An offset of a side that may be absent, as the progress part reports it. -/
def sideOffset (side : Option Side) (offset : Offset) : Offset :=
  match side with
  | none => .at 0
  | some _ => offset

/-- READ_DESCRIPTOR, part PROGRESS (R17). -/
def progressImage (x : Desc) : PortWords :=
  let m := x.st.movement
  let src := sideOffset m.source? x.pr.src
  let dst := sideOffset m.destination? x.pr.dst
  image ([ descriptorWord (some x), src.word, dst.word,
    pack [(flag m.source?.isSome, 0), (flag src.isBelow, 1), (flag m.destination?.isSome, 2), (flag dst.isBelow, 3),
          (x.pr.unitsInBlock, 8)],
    BitVec.ofNat 32 x.pr.blocksRem, BitVec.ofNat 32 x.pr.unitsMoved,
    pack [(x.pr.lease, 0), (x.pr.pending, 8), (flag x.pr.resume, 10), (x.pr.stop.number, 12), (x.pr.missed, 16),
          (x.pr.reloads, 24)] ] ++ retirementWords x.pr.retired)

/-- READ_WINDOW (R32). -/
def windowImage (w : Option Window) : PortWords :=
  match w with
  | none => noWords
  | some w => image [pack [(1, 0), (w.level.val, 8), (w.access.number, 12)], w.base, BitVec.ofNat 32 w.size,
                     pack [(w.size / 2 ^ 32, 0)]]

/-- READ_GATE (R49). -/
def gateImage (g : Option Gate) : PortWords :=
  match g with
  | none => noWords
  | some g => image [pack [(1, 0), (g.kind.number, 8), (g.reach.val, 12), (g.author.val, 16), (g.target.val, 24)]]

/-- READ_ROUTE: the SET_ROUTE image of A0 (R62). -/
def routeImage (l : LineIx) (r : Route) : PortWords :=
  match r.gate with
  | none => image [pack [(l.val, 0), (r.level.val, 24)]]
  | some g => image [pack [(l.val, 0), (1, 8), (g.val, 16), (r.level.val, 24)]]

/-- The ACTIVE descriptor's index, reported with IN_USE (R20, R29, R31). -/
def inUseImage (d : DescIx) : PortWords := image [pack [(d.val, 0)]]

/-- The side and offset of a failing ARM (R18). -/
def armImage (side : SideName) (offset : Word) : PortWords := image [pack [(side.number, 0)], offset]

/-- Q0 of INVOKE: the gate's target (R50). -/
def targetWord (target : DescIx) : Word := pack [(target.val, 0), (1, 8)]

/-- INVOKE answered OK or SATURATED: the target, its state and its pending count (R50). -/
def invokeImage (target : DescIx) (x : Desc) : PortWords :=
  image [targetWord target, pack [(stateNumber (some x), 0), (x.pr.pending, 8), (1, 16)]]

/-- PAUSE and RESUME: engine state and pause request (R77, R78). -/
def engineImage (e : Engine) : PortWords := image [pack [(e.state.number, 0), (flag e.pauseReq, 4)]]

/-- TAKE_FAULT: the record held and its overflow mark (R174). -/
def faultImage (r : Report) (overflow : Bool) : PortWords :=
  let side := (r.detail.map fun d => d.1.number).getD 0
  let offset := (r.detail.map fun d => d.2).getD (.at 0)
  image [ pack [(r.code.value, 0), (flag overflow, 8), (flag r.descriptor.isSome, 9), (flag r.gate.isSome, 10),
                (flag r.line.isSome, 11), (flag r.window.isSome, 12), (flag r.detail.isSome, 13),
                (flag r.detail.isSome, 14), (flag offset.isBelow, 15)],
          pack [((r.descriptor.map Fin.val).getD 0, 0), ((r.gate.map Fin.val).getD 0, 8),
                ((r.line.map Fin.val).getD 0, 16), ((r.window.map Fin.val).getD 0, 24)],
          pack [(side, 0)], offset.word ]

end Sys2Proof.Machine
end

