-- ==== Sys2Proof/Machine/State.lean ====
section
/-! DEFINITION. The state of the part, and the part right after the reset pin. -/

namespace Sys2Proof.Machine

/-- No command of the part ends in a fault: every failure the manual names is a record, a report or a result code
(R100, R137, R164; log 20). -/
inductive Fault where
  deriving DecidableEq, Repr

/-- Why a command has no outcome. -/
inductive Refusal where
  /-- Raised by an arm of `exec` for a command without a meaning; safe, since nothing is claimed of it. -/
  | notModelled (mnemonic : String)
  deriving DecidableEq, Repr

/-- The state of the part. The lists after `resetHeld` are the events one block has handed to another and that have
not been taken (R168, log 1), oldest first; `pending` is the queue of commands waiting to be done to the part. -/
structure State where
  ports : Tab PortRec 4
  faultDropped : Bool
  withdrawSeen : Tab Bool 4
  fnu : Tab NoticeRec 4
  intOut : Tab Bool 4
  windows : Tab (Option Window) 16
  gates : Tab (Option Gate) 64
  routes : Tab Route 32
  lineSeen : Tab Bool 32
  descs : Tab (Option Desc) 128
  sweepMarks : Tab Bool 128
  ready : Tab (List DescIx) 8
  engine : Engine
  master : MasterPort
  channels : Tab Channel 8
  strobeLimit : Nat
  endPulses : Tab Nat 8
  sweep : Sweep
  resetHeld : Bool
  handed : List Handed
  lateClears : List LateClear
  verdicts : List Verdict
  lineInvs : List LineInv
  invocations : List Invocation
  chains : List Chain
  endReqs : List ChannelIx
  reports : List (PortIx × Report)
  guardResults : List GuardResult
  freed : Tab Bool 4
  pending : List Instr
  deriving DecidableEq, Repr

/-- The reset record of a port of the given level (R168). -/
def PortRec.reset (level : Level) : PortRec :=
  { state := .opened, level := level, held := none, writeRefused := false, args := Tab.fill 16 0,
    lastResult := .none, results := Tab.fill 16 0, count := 0, lastAdmitted := 0 }

/-- Nothing held, nothing retired, notice off (R171, R176, R178). -/
def NoticeRec.reset : NoticeRec :=
  { record := none, overflow := false, retired := Tab.fill 128 false, notice := false }

/-- The engine after the reset pin (R84). -/
def Engine.reset : Engine :=
  { state := .idle, active := none, spellBegun := false, unitsSince := 0, pauseReq := false, inFlight := none }

/-- The Master Port after the reset pin (R80). -/
def MasterPort.reset : MasterPort :=
  { bus := .notRequesting, holder := none, engineClaim := false, releaseReq := false }

/-- The Lease Sweep after the reset pin (R144). -/
def Sweep.reset : Sweep :=
  { interval := 0, timer := 0, cursor := 0, deferred := 0, late := false, read := none }

/-- The part right after reset: the reset pin released, every block at its reset values (R168), the trigger and
withdraw lines released (DESIGN CHOICE, log 11), and no command waiting. -/
def State.reset : State where
  ports := (Tab.fill 4 (PortRec.reset 3)).put 0 (PortRec.reset 0)
  faultDropped := false
  withdrawSeen := Tab.fill 4 false
  fnu := Tab.fill 4 NoticeRec.reset
  intOut := Tab.fill 4 false
  windows := Tab.fill 16 none
  gates := Tab.fill 64 none
  routes := Tab.fill 32 { gate := none, level := 3 }
  lineSeen := Tab.fill 32 false
  descs := Tab.fill 128 none
  sweepMarks := Tab.fill 128 false
  ready := Tab.fill 8 []
  engine := Engine.reset
  master := MasterPort.reset
  channels := Tab.fill 8 { state := .idle, timer := 0 }
  strobeLimit := Config.resetStrobeLimit
  endPulses := Tab.fill 8 0
  sweep := Sweep.reset
  resetHeld := false
  handed := []
  lateClears := []
  verdicts := []
  lineInvs := []
  invocations := []
  chains := []
  endReqs := []
  reports := []
  guardResults := []
  freed := Tab.fill 4 false
  pending := []

end Sys2Proof.Machine
end

