-- ==== Sys2Proof/Machine/Flags.lean ====
section
/-! DEFINITION. The status the part computes from its records: the interrupt condition, the port status word, the part
status and the words a read of a port window returns. -/

namespace Sys2Proof.Machine

/-- The retired set holds something (R178). -/
def NoticeRec.anyRetired (r : NoticeRec) : Bool := (List.finRange 128).any fun d => r.retired.get d

/-- The lowest index in the retired set (R177). -/
def NoticeRec.lowest? (r : NoticeRec) : Option DescIx := (List.finRange 128).find? fun d => r.retired.get d

/-- The number of indices in the retired set (R177). -/
def NoticeRec.count (r : NoticeRec) : Nat := (List.finRange 128).countP fun d => r.retired.get d

/-- When INTp is asserted: port p OPEN, its notice on, and its record held or its set not empty (R178). -/
def State.intCondition (s : State) (p : PortIx) : Bool :=
  let r := s.fnu.get p
  (s.ports.get p).state == .opened && r.notice && (r.record.isSome || r.anyRetired)

/-- The port status word (section 9.8). -/
def State.portStatus (s : State) (p : PortIx) : Word :=
  let r := s.ports.get p
  let f := s.fnu.get p
  pack [(flag r.held.isSome, 0), (flag r.writeRefused, 1), (flag (r.state == .closing), 2), (r.level.val, 4),
        (flag f.notice, 8), (flag f.record.isSome, 9), (flag f.anyRetired, 10), (flag (s.intOut.get p), 11)]

/-- The command word as read: the code of the held command, or of the last admitted (R156). -/
def PortRec.commandWord (r : PortRec) : Word :=
  match r.held with
  | some h => h.code
  | none => r.lastAdmitted

/-- The word a read of port p's window at a word offset returns; a read changes nothing (R156). -/
def State.readPort (s : State) (p : PortIx) (word : Fin 64) : Word :=
  let r := s.ports.get p
  if h : word.val < 16 then r.args.get ⟨word.val, h⟩
  else if word.val = 16 then r.commandWord
  else if word.val = 17 then BitVec.ofNat 32 r.lastResult.value
  else if word.val = 18 then s.portStatus p
  else if h : 32 ≤ word.val ∧ word.val < 48 then r.results.get ⟨word.val - 32, by omega⟩
  else 0

/-- The word a read at an offset of the part's target space returns: that of the port window the offset lies in
(R156). -/
def State.readTarget (s : State) (offset : TargetOffset) : Word := s.readPort offset.port offset.word

/-- The ready queue's length: the sum of the lengths of the eight lists (R66). -/
def State.queueLength (s : State) : Nat := ((List.finRange 8).map fun k => (s.ready.get k).length).sum

/-- READ_STATUS: the part status (R165, R166). -/
def State.statusImage (s : State) : PortWords :=
  image [ pack [(s.engine.state.number, 0), (flag s.engine.pauseReq, 4), (flag s.sweep.late, 8),
                (flag s.faultDropped, 9)],
          BitVec.ofNat 32 s.queueLength,
          pack ((List.finRange 4).flatMap fun p =>
            [((s.ports.get p).level.val, 8 * p.val), (flag ((s.ports.get p).state == .closing), 8 * p.val + 4)]) ]

end Sys2Proof.Machine
end

