-- ==== Sys2Proof/Machine/Ops.lean ====
section
/-! DEFINITION. The shared operations on the records: descriptor records and the ready queue, notices and fault
reports, retirement and freeing, the unit check and the guard condition, stop requests, progress, trigger acceptance. -/

namespace Sys2Proof.Machine

open Host (Outcome)

/-- An event is taken only while the reset pin is released: while it is asserted the blocks take none (R168). -/
def whileRunning (event : State → State) (s : State) : Outcome State Fault Refusal :=
  .next (if s.resetHeld then s else event s)

/-! ### Records of one table -/

/-- Replaces a port record. -/
def State.putPort (s : State) (p : PortIx) (r : PortRec) : State := { s with ports := s.ports.put p r }

/-- Replaces what the Fault and Notice Unit holds for a port. -/
def State.putNotice (s : State) (p : PortIx) (r : NoticeRec) : State := { s with fnu := s.fnu.put p r }

/-- Replaces a channel record. -/
def State.putChannel (s : State) (c : ChannelIx) (r : Channel) : State := { s with channels := s.channels.put c r }

/-- Writes a descriptor's record. The sweep read mark stays only on a descriptor that stays WAITING (R25). -/
def State.putDesc (s : State) (d : DescIx) (x : Option Desc) : State :=
  { s with
    descs := s.descs.put d x
    sweepMarks := s.sweepMarks.put d (s.sweepMarks.get d && x.any fun x => x.state == .waiting) }

/-- A descriptor enters WAITING. A guard result that still waits for it is of an earlier stay there, and is noted as past
(R25, R123; log 17). -/
def State.enterWaiting (s : State) (d : DescIx) (x : Desc) : State :=
  { s.putDesc d (some { x with state := .waiting }) with
    guardResults := s.guardResults.map fun r => if r.desc = d then { r with past := true } else r }

/-- Writes the static part's progress of a live record. -/
def Desc.withProgress (x : Desc) (state : DescState) (pr : Progress) : Desc := { x with state, pr }

/-! ### The ready queue (R66 to R68) -/

/-- Replaces the list of one priority. -/
def State.putReady (s : State) (k : Priority) (l : List DescIx) : State := { s with ready := s.ready.put k l }

/-- Insertion at the tail of a level (R67). -/
def State.insertTail (s : State) (d : DescIx) (k : Priority) : State := s.putReady k (s.ready.get k ++ [d])

/-- Insertion at the head of a level (R67). -/
def State.insertHead (s : State) (d : DescIx) (k : Priority) : State := s.putReady k (d :: s.ready.get k)

/-- Removal from wherever the descriptor stands in its level (R68). -/
def State.removeReady (s : State) (d : DescIx) (k : Priority) : State :=
  s.putReady k ((s.ready.get k).filter fun e => e != d)

/-- The removal that a transition out of QUEUED hands the Ready Queue; none from another state (R8). -/
def State.leaveQueue (s : State) (d : DescIx) (x : Desc) : State :=
  if x.state = .queued then s.removeReady d x.st.priority else s

/-- The priorities from 7 down to 0. -/
def priorities : List Priority := (List.finRange 8).reverse

/-- The highest level that holds a descriptor (R66). -/
def State.topLevel? (s : State) : Option Priority := priorities.find? fun k => (s.ready.get k) != []

/-- Whether a level strictly above the given priority holds a descriptor: the yield test (R98). -/
def State.readyAbove (s : State) (k : Priority) : Bool := priorities.any fun j => k < j && (s.ready.get j) != []

/-! ### Notices and fault reports (chapter 10) -/

/-- Re-evaluates the interrupt output of a port (R178). -/
def State.evalInt (s : State) (p : PortIx) : State := { s with intOut := s.intOut.put p (s.intCondition p) }

/-- Inserts a descriptor into its owner's retired set, or removes it, with the output re-evaluated (R176). -/
def State.setRetired (s : State) (p : PortIx) (d : DescIx) (present : Bool) : State :=
  let r := s.fnu.get p
  (s.putNotice p { r with retired := r.retired.put d present }).evalInt p

/-- A report kept for a port: held in an empty record, else it only sets the overflow mark (R173). -/
def State.keepReport (s : State) (p : PortIx) (r : Report) : State :=
  let f := s.fnu.get p
  match f.record with
  | none => (s.putNotice p { f with record := some r }).evalInt p
  | some _ => (s.putNotice p { f with overflow := true }).evalInt p

/-- The Fault and Notice Unit takes a report addressed to a port (R173). -/
def State.takeReport (s : State) (p : PortIx) (r : Report) : State :=
  if (s.ports.get p).state = .opened then s.keepReport p r
  else if (s.ports.get 0).state = .opened then s.keepReport 0 r
  else { s with faultDropped := true }

/-- The Fault and Notice Unit takes every report that waits, oldest first. -/
def State.drainReports (s : State) : State :=
  s.reports.foldl (fun s r => s.takeReport r.1 r.2) { s with reports := [] }

/-- The report of a retirement is taken in the event of the retirement (R142, R173); reports are taken in the order
handed, so any handed earlier are taken before it (log 3). -/
def State.reportNow (s : State) (p : PortIx) (r : Report) : State := s.drainReports.takeReport p r

/-- A report handed to the Fault and Notice Unit, to be taken as an event of its own (R137, R63). -/
def State.handReport (s : State) (p : PortIx) (r : Report) : State := { s with reports := s.reports ++ [(p, r)] }

/-! ### Progress -/

/-- Progress initialisation (R13). -/
def Progress.initial (x : StaticPart) : Progress :=
  { src := (x.movement.source?.map fun side => Offset.at side.start).getD (.at 0)
    dst := (x.movement.destination?.map fun side => Offset.at side.start).getD (.at 0)
    blocksRem := x.blockCount, unitsInBlock := 0, unitsMoved := 0, lease := x.initialLease, pending := 0,
    missed := 0, resume := false, stop := .none, retired := none, reloads := 0 }

/-- A count that saturates at 255 (R5). -/
def saturate (n : Nat) : Nat := if n < Config.saturation then n + 1 else n

/-- One step of an offset after a completed unit (R92; R40 and R41 at the ends). -/
def Offset.step (o : Offset) (stepping : Stepping) (size : UnitSize) : Offset :=
  match o with
  | .belowZero => .belowZero
  | .at o =>
    match stepping with
    | .fixed => .at o
    | .up => .at (o + BitVec.ofNat 32 size.bytes)
    | .upWrap => .at (o + BitVec.ofNat 32 size.bytes)
    | .down => if o.toNat < size.bytes then .belowZero else .at (o - BitVec.ofNat 32 size.bytes)

/-- The offset of a side after a completed unit: the step, and at a block end the return of UP_WRAP (R91, R92). -/
def stepSide (side : Option Side) (size : UnitSize) (blockEnd : Bool) (o : Offset) : Offset :=
  match side with
  | none => o
  | some side =>
    if blockEnd && side.stepping == .upWrap then .at side.start else o.step side.stepping size

/-- The progress a completed unit writes (R91). -/
def Progress.afterUnit (pr : Progress) (x : StaticPart) : Progress :=
  let blockEnd := pr.unitsInBlock + 1 == x.blockLen
  { pr with
    unitsMoved := pr.unitsMoved + 1
    unitsInBlock := if blockEnd then 0 else pr.unitsInBlock + 1
    blocksRem := if blockEnd then pr.blocksRem - 1 else pr.blocksRem
    src := stepSide x.movement.source? x.unitSize blockEnd pr.src
    dst := stepSide x.movement.destination? x.unitSize blockEnd pr.dst }

/-- The progress a reload writes: as initialised, with pending and missed kept and the reload counted (R131). -/
def Progress.afterReload (pr : Progress) (x : StaticPart) : Progress :=
  { Progress.initial x with pending := pr.pending, missed := pr.missed, reloads := saturate pr.reloads }

/-! ### Retirement and freeing -/

/-- The record of a descriptor that enters RETIRED (R9). -/
def Desc.retire (x : Desc) (reason : Code) (detail : Option (SideName × Offset)) : Desc :=
  x.withProgress .retired
    { x.pr with pending := 0, resume := false, stop := .none, retired := some { reason, detail } }

/-- A descriptor enters RETIRED: its record, the ready queue and its owner's retired set (R9, R141). -/
def State.retire (s : State) (d : DescIx) (x : Desc) (reason : Code) (detail : Option (SideName × Offset)) : State :=
  let s := (s.leaveQueue d x).putDesc d (some (x.retire reason detail))
  if x.st.notice then s.setRetired x.owner d true else s

/-- A descriptor becomes EMPTY: its record, the ready queue and its owner's retired set (R10). -/
def State.makeEmpty (s : State) (d : DescIx) (x : Desc) : State :=
  ((s.leaveQueue d x).putDesc d none).setRetired x.owner d false

/-- A faulting retirement with the report to its owner (R9, R100, R116, R121, R142). -/
def State.retireFault (s : State) (d : DescIx) (x : Desc) (code : Code) (window : WindowIx) (side : SideName)
    (offset : Offset) : State :=
  (s.retire d x code (some (side, offset))).reportNow x.owner
    { code, descriptor := some d, gate := none, line := none, window := some window, detail := some (side, offset) }

/-- A stop request that is present is taken: CANCELLED and LEASE_EXPIRED retire the descriptor (R127), WITHDRAWN frees
it and tells the Port Interface (R128). -/
def State.settleStop (s : State) (d : DescIx) (x : Desc) : State :=
  match x.pr.stop with
  | .none => s
  | .cancelled => s.retire d x .cancelled none
  | .leaseExpired => s.retire d x .leaseExpired none
  | .withdrawn =>
    let s := s.makeEmpty d x
    { s with freed := s.freed.put x.owner true }

/-! ### Trigger acceptance (R22, R23) -/

/-- A trigger offered to a live descriptor: accepted with OK, or refused as missed with SATURATED. -/
def State.acceptTrigger (s : State) (d : DescIx) (x : Desc) : State × Code :=
  if x.pr.pending < Config.maxPending then
    let pr := { x.pr with pending := x.pr.pending + 1 }
    if x.state = .armed then
      ((s.putDesc d (some (x.withProgress .queued pr))).insertTail d x.st.priority, .ok)
    else (s.putDesc d (some (x.withProgress x.state pr)), .ok)
  else
    (s.putDesc d (some (x.withProgress x.state { x.pr with missed := saturate x.pr.missed })), .saturated)

/-! ### The unit check (R34, R35) -/

/-- Whether an access of s bytes at an offset lies inside a window (test 4 of R34). -/
def Offset.inside (o : Offset) (bytes size : Nat) : Bool :=
  match o with
  | .belowZero => false
  | .at o => o.toNat + bytes ≤ size

/-- The unit check: the failing code, or the system address of the unit. -/
def unitCheck (windows : Tab (Option Window) 16) (w : WindowIx) (level : Level) (write : Bool) (o : Offset)
    (bytes : Nat) : Except Code Word :=
  match windows.get w with
  | none => .error .windowAbsent
  | some win =>
    if win.level < level then .error .windowLevel
    else if write && win.access == .read then .error .windowAccess
    else if !o.inside bytes win.size then .error .windowLimit
    else if o.word.toNat % bytes ≠ 0 then .error .alignment
    else .ok (win.base + o.word)

/-! ### The guard condition (R112, R113) -/

/-- Whether a guard word satisfies a guard. -/
def Guard.holds (g : Guard) (word : Word) : Bool :=
  let v := word &&& g.mask
  let f := g.reference &&& g.mask
  match g.condition with
  | .equal => v == f
  | .notEqual => v != f
  | .above => f.toNat < v.toNat
  | .notAbove => v.toNat ≤ f.toNat
  | .greater => f.toInt < v.toInt
  | .notGreater => v.toInt ≤ f.toInt

/-- The unit check of a guard word: a read of 4 bytes at the guard's offset (R115, R120). -/
def guardCheck (windows : Tab (Option Window) 16) (g : Guard) (level : Level) : Except Code Word :=
  unitCheck windows g.window level false (.at g.offset) 4

end Sys2Proof.Machine
end

