-- ==== Sys2Proof/Machine/EngineOps.lean ====
section
/-! DEFINITION. The shared operations of the Transfer Engine, the Master Port, the Strobe Interface and the Lease Sweep:
letting a descriptor go, sweep visits, the hand-on of the master port, starting and failing units, completion, and the
unit boundary. Each is built only from those before it. -/

namespace Sys2Proof.Machine

/-! ### Letting go and stop requests -/

/-- The engine's record once it has let its descriptor go: PAUSED if a pause was asked for, else IDLE (R76). -/
def Engine.dropped (e : Engine) : Engine := { Engine.reset with state := if e.pauseReq then .paused else .idle }

/-- The engine drops its descriptor and withdraws any claim it has on the master port (R76). -/
def State.dropEngine (s : State) : State :=
  { s with engine := s.engine.dropped, master := { s.master with engineClaim := false } }

/-- The stop request that results when `new` meets the one found (the table of R125). -/
def StopRequest.meet (found new : StopRequest) : StopRequest :=
  match new with
  | .withdrawn => .withdrawn
  | _ => if found = .none then new else found

/-- In WAIT_PORT the engine takes the active descriptor's stop request as soon as it is set (R75). -/
def State.stopInWaitPort (s : State) (d : DescIx) : State :=
  if s.engine.state = .waitPort ∧ s.engine.active = some d then
    match s.descs.get d with
    | none => s
    | some x => if x.pr.stop = .none then s else (s.settleStop d x).dropEngine
  else s

/-- A CANCEL or a lease expiry meets the ACTIVE descriptor: its stop request is recorded (R58, R125, R150). -/
def State.raiseStop (s : State) (d : DescIx) (x : Desc) (new : StopRequest) : State :=
  (s.putDesc d (some { x with pr := { x.pr with stop := x.pr.stop.meet new } })).stopInWaitPort d

/-- The active descriptor with its record. -/
def State.activeDesc? (s : State) : Option (DescIx × Desc) := do
  let d ← s.engine.active
  let x ← s.descs.get d
  return (d, x)

/-! ### Sweep visits (R149 to R152) -/

/-- The lease step of a live descriptor whose initial lease is above 0 (R150). -/
def State.stepLease (s : State) (d : DescIx) (x : Desc) : State :=
  if 1 < x.pr.lease then s.putDesc d (some { x with pr := { x.pr with lease := x.pr.lease - 1 } })
  else
    let x := { x with pr := { x.pr with lease := 0 } }
    if x.state = .active then s.raiseStop d x .leaseExpired else s.retire d x .leaseExpired none

/-- The guard re-read of a WAITING descriptor: the sweep read mark is set, and the read goes onto the bus, or ends at
once with the failing check's code (R25, R120, R152). -/
def State.startReread (s : State) (d : DescIx) (x : Desc) : State :=
  match x.st.guard with
  | none => s
  | some g =>
    let s := { s with sweepMarks := s.sweepMarks.put d true }
    match guardCheck s.windows g x.st.level with
    | .ok address => { s with sweep := { s.sweep with read := some { desc := d, address, guard := g } } }
    | .error code =>
      { s with guardResults := s.guardResults ++ [{ desc := d, guard := g, outcome := .failed code, past := false }] }

/-- The work of a visit on one descriptor, by its state (the table of R149). -/
def State.visit (s : State) (d : DescIx) : State :=
  match s.descs.get d with
  | none => s
  | some x =>
    if x.state = .loaded ∨ x.state = .retired then s
    else
      let s := if x.st.initialLease = 0 then s else s.stepLease d x
      match s.descs.get d with
      | none => s
      | some y => if y.state = .waiting then s.startReread d y else s

/-- A visit is performed: the cursor advances, and the descriptor it stood at is visited (R149). -/
def State.performVisit (s : State) : State :=
  let d := s.sweep.cursor
  State.visit { s with sweep := { s.sweep with cursor := d + 1 } } d

/-- Whether the visit at the cursor needs the master port (R147). -/
def State.visitNeedsPort (s : State) : Bool :=
  match s.descs.get s.sweep.cursor with
  | none => false
  | some x => x.state == .waiting && (x.st.initialLease == 0 || 2 ≤ x.pr.lease)

/-! ### The Master Port (R80 to R83) -/

/-- The master port is in nobody's hands, the grant still held. -/
def State.freeHolder (s : State) : State := { s with master := { s.master with holder := none } }

/-- The grant goes back to the system bus for want of work (step 3 of R82). -/
def State.giveGrantBack (s : State) : State :=
  { s with master := { s.master with bus := .notRequesting, holder := none } }

/-- A release request is served: the grant goes back without R82, and the bus is asked for again if a deferred visit
or the engine waits (R83). -/
def State.serveRelease (s : State) : State :=
  let waits := s.sweep.deferred != 0 || s.master.engineClaim
  { s with master := { s.master with
      bus := if waits then .requesting else .notRequesting, holder := none, releaseReq := false } }

/-- Deferred visits are served one after another while the port is free, until one puts a read on the bus
(step 1 of R82, R151). The count bounds how many are served. -/
def State.serveVisits : Nat → State → State
  | 0, s => s
  | n + 1, s =>
    if s.sweep.deferred = 0 then s
    else
      let s := { s with master := { s.master with holder := some .sweep },
                        sweep := { s.sweep with deferred := s.sweep.deferred - 1 } }
      let s := s.performVisit
      if s.sweep.read.isSome then s else State.serveVisits n s.freeHolder

/-- R82 when the engine has no claim: deferred visits, else the grant goes back. -/
def State.handOnToSweep (s : State) : State :=
  let s := State.serveVisits s.sweep.deferred s.freeHolder
  if s.master.holder = some .sweep then s else s.giveGrantBack

/-- The engine gives back the port it holds and makes no claim (R72, R76). A release request is served there instead
of R82 (R83; log 5). -/
def State.engineGivesBack (s : State) : State :=
  if s.master.holder = some .engine then
    if s.master.releaseReq then s.serveRelease else s.handOnToSweep
  else s

/-- The engine lets the active descriptor go, once its record is settled (R76; log 27). -/
def State.letGo (s : State) : State := s.dropEngine.engineGivesBack

/-! ### Failures (R100, R101, R116) -/

/-- The active descriptor ends for a failure, unless a stop request takes its place (R100, R101, R72). -/
def State.settleFailure (s : State) (d : DescIx) (x : Desc) (code : Code) (window : WindowIx) (side : SideName)
    (offset : Offset) : State :=
  if x.pr.stop = .none then s.retireFault d x code window side offset else s.settleStop d x

/-- A unit of the active descriptor fails (R100, R101). -/
def State.unitFails (s : State) (d : DescIx) (x : Desc) (code : Code) (window : WindowIx) (side : SideName)
    (offset : Offset) : State :=
  (s.settleFailure d x code window side offset).letGo

/-- The end of a guard read: the read is no longer in flight, and the engine gives back the port before any outcome is
taken (R72; log 4). -/
def State.guardReadOver (s : State) : State :=
  State.engineGivesBack { s with engine := { s.engine with inFlight := none } }

/-- The engine's guard read fails (steps 1 and 2 of R72, R116). -/
def State.guardReadFails (s : State) (g : Guard) (code : Code) : State :=
  let s := s.guardReadOver
  match s.activeDesc? with
  | none => s
  | some (d, x) => (s.settleFailure d x code g.window .guard (.at g.offset)).dropEngine

/-! ### Starting accesses and exchanges (R85 to R89, R104, R105, R115) -/

/-- Puts an access or exchange in flight. -/
def State.putInFlight (s : State) (state : EngineState) (f : InFlight) : State :=
  { s with engine := { s.engine with state, inFlight := some f } }

/-- The engine enters GUARD and reads the guard word, or the read ends at once on a failing check (R115). -/
def State.startGuardRead (s : State) (x : Desc) (g : Guard) : State :=
  match guardCheck s.windows g x.st.level with
  | .ok address =>
    s.putInFlight .guard
      { kind := .guardRead, side := .guard, window := g.window, offset := .at g.offset, address, data := none }
  | .error code => State.guardReadFails { s with engine := { s.engine with state := .guard } } g code

/-- The unit check of a side of the active descriptor at its current offset (R86 to R89). -/
def State.sideCheck (s : State) (x : Desc) (side : Side) (write : Bool) (o : Offset) : Except Code Word :=
  unitCheck s.windows side.window x.st.level write o x.st.unitSize.bytes

/-- The source read of a COPY or SEND unit (steps 1 and 2 of R86, R88). -/
def State.startSourceRead (s : State) (d : DescIx) (x : Desc) (src : Side) : State :=
  match s.sideCheck x src false x.pr.src with
  | .ok address =>
    s.putInFlight .move
      { kind := .sourceRead, side := .source, window := src.window, offset := x.pr.src, address, data := none }
  | .error code => s.unitFails d x code src.window .source x.pr.src

/-- The destination write of a unit, with its data (steps 3 and 4 of R86, R87). -/
def State.startDestinationWrite (s : State) (d : DescIx) (x : Desc) (dst : Side) (data : UnitData) : State :=
  match s.sideCheck x dst true x.pr.dst with
  | .ok address =>
    s.putInFlight .move
      { kind := .destinationWrite, side := .destination, window := dst.window, offset := x.pr.dst, address,
        data := some (x.st.unitSize.trim data) }
  | .error code => s.unitFails d x code dst.window .destination x.pr.dst

/-- The offer of a SEND unit whose source has been read, on the descriptor's channel (R88, R104). The unit in flight goes
on naming the source side while the offer is outstanding (DESIGN CHOICE, safe; log 30). -/
def State.startOffer (s : State) (x : Desc) (strobe : Strobe) (f : InFlight) (data : UnitData) : State :=
  let data := x.st.unitSize.trim data
  (s.putChannel strobe.channel
    { state := .offering s.strobeLimit x.st.unitSize data, timer := 0 }).putInFlight .peripheral
    { f with kind := .offer, data := some data }

/-- The ask of a RECEIVE unit, made once its destination has passed its check (R89, R105). The unit in flight names the
destination side while the ask is outstanding (DESIGN CHOICE, safe; log 30). -/
def State.startAsk (s : State) (d : DescIx) (x : Desc) (dst : Side) (strobe : Strobe) : State :=
  match s.sideCheck x dst true x.pr.dst with
  | .ok address =>
    (s.putChannel strobe.channel
      { state := .asking s.strobeLimit x.st.unitSize, timer := 0 }).putInFlight .peripheral
      { kind := .ask, side := .destination, window := dst.window, offset := x.pr.dst, address, data := none }
  | .error code => s.unitFails d x code dst.window .destination x.pr.dst

/-- The first access or exchange of the next unit, by the kind (R86 to R89). -/
def State.startUnit (s : State) (d : DescIx) (x : Desc) : State :=
  match x.st.movement with
  | .copy src _ => s.startSourceRead d x src
  | .send src _ => s.startSourceRead d x src
  | .receive dst strobe => s.startAsk d x dst strobe
  | .fill dst pattern => s.startDestinationWrite d x dst pattern

/-! ### The hand-on of the master port to the engine (R75, R81, R82) -/

/-- The port is handed to the engine in WAIT_PORT: it reads its guard, or starts its next unit (R75, R81). -/
def State.engineTakesPort (s : State) : State :=
  let s := { s with master := { s.master with engineClaim := false, holder := some .engine } }
  match s.activeDesc? with
  | none => s
  | some (d, x) =>
    if s.engine.spellBegun then s.startUnit d x
    else
      match x.st.guard with
      | some g => s.startGuardRead x g
      | none => s

/-- R82: the master port has become free and is handed on. -/
def State.handOn (s : State) : State :=
  let s := State.serveVisits s.sweep.deferred s.freeHolder
  if s.master.holder = some .sweep then s
  else if s.master.engineClaim then s.engineTakesPort
  else s.giveGrantBack

/-- The engine claims the port (R81). At a boundary where it still holds the port it gives it back and claims in one
event, the grant staying with the part (R82), unless a release request takes the grant (R83). -/
def State.claimPort (s : State) : State :=
  let s := { s with engine := { s.engine with state := .waitPort, inFlight := none } }
  if s.master.holder = some .engine then
    let s := { s with master := { s.master with engineClaim := true } }
    if s.master.releaseReq then s.serveRelease else s.handOn
  else if s.master.bus = .granted ∧ s.master.holder = none ∧ s.sweep.deferred = 0 then s.engineTakesPort
  else
    { s with master := { s.master with
        engineClaim := true
        bus := if s.master.bus = .notRequesting then .requesting else s.master.bus } }

/-! ### Completion (R130 to R135) -/

/-- A reload at completion (R131). -/
def State.reloadDesc (s : State) (d : DescIx) (x : Desc) : State :=
  let pr := x.pr.afterReload x.st
  if 0 < x.pr.pending then
    (s.putDesc d (some (x.withProgress .queued pr))).insertTail d x.st.priority
  else s.putDesc d (some (x.withProgress .armed pr))

/-- The completed descriptor's record is settled: freed for a CLOSING owner, reloaded, or retired DONE
(part 2 of R130, R131 to R133). -/
def State.settleCompletion (s : State) (d : DescIx) (x : Desc) : State :=
  if (s.ports.get x.owner).state = .closing then
    let s := s.makeEmpty d x
    { s with freed := s.freed.put x.owner true }
  else if x.st.reload then s.reloadDesc d x
  else s.retire d x .done none

/-- The end request of a completion (part 3 of R130, R134). -/
def State.handEndRequest (s : State) (x : StaticPart) : State :=
  match x.movement.strobe? with
  | none => s
  | some strobe => if strobe.endPulse then { s with endReqs := s.endReqs ++ [strobe.channel] } else s

/-- The chain of a completion (part 4 of R130, R135). -/
def State.handChain (s : State) (d : DescIx) (x : Desc) : State :=
  match x.st.successor with
  | none => s
  | some t =>
    { s with chains := s.chains ++ [{ successor := t, completed := d, level := x.st.level, owner := x.owner }] }

/-- Completion, its parts in order (R130). -/
def State.complete (s : State) (d : DescIx) (x : Desc) : State :=
  (((s.settleCompletion d x).handEndRequest x.st).handChain d x).letGo

/-! ### The unit boundary (R73, R74) -/

/-- Whether the spell's quota is met (R74). -/
def quotaMet (x : Desc) (unitsSince : Nat) : Bool :=
  match x.st.mode with
  | .single => 1 ≤ unitsSince
  | .block => 1 ≤ unitsSince && x.pr.unitsInBlock == 0
  | .run => x.pr.blocksRem == 0

/-- The spell ends with blocks remaining: to the tail if a trigger is pending, else ARMED (step 4 of R73). -/
def State.spellEnds (s : State) (d : DescIx) (x : Desc) : State :=
  if 0 < x.pr.pending then
    (s.putDesc d (some (x.withProgress .queued x.pr))).insertTail d x.st.priority
  else s.putDesc d (some (x.withProgress .armed x.pr))

/-- The descriptor is set aside at the head of its level, with or without its resume mark (R73, R75, R98). -/
def State.setAside (s : State) (d : DescIx) (x : Desc) (resume : Bool) : State :=
  (s.putDesc d (some (x.withProgress .queued { x.pr with resume }))).insertHead d x.st.priority

/-- Step 6 of R73: the next unit starts on the port the engine holds, or the port is claimed again. -/
def State.continueSpell (s : State) (d : DescIx) (x : Desc) (burstEnded : Bool) : State :=
  if s.master.holder = some .engine ∧ burstEnded = false ∧ s.master.releaseReq = false then s.startUnit d x
  else s.claimPort

/-- The unit boundary: the first step of R73 whose condition holds. `blockEnd` says whether a completed unit has just
ended a block; at the boundary before a spell's first unit it is false (R91). -/
def State.boundary (s : State) (d : DescIx) (x : Desc) (blockEnd : Bool) : State :=
  if x.pr.blocksRem = 0 then s.complete d x
  else if x.pr.stop ≠ .none then (s.settleStop d x).letGo
  else if quotaMet x s.engine.unitsSince then (s.spellEnds d x).letGo
  else if s.engine.pauseReq then (s.setAside d x true).letGo
  else if x.st.mode = .run ∧ blockEnd = true ∧ s.readyAbove x.st.priority = true then (s.setAside d x true).letGo
  else s.continueSpell d x (blockEnd || (x.st.mode == .single && 1 ≤ s.engine.unitsSince))

/-- A spell starts, consuming one trigger (R71, R72), and stands at the boundary before its first unit. -/
def State.startSpell (s : State) (d : DescIx) (x : Desc) : State :=
  let x := { x with pr := { x.pr with pending := x.pr.pending - 1 } }
  State.boundary { s.putDesc d (some x) with engine := { s.engine with spellBegun := true } } d x false

/-- A unit of the active descriptor completes: the progress is written and the boundary decided, in one event (R91). -/
def State.unitCompletes (s : State) (d : DescIx) (x : Desc) : State :=
  let blockEnd := x.pr.unitsInBlock + 1 == x.st.blockLen
  let x := { x with pr := x.pr.afterUnit x.st }
  State.boundary
    { s.putDesc d (some x) with
      engine := { s.engine with unitsSince := s.engine.unitsSince + 1, inFlight := none } } d x blockEnd

/-! ### Strobe exchanges -/

/-- Whether the unit in flight is an exchange of the given kind on the given channel. -/
def State.exchangeOn (s : State) (c : ChannelIx) (x : Desc) (kind : AccessKind) : Bool :=
  s.engine.state == .peripheral && (s.engine.inFlight.any fun f => f.kind == kind) &&
    (x.st.movement.strobe?.any fun strobe => strobe.channel == c)

/-- An exchange ends: the channel becomes IDLE with its timer stopped (R104, R105). -/
def State.endExchange (s : State) (c : ChannelIx) : State :=
  s.putChannel c { (s.channels.get c) with state := .idle }

/-- An exchange ends without the unit: the channel becomes IDLE and the unit fails on side PERIPHERAL at the current
offset of the memory side (R100, R104, R105). -/
def State.exchangeFails (s : State) (c : ChannelIx) (code : Code) : State :=
  let s := s.endExchange c
  match s.activeDesc?, s.engine.inFlight with
  | some (d, x), some f =>
    if s.exchangeOn c x .offer || s.exchangeOn c x .ask then s.unitFails d x code f.window .peripheral f.offset
    else s
  | _, _ => s

end Sys2Proof.Machine
end

