-- ==== Sys2Proof/Machine/Ports.lean ====
section
/-! DEFINITION. The Port Interface: port window writes, the command protocol, admission and posting, port levels, part
status, and the withdraw of a port (chapters 9 and 11). -/

namespace Sys2Proof.Machine

open Host (Outcome)

/-! ### Port window writes (R156, R157) -/

/-- A write to an argument word: stored if no command is pending, else only write refused is set (R156). -/
def State.writeArgument (s : State) (p : PortIx) (i : Fin 16) (bytes : BitVec 4) (value : Word) : State :=
  let r := s.ports.get p
  match r.held with
  | none => s.putPort p { r with args := r.args.put i (mergeBytes bytes (r.args.get i) value) }
  | some _ => s.putPort p { r with writeRefused := true }

/-- ARGUMENT_WORD_WRITE (R156). -/
def execArgumentWordWrite (p : PortIx) (i : Fin 16) (bytes : BitVec 4) (value : Word) (s : State) :
    Outcome State Fault Refusal :=
  whileRunning (fun s => s.writeArgument p i bytes value) s

/-- REGISTER_WRITE_IGNORED: the write changes nothing (R156). -/
def execRegisterWriteIgnored (_p : PortIx) (_target : IgnoredWrite) (_value : Word) (s : State) :
    Outcome State Fault Refusal :=
  whileRunning (fun s => s) s

/-- The record after a command write (R157). -/
def PortRec.commandWritten (r : PortRec) (code : Word) : PortRec :=
  match r.held with
  | some _ => { r with writeRefused := true }
  | none =>
    if r.state = .closing then { r with lastResult := .closing, results := noWords, writeRefused := false }
    else
      { r with
        count := r.count + 1, writeRefused := false,
        held := some { code, id := r.count + 1, args := r.args, admitted := false } }

/-- COMMAND_WRITE (R157). -/
def execCommandWrite (p : PortIx) (code : Word) (s : State) : Outcome State Fault Refusal :=
  whileRunning (fun s => s.putPort p ((s.ports.get p).commandWritten code)) s

/-! ### Posting, admission, verdicts (R158, R159, R163) -/

/-- A result is posted (R159). -/
def PortRec.post (r : PortRec) (code : Code) (words : PortWords) : PortRec :=
  { r with lastResult := code, results := words, held := none }

/-- The commands whose admission requires level 0 (R163). -/
def Command.levelZero : Command → Bool
  | .setWindow | .clearWindow | .setRoute | .setSweep | .setStrobeLimit | .pause | .resume | .setPortLevel
  | .clearStatus => true
  | .load | .readDescriptor | .arm | .disarm | .release | .invoke | .setGate | .clearGate | .readGate | .readWindow
  | .readRoute | .readStatus | .takeFault | .takeRetired | .setNotice | .withdraw => false

/-- The admission test of R163 for a command of port p: the refusing code, or none. -/
def admissionTest (c : Command) (p : PortIx) (level : Level) (args : PortWords) : Option Code :=
  if c = .withdraw then
    match index? 4 (args.get 0).toNat with
    | none => some .range
    | some named => if named = p ∨ level = 0 then none else some .level
  else if c.levelZero ∧ level ≠ 0 then some .level
  else none

/-- The command a held code admits as, or the refusal of step 1 or 2 of R158. -/
def PortRec.admits (r : PortRec) (p : PortIx) (h : HeldCommand) : Except Code Command :=
  match Command.ofCode h.code with
  | none => .error .unknown
  | some c =>
    match admissionTest c p r.level h.args with
    | some code => .error code
    | none => .ok c

/-- Step 3 of R158: the command is marked admitted and handed on. CLEAR_STATUS notes and clears FAULT_DROPPED there and
hands the Lease Sweep a clear (R167); every other command is handed to its owner. -/
def State.handCommand (s : State) (p : PortIx) (h : HeldCommand) (c : Command) : State :=
  let r := s.ports.get p
  let s := s.putPort p { r with held := some { h with admitted := true }, lastAdmitted := h.code }
  if c = .clearStatus then
    { s with
      faultDropped := false
      lateClears := s.lateClears ++ [{ port := p, id := h.id, droppedNoted := s.faultDropped }] }
  else { s with handed := s.handed ++ [{ command := c, port := p, id := h.id, level := r.level, args := h.args }] }

/-- The command of port p that waits for admission, if there is one: pending at an OPEN port, not yet admitted. -/
def State.awaitingAdmission? (s : State) (p : PortIx) : Option HeldCommand :=
  let r := s.ports.get p
  if r.state = .opened then r.held.filter fun h => !h.admitted else none

/-- The admission event (R158). -/
def State.admitCommand (s : State) (p : PortIx) (h : HeldCommand) : State :=
  let r := s.ports.get p
  match r.admits p h with
  | .error code => s.putPort p (r.post code noWords)
  | .ok c => s.handCommand p h c

/-- ADMISSION (R158). -/
def execAdmission (p : PortIx) (s : State) : Outcome State Fault Refusal :=
  whileRunning (fun s =>
    match s.awaitingAdmission? p with
    | none => s
    | some h => s.admitCommand p h) s

/-- CLEAR_STATUS: the admission of a pending CLEAR_STATUS (R167; log 15). -/
def execClearStatus (p : PortIx) (s : State) : Outcome State Fault Refusal :=
  whileRunning (fun s =>
    match s.awaitingAdmission? p with
    | none => s
    | some h => if Command.ofCode h.code = some .clearStatus then s.admitCommand p h else s) s

/-- VERDICT_POST: posted if the command it answers is still pending, else discarded (R159). -/
def execVerdictPost (p : PortIx) (id : Word) (s : State) : Outcome State Fault Refusal :=
  whileRunning (fun s =>
    match s.verdicts.find? fun v => v.port == p && v.id == id with
    | none => s
    | some v =>
      let s := { s with verdicts := s.verdicts.erase v }
      let r := s.ports.get p
      if r.held.any fun h => h.id == id then s.putPort p (r.post v.code v.words) else s) s

/-! ### A command at its owner -/

/-- The owning block returns its verdict (R158). -/
def State.answer (s : State) (h : Handed) (code : Code) (words : PortWords) : State :=
  { s with verdicts := s.verdicts ++ [{ port := h.port, id := h.id, code, words }] }

/-- A refusal, with no content in the result words (R159). -/
def State.refuse (s : State) (h : Handed) (code : Code) : State := s.answer h code noWords

/-- Whether this is the handed command the event names. -/
def Handed.isFor (h : Handed) (c : Command) (p : PortIx) (id : Word) : Bool :=
  h.command == c && h.port == p && h.id == id

/-- The owning block takes a handed command as an event of its own (R158); with no such command waiting there is
nothing to take (log 2). -/
def ownerTakes (c : Command) (p : PortIx) (id : Word) (act : Handed → State → State) (s : State) :
    Outcome State Fault Refusal :=
  whileRunning (fun s =>
    match s.handed.find? fun h => h.isFor c p id with
    | none => s
    | some h => act h { s with handed := s.handed.erase h }) s

/-- Whether the command is still the one pending at its port (R181). -/
def State.stillPending (s : State) (h : Handed) : Bool := (s.ports.get h.port).held.any fun c => c.id == h.id

/-! ### Port levels and part status (R162, R166, R167) -/

/-- SET_PORT_LEVEL at the Port Interface (R162). -/
def State.setPortLevel (s : State) (h : Handed) : State :=
  match index? 4 (h.args.get 0).toNat with
  | none => s.refuse h .range
  | some q =>
    if q = 0 then s.refuse h .range
    else
      match index? 4 (h.args.get 1).toNat with
      | none => s.refuse h .malformed
      | some level =>
        let r := s.ports.get q
        if r.state = .closing then s.refuse h .state
        else
          (s.putPort q { r with level }).answer h .ok
            (image [BitVec.ofNat 32 r.level.val, BitVec.ofNat 32 level.val])

/-- SET_PORT_LEVEL (R162). -/
def execSetPortLevel (p : PortIx) (id : Word) (s : State) : Outcome State Fault Refusal :=
  ownerTakes .setPortLevel p id (fun h s => s.setPortLevel h) s

/-- READ_STATUS (R166). -/
def execReadStatus (p : PortIx) (id : Word) (s : State) : Outcome State Fault Refusal :=
  ownerTakes .readStatus p id (fun h s => s.answer h .ok s.statusImage) s

/-- SWEEP_LATE_CLEAR: the Lease Sweep notes and clears SWEEP_LATE and returns the verdict of CLEAR_STATUS (R167). -/
def execSweepLateClear (p : PortIx) (id : Word) (s : State) : Outcome State Fault Refusal :=
  whileRunning (fun s =>
    match s.lateClears.find? fun c => c.port == p && c.id == id with
    | none => s
    | some c =>
      { s with
        lateClears := s.lateClears.erase c
        sweep := { s.sweep with late := false }
        verdicts := s.verdicts ++
          [{ port := p, id, code := .ok, words := image [pack [(flag s.sweep.late, 8), (flag c.droppedNoted, 9)]] }] }) s

/-! ### Withdraw (R180 to R187) -/

/-- One descriptor in the withdraw event of port p (the table of R182). -/
def State.withdrawDesc (p : PortIx) (s : State) (d : DescIx) : State :=
  match s.descs.get d with
  | none => s
  | some x =>
    if x.owner ≠ p then s
    else if x.state = .active then
      if s.engine.state = .waitPort ∧ s.engine.active = some d then (s.makeEmpty d x).dropEngine
      else s.putDesc d (some { x with pr := { x.pr with stop := x.pr.stop.meet .withdrawn } })
    else s.makeEmpty d x

/-- Whether the port owns a descriptor that is not EMPTY (R185). -/
def State.ownsAny (s : State) (p : PortIx) : Bool :=
  (List.finRange 128).any fun d => (s.descs.get d).any fun x => x.owner == p

/-- The port record after its withdraw (the table of R181). -/
def PortRec.withdrawn (r : PortRec) (p : PortIx) (state : PortState) : PortRec :=
  { r with
    state, level := if p = 0 then 0 else 3, held := none, writeRefused := false,
    lastResult := if r.held.isSome then .closing else r.lastResult,
    results := if r.held.isSome then noWords else r.results }

/-- The withdraw event of a port: nothing more for a port already CLOSING (R180), and otherwise R181, R182 and R179 in
one event, with the return to OPEN when nothing is left to free (R185). -/
def State.withdrawPort (s : State) (p : PortIx) : State :=
  if (s.ports.get p).state = .closing then s
  else
    let s := (List.finRange 128).foldl (State.withdrawDesc p) s
    let state := if s.ownsAny p then PortState.closing else .opened
    let s := s.putNotice p NoticeRec.reset
    (s.putPort p ((s.ports.get p).withdrawn p state)).evalInt p

/-- WITHDRAW at the Port Interface. One that names its issuer is answered by the withdraw itself, with CLOSING; one
that names another port is answered OK (R180). One that names a port above 3 does not reach its owner, since admission
refuses it (R158, R163); in a state that holds one it is answered RANGE (logs 16 and 22). -/
def State.withdrawCommand (s : State) (h : Handed) : State :=
  match index? 4 (h.args.get 0).toNat with
  | none => s.refuse h .range
  | some q => if q = h.port then s.withdrawPort q else (s.withdrawPort q).answer h .ok noWords

/-- WITHDRAW (R180). -/
def execWithdraw (p : PortIx) (id : Word) (s : State) : Outcome State Fault Refusal :=
  ownerTakes .withdraw p id (fun h s => s.withdrawCommand h) s

/-- WITHDRAW_LINE_EVENT: an assertion after a release withdraws the port (R180). -/
def execWithdrawLineEvent (p : PortIx) (s : State) : Outcome State Fault Refusal :=
  whileRunning (fun s =>
    if s.withdrawSeen.get p then s
    else State.withdrawPort { s with withdrawSeen := s.withdrawSeen.put p true } p) s

/-- WITHDRAW_LINE_RELEASE (R180). -/
def execWithdrawLineRelease (p : PortIx) (s : State) : Outcome State Fault Refusal :=
  whileRunning (fun s => { s with withdrawSeen := s.withdrawSeen.put p false }) s

/-- PORT_RETURN_OPEN: on the notice that its last descriptor is free, a CLOSING port returns to OPEN (R185). -/
def execPortReturnOpen (p : PortIx) (s : State) : Outcome State Fault Refusal :=
  whileRunning (fun s =>
    if s.freed.get p then
      let s := { s with freed := s.freed.put p false }
      (s.putPort p { (s.ports.get p) with state := .opened }).evalInt p
    else s) s

/-! ### The reset pin (R168) -/

/-- RESET_PIN: every block takes its reset values and every hand-off is discarded; the pin stays asserted. The queue of
commands still to be done to the part is not the part's (R168). -/
def execResetPin (s : State) : Outcome State Fault Refusal :=
  .next { State.reset with resetHeld := true, pending := s.pending }

/-- RESET_RELEASE: the blocks take events again, and the line levels are sampled (R63, R168, R180). -/
def execResetRelease (lines : Tab Bool 32) (withdrawLines : Tab Bool 4) (s : State) : Outcome State Fault Refusal :=
  .next (if s.resetHeld then
    { s with resetHeld := false, lineSeen := lines, withdrawSeen := withdrawLines } else s)

end Sys2Proof.Machine
end

