-- ==== Sys2Proof/Machine/Descriptors.lean ====
section
/-! DEFINITION. The Descriptor Table: the descriptor commands of chapter 1, invocations at their target (chapter 3),
chains (chapter 7) and sweep guard results (chapter 6). -/

namespace Sys2Proof.Machine

open Host (Outcome)

/-- The checks every descriptor command makes first: RANGE, then the ownership test of R11 (R12). -/
def State.descriptorChecks (s : State) (h : Handed) (act : DescIx → Option Desc → State) : State :=
  match index? 128 (argIndex h.args) with
  | none => s.refuse h .range
  | some d =>
    match s.descs.get d with
    | none => act d none
    | some x => if x.owner = h.port ∨ h.port = 0 then act d (some x) else s.refuse h .owner

/-! ### LOAD (R14 to R16) -/

/-- The level test of LOAD: against the issuer's level, and against the owner's current level when P0 rewrites another
port's descriptor (R14). -/
def State.loadLevelOk (s : State) (h : Handed) (x : Option Desc) : Bool :=
  let level := argLoadLevel h.args
  decide (h.level.val ≤ level) &&
    match x with
    | none => true
    | some x => x.owner == h.port || decide ((s.ports.get x.owner).level.val ≤ level)

/-- A LOAD whose checks all pass: owner, static part, initial progress, LOADED, and out of the retired set (R16). -/
def State.loadDesc (s : State) (d : DescIx) (owner : PortIx) (st : StaticPart) : State :=
  (s.putDesc d (some { state := .loaded, owner, st, pr := Progress.initial st })).setRetired owner d false

/-- The tests and the effect of LOAD on a slot, after the checks of R12 (R14 to R16). -/
def State.loadSlot (s : State) (h : Handed) (d : DescIx) (x : Option Desc) : State :=
  if x.any fun x => x.state != .loaded && x.state != .retired then s.refuse h .state
  else if !s.loadLevelOk h x then s.refuse h .level
  else
    match parseStatic h.args with
    | none => s.refuse h .malformed
    | some st => (s.loadDesc d ((x.map Desc.owner).getD h.port) st).answer h .ok noWords

/-- LOAD at the Descriptor Table. A LOAD into an EMPTY slot from a port withdrawn since its admission is refused with
CLOSING before the other checks (R12, R181). -/
def State.load (s : State) (h : Handed) : State :=
  s.descriptorChecks h fun d x =>
    if x.isNone && !s.stillPending h then s.refuse h .closing else s.loadSlot h d x

/-- LOAD (R16). -/
def execLoad (p : PortIx) (id : Word) (s : State) : Outcome State Fault Refusal :=
  ownerTakes .load p id (fun h s => s.load h) s

/-! ### READ_DESCRIPTOR (R17) -/

/-- READ_DESCRIPTOR at the Descriptor Table (R17). -/
def State.readDescriptor (s : State) (h : Handed) : State :=
  s.descriptorChecks h fun d x =>
    let part := field (h.args.get 0) 8 4
    if 1 < part then s.refuse h .malformed
    else
      match x with
      | none => s.answer h .ok (image [descriptorWord none])
      | some x => s.answer h .ok (if part = 0 then staticImage d x else progressImage x)

/-- READ_DESCRIPTOR (R17). -/
def execReadDescriptor (p : PortIx) (id : Word) (s : State) : Outcome State Fault Refusal :=
  ownerTakes .readDescriptor p id (fun h s => s.readDescriptor h) s

/-! ### ARM (R18, R19) -/

/-- The first unit of a present side, checked at its start offset: the code, side and offset of a failure (R18). -/
def State.armSide (s : State) (x : StaticPart) (side : Option Side) (name : SideName) (write : Bool) :
    Option (Code × SideName × Word) :=
  match side with
  | none => none
  | some side =>
    match unitCheck s.windows side.window x.level write (.at side.start) x.unitSize.bytes with
    | .ok _ => none
    | .error code => some (code, name, side.start)

/-- The guard word, checked at its offset (R18). -/
def State.armGuard (s : State) (x : StaticPart) : Option (Code × SideName × Word) :=
  match x.guard with
  | none => none
  | some g =>
    match guardCheck s.windows g x.level with
    | .ok _ => none
    | .error code => some (code, .guard, g.offset)

/-- The first of ARM's unit checks that fails: source, destination, guard word (R18). -/
def State.armFailure (s : State) (x : StaticPart) : Option (Code × SideName × Word) :=
  (s.armSide x x.movement.source? .source false).or <|
    (s.armSide x x.movement.destination? .destination true).or (s.armGuard x)

/-- ARM at the Descriptor Table (R18, R19). -/
def State.arm (s : State) (h : Handed) : State :=
  s.descriptorChecks h fun d x =>
    match x with
    | none => s.refuse h .state
    | some x =>
      if x.state ≠ .loaded ∧ x.state ≠ .retired then s.refuse h .state
      else
        match s.armFailure x.st with
        | some (code, side, offset) => s.answer h code (armImage side offset)
        | none =>
          ((s.putDesc d (some (x.withProgress .armed (Progress.initial x.st)))).setRetired x.owner d false).answer h
            .ok noWords

/-- ARM (R18). -/
def execArm (p : PortIx) (id : Word) (s : State) : Outcome State Fault Refusal :=
  ownerTakes .arm p id (fun h s => s.arm h) s

/-! ### DISARM and RELEASE (R20, R21) -/

/-- DISARM at the Descriptor Table (R20). -/
def State.disarm (s : State) (h : Handed) : State :=
  s.descriptorChecks h fun d x =>
    match x with
    | none => s.refuse h .state
    | some x =>
      match x.state with
      | .armed | .queued | .waiting =>
        ((s.leaveQueue d x).putDesc d
          (some (x.withProgress .loaded { x.pr with pending := 0, resume := false }))).answer h .ok noWords
      | .active => s.answer h .inUse (inUseImage d)
      | .loaded | .retired => s.refuse h .state

/-- DISARM (R20). -/
def execDisarm (p : PortIx) (id : Word) (s : State) : Outcome State Fault Refusal :=
  ownerTakes .disarm p id (fun h s => s.disarm h) s

/-- RELEASE at the Descriptor Table (R21). -/
def State.release (s : State) (h : Handed) : State :=
  s.descriptorChecks h fun d x =>
    match x with
    | none => s.refuse h .state
    | some x =>
      if x.state = .loaded ∨ x.state = .retired then (s.makeEmpty d x).answer h .ok noWords
      else s.refuse h .state

/-- RELEASE (R21). -/
def execRelease (p : PortIx) (id : Word) (s : State) : Outcome State Fault Refusal :=
  ownerTakes .release p id (fun h s => s.release h) s

/-! ### Invocations at their target (R52, R54 to R58) -/

/-- Tests 5 and 6 of the gate check and the state test of step 7: the failing code, or the live target (R52). -/
def State.targetCheck (s : State) (i : Invocation) : Except Code Desc :=
  match s.descs.get i.target with
  | none => .error .targetAbsent
  | some x =>
    if x.st.level < i.author then .error .targetLevel
    else
      match x.state with
      | .loaded => .error .targetNotArmed
      | .retired => .error .targetRetired
      | .armed | .queued | .active | .waiting => .ok x

/-- The RENEW verb on a live descriptor (R55, R56). -/
def Desc.renew (x : Desc) : Desc :=
  { x with pr := { x.pr with
      lease := x.st.initialLease, stop := if x.pr.stop = .leaseExpired then .none else x.pr.stop } }

/-- The verb of the invocation on its live target: the state it leaves and the verdict (R54, R55, R57, R58). -/
def State.applyVerb (s : State) (kind : GateKind) (d : DescIx) (x : Desc) : State × Code :=
  match kind with
  | .trigger => s.acceptTrigger d x
  | .renew => (s.putDesc d (some x.renew), .ok)
  | .cancel =>
    if x.state = .active then
      (s.putDesc d (some { x with pr := { x.pr with stop := x.pr.stop.meet .cancelled } }), .ok)
    else (s.retire d x .cancelled none, .ok)

/-- The verdict goes back to a port; to a line it goes nowhere (R50, R63). -/
def State.verdictTo (s : State) (i : Invocation) (code : Code) (words : PortWords) : State :=
  match i.invoker with
  | .port p id => { s with verdicts := s.verdicts ++ [{ port := p, id, code, words }] }
  | .line _ => s

/-- A refusal at the target: the verdict to a port, a fault report to P0 for a line (R50, R63). -/
def State.targetRefuses (s : State) (i : Invocation) (code : Code) : State :=
  match i.invoker with
  | .port .. => s.verdictTo i code (image [targetWord i.target])
  | .line l =>
    s.handReport 0 { code, descriptor := some i.target, gate := some i.gate, line := some l, window := none,
                     detail := none }

/-- The result words of an invocation whose verb was applied, from the target as the verb left it (R50; log 6). -/
def State.verbImage (s : State) (d : DescIx) : PortWords :=
  match s.descs.get d with
  | none => image [targetWord d]
  | some x => invokeImage d x

/-- The invocation taken at its target (R52); a CANCEL that meets the engine in WAIT_PORT is taken at once (R75). -/
def State.invokeTarget (s : State) (i : Invocation) : State :=
  match s.targetCheck i with
  | .error code => s.targetRefuses i code
  | .ok x =>
    let (s, code) := s.applyVerb i.kind i.target x
    (s.verdictTo i code (s.verbImage i.target)).stopInWaitPort i.target

/-- INVOCATION_AT_TARGET (R52). -/
def execInvocationAtTarget (n : Nat) (s : State) : Outcome State Fault Refusal :=
  whileRunning (fun s =>
    match s.invocations[n]? with
    | none => s
    | some i => State.invokeTarget { s with invocations := s.invocations.eraseIdx n } i) s

/-! ### Chains (R136, R137) -/

/-- The chain check: the failing code, or the live successor. The state tests come before the level test (R136). -/
def State.chainCheck (s : State) (c : Chain) : Except Code Desc :=
  match s.descs.get c.successor with
  | none => .error .chainAbsent
  | some x =>
    match x.state with
    | .loaded => .error .chainNotArmed
    | .retired => .error .chainRetired
    | .armed | .queued | .active | .waiting => if x.st.level < c.level then .error .chainLevel else .ok x

/-- The chain taken at the successor (R136, R137). -/
def State.takeChain (s : State) (c : Chain) : State :=
  match s.chainCheck c with
  | .error code =>
    s.handReport c.owner { code, descriptor := some c.completed, gate := none, line := none, window := none,
                           detail := none }
  | .ok x => (s.acceptTrigger c.successor x).1

/-- CHAIN (R136). -/
def execChain (n : Nat) (s : State) : Outcome State Fault Refusal :=
  whileRunning (fun s =>
    match s.chains[n]? with
    | none => s
    | some c => State.takeChain { s with chains := s.chains.eraseIdx n } c) s

/-! ### Guard results of the sweep (R120, R121, R25) -/

/-- A guard result applied to the descriptor, which has stayed WAITING (R120, R121). -/
def State.applyGuardResult (s : State) (r : GuardResult) (x : Desc) : State :=
  match r.outcome with
  | .isTrue => (s.putDesc r.desc (some { x with state := .queued })).insertTail r.desc x.st.priority
  | .isFalse => s
  | .failed code => s.retireFault r.desc x code r.guard.window .guard (.at r.guard.offset)

/-- The Descriptor Table takes a guard result: applied only if the sweep read mark is set, which is then cleared
(R25, R120). A result of an earlier stay in WAITING is discarded, and leaves the mark to the read that set it (R25, R123;
log 17). -/
def State.takeGuardResult (s : State) (r : GuardResult) : State :=
  if s.sweepMarks.get r.desc = true ∧ r.past = false then
    let s := { s with sweepMarks := s.sweepMarks.put r.desc false }
    match s.descs.get r.desc with
    | none => s
    | some x => s.applyGuardResult r x
  else s

/-- GUARD_RESULT (R120). -/
def execGuardResult (n : Nat) (s : State) : Outcome State Fault Refusal :=
  whileRunning (fun s =>
    match s.guardResults[n]? with
    | none => s
    | some r => State.takeGuardResult { s with guardResults := s.guardResults.eraseIdx n } r) s

end Sys2Proof.Machine
end

