-- ==== Sys2Proof/Machine/Gates.lean ====
section
/-! DEFINITION. The Gate Table and the Trigger Router: gate and route commands, INVOKE and line invocations at the Gate
Table, trigger line events (chapter 3). -/

namespace Sys2Proof.Machine

open Host (Outcome)

/-! ### Gate commands (R46 to R49) -/

/-- The checks of SET_GATE and CLEAR_GATE before their arguments: RANGE, NULL_GATE, LEVEL (R46, R48). -/
def State.gateChecks (s : State) (h : Handed) (act : GateIx → State) : State :=
  match index? 64 (argIndex h.args) with
  | none => s.refuse h .range
  | some g =>
    if g = 0 then s.refuse h .nullGate
    else if (s.gates.get g).any fun gate => gate.author < h.level then s.refuse h .level
    else act g

/-- SET_GATE at the Gate Table (R46, R47). -/
def State.setGate (s : State) (h : Handed) : State :=
  s.gateChecks h fun g =>
    match parseGate h.args h.level with
    | none => s.refuse h .malformed
    | some gate => State.answer { s with gates := s.gates.put g (some gate) } h .ok noWords

/-- SET_GATE (R46). -/
def execSetGate (p : PortIx) (id : Word) (s : State) : Outcome State Fault Refusal :=
  ownerTakes .setGate p id (fun h s => s.setGate h) s

/-- CLEAR_GATE at the Gate Table (R48). -/
def State.clearGate (s : State) (h : Handed) : State :=
  s.gateChecks h fun g => State.answer { s with gates := s.gates.put g none } h .ok noWords

/-- CLEAR_GATE (R48). -/
def execClearGate (p : PortIx) (id : Word) (s : State) : Outcome State Fault Refusal :=
  ownerTakes .clearGate p id (fun h s => s.clearGate h) s

/-- READ_GATE at the Gate Table (R49). -/
def State.readGate (s : State) (h : Handed) : State :=
  match index? 64 (argIndex h.args) with
  | none => s.refuse h .range
  | some g => s.answer h .ok (gateImage (s.gates.get g))

/-- READ_GATE (R49). -/
def execReadGate (p : PortIx) (id : Word) (s : State) : Outcome State Fault Refusal :=
  ownerTakes .readGate p id (fun h s => s.readGate h) s

/-! ### Tests 1 to 4 of the gate check (R51) -/

/-- Tests 1 to 4 of the gate check on a gate number and an invoker's level: the failing code, or the gate (R51). -/
def State.gateTests (s : State) (n : Nat) (level : Level) : Except Code (GateIx × Gate) :=
  if n = 0 then .error .nullGate
  else
    match index? 64 n with
    | none => .error .gateRange
    | some g =>
      match s.gates.get g with
      | none => .error .gateAbsent
      | some gate => if gate.reach < level then .error .gateLevel else .ok (g, gate)

/-- The target of the gate a number names, where the gate is present. -/
def State.gateTarget? (s : State) (n : Nat) : Option DescIx := do
  let g ← index? 64 n
  let gate ← s.gates.get g
  return gate.target

/-- The invocation handed to the target, with copies of the gate's fields (R51). -/
def State.handInvocation (s : State) (invoker : Invoker) (g : GateIx) (gate : Gate) : State :=
  { s with invocations := s.invocations ++
      [{ invoker, gate := g, kind := gate.kind, target := gate.target, author := gate.author }] }

/-- INVOKE at the Gate Table (R50, R51). -/
def State.invoke (s : State) (h : Handed) : State :=
  let n := argIndex h.args
  match s.gateTests n h.level with
  | .ok (g, gate) => s.handInvocation (.port h.port h.id) g gate
  | .error code =>
    match s.gateTarget? n with
    | some target => s.answer h code (image [targetWord target])
    | none => s.refuse h code

/-- INVOKE (R51). -/
def execInvoke (p : PortIx) (id : Word) (s : State) : Outcome State Fault Refusal :=
  ownerTakes .invoke p id (fun h s => s.invoke h) s

/-- A line's invocation at the Gate Table: a failure is reported to P0 (R51, R63). -/
def State.takeLineInvocation (s : State) (i : LineInv) : State :=
  match s.gateTests i.gate.val i.level with
  | .ok (g, gate) => s.handInvocation (.line i.line) g gate
  | .error code =>
    s.handReport 0 { code, descriptor := s.gateTarget? i.gate.val, gate := some i.gate, line := some i.line,
                     window := none, detail := none }

/-- LINE_INVOCATION (R51). -/
def execLineInvocation (n : Nat) (s : State) : Outcome State Fault Refusal :=
  whileRunning (fun s =>
    match s.lineInvs[n]? with
    | none => s
    | some i => State.takeLineInvocation { s with lineInvs := s.lineInvs.eraseIdx n } i) s

/-! ### Routes and trigger lines (R60 to R64) -/

/-- SET_ROUTE at the Trigger Router (R61). -/
def State.setRoute (s : State) (h : Handed) : State :=
  match index? 32 (argIndex h.args) with
  | none => s.refuse h .range
  | some l =>
    match parseRoute h.args with
    | none => s.refuse h .malformed
    | some route => State.answer { s with routes := s.routes.put l route } h .ok noWords

/-- SET_ROUTE (R61). -/
def execSetRoute (p : PortIx) (id : Word) (s : State) : Outcome State Fault Refusal :=
  ownerTakes .setRoute p id (fun h s => s.setRoute h) s

/-- READ_ROUTE at the Trigger Router (R62). -/
def State.readRoute (s : State) (h : Handed) : State :=
  match index? 32 (argIndex h.args) with
  | none => s.refuse h .range
  | some l => s.answer h .ok (routeImage l (s.routes.get l))

/-- READ_ROUTE (R62). -/
def execReadRoute (p : PortIx) (id : Word) (s : State) : Outcome State Fault Refusal :=
  ownerTakes .readRoute p id (fun h s => s.readRoute h) s

/-- The Trigger Router takes an assertion of a line: nothing for an unrouted line, else an invocation by the line at
the line level (R63). -/
def State.lineEvent (s : State) (l : LineIx) : State :=
  let s := { s with lineSeen := s.lineSeen.put l true }
  let route := s.routes.get l
  match route.gate with
  | none => s
  | some gate => { s with lineInvs := s.lineInvs ++ [{ line := l, gate, level := route.level }] }

/-- TRIGGER_LINE_EVENT: an assertion after a release (R63; log 28). -/
def execTriggerLineEvent (l : LineIx) (s : State) : Outcome State Fault Refusal :=
  whileRunning (fun s => if s.lineSeen.get l then s else s.lineEvent l) s

/-- TRIGGER_LINE_RELEASE (R63). -/
def execTriggerLineRelease (l : LineIx) (s : State) : Outcome State Fault Refusal :=
  whileRunning (fun s => { s with lineSeen := s.lineSeen.put l false }) s

end Sys2Proof.Machine
end

