-- ==== Sys2Proof/Machine/Notices.lean ====
section
/-! DEFINITION. The Fault and Notice Unit's commands and the taking of a fault report (chapter 10). -/

namespace Sys2Proof.Machine

open Host (Outcome)

/-- TAKE_FAULT at the Fault and Notice Unit (R174). -/
def State.takeFault (s : State) (h : Handed) : State :=
  let f := s.fnu.get h.port
  match f.record with
  | none => s.answer h .none noWords
  | some r =>
    ((s.putNotice h.port { f with record := none, overflow := false }).evalInt h.port).answer h .ok
      (faultImage r f.overflow)

/-- TAKE_FAULT (R174). -/
def execTakeFault (p : PortIx) (id : Word) (s : State) : Outcome State Fault Refusal :=
  ownerTakes .takeFault p id (fun h s => s.takeFault h) s

/-- TAKE_RETIRED at the Fault and Notice Unit (R177). -/
def State.takeRetired (s : State) (h : Handed) : State :=
  match (s.fnu.get h.port).lowest? with
  | none => s.answer h .none noWords
  | some d =>
    let s := s.setRetired h.port d false
    s.answer h .ok (image [BitVec.ofNat 32 d.val, BitVec.ofNat 32 (s.fnu.get h.port).count])

/-- TAKE_RETIRED (R177). -/
def execTakeRetired (p : PortIx) (id : Word) (s : State) : Outcome State Fault Refusal :=
  ownerTakes .takeRetired p id (fun h s => s.takeRetired h) s

/-- SET_NOTICE at the Fault and Notice Unit; refused with CLOSING for a port withdrawn since its admission
(R178, R181). -/
def State.setNotice (s : State) (h : Handed) : State :=
  if !s.stillPending h then s.refuse h .closing
  else
    let f := s.fnu.get h.port
    ((s.putNotice h.port { f with notice := bit (h.args.get 0) 0 }).evalInt h.port).answer h .ok
      (image [pack [(flag f.notice, 0)]])

/-- SET_NOTICE (R178). -/
def execSetNotice (p : PortIx) (id : Word) (s : State) : Outcome State Fault Refusal :=
  ownerTakes .setNotice p id (fun h s => s.setNotice h) s

/-- FAULT_REPORT: the oldest report handed on is taken (R173). -/
def execFaultReport (s : State) : Outcome State Fault Refusal :=
  whileRunning (fun s =>
    match s.reports with
    | [] => s
    | (p, r) :: rest => State.takeReport { s with reports := rest } p r) s

end Sys2Proof.Machine
end

