-- ==== Sys2Proof/Machine/Transfers.lean ====
section
/-! DEFINITION. The Transfer Engine, the Master Port and the Strobe Interface as events reach them: PAUSE and RESUME,
selection, the bus, guard reads, units and strobe exchanges (chapters 4 to 7). -/

namespace Sys2Proof.Machine

open Host (Outcome)

/-! ### PAUSE and RESUME (R75, R77, R78) -/

/-- A pause taken in WAIT_PORT: the active descriptor returns to the head of its level, with its resume mark if its
spell has begun, and the engine is PAUSED (R75). -/
def State.pauseInWaitPort (s : State) : State :=
  let aside := match s.activeDesc? with
    | none => s
    | some (d, x) => s.setAside d x s.engine.spellBegun
  State.dropEngine { aside with engine := { aside.engine with pauseReq := true } }

/-- What PAUSE does by the engine's state; none where it is refused (R77). -/
def State.pauseEngine (s : State) : Option State :=
  match s.engine.state with
  | .idle => some { s with engine := { s.engine with state := .paused } }
  | .waitPort => some s.pauseInWaitPort
  | .guard | .move | .peripheral => some { s with engine := { s.engine with pauseReq := true } }
  | .paused => none

/-- PAUSE at the Transfer Engine (R77). -/
def State.pause (s : State) (h : Handed) : State :=
  match s.pauseEngine with
  | none => s.refuse h .state
  | some t => t.answer h .ok (engineImage t.engine)

/-- PAUSE (R77). -/
def execPause (p : PortIx) (id : Word) (s : State) : Outcome State Fault Refusal :=
  ownerTakes .pause p id (fun h s => s.pause h) s

/-- What RESUME does by the engine's state; none where it is refused (R78). -/
def State.resumeEngine (s : State) : Option State :=
  match s.engine.state with
  | .paused => some { s with engine := { s.engine with state := .idle } }
  | .guard | .move | .peripheral =>
    if s.engine.pauseReq then some { s with engine := { s.engine with pauseReq := false } } else none
  | .idle | .waitPort => none

/-- RESUME at the Transfer Engine (R78). The words report the engine state and the pause request as RESUME leaves them,
before any selection (DESIGN CHOICE, unsafe; log 31). -/
def State.resume (s : State) (h : Handed) : State :=
  match s.resumeEngine with
  | none => s.refuse h .state
  | some t => t.answer h .ok (engineImage t.engine)

/-- RESUME (R78). -/
def execResume (p : PortIx) (id : Word) (s : State) : Outcome State Fault Refusal :=
  ownerTakes .resume p id (fun h s => s.resume h) s

/-! ### Selection (R69, R71) -/

/-- The engine takes the descriptor handed to it (R71). -/
def State.takeSelection (s : State) (d : DescIx) (x : Desc) : State :=
  let s := { s with engine := { s.engine with active := some d, unitsSince := 0 } }
  let x := { x with state := .active }
  if x.pr.resume then
    let x := { x with pr := { x.pr with resume := false } }
    State.boundary { s.putDesc d (some x) with engine := { s.engine with spellBegun := true } } d x false
  else
    match x.st.guard with
    | some _ => State.claimPort { s.putDesc d (some x) with engine := { s.engine with spellBegun := false } }
    | none => s.startSpell d x

/-- Selection: the head of the highest non-empty level leaves the queue and becomes ACTIVE (R69). -/
def State.select (s : State) : State :=
  match s.topLevel? with
  | none => s
  | some k =>
    match s.ready.get k with
    | [] => s
    | d :: rest =>
      let s := s.putReady k rest
      match s.descs.get d with
      | none => s
      | some x => s.takeSelection d x

/-- SELECTION: made whenever the engine is IDLE and the queue is not empty (R69). -/
def execSelection (s : State) : Outcome State Fault Refusal :=
  whileRunning (fun s => if s.engine.state = .idle then s.select else s) s

/-! ### The system bus (R82, R83) -/

/-- BUS_GRANT: a grant that was asked for (R82). -/
def execBusGrant (s : State) : Outcome State Fault Refusal :=
  whileRunning (fun s =>
    if s.master.bus = .requesting then
      State.handOn { s with master := { s.master with bus := .granted } }
    else s) s

/-- RELEASE_REQUEST: recorded while the port has a holder, ignored where there is no grant (R83). -/
def execReleaseRequest (s : State) : Outcome State Fault Refusal :=
  whileRunning (fun s =>
    if s.master.bus = .granted ∧ s.master.holder.isSome then
      { s with master := { s.master with releaseReq := true } }
    else s) s

/-! ### The engine's guard read (R72, R115 to R117) -/

/-- A false guard: WAITING with pending kept, and the engine lets the descriptor go (step 3 of R72, R117). -/
def State.guardFalse (s : State) (d : DescIx) (x : Desc) : State :=
  (s.enterWaiting d x).dropEngine

/-- The end of the engine's guard read with a word: the port is given back, then the steps of R72 in order. -/
def State.guardReadWord (s : State) (g : Guard) (word : Word) : State :=
  let s := s.guardReadOver
  match s.activeDesc? with
  | none => s
  | some (d, x) =>
    if x.pr.stop ≠ .none then (s.settleStop d x).dropEngine
    else if g.holds word then s.startSpell d x
    else s.guardFalse d x

/-- The guard being read by the engine, where it is in GUARD. -/
def State.guardInFlight? (s : State) : Option Guard :=
  if s.engine.state = .guard then
    match s.activeDesc? with
    | none => none
    | some (_, x) => x.st.guard
  else none

/-- GUARD_READ_END (R72). -/
def execGuardReadEnd (result : ReadEnd) (s : State) : Outcome State Fault Refusal :=
  whileRunning (fun s =>
    match s.guardInFlight? with
    | none => s
    | some g =>
      match result with
      | .word w => s.guardReadWord g w
      | .busError => s.guardReadFails g .busError) s

/-! ### Memory accesses of a unit (R86 to R91) -/

/-- The access of the given kind on the bus for the active descriptor, where the engine is in MOVE. -/
def State.accessInFlight? (s : State) : Option (DescIx × Desc × InFlight) :=
  if s.engine.state = .move then
    match s.activeDesc?, s.engine.inFlight with
    | some (d, x), some f => some (d, x, f)
    | _, _ => none
  else none

/-- The source read of a unit has completed: a COPY goes on to its destination, a SEND to its offer (R86, R88). -/
def State.sourceReadDone (s : State) (d : DescIx) (x : Desc) (f : InFlight) (data : UnitData) : State :=
  match x.st.movement with
  | .copy _ dst => s.startDestinationWrite d x dst data
  | .send _ strobe => s.startOffer x strobe f data
  | .receive .. => s
  | .fill .. => s

/-- UNIT_READ_END (R86). -/
def execUnitReadEnd (data : UnitData) (s : State) : Outcome State Fault Refusal :=
  whileRunning (fun s =>
    match s.accessInFlight? with
    | none => s
    | some (d, x, f) => if f.kind = .sourceRead then s.sourceReadDone d x f data else s) s

/-- UNIT_COMPLETION: the destination write has completed (R91). -/
def execUnitCompletion (s : State) : Outcome State Fault Refusal :=
  whileRunning (fun s =>
    match s.accessInFlight? with
    | none => s
    | some (d, x, f) => if f.kind = .destinationWrite then s.unitCompletes d x else s) s

/-- ACCESS_BUS_ERROR: the access fails on the side it concerns (R90, R100). -/
def execAccessBusError (s : State) : Outcome State Fault Refusal :=
  whileRunning (fun s =>
    match s.accessInFlight? with
    | none => s
    | some (d, x, f) => s.unitFails d x .busError f.window f.side f.offset) s

/-! ### Strobe exchanges (R104 to R108) -/

/-- The peripheral accepts an offer: the channel is IDLE and the SEND unit completes (R104). -/
def State.accepted (s : State) (c : ChannelIx) : State :=
  let s := s.endExchange c
  match s.activeDesc? with
  | none => s
  | some (d, x) => if s.exchangeOn c x .offer then s.unitCompletes d x else s

/-- ACCEPT: ignored unless the channel is OFFERING (R104, R107). -/
def execAccept (c : ChannelIx) (s : State) : Outcome State Fault Refusal :=
  whileRunning (fun s =>
    match (s.channels.get c).state with
    | .offering .. => s.accepted c
    | .asking .. => s
    | .idle => s) s

/-- The peripheral supplies the bytes asked for: the channel is IDLE and the unit goes on to its write, at the address
its destination check handed back (R89, R105). -/
def State.supplied (s : State) (c : ChannelIx) (data : UnitData) : State :=
  let s := s.endExchange c
  match s.activeDesc?, s.engine.inFlight with
  | some (_, x), some f =>
    if s.exchangeOn c x .ask then
      s.putInFlight .move { f with kind := .destinationWrite, data := some (x.st.unitSize.trim data) }
    else s
  | _, _ => s

/-- SUPPLY: ignored unless the channel is ASKING (R105, R107). -/
def execSupply (c : ChannelIx) (data : UnitData) (s : State) : Outcome State Fault Refusal :=
  whileRunning (fun s =>
    match (s.channels.get c).state with
    | .asking .. => s.supplied c data
    | .offering .. => s
    | .idle => s) s

/-- REFUSE: ends an exchange of either direction, ignored in IDLE (R104, R105, R107). -/
def execRefuse (c : ChannelIx) (s : State) : Outcome State Fault Refusal :=
  whileRunning (fun s =>
    match (s.channels.get c).state with
    | .idle => s
    | .offering .. => s.exchangeFails c .peripheralError
    | .asking .. => s.exchangeFails c .peripheralError) s

/-- A wait timer expires: nothing in IDLE, where it is stopped (R104, R105, R106). -/
def State.waitExpires (s : State) (c : ChannelIx) : State :=
  match (s.channels.get c).state with
  | .idle => s
  | .offering .. => s.exchangeFails c .peripheralTimeout
  | .asking .. => s.exchangeFails c .peripheralTimeout

/-- WAIT_TIMER_EXPIRY (R104; log 8). -/
def execWaitTimerExpiry (c : ChannelIx) (s : State) : Outcome State Fault Refusal :=
  whileRunning (fun s => s.waitExpires c) s

/-- END_REQUEST: one pulse of the channel's end signal (R108, R134; log 10). -/
def execEndRequest (n : Nat) (s : State) : Outcome State Fault Refusal :=
  whileRunning (fun s =>
    match s.endReqs[n]? with
    | none => s
    | some c =>
      { s with endReqs := s.endReqs.eraseIdx n, endPulses := s.endPulses.put c (s.endPulses.get c + 1) }) s

/-! ### SET_STROBE_LIMIT (R109) -/

/-- SET_STROBE_LIMIT at the Strobe Interface (R109). -/
def State.setStrobeLimit (s : State) (h : Handed) : State :=
  let limit := (h.args.get 0).toNat
  if limit = 0 ∨ Config.maxStrobeLimit < limit then s.refuse h .malformed
  else
    State.answer { s with strobeLimit := limit } h .ok (image [BitVec.ofNat 32 s.strobeLimit, BitVec.ofNat 32 limit])

/-- SET_STROBE_LIMIT (R109). -/
def execSetStrobeLimit (p : PortIx) (id : Word) (s : State) : Outcome State Fault Refusal :=
  ownerTakes .setStrobeLimit p id (fun h s => s.setStrobeLimit h) s

end Sys2Proof.Machine
end

