-- ==== Sys2Proof/Machine/Sweeps.lean ====
section
/-! DEFINITION. The Lease Sweep as events reach it: SET_SWEEP, the timer's expiry, the end of a sweep read
(chapter 8); and the time base. -/

namespace Sys2Proof.Machine

open Host (Outcome)

/-- SET_SWEEP at the Lease Sweep (R145). -/
def State.setSweep (s : State) (h : Handed) : State :=
  let interval := (h.args.get 0).toNat
  if Config.maxInterval < interval then s.refuse h .malformed
  else
    State.answer { s with sweep := { s.sweep with interval, timer := 0, deferred := 0 } } h .ok
      (image [BitVec.ofNat 32 s.sweep.interval, BitVec.ofNat 32 interval, BitVec.ofNat 32 s.sweep.cursor.val,
              BitVec.ofNat 32 s.sweep.deferred])

/-- SET_SWEEP (R145). -/
def execSetSweep (p : PortIx) (id : Word) (s : State) : Outcome State Fault Refusal :=
  ownerTakes .setSweep p id (fun h s => s.setSweep h) s

/-- A visit is deferred: it waits for the port, and the bus is asked for if it is not (R81, R147). -/
def State.deferVisit (s : State) : State :=
  { s with
    sweep := { s.sweep with deferred := s.sweep.deferred + 1 }
    master := { s.master with bus := if s.master.bus = .notRequesting then .requesting else s.master.bus } }

/-- The sweep claim for a visit that needs the port: performed at once if the port is free under a grant, else
deferred (R81). -/
def State.sweepClaim (s : State) : State :=
  if s.master.bus = .granted ∧ s.master.holder = none then s.deferVisit.handOn else s.deferVisit

/-- A visit falls due (R147, R148). -/
def State.visitDue (s : State) : State :=
  if s.sweep.deferred = 0 then
    if s.visitNeedsPort then s.sweepClaim else s.performVisit
  else if s.sweep.deferred < Config.maxDeferred then s.deferVisit
  else { s with sweep := { s.sweep with late := true } }

/-- The interval timer expires: it returns to 0 and a visit falls due; not while the sweep is off (R146). -/
def State.sweepExpires (s : State) : State :=
  if s.sweep.interval = 0 then s else State.visitDue { s with sweep := { s.sweep with timer := 0 } }

/-- SWEEP_TIMER_EXPIRY (R146; log 8). -/
def execSweepTimerExpiry (s : State) : Outcome State Fault Refusal :=
  whileRunning (fun s => s.sweepExpires) s

/-- What a sweep read found: the condition on the word read, or BUS_ERROR (R112, R120). -/
def SweepRead.outcome (r : SweepRead) (result : ReadEnd) : GuardOutcome :=
  match result with
  | .word w => if r.guard.holds w then .isTrue else .isFalse
  | .busError => .failed .busError

/-- The sweep's read has ended: the result is handed on and the port given back (R152); a release request is served
before anything else (R83). -/
def State.sweepReadOver (s : State) (r : SweepRead) (result : ReadEnd) : State :=
  let s : State := { s with
    sweep := { s.sweep with read := none }
    guardResults := s.guardResults ++
      [{ desc := r.desc, guard := r.guard, outcome := r.outcome result, past := false }] }
  if s.master.releaseReq then s.serveRelease else s.handOn

/-- SWEEP_READ_END (R152). -/
def execSweepReadEnd (result : ReadEnd) (s : State) : Outcome State Fault Refusal :=
  whileRunning (fun s =>
    match s.sweep.read with
    | none => s
    | some r => s.sweepReadOver r result) s

/-! ### The time base (00_scope.md, Time; R103, R146; log 7) -/

/-- The limit in force of an exchange, where the channel has one (R103). -/
def ChannelState.limit? : ChannelState → Option Nat
  | .idle => none
  | .offering limit .. => some limit
  | .asking limit _ => some limit

/-- A channel whose wait timer has reached its limit (R104, R105). -/
def State.dueChannel? (s : State) : Option ChannelIx :=
  (List.finRange 8).find? fun c => (s.channels.get c).state.limit?.any fun limit => limit ≤ (s.channels.get c).timer

/-- A running wait timer counts one microsecond. -/
def Channel.count (c : Channel) : Channel := if c.state.limit?.isSome then { c with timer := c.timer + 1 } else c

/-- One event of the time base: a sweep expiry that is due is taken, else a wait timer expiry that is due, else every
running timer counts one microsecond. While the reset pin is asserted the timers stand at 0 (R168). -/
def State.timeBase (s : State) : State :=
  if s.resetHeld then s
  else if s.sweep.interval ≠ 0 ∧ s.sweep.interval ≤ s.sweep.timer then s.sweepExpires
  else
    match s.dueChannel? with
    | some c => s.waitExpires c
    | none =>
      { s with
        sweep := { s.sweep with timer := if s.sweep.interval = 0 then s.sweep.timer else s.sweep.timer + 1 }
        channels := s.channels.map Channel.count }

end Sys2Proof.Machine
end

