-- ==== Sys2Proof/Machine/Windows.lean ====
section
/-! DEFINITION. The Window Table's commands (chapter 2); the unit check is in Ops. -/

namespace Sys2Proof.Machine

open Host (Outcome)

/-- Whether a static part names a window in a present side or guard (R33). -/
def StaticPart.names (x : StaticPart) (w : WindowIx) : Bool :=
  (x.movement.source?.any fun side => side.window == w) || (x.movement.destination?.any fun side => side.window == w) ||
    (x.guard.any fun g => g.window == w)

/-- The ACTIVE descriptor, if it names the window (R33). -/
def State.windowUser? (s : State) (w : WindowIx) : Option DescIx :=
  match s.activeDesc? with
  | none => none
  | some (d, x) => if x.st.names w then some d else none

/-- The checks of SET_WINDOW and CLEAR_WINDOW before their arguments: RANGE, IN_USE (R29, R31). -/
def State.windowChecks (s : State) (h : Handed) (act : WindowIx → State) : State :=
  match index? 16 (argIndex h.args) with
  | none => s.refuse h .range
  | some w =>
    match s.windowUser? w with
    | some d => s.answer h .inUse (inUseImage d)
    | none => act w

/-- SET_WINDOW at the Window Table (R29, R30). -/
def State.setWindow (s : State) (h : Handed) : State :=
  s.windowChecks h fun w =>
    match parseWindow h.args with
    | none => s.refuse h .malformed
    | some win => State.answer { s with windows := s.windows.put w (some win) } h .ok noWords

/-- SET_WINDOW (R29). -/
def execSetWindow (p : PortIx) (id : Word) (s : State) : Outcome State Fault Refusal :=
  ownerTakes .setWindow p id (fun h s => s.setWindow h) s

/-- CLEAR_WINDOW at the Window Table (R31). -/
def State.clearWindow (s : State) (h : Handed) : State :=
  s.windowChecks h fun w => State.answer { s with windows := s.windows.put w none } h .ok noWords

/-- CLEAR_WINDOW (R31). -/
def execClearWindow (p : PortIx) (id : Word) (s : State) : Outcome State Fault Refusal :=
  ownerTakes .clearWindow p id (fun h s => s.clearWindow h) s

/-- READ_WINDOW at the Window Table (R32). -/
def State.readWindow (s : State) (h : Handed) : State :=
  match index? 16 (argIndex h.args) with
  | none => s.refuse h .range
  | some w => s.answer h .ok (windowImage (s.windows.get w))

/-- READ_WINDOW (R32). -/
def execReadWindow (p : PortIx) (id : Word) (s : State) : Outcome State Fault Refusal :=
  ownerTakes .readWindow p id (fun h s => s.readWindow h) s

end Sys2Proof.Machine
end

