-- ==== Sys2Proof/Machine/Dispatch.lean ====
section
/-! DEFINITION. The dispatch: one arm per constructor of Instr, one direct call of its meaning each. -/

namespace Sys2Proof.Machine

open Host (Outcome)

def exec (i : Instr) (s : State) : Host.Outcome State Fault Refusal :=
  match i with
  | .argumentWordWrite p word bytes value => Sys2Proof.Machine.execArgumentWordWrite p word bytes value s
  | .registerWriteIgnored p target value => Sys2Proof.Machine.execRegisterWriteIgnored p target value s
  | .admission p => Sys2Proof.Machine.execAdmission p s
  | .verdictPost p id => Sys2Proof.Machine.execVerdictPost p id s
  | .load p id => Sys2Proof.Machine.execLoad p id s
  | .readDescriptor p id => Sys2Proof.Machine.execReadDescriptor p id s
  | .arm p id => Sys2Proof.Machine.execArm p id s
  | .disarm p id => Sys2Proof.Machine.execDisarm p id s
  | .release p id => Sys2Proof.Machine.execRelease p id s
  | .invoke p id => Sys2Proof.Machine.execInvoke p id s
  | .setGate p id => Sys2Proof.Machine.execSetGate p id s
  | .clearGate p id => Sys2Proof.Machine.execClearGate p id s
  | .readGate p id => Sys2Proof.Machine.execReadGate p id s
  | .setWindow p id => Sys2Proof.Machine.execSetWindow p id s
  | .clearWindow p id => Sys2Proof.Machine.execClearWindow p id s
  | .readWindow p id => Sys2Proof.Machine.execReadWindow p id s
  | .setRoute p id => Sys2Proof.Machine.execSetRoute p id s
  | .readRoute p id => Sys2Proof.Machine.execReadRoute p id s
  | .setSweep p id => Sys2Proof.Machine.execSetSweep p id s
  | .setStrobeLimit p id => Sys2Proof.Machine.execSetStrobeLimit p id s
  | .pause p id => Sys2Proof.Machine.execPause p id s
  | .resume p id => Sys2Proof.Machine.execResume p id s
  | .setPortLevel p id => Sys2Proof.Machine.execSetPortLevel p id s
  | .readStatus p id => Sys2Proof.Machine.execReadStatus p id s
  | .clearStatus p => Sys2Proof.Machine.execClearStatus p s
  | .sweepLateClear p id => Sys2Proof.Machine.execSweepLateClear p id s
  | .takeFault p id => Sys2Proof.Machine.execTakeFault p id s
  | .takeRetired p id => Sys2Proof.Machine.execTakeRetired p id s
  | .setNotice p id => Sys2Proof.Machine.execSetNotice p id s
  | .withdraw p id => Sys2Proof.Machine.execWithdraw p id s
  | .invocationAtTarget n => Sys2Proof.Machine.execInvocationAtTarget n s
  | .triggerLineEvent l => Sys2Proof.Machine.execTriggerLineEvent l s
  | .triggerLineRelease l => Sys2Proof.Machine.execTriggerLineRelease l s
  | .lineInvocation n => Sys2Proof.Machine.execLineInvocation n s
  | .withdrawLineEvent p => Sys2Proof.Machine.execWithdrawLineEvent p s
  | .withdrawLineRelease p => Sys2Proof.Machine.execWithdrawLineRelease p s
  | .portReturnOpen p => Sys2Proof.Machine.execPortReturnOpen p s
  | .resetPin => Sys2Proof.Machine.execResetPin s
  | .resetRelease lines withdrawLines => Sys2Proof.Machine.execResetRelease lines withdrawLines s
  | .selection => Sys2Proof.Machine.execSelection s
  | .busGrant => Sys2Proof.Machine.execBusGrant s
  | .releaseRequest => Sys2Proof.Machine.execReleaseRequest s
  | .guardReadEnd result => Sys2Proof.Machine.execGuardReadEnd result s
  | .unitReadEnd data => Sys2Proof.Machine.execUnitReadEnd data s
  | .unitCompletion => Sys2Proof.Machine.execUnitCompletion s
  | .accessBusError => Sys2Proof.Machine.execAccessBusError s
  | .accept c => Sys2Proof.Machine.execAccept c s
  | .supply c data => Sys2Proof.Machine.execSupply c data s
  | .refuse c => Sys2Proof.Machine.execRefuse c s
  | .waitTimerExpiry c => Sys2Proof.Machine.execWaitTimerExpiry c s
  | .endRequest n => Sys2Proof.Machine.execEndRequest n s
  | .chain n => Sys2Proof.Machine.execChain n s
  | .faultReport => Sys2Proof.Machine.execFaultReport s
  | .sweepTimerExpiry => Sys2Proof.Machine.execSweepTimerExpiry s
  | .sweepReadEnd result => Sys2Proof.Machine.execSweepReadEnd result s
  | .guardResult n => Sys2Proof.Machine.execGuardResult n s
  | .commandWrite p code => Sys2Proof.Machine.execCommandWrite p code s

end Sys2Proof.Machine
end

