-- ==== Sys2Proof/Machine/Step.lean ====
section
/-! DEFINITION. One step of the part: the command at the front of the queue, or one event of the time base. -/

namespace Sys2Proof.Machine

open Host (Outcome)

/-- One step: the command at the front of the queue is done to the part with the queue's rest; on an empty queue the
time base goes on (DESIGN CHOICE, log 7). -/
def step (s : State) : Outcome State Fault Refusal :=
  match s.pending with
  | [] => .next s.timeBase
  | c :: rest => exec c { s with pending := rest }

/-- The command a word spells put at the front of the queue; no row of the table has bits, so none is (log 21). -/
def State.withFetchWord (s : State) (nbits w : Nat) : State :=
  match decodeTableWord nbits w with
  | some c => { s with pending := c :: s.pending }
  | none => s

end Sys2Proof.Machine
end

