-- ==== Sys2Proof/Safety.lean ====
section
/-! DEFINITION. What the manual says of every state the part reaches, as predicates on State in the terms the claims
use. Each quotes the rule it formalises; that steps keep them is stated in the obligations. -/

namespace Sys2Proof.Machine

/-! ### Ports, notices, gates and windows -/

/-- P0 is at level 0 at all times, and a CLOSING port other than P0 is at level 3 (R161, R162, R181). -/
def State.LevelsOk (s : State) : Prop :=
  (s.ports.get 0).level = 0 ∧
    ∀ p : PortIx, p ≠ 0 → (s.ports.get p).state = .closing → (s.ports.get p).level = 3

/-- A command is pending only at an OPEN port: a withdraw drops it and a CLOSING port accepts none (R157, R181). -/
def State.PendingOk (s : State) : Prop :=
  ∀ p : PortIx, (s.ports.get p).held.isSome = true → (s.ports.get p).state = .opened

/-- "Interrupt output INTp is asserted if and only if port p is OPEN, its notice enable is on, and its fault record is
held or its retired set is not empty" (R178). -/
def State.InterruptsOk (s : State) : Prop := ∀ p : PortIx, s.intOut.get p = s.intCondition p

/-- "A port's overflow mark is therefore set only while its record is held" (R171). -/
def State.OverflowOk (s : State) : Prop :=
  ∀ p : PortIx, (s.fnu.get p).overflow = true → (s.fnu.get p).record.isSome = true

/-- G0 is absent at all times (R43), and no route names it (R60). -/
def State.NullGateOk (s : State) : Prop := s.gates.get 0 = none ∧ ∀ l : LineIx, (s.routes.get l).gate ≠ some 0

/-- The bounds of a present window (R27). -/
def Window.Ok (w : Window) : Prop :=
  w.base.toNat % 8 = 0 ∧ 8 ≤ w.size ∧ w.size % 8 = 0 ∧ w.base.toNat + w.size ≤ Config.addressSpan

/-- Every present window lies in the address space (R27). -/
def State.WindowsOk (s : State) : Prop := ∀ i : WindowIx, ∀ w ∈ s.windows.get i, w.Ok

/-- "The deferred visits never exceed 2" (R147). -/
def State.DeferredOk (s : State) : Prop := s.sweep.deferred ≤ Config.maxDeferred

/-! ### Descriptors, the ready queue and the engine -/

/-- The sweep read mark stands only on a WAITING descriptor: it is cleared in every transition out of WAITING (R25). -/
def State.MarksOk (s : State) : Prop :=
  ∀ d : DescIx, s.sweepMarks.get d = true → ∃ x, s.descs.get d = some x ∧ x.state = .waiting

/-- How often a descriptor with this record must stand in the list of a priority: once if it is QUEUED at it, else not
at all. -/
def placesAt (x : Option Desc) (k : Priority) : Nat :=
  match x with
  | none => 0
  | some x => if x.state = .queued ∧ x.st.priority = k then 1 else 0

/-- "A descriptor is in the ready queue if and only if its state is QUEUED, and it appears there at most once", in the
list of the priority held in its static part (R66). -/
def State.QueueOk (s : State) : Prop :=
  ∀ (d : DescIx) (k : Priority), (s.ready.get k).count d = placesAt (s.descs.get d) k

/-- The four working states of the engine (R70). -/
def EngineState.working : EngineState → Bool
  | .idle => false
  | .paused => false
  | .waitPort => true
  | .guard => true
  | .move => true
  | .peripheral => true

/-- "At most one descriptor is ACTIVE. The engine is in WAIT_PORT, GUARD, MOVE or PERIPHERAL exactly when one is, and in
IDLE or PAUSED exactly when none is" (R70): the active descriptor is the one that is ACTIVE. -/
def State.EngineOk (s : State) : Prop :=
  (∀ d : DescIx, s.engine.active = some d ↔ ∃ x, s.descs.get d = some x ∧ x.state = .active) ∧
    (s.engine.state.working = true ↔ s.engine.active.isSome = true)

/-- The structure of the part that every step keeps: marks, ready queue and engine agree with the descriptors'
states. -/
def State.Consistent (s : State) : Prop := s.MarksOk ∧ s.QueueOk ∧ s.EngineOk

/-- The bounds of a static part's counts (R2). -/
def StaticPart.Ok (x : StaticPart) : Prop :=
  1 ≤ x.blockLen ∧ x.blockLen ≤ 256 ∧ 1 ≤ x.blockCount ∧ x.blockCount ≤ 65536 ∧ x.initialLease ≤ 255

/-- "units moved + blocks remaining × B − units in block = N × B. Units in block is less than B" (R110). -/
def Desc.Conserves (x : Desc) : Prop :=
  x.pr.unitsMoved + x.pr.blocksRem * x.st.blockLen = x.st.blockCount * x.st.blockLen + x.pr.unitsInBlock ∧
    x.pr.unitsInBlock < x.st.blockLen

/-- "Blocks remaining is 0 only for a descriptor RETIRED with reason DONE" (R110). -/
def Desc.BlocksOk (x : Desc) : Prop :=
  x.pr.blocksRem = 0 → x.state = .retired ∧ x.pr.retired = some { reason := .done, detail := none }

/-- The counts of the progress part stay in the ranges of R5; pending fits the state (R7). -/
def Desc.CountsOk (x : Desc) : Prop :=
  x.pr.pending ≤ Config.maxPending ∧ x.pr.missed ≤ Config.saturation ∧ x.pr.reloads ≤ Config.saturation ∧
    x.pr.lease ≤ x.st.initialLease ∧
    (x.state = .loaded ∨ x.state = .armed ∨ x.state = .retired → x.pr.pending = 0) ∧
    (x.state = .queued → 1 ≤ x.pr.pending ∨ x.pr.resume = true) ∧
    (x.state = .waiting → 1 ≤ x.pr.pending) ∧
    (x.pr.resume = true → x.state = .queued)

/-- A stop request stands only on the ACTIVE descriptor (R124); a retire reason only in RETIRED (R5, R140). -/
def Desc.MarksFit (x : Desc) : Prop :=
  (x.pr.stop ≠ .none → x.state = .active) ∧ (x.pr.retired.isSome = true ↔ x.state = .retired)

/-- What holds of every descriptor record (R2, R5, R7, R110, R124, R140). -/
def Desc.Ok (x : Desc) : Prop := x.st.Ok ∧ x.Conserves ∧ x.BlocksOk ∧ x.CountsOk ∧ x.MarksFit

/-- Every descriptor record is as it must be. -/
def State.DescsOk (s : State) : Prop := ∀ d : DescIx, ∀ x ∈ s.descs.get d, x.Ok

/-! ### The engine's record and the master port -/

/-- The three states in which the engine is between boundaries (R75). -/
def EngineState.between : EngineState → Bool
  | .idle => false
  | .paused => false
  | .waitPort => false
  | .guard => true
  | .move => true
  | .peripheral => true

/-- Spell begun is "no only between a selection that needs a guard read and the result of that read" (R70), and the
trigger is then still pending (R71). In WAIT_PORT no stop request stands: it is taken as soon as it is set (R75). -/
def State.ActiveOk (s : State) : Prop :=
  ∀ (d : DescIx) (x : Desc), s.engine.active = some d → s.descs.get d = some x →
    (s.engine.state = .waitPort → x.pr.stop = .none) ∧
      (s.engine.spellBegun = false →
        1 ≤ x.pr.pending ∧ x.st.guard.isSome = true ∧ (s.engine.state = .waitPort ∨ s.engine.state = .guard)) ∧
      (s.engine.state = .guard → s.engine.spellBegun = false)

/-- Without an active descriptor the engine's record is at rest (R70, R76); a pause request stands only between
boundaries (R75, R77), and exactly there something is in flight (R70, R85). -/
def State.EngineRecordOk (s : State) : Prop :=
  (s.engine.active = none → s.engine = { Engine.reset with state := s.engine.state }) ∧
    (s.engine.pauseReq = true → s.engine.state.between = true) ∧
    (s.engine.inFlight.isSome = true ↔ s.engine.state.between = true)

/-- The Master Port's record (R80 to R83): a holder is present in GRANTED alone; it is ENGINE exactly between boundaries
and SWEEP exactly while a sweep read is on the bus; the engine claim stands exactly in WAIT_PORT; with no request made
nothing waits for the port; and a release request stands only under a grant. -/
def State.MasterOk (s : State) : Prop :=
  (s.master.holder.isSome = true ↔ s.master.bus = .granted) ∧
    (s.master.holder = some .engine ↔ s.engine.state.between = true) ∧
    (s.master.holder = some .sweep ↔ s.sweep.read.isSome = true) ∧
    (s.master.engineClaim = true ↔ s.engine.state = .waitPort) ∧
    (s.master.bus = .notRequesting → s.master.engineClaim = false ∧ s.sweep.deferred = 0) ∧
    (s.master.releaseReq = true → s.master.bus = .granted)

/-! ### Retired sets and closing ports -/

/-- "the retired set of a port holds only descriptors that are RETIRED, owned by that port, and have notice yes"
(R141). -/
def State.RetiredSetsOk (s : State) : Prop :=
  ∀ (p : PortIx) (d : DescIx), (s.fnu.get p).retired.get d = true →
    ∃ x, s.descs.get d = some x ∧ x.state = .retired ∧ x.owner = p ∧ x.st.notice = true

/-- "a descriptor whose stop request is WITHDRAWN always has a CLOSING owner" (R125), and "A CLOSING port owns no
descriptor other than EMPTY ones and, at most, the one ACTIVE descriptor" (R183), which carries WITHDRAWN. A CLOSING
port either owns it still or has been told that it is free (R184). -/
def State.ClosingOk (s : State) : Prop :=
  (∀ d : DescIx, ∀ x ∈ s.descs.get d, (s.ports.get x.owner).state = .closing ↔ x.pr.stop = .withdrawn) ∧
    ∀ p : PortIx,
      (s.freed.get p = true → (s.ports.get p).state = .closing ∧ s.ownsAny p = false) ∧
        ((s.ports.get p).state = .closing → s.freed.get p = true ∨ s.ownsAny p = true)

/-! ### All of it -/

/-- The rules about ports, gates, windows and the sweep that hold of every state by themselves. -/
def State.TablesOk (s : State) : Prop :=
  s.LevelsOk ∧ s.PendingOk ∧ s.OverflowOk ∧ s.NullGateOk ∧ s.WindowsOk ∧ s.DeferredOk

/-- The descriptor records, the ready queue, the retired sets and the engine's hold agree with one another. -/
def State.RecordsOk (s : State) : Prop := s.RetiredSetsOk ∧ s.Consistent ∧ s.DescsOk ∧ s.ActiveOk

/-- The engine's record and the Master Port's agree with each other and with the sweep. -/
def State.PortFits (s : State) : Prop := s.EngineRecordOk ∧ s.MasterOk

/-- What every state that the part reaches from reset satisfies. -/
def State.Sound (s : State) : Prop :=
  s.TablesOk ∧ s.InterruptsOk ∧ s.RecordsOk ∧ s.PortFits ∧ s.ClosingOk

/-! ### Words the claims use -/

/-- The reset pin is released, and command `id` of port p, naming the given command, waits at its owner as h (R158). -/
def State.Waits (s : State) (c : Command) (p : PortIx) (id : Word) (h : Handed) : Prop :=
  s.resetHeld = false ∧ s.handed.find? (fun h => h.isFor c p id) = some h

/-- A command has been taken by its owner and nothing else has changed (R158). -/
def State.took (s : State) (h : Handed) : State := { s with handed := s.handed.erase h }

/-- A command has been taken by its owner and answered, and nothing else has changed (R158). -/
def State.answered (s : State) (h : Handed) (code : Code) (words : PortWords) : State :=
  { s with
    handed := s.handed.erase h
    verdicts := s.verdicts ++ [{ port := h.port, id := h.id, code, words }] }

/-- The reset pin is released and the engine, in the given state, works on d, whose record is x (R70). -/
def State.Works (s : State) (e : EngineState) (d : DescIx) (x : Desc) : Prop :=
  s.resetHeld = false ∧ s.engine.state = e ∧ s.engine.active = some d ∧ s.descs.get d = some x

/-- The engine holds the master port and no sweep visit waits for it (R80). -/
def State.AloneOnBus (s : State) : Prop := s.master.holder = some .engine ∧ s.sweep.deferred = 0

/-- The engine has let its descriptor go, PAUSED if a pause was asked for and else IDLE, and the grant has gone back
(R76, R82). -/
def State.rested (s : State) : State :=
  { s with
    engine := { Engine.reset with state := if s.engine.pauseReq then .paused else .idle }
    master := MasterPort.reset }

/-- The engine, holding the port, has let its descriptor go and given the port back: a release request takes the grant,
asked for again if visits wait (R83; log 5), and otherwise the port is handed on (R76, R82). -/
def State.parted (s : State) : State :=
  let t := { s with
    engine := { Engine.reset with state := if s.engine.pauseReq then .paused else .idle }
    master := { s.master with engineClaim := false } }
  if s.master.releaseReq then
    { t with master := { MasterPort.reset with bus := if s.sweep.deferred = 0 then .notRequesting else .requesting } }
  else t.handOn

/-- One deferred visit is performed with the port in the sweep's hands (step 1 of R82, R151). -/
def State.visited (s : State) : State :=
  State.performVisit { s with
    master := { s.master with holder := some .sweep }
    sweep := { s.sweep with deferred := s.sweep.deferred - 1 } }

/-- The report of a descriptor's retirement for a failure (R100, R116, R121). -/
def failureReport (d : DescIx) (code : Code) (window : WindowIx) (side : SideName) (offset : Offset) : Report :=
  { code, descriptor := some d, gate := none, line := none, window := some window, detail := some (side, offset) }

/-- The record of a descriptor whose unit or guard read has failed is settled: retired with the failure and its report
taken, or ended by the stop request it carries (R72, R100, R101, R127, R128; log 3). -/
def State.failed (s : State) (d : DescIx) (x : Desc) (code : Code) (window : WindowIx) (side : SideName)
    (offset : Offset) : State :=
  match x.pr.stop with
  | .none => State.reportNow (s.retire d x code (some (side, offset))) x.owner (failureReport d code window side offset)
  | .cancelled => s.retire d x .cancelled none
  | .leaseExpired => s.retire d x .leaseExpired none
  | .withdrawn => { s.makeEmpty d x with freed := s.freed.put x.owner true }

end Sys2Proof.Machine
end

