-- ==== Sys2Proof/Certificates/Slice0/Obligations.lean ====
section
/-! DEFINITION. What is claimed of the part, a statement for each group of commands and kind of state. Each docstring
names the rules it is about. A statement about a command gives the whole next state, so that what is not named in it is
unchanged; its cases are by the state before the command and the command's operands alone. -/

open Sys2Proof Sys2Proof.Machine
open Host (Outcome)

/-! ### Steps and reset -/

/-- A step takes the command at the front of the queue and does it to the part with the queue's rest. -/
def Obligations.StepRunsFrontCommand : Prop :=
  ∀ (c : Instr) (rest : List Instr) (s : State), step { s with pending := c :: rest } = exec c { s with pending := rest }

/-- On an empty queue a step is one event of the time base (R103, R104, R146; the model's choice, log 7). -/
def Obligations.EmptyQueueStepIsTimeBase : Prop :=
  ∀ s : State, s.pending = [] →
    (s.resetHeld = true → step s = .next s) ∧
    (s.resetHeld = false → s.sweep.interval ≠ 0 → s.sweep.interval ≤ s.sweep.timer →
      step s = exec .sweepTimerExpiry s) ∧
    (s.resetHeld = false → (s.sweep.interval = 0 ∨ s.sweep.timer < s.sweep.interval) →
      (∀ c : ChannelIx, (∃ l ∈ (s.channels.get c).state.limit?, l ≤ (s.channels.get c).timer) →
        (∀ e : ChannelIx, e < c → ∀ l ∈ (s.channels.get e).state.limit?, (s.channels.get e).timer < l) →
        step s = exec (.waitTimerExpiry c) s) ∧
      ((∀ c : ChannelIx, ∀ l ∈ (s.channels.get c).state.limit?, (s.channels.get c).timer < l) →
        step s = .next { s with
          sweep := { s.sweep with timer := if s.sweep.interval = 0 then s.sweep.timer else s.sweep.timer + 1 }
          channels := s.channels.map fun c => { c with timer := if c.state = .idle then c.timer else c.timer + 1 } }))

/-- Every command ends in a next state, in every state of the part, and leaves the queue of commands as it is. -/
def Obligations.EveryCommandAnswers : Prop :=
  ∀ (c : Instr) (s : State), ∃ t, exec c s = .next t ∧ t.pending = s.pending

/-- While the reset pin stays asserted no event but its release and its assertion does anything (R168). -/
def Sys2Proof.Claims.ResetPinHoldsOffEvents : Prop :=
  ∀ (c : Instr) (s : State), s.resetHeld = true → c ≠ .resetPin → (∀ l w, c ≠ .resetRelease l w) → exec c s = .next s

/-- The reset pin puts every block at its reset values; its release takes the levels of the lines (R63, R168, R180).
The model's own: the queue of commands stays (log 12), the line marks are clear until the release (log 11), and a
release of a pin that is not asserted does nothing (log 2). -/
def Sys2Proof.Claims.ResetPinAndRelease : Prop :=
  ∀ (s : State) (lines : Tab Bool 32) (withdrawLines : Tab Bool 4),
    exec .resetPin s = .next { State.reset with resetHeld := true, pending := s.pending } ∧
    (s.resetHeld = true → exec (.resetRelease lines withdrawLines) s =
      .next { s with resetHeld := false, lineSeen := lines, withdrawSeen := withdrawLines }) ∧
    (s.resetHeld = false → exec (.resetRelease lines withdrawLines) s = .next s)

/-- The reset pin puts every block at its reset values and holds every other event off until its release (R168; the
model's choices, logs 2, 11 and 12). -/
def Obligations.ResetPinStopsAndResets : Prop :=
  Claims.ResetPinHoldsOffEvents ∧ Claims.ResetPinAndRelease

/-- The values the manual gives for reset (R26, R28, R45, R60, R80, R84, R103, R144, R168, R171, R176, R178). -/
def Obligations.ResetValues : Prop :=
  let s := State.reset
  (∀ p : PortIx, (s.ports.get p).state = .opened ∧ (s.ports.get p).level = (if p = 0 then 0 else 3) ∧
    (s.ports.get p).held = none ∧ (s.ports.get p).writeRefused = false ∧ (s.ports.get p).lastResult = .none ∧
    (s.ports.get p).count = 0 ∧ (s.ports.get p).lastAdmitted = 0 ∧
    ∀ i : Fin 16, (s.ports.get p).args.get i = 0 ∧ (s.ports.get p).results.get i = 0) ∧
  (∀ p : PortIx, (s.fnu.get p).record = none ∧ (s.fnu.get p).overflow = false ∧ (s.fnu.get p).notice = false ∧
    s.intOut.get p = false ∧ s.freed.get p = false ∧ ∀ d : DescIx, (s.fnu.get p).retired.get d = false) ∧
  s.faultDropped = false ∧ (∀ w : WindowIx, s.windows.get w = none) ∧ (∀ g : GateIx, s.gates.get g = none) ∧
  (∀ l : LineIx, s.routes.get l = { gate := none, level := 3 }) ∧
  (∀ d : DescIx, s.descs.get d = none ∧ s.sweepMarks.get d = false) ∧ (∀ k : Priority, s.ready.get k = []) ∧
  s.engine = { state := .idle, active := none, spellBegun := false, unitsSince := 0, pauseReq := false,
               inFlight := none } ∧
  s.master = { bus := .notRequesting, holder := none, engineClaim := false, releaseReq := false } ∧
  (∀ c : ChannelIx, s.channels.get c = { state := .idle, timer := 0 }) ∧ s.strobeLimit = 1000 ∧
  s.sweep = { interval := 0, timer := 0, cursor := 0, deferred := 0, late := false, read := none } ∧
  s.handed = [] ∧ s.lateClears = [] ∧ s.verdicts = [] ∧ s.lineInvs = [] ∧ s.invocations = [] ∧ s.chains = [] ∧
  s.endReqs = [] ∧ s.reports = [] ∧ s.guardResults = []

/-- The part right after reset is as every reached state is: the claims about tables, interrupts, records, the master
port and closing ports hold of it. -/
def Obligations.ResetIsSound : Prop := State.reset.Sound

/-! ### What every step keeps -/

/-- P0 is at level 0 and a CLOSING port at level 3, commands are pending at OPEN ports alone, an overflow mark stands
only beside a held record, G0 is absent and unrouted, windows lie in the address space, and at most two visits are
deferred (R27, R43, R60, R147, R161, R171, R181). -/
def Obligations.StepKeepsTables : Prop := ∀ s t : State, s.TablesOk → step s = .next t → t.TablesOk

/-- "Interrupt output INTp is asserted if and only if port p is OPEN, its notice enable is on, and its fault record is
held or its retired set is not empty" (R178). -/
def Obligations.StepKeepsInterrupts : Prop := ∀ s t : State, s.InterruptsOk → step s = .next t → t.InterruptsOk

/-- The ready queue holds each QUEUED descriptor once and no other, the engine holds the one ACTIVE descriptor, sweep
read marks stand on WAITING descriptors, the retired sets hold only their owners' RETIRED descriptors, and every record
keeps the bounds of R5, R7, R110 and R124 (R25, R66, R70, R141). -/
def Obligations.StepKeepsRecords : Prop := ∀ s t : State, s.RecordsOk → step s = .next t → t.RecordsOk

/-- The engine's record and the Master Port's agree: the holder is present in GRANTED alone, it is ENGINE exactly in
GUARD, MOVE and PERIPHERAL and SWEEP exactly while a sweep read is on the bus, and the engine claim stands exactly in
WAIT_PORT (R70, R75, R80, R81, R97, R152). -/
def Obligations.StepKeepsMasterPort : Prop :=
  ∀ s t : State, s.RecordsOk → s.PortFits → step s = .next t → t.PortFits

/-- A port is CLOSING exactly while it owns a descriptor whose stop request is WITHDRAWN or waits for the notice that
the last one is free (R125, R183 to R185). -/
def Obligations.StepKeepsClosing : Prop :=
  ∀ s t : State, s.RecordsOk → s.PendingOk → s.ClosingOk → step s = .next t → t.ClosingOk

/-! ### Port windows and the command protocol -/

/-- An argument word takes the bytes written while no command is pending; else only write refused is set (R156). -/
def Sys2Proof.Claims.ArgumentWordWrite : Prop :=
  ∀ (s : State) (p : PortIx) (i : Fin 16) (bytes : BitVec 4) (value : Word), s.resetHeld = false →
    let r := s.ports.get p
    (r.held = none → ∃ v : Word,
      (∀ b : Nat, b < 32 → v.getLsbD b = if bytes.getLsbD (b / 8) then value.getLsbD b else (r.args.get i).getLsbD b) ∧
        exec (.argumentWordWrite p i bytes value) s =
          .next { s with ports := s.ports.put p { r with args := r.args.put i v } }) ∧
    (r.held.isSome = true →
      exec (.argumentWordWrite p i bytes value) s = .next { s with ports := s.ports.put p { r with writeRefused := true } })

/-- Writes to the other words of a port window, and narrow writes to the command word, are ignored (R156). -/
def Sys2Proof.Claims.OtherWordWritesIgnored : Prop :=
  ∀ (s : State) (p : PortIx) (target : IgnoredWrite) (value : Word),
    exec (.registerWriteIgnored p target value) s = .next s

/-- The target space is four port windows of 256 bytes at 0x000, 0x100, 0x200 and 0x300, and a write at each byte of a
window is the command of the word it lies in: an argument word write, a command write if it writes the whole command
word, or a write that is ignored (R156, the window's layout in section 9.8; the bytes written are marked by enables,
log 25). -/
def Sys2Proof.Claims.TargetWriteDecoded : Prop :=
  ∀ (p : PortIx) (byte : Nat) (offset : TargetOffset) (bytes : BitVec 4) (value : Word),
    byte < 0x100 → offset.val = 0x100 * p.val + byte →
    let c := Instr.ofTargetWrite offset bytes value
    (∀ i : Fin 16, byte / 4 = i.val → c = .argumentWordWrite p i bytes value) ∧
    (0x40 ≤ byte → byte < 0x44 →
      (bytes = 15 → c = .commandWrite p value) ∧
      (bytes ≠ 15 → c = .registerWriteIgnored p (.narrowCommand bytes) value)) ∧
    (0x44 ≤ byte → byte < 0x48 → c = .registerWriteIgnored p .resultCode value) ∧
    (0x48 ≤ byte → byte < 0x4C → c = .registerWriteIgnored p .portStatus value) ∧
    ((0x4C ≤ byte ∧ byte < 0x80) ∨ 0xC0 ≤ byte →
      c = .registerWriteIgnored p (.unassigned (4 * (byte / 4))) value) ∧
    (∀ i : Fin 16, byte / 4 = 0x20 + i.val → c = .registerWriteIgnored p (.resultWord i) value)

/-- A read at each byte of a port window returns the word it lies in as the record holds it: an argument word, the held
command's code or the last admitted one, the last result, the port status word, a result word, or 0 (R156, R169, R178,
section 9.8). A read is a function of the state and leaves it as it is. -/
def Sys2Proof.Claims.TargetReadReports : Prop :=
  ∀ (s : State) (p : PortIx) (byte : Nat) (offset : TargetOffset),
    byte < 0x100 → offset.val = 0x100 * p.val + byte →
    let r := s.ports.get p
    let f := s.fnu.get p
    let v := s.readTarget offset
    (∀ i : Fin 16, byte / 4 = i.val → v = r.args.get i) ∧
    (0x40 ≤ byte → byte < 0x44 → (∀ h ∈ r.held, v = h.code) ∧ (r.held = none → v = r.lastAdmitted)) ∧
    (0x44 ≤ byte → byte < 0x48 → v = BitVec.ofNat 32 r.lastResult.value) ∧
    (0x48 ≤ byte → byte < 0x4C →
      bit v 0 = r.held.isSome ∧ bit v 1 = r.writeRefused ∧ bit v 2 = (r.state == .closing) ∧ bit v 3 = false ∧
      field v 4 2 = r.level.val ∧ field v 6 2 = 0 ∧ bit v 8 = f.notice ∧ bit v 9 = f.record.isSome ∧
      (bit v 10 = true ↔ ∃ d, f.retired.get d = true) ∧ bit v 11 = s.intOut.get p ∧ field v 12 20 = 0) ∧
    ((0x4C ≤ byte ∧ byte < 0x80) ∨ 0xC0 ≤ byte → v = 0) ∧
    (∀ i : Fin 16, byte / 4 = 0x20 + i.val → v = r.results.get i)

/-- The value of each code, wherever it appears (R164, the code table of section 9.8). -/
def Sys2Proof.Claims.CodesHaveValues : Prop :=
  ∀ e ∈ ([(.ok, 0x00), (.saturated, 0x01), (.none, 0x02), (.busy, 0x03), (.closing, 0x04), (.unknown, 0x05),
      (.level, 0x06), (.owner, 0x07), (.range, 0x08), (.state, 0x09), (.inUse, 0x0A), (.malformed, 0x0B),
      (.nullGate, 0x10), (.gateRange, 0x11), (.gateAbsent, 0x12), (.gateLevel, 0x13), (.targetAbsent, 0x14),
      (.targetLevel, 0x15), (.targetNotArmed, 0x16), (.targetRetired, 0x17), (.windowAbsent, 0x20),
      (.windowLevel, 0x21), (.windowAccess, 0x22), (.windowLimit, 0x23), (.alignment, 0x24), (.busError, 0x25),
      (.peripheralError, 0x26), (.peripheralTimeout, 0x27), (.chainAbsent, 0x30), (.chainNotArmed, 0x31),
      (.chainRetired, 0x32), (.chainLevel, 0x33), (.done, 0x40), (.cancelled, 0x41), (.leaseExpired, 0x42)] :
        List (Code × Nat)), e.1.value = e.2

/-- Accesses at a port window: the decode of the target space, what a read returns, the argument words that take the
bytes written while no command is pending, and the words that ignore writes (R156, R164, R169, R178, section 9.8). -/
def Obligations.PortWindowAccesses : Prop :=
  Claims.TargetWriteDecoded ∧ Claims.TargetReadReports ∧ Claims.CodesHaveValues ∧ Claims.ArgumentWordWrite ∧
    Claims.OtherWordWritesIgnored

/-- A command write is refused with BUSY or CLOSING, or makes a command pending (R157). -/
def Obligations.CommandWriteTaken : Prop :=
  ∀ (s : State) (p : PortIx) (code : Word), s.resetHeld = false →
    let r := s.ports.get p
    (r.held.isSome = true →
      exec (.commandWrite p code) s = .next { s with ports := s.ports.put p { r with writeRefused := true } }) ∧
    (r.held = none → r.state = .closing →
      exec (.commandWrite p code) s = .next { s with
        ports := s.ports.put p { r with lastResult := .closing, results := noWords, writeRefused := false } }) ∧
    (r.held = none → r.state = .opened →
      exec (.commandWrite p code) s = .next { s with
        ports := s.ports.put p { r with
          count := r.count + 1, writeRefused := false
          held := some { code, id := r.count + 1, args := r.args, admitted := false } } })

/-- The command codes of the permission table, and no other word is a code (R163; all 32 bits of the command word are
compared, log 16). -/
def Sys2Proof.Claims.CommandCodes : Prop :=
  let codes : List (Nat × Command) :=
    [(0x01, .load), (0x02, .readDescriptor), (0x03, .arm), (0x04, .disarm), (0x05, .release), (0x08, .invoke),
     (0x10, .setGate), (0x11, .clearGate), (0x12, .readGate), (0x18, .setWindow), (0x19, .clearWindow),
     (0x1A, .readWindow), (0x20, .setRoute), (0x21, .readRoute), (0x28, .setSweep), (0x29, .setStrobeLimit),
     (0x2A, .pause), (0x2B, .resume), (0x30, .setPortLevel), (0x31, .readStatus), (0x32, .clearStatus),
     (0x38, .takeFault), (0x39, .takeRetired), (0x3A, .setNotice), (0x40, .withdraw)]
  (∀ e ∈ codes, Command.ofCode (BitVec.ofNat 32 e.1) = some e.2) ∧
    ∀ code : Word, (∀ e ∈ codes, code.toNat ≠ e.1) → Command.ofCode code = none

/-- Admission refuses with UNKNOWN, RANGE or LEVEL, or hands the command to its owner with the level read (R158, R163;
all 32 bits of A0 of a WITHDRAW are compared, log 16). CLEAR_STATUS is handed to the Lease Sweep, with FAULT_DROPPED
noted and cleared (R167); that the row CLEAR_STATUS is this admission is log 15. -/
def Sys2Proof.Claims.AdmissionTakesCommand : Prop :=
  ∀ (s : State) (p : PortIx) (h : HeldCommand), s.resetHeld = false →
    let r := s.ports.get p
    let refusedWith := fun code : Code =>
      { s with ports := s.ports.put p { r with lastResult := code, results := noWords, held := none } }
    let admitted := s.ports.put p { r with held := some { h with admitted := true }, lastAdmitted := h.code }
    r.state = .opened → r.held = some h → h.admitted = false →
      (Command.ofCode h.code = none → exec (.admission p) s = .next (refusedWith .unknown)) ∧
      (∀ c : Command, Command.ofCode h.code = some c →
        (c ∈ [.setWindow, .clearWindow, .setRoute, .setSweep, .setStrobeLimit, .pause, .resume, .setPortLevel,
            .clearStatus] → r.level ≠ 0 → exec (.admission p) s = .next (refusedWith .level)) ∧
        (c = .withdraw → 3 < (h.args.get 0).toNat → exec (.admission p) s = .next (refusedWith .range)) ∧
        (c = .withdraw → (h.args.get 0).toNat ≤ 3 → (h.args.get 0).toNat ≠ p.val → r.level ≠ 0 →
          exec (.admission p) s = .next (refusedWith .level)) ∧
        (c = .clearStatus → r.level = 0 →
          exec (.admission p) s = .next { s with
            ports := admitted
            faultDropped := false
            lateClears := s.lateClears ++ [{ port := p, id := h.id, droppedNoted := s.faultDropped }] } ∧
          exec (.clearStatus p) s = exec (.admission p) s) ∧
        (c ≠ .clearStatus →
          (c ∈ [.setWindow, .clearWindow, .setRoute, .setSweep, .setStrobeLimit, .pause, .resume, .setPortLevel] →
            r.level = 0) →
          (c = .withdraw → (h.args.get 0).toNat ≤ 3 ∧ ((h.args.get 0).toNat = p.val ∨ r.level = 0)) →
          exec (.admission p) s = .next { s with
            ports := admitted
            handed := s.handed ++ [{ command := c, port := p, id := h.id, level := r.level, args := h.args }] }))

/-- The command codes, and the admission of a held command (R158, R163, R167; logs 15 and 16). -/
def Obligations.AdmissionDecides : Prop :=
  Claims.CommandCodes ∧ Claims.AdmissionTakesCommand

/-- The words of a result image: the ones listed, from Q0 on, and every other word 0; a refusal's words are all 0
(R159). -/
def Sys2Proof.Claims.ResultWordsListed : Prop :=
  (∀ (ws : List Word) (i : Fin 16), (image ws).get i = ws.getD i.val 0) ∧ ∀ i : Fin 16, noWords.get i = 0

/-- A verdict is posted if the command it answers is still pending, and else discarded (R159). -/
def Sys2Proof.Claims.VerdictPostedOrDiscarded : Prop :=
  ∀ (s : State) (p : PortIx) (id : Word) (v : Verdict), s.resetHeld = false →
    s.verdicts.find? (fun v => v.port == p && v.id == id) = some v →
    let r := s.ports.get p
    ((∃ h ∈ r.held, h.id = id) →
      exec (.verdictPost p id) s = .next { s with
        verdicts := s.verdicts.erase v
        ports := s.ports.put p { r with lastResult := v.code, results := v.words, held := none } }) ∧
    ((∀ h ∈ r.held, h.id ≠ id) → exec (.verdictPost p id) s = .next { s with verdicts := s.verdicts.erase v })

/-- The posting of a verdict, and the words it carries (R159). -/
def Obligations.VerdictPosted : Prop :=
  Claims.VerdictPostedOrDiscarded ∧ Claims.ResultWordsListed

/-- SET_PORT_LEVEL refuses with RANGE, MALFORMED or STATE, or writes the level and reports both (R162; the whole words
A0 and A1 are compared, log 16). -/
def Obligations.SetPortLevelWritesLevel : Prop :=
  ∀ (s : State) (p : PortIx) (id : Word) (h : Handed), s.Waits .setPortLevel p id h →
    let q := (h.args.get 0).toNat
    let l := (h.args.get 1).toNat
    ((q = 0 ∨ 3 < q) → exec (.setPortLevel p id) s = .next (s.answered h .range noWords)) ∧
    (1 ≤ q → q ≤ 3 → 3 < l → exec (.setPortLevel p id) s = .next (s.answered h .malformed noWords)) ∧
    (∀ named level : Fin 4, named ≠ 0 → q = named.val → l = level.val →
      ((s.ports.get named).state = .closing → exec (.setPortLevel p id) s = .next (s.answered h .state noWords)) ∧
      ((s.ports.get named).state = .opened → exec (.setPortLevel p id) s = .next
        { s.answered h .ok (image [BitVec.ofNat 32 (s.ports.get named).level.val, BitVec.ofNat 32 level.val]) with
          ports := s.ports.put named { s.ports.get named with level } }))

/-- READ_STATUS reports engine state, pause request, SWEEP_LATE, FAULT_DROPPED, queue length, and every port's level and
state, and changes nothing (R165, R166). -/
def Sys2Proof.Claims.ReadStatusReports : Prop :=
  ∀ (s : State) (p : PortIx) (id : Word) (h : Handed), s.Waits .readStatus p id h →
    ∃ words : PortWords, exec (.readStatus p id) s = .next (s.answered h .ok words) ∧
      field (words.get 0) 0 4 = s.engine.state.number ∧ bit (words.get 0) 4 = s.engine.pauseReq ∧
      bit (words.get 0) 8 = s.sweep.late ∧ bit (words.get 0) 9 = s.faultDropped ∧
      words.get 1 = BitVec.ofNat 32 ((List.finRange 8).map fun k => (s.ready.get k).length).sum ∧
      (∀ q : PortIx, field (words.get 2) (8 * q.val) 4 = (s.ports.get q).level.val ∧
        bit (words.get 2) (8 * q.val + 4) = ((s.ports.get q).state == .closing)) ∧
      ∀ i : Fin 16, 3 ≤ i.val → words.get i = 0

/-- The Lease Sweep notes and clears SWEEP_LATE and answers CLEAR_STATUS with both noted values (R167). -/
def Sys2Proof.Claims.SweepLateCleared : Prop :=
  ∀ (s : State) (p : PortIx) (id : Word) (c : LateClear), s.resetHeld = false →
    s.lateClears.find? (fun c => c.port == p && c.id == id) = some c →
    ∃ words : PortWords, exec (.sweepLateClear p id) s = .next { s with
        lateClears := s.lateClears.erase c
        sweep := { s.sweep with late := false }
        verdicts := s.verdicts ++ [{ port := p, id, code := .ok, words }] } ∧
      bit (words.get 0) 8 = s.sweep.late ∧ bit (words.get 0) 9 = c.droppedNoted ∧
      ∀ i : Fin 16, i ≠ 0 → words.get i = 0

/-- READ_STATUS reports the part status, and the Lease Sweep's half of CLEAR_STATUS clears SWEEP_LATE and answers (R165 to
R167). -/
def Obligations.PartStatusReportedAndCleared : Prop :=
  Claims.ReadStatusReports ∧ Claims.SweepLateCleared

/-! ### Descriptors -/

/-- The static part that the arguments of a LOAD give: the arguments that R15 lists as MALFORMED give none, and all
others give each field from its bits of the layout (R2 to R4, R15, section 9.8). -/
def Sys2Proof.Claims.LoadArgumentsParsed : Prop :=
  ∀ a : PortWords,
    let source := bit (a.get 1) 27
    let destination := bit (a.get 1) 28
    let strobe := bit (a.get 1) 29
    let kind := field (a.get 0) 16 4
    let marksFit :=
      (kind = 0 ∧ source = true ∧ destination = true ∧ strobe = false) ∨
      (kind = 1 ∧ source = true ∧ destination = false ∧ strobe = true) ∨
      (kind = 2 ∧ source = false ∧ destination = true ∧ strobe = true) ∨
      (kind = 3 ∧ source = false ∧ destination = true ∧ strobe = false)
    let accepted := marksFit ∧ field (a.get 0) 20 4 ≤ 2 ∧ field (a.get 0) 8 4 ≤ 3 ∧ field (a.get 0) 12 4 ≤ 7 ∧
      field (a.get 0) 24 8 ∈ [1, 2, 4, 8] ∧ 1 ≤ field (a.get 1) 16 9 ∧ field (a.get 1) 16 9 ≤ 256 ∧
      (source = true → field (a.get 3) 0 8 ≤ 15 ∧ field (a.get 3) 8 4 ≤ 3) ∧
      (destination = true → field (a.get 3) 16 8 ≤ 15 ∧ field (a.get 3) 24 4 ≤ 3) ∧
      (strobe = true → field (a.get 2) 16 4 ≤ 7) ∧
      (bit (a.get 1) 30 = true → field (a.get 8) 0 8 ≤ 15 ∧ field (a.get 8) 8 4 ≤ 5 ∧ (a.get 9).toNat % 4 = 0) ∧
      (bit (a.get 1) 31 = true → field (a.get 2) 8 8 ≤ 127)
    (¬ accepted → parseStatic a = none) ∧
    (accepted → ∃ st : StaticPart, parseStatic a = some st ∧
      st.level.val = field (a.get 0) 8 4 ∧ st.priority.val = field (a.get 0) 12 4 ∧ st.movement.number = kind ∧
      st.mode.number = field (a.get 0) 20 4 ∧ st.unitSize.bytes = field (a.get 0) 24 8 ∧
      st.blockCount = (if field (a.get 1) 0 16 = 0 then 65536 else field (a.get 1) 0 16) ∧
      st.blockLen = field (a.get 1) 16 9 ∧ st.reload = bit (a.get 1) 25 ∧ st.notice = bit (a.get 1) 26 ∧
      st.initialLease = field (a.get 2) 0 8 ∧
      st.movement.source?.isSome = source ∧ st.movement.destination?.isSome = destination ∧
      st.movement.strobe?.isSome = strobe ∧ st.guard.isSome = bit (a.get 1) 30 ∧
      st.successor.isSome = bit (a.get 1) 31 ∧
      (∀ w ∈ st.movement.source?, w.window.val = field (a.get 3) 0 8 ∧ w.stepping.number = field (a.get 3) 8 4 ∧
        w.start = a.get 4) ∧
      (∀ w ∈ st.movement.destination?, w.window.val = field (a.get 3) 16 8 ∧
        w.stepping.number = field (a.get 3) 24 4 ∧ w.start = a.get 5) ∧
      (∀ c ∈ st.movement.strobe?, c.channel.val = field (a.get 2) 16 4 ∧ c.endPulse = bit (a.get 2) 20) ∧
      (∀ v ∈ st.movement.pattern?, v = a.get 7 ++ a.get 6) ∧
      (∀ g ∈ st.guard, g.window.val = field (a.get 8) 0 8 ∧ g.condition.number = field (a.get 8) 8 4 ∧
        g.offset = a.get 9 ∧ g.mask = a.get 10 ∧ g.reference = a.get 11) ∧
      (∀ d ∈ st.successor, d.val = field (a.get 2) 8 8))

/-- Progress initialisation, field by field (the table of R13); an absent side's offset is held at 0 (log 18). -/
def Sys2Proof.Claims.ProgressInitialised : Prop :=
  ∀ st : StaticPart,
    Progress.initial st = {
      src := match st.movement.source? with
        | some w => .at w.start
        | none => .at 0
      dst := match st.movement.destination? with
        | some w => .at w.start
        | none => .at 0
      blocksRem := st.blockCount, unitsInBlock := 0, unitsMoved := 0, lease := st.initialLease, pending := 0
      missed := 0, resume := false, stop := .none, retired := none, reloads := 0 }

/-- LOAD: the checks of R12, R14 and R15 in their order, CLOSING before them for an EMPTY slot of a withdrawn port
(R181), and then the static part, the owner, the initial progress and LOADED (R11, R13, R16). -/
def Sys2Proof.Claims.LoadByChecks : Prop :=
  ∀ (s : State) (p : PortIx) (id : Word) (h : Handed), s.Waits .load p id h →
    (127 < argIndex h.args → exec (.load p id) s = .next (s.answered h .range noWords)) ∧
    (∀ d : DescIx, argIndex h.args = d.val →
      let level := argLoadLevel h.args
      let loaded := fun (owner : PortIx) (st : StaticPart) =>
        State.setRetired ({ s.answered h .ok noWords with
          descs := s.descs.put d (some { state := .loaded, owner, st, pr := Progress.initial st })
          sweepMarks := s.sweepMarks.put d false }) owner d false
      (s.descs.get d = none →
        ((∀ c ∈ (s.ports.get h.port).held, c.id ≠ h.id) →
          exec (.load p id) s = .next (s.answered h .closing noWords)) ∧
        ((∃ c ∈ (s.ports.get h.port).held, c.id = h.id) →
          (level < h.level.val → exec (.load p id) s = .next (s.answered h .level noWords)) ∧
          (h.level.val ≤ level → parseStatic h.args = none →
            exec (.load p id) s = .next (s.answered h .malformed noWords)) ∧
          (∀ st, h.level.val ≤ level → parseStatic h.args = some st →
            exec (.load p id) s = .next (loaded h.port st)))) ∧
      (∀ x, s.descs.get d = some x →
        (x.owner ≠ h.port → h.port ≠ 0 → exec (.load p id) s = .next (s.answered h .owner noWords)) ∧
        (x.owner = h.port ∨ h.port = 0 →
          (x.state ≠ .loaded → x.state ≠ .retired → exec (.load p id) s = .next (s.answered h .state noWords)) ∧
          (x.state = .loaded ∨ x.state = .retired →
            (level < h.level.val ∨ (x.owner ≠ h.port ∧ level < (s.ports.get x.owner).level.val) →
              exec (.load p id) s = .next (s.answered h .level noWords)) ∧
            (h.level.val ≤ level → (x.owner = h.port ∨ (s.ports.get x.owner).level.val ≤ level) →
              (parseStatic h.args = none → exec (.load p id) s = .next (s.answered h .malformed noWords)) ∧
              (∀ st, parseStatic h.args = some st → exec (.load p id) s = .next (loaded x.owner st)))))))

/-- LOAD: the static part its arguments give, the initial progress, and its checks with the record it writes (R11 to R16,
R181, section 9.8). -/
def Obligations.LoadWritesDescriptor : Prop :=
  Claims.LoadArgumentsParsed ∧ Claims.ProgressInitialised ∧ Claims.LoadByChecks

/-- The numbers that stand for the values of the enumerations in every layout (section 9.8). -/
def Sys2Proof.Claims.EnumerationsHaveNumbers : Prop :=
  (stateNumber none = 0 ∧ ∀ x : Desc, stateNumber (some x) =
    match x.state with
    | .loaded => 1 | .armed => 2 | .queued => 3 | .active => 4 | .waiting => 5 | .retired => 6) ∧
  (∀ m : Movement, m.number = match m with
    | .copy .. => 0 | .send .. => 1 | .receive .. => 2 | .fill .. => 3) ∧
  [Mode.single, .block, .run].map Mode.number = [0, 1, 2] ∧
  [Stepping.fixed, .up, .down, .upWrap].map Stepping.number = [0, 1, 2, 3] ∧
  [Condition.equal, .notEqual, .above, .notAbove, .greater, .notGreater].map Condition.number = [0, 1, 2, 3, 4, 5] ∧
  [SideName.source, .destination, .guard, .peripheral].map SideName.number = [0, 1, 2, 3] ∧
  [StopRequest.none, .cancelled, .leaseExpired, .withdrawn].map StopRequest.number = [0, 1, 2, 3] ∧
  [EngineState.idle, .paused, .waitPort, .guard, .move, .peripheral].map EngineState.number = [0, 1, 2, 3, 4, 5] ∧
  [GateKind.trigger, .renew, .cancel].map GateKind.number = [0, 1, 2] ∧
  [Access.read, .readWrite].map Access.number = [0, 1]

/-- The STATIC image of a record within the bounds of R2: Q0 with state and owner, Q1 to Q12 the LOAD image, Q13 the
block count (R17, R170, section 9.8). Bits 0 to 7 of Q1 hold the index read (log 13). -/
def Sys2Proof.Claims.StaticImageWords : Prop :=
  ∀ (d : DescIx) (x : Desc), x.st.Ok →
    let w := staticImage d x
    let m := x.st.movement
    field (w.get 0) 0 4 = stateNumber (some x) ∧ bit (w.get 0) 4 = true ∧ field (w.get 0) 8 2 = x.owner.val ∧
    field (w.get 1) 0 8 = d.val ∧ field (w.get 1) 8 4 = x.st.level.val ∧ field (w.get 1) 12 4 = x.st.priority.val ∧
    field (w.get 1) 16 4 = m.number ∧ field (w.get 1) 20 4 = x.st.mode.number ∧
    field (w.get 1) 24 8 = x.st.unitSize.bytes ∧
    field (w.get 2) 0 16 = x.st.blockCount % 65536 ∧ field (w.get 2) 16 9 = x.st.blockLen ∧
    bit (w.get 2) 25 = x.st.reload ∧ bit (w.get 2) 26 = x.st.notice ∧ bit (w.get 2) 27 = m.source?.isSome ∧
    bit (w.get 2) 28 = m.destination?.isSome ∧ bit (w.get 2) 29 = m.strobe?.isSome ∧
    bit (w.get 2) 30 = x.st.guard.isSome ∧ bit (w.get 2) 31 = x.st.successor.isSome ∧
    field (w.get 3) 0 8 = x.st.initialLease ∧
    (x.st.successor = none → field (w.get 3) 8 8 = 0) ∧ (∀ t ∈ x.st.successor, field (w.get 3) 8 8 = t.val) ∧
    (m.strobe? = none → field (w.get 3) 16 5 = 0) ∧
    (∀ c ∈ m.strobe?, field (w.get 3) 16 4 = c.channel.val ∧ bit (w.get 3) 20 = c.endPulse) ∧
    (m.source? = none → field (w.get 4) 0 12 = 0 ∧ w.get 5 = 0) ∧
    (∀ v ∈ m.source?, field (w.get 4) 0 8 = v.window.val ∧ field (w.get 4) 8 4 = v.stepping.number ∧
      w.get 5 = v.start) ∧
    (m.destination? = none → field (w.get 4) 16 12 = 0 ∧ w.get 6 = 0) ∧
    (∀ v ∈ m.destination?, field (w.get 4) 16 8 = v.window.val ∧ field (w.get 4) 24 4 = v.stepping.number ∧
      w.get 6 = v.start) ∧
    (m.pattern? = none → w.get 7 = 0 ∧ w.get 8 = 0) ∧ (∀ v ∈ m.pattern?, w.get 8 ++ w.get 7 = v) ∧
    (x.st.guard = none → w.get 9 = 0 ∧ w.get 10 = 0 ∧ w.get 11 = 0 ∧ w.get 12 = 0) ∧
    (∀ g ∈ x.st.guard, field (w.get 9) 0 8 = g.window.val ∧ field (w.get 9) 8 4 = g.condition.number ∧
      w.get 10 = g.offset ∧ w.get 11 = g.mask ∧ w.get 12 = g.reference) ∧
    w.get 13 = BitVec.ofNat 32 x.st.blockCount ∧ w.get 14 = 0 ∧ w.get 15 = 0

/-- The PROGRESS image of a record within the bounds of R2 and R5 (R17, R170, section 9.8). -/
def Sys2Proof.Claims.ProgressImageWords : Prop :=
  ∀ x : Desc, x.Ok →
    let w := progressImage x
    let m := x.st.movement
    field (w.get 0) 0 4 = stateNumber (some x) ∧ bit (w.get 0) 4 = true ∧ field (w.get 0) 8 2 = x.owner.val ∧
    bit (w.get 3) 0 = m.source?.isSome ∧ bit (w.get 3) 2 = m.destination?.isSome ∧
    (m.source? = none → w.get 1 = 0 ∧ bit (w.get 3) 1 = false) ∧
    (m.destination? = none → w.get 2 = 0 ∧ bit (w.get 3) 3 = false) ∧
    (m.source?.isSome = true → w.get 1 = x.pr.src.word ∧ bit (w.get 3) 1 = decide (x.pr.src = .belowZero)) ∧
    (m.destination?.isSome = true → w.get 2 = x.pr.dst.word ∧ bit (w.get 3) 3 = decide (x.pr.dst = .belowZero)) ∧
    Offset.belowZero.word = 0 ∧ (∀ o, (Offset.at o).word = o) ∧
    field (w.get 3) 8 8 = x.pr.unitsInBlock ∧ w.get 4 = BitVec.ofNat 32 x.pr.blocksRem ∧
    w.get 5 = BitVec.ofNat 32 x.pr.unitsMoved ∧
    field (w.get 6) 0 8 = x.pr.lease ∧ field (w.get 6) 8 2 = x.pr.pending ∧ bit (w.get 6) 10 = x.pr.resume ∧
    field (w.get 6) 12 2 = x.pr.stop.number ∧ field (w.get 6) 16 8 = x.pr.missed ∧
    field (w.get 6) 24 8 = x.pr.reloads ∧
    (x.pr.retired = none → w.get 7 = 0 ∧ w.get 8 = 0) ∧
    (∀ r ∈ x.pr.retired, field (w.get 7) 0 8 = r.reason.value ∧ bit (w.get 7) 8 = true ∧
      bit (w.get 7) 19 = r.detail.isSome ∧
      (r.detail = none → field (w.get 7) 16 2 = 0 ∧ bit (w.get 7) 20 = false ∧ w.get 8 = 0) ∧
      (∀ side offset, r.detail = some (side, offset) → field (w.get 7) 16 2 = side.number ∧
        bit (w.get 7) 20 = decide (offset = .belowZero) ∧ w.get 8 = offset.word)) ∧
    ∀ i : Fin 16, 9 ≤ i.val → w.get i = 0

/-- READ_DESCRIPTOR: RANGE, OWNER, MALFORMED, or OK with the image of the part asked for; nothing changes (R11, R12,
R17). -/
def Sys2Proof.Claims.ReadDescriptorByPart : Prop :=
  ∀ (s : State) (p : PortIx) (id : Word) (h : Handed), s.Waits .readDescriptor p id h →
    let part := field (h.args.get 0) 8 4
    (127 < argIndex h.args → exec (.readDescriptor p id) s = .next (s.answered h .range noWords)) ∧
    (∀ d : DescIx, argIndex h.args = d.val →
      (s.descs.get d = none →
        (1 < part → exec (.readDescriptor p id) s = .next (s.answered h .malformed noWords)) ∧
        (part ≤ 1 → exec (.readDescriptor p id) s = .next (s.answered h .ok noWords))) ∧
      (∀ x, s.descs.get d = some x →
        (x.owner ≠ h.port → h.port ≠ 0 → exec (.readDescriptor p id) s = .next (s.answered h .owner noWords)) ∧
        (x.owner = h.port ∨ h.port = 0 →
          (1 < part → exec (.readDescriptor p id) s = .next (s.answered h .malformed noWords)) ∧
          (part = 0 → exec (.readDescriptor p id) s = .next (s.answered h .ok (staticImage d x))) ∧
          (part = 1 → exec (.readDescriptor p id) s = .next (s.answered h .ok (progressImage x))))))

/-- READ_DESCRIPTOR: its checks, the images of its two parts field by field, and the numbers in them (R11, R12, R17, R170,
section 9.8; the index in Q1 is log 13). -/
def Obligations.ReadDescriptorReports : Prop :=
  Claims.ReadDescriptorByPart ∧ Claims.StaticImageWords ∧ Claims.ProgressImageWords ∧ Claims.EnumerationsHaveNumbers

/-- ARM: RANGE, OWNER, STATE, the first failing unit check of source, destination and guard word with its side and
offset, or OK with the initial progress and ARMED (R11 to R13, R18, R19). -/
def Sys2Proof.Claims.ArmByChecks : Prop :=
  ∀ (s : State) (p : PortIx) (id : Word) (h : Handed), s.Waits .arm p id h →
    (127 < argIndex h.args → exec (.arm p id) s = .next (s.answered h .range noWords)) ∧
    (∀ d : DescIx, argIndex h.args = d.val →
      (s.descs.get d = none → exec (.arm p id) s = .next (s.answered h .state noWords)) ∧
      (∀ x, s.descs.get d = some x →
        let sideFails := fun (side : Option Side) (write : Bool) (code : Code) (offset : Word) =>
          ∃ w ∈ side, w.start = offset ∧
            unitCheck s.windows w.window x.st.level write (.at w.start) x.st.unitSize.bytes = .error code
        let sidePasses := fun (side : Option Side) (write : Bool) =>
          ∀ w ∈ side, ∃ a, unitCheck s.windows w.window x.st.level write (.at w.start) x.st.unitSize.bytes = .ok a
        (x.owner ≠ h.port → h.port ≠ 0 → exec (.arm p id) s = .next (s.answered h .owner noWords)) ∧
        (x.owner = h.port ∨ h.port = 0 →
          (x.state ≠ .loaded → x.state ≠ .retired → exec (.arm p id) s = .next (s.answered h .state noWords)) ∧
          (x.state = .loaded ∨ x.state = .retired →
            (∀ code offset, sideFails x.st.movement.source? false code offset → exec (.arm p id) s =
              .next (s.answered h code (image [BitVec.ofNat 32 SideName.source.number, offset]))) ∧
            (sidePasses x.st.movement.source? false →
              (∀ code offset, sideFails x.st.movement.destination? true code offset → exec (.arm p id) s =
                .next (s.answered h code (image [BitVec.ofNat 32 SideName.destination.number, offset]))) ∧
              (sidePasses x.st.movement.destination? true →
                (∀ g ∈ x.st.guard, ∀ code, unitCheck s.windows g.window x.st.level false (.at g.offset) 4 = .error code →
                  exec (.arm p id) s =
                    .next (s.answered h code (image [BitVec.ofNat 32 SideName.guard.number, g.offset]))) ∧
                ((∀ g ∈ x.st.guard, ∃ a, unitCheck s.windows g.window x.st.level false (.at g.offset) 4 = .ok a) →
                  exec (.arm p id) s = .next (State.setRetired ({ s.answered h .ok noWords with
                    descs := s.descs.put d (some { x with state := .armed, pr := Progress.initial x.st })
                    sweepMarks := s.sweepMarks.put d false }) x.owner d false))))))))

/-- ARM: its checks with the record it writes, and the initial progress in it (R11 to R13, R18, R19). -/
def Obligations.ArmStartsDescriptor : Prop :=
  Claims.ArmByChecks ∧ Claims.ProgressInitialised

/-- DISARM: ARMED, QUEUED and WAITING return to LOADED with no trigger and no resume mark, out of the ready queue and
unmarked; ACTIVE is refused with IN_USE and the rest with STATE (R11, R12, R20, R25). -/
def Sys2Proof.Claims.DisarmReturnsToLoaded : Prop :=
  ∀ (s : State) (p : PortIx) (id : Word) (h : Handed), s.Waits .disarm p id h →
    (127 < argIndex h.args → exec (.disarm p id) s = .next (s.answered h .range noWords)) ∧
    (∀ d : DescIx, argIndex h.args = d.val →
      (s.descs.get d = none → exec (.disarm p id) s = .next (s.answered h .state noWords)) ∧
      (∀ x, s.descs.get d = some x →
        (x.owner ≠ h.port → h.port ≠ 0 → exec (.disarm p id) s = .next (s.answered h .owner noWords)) ∧
        (x.owner = h.port ∨ h.port = 0 →
          (x.state = .loaded ∨ x.state = .retired → exec (.disarm p id) s = .next (s.answered h .state noWords)) ∧
          (x.state = .active →
            exec (.disarm p id) s = .next (s.answered h .inUse (image [BitVec.ofNat 32 d.val]))) ∧
          (x.state = .armed ∨ x.state = .queued ∨ x.state = .waiting →
            exec (.disarm p id) s = .next { s.answered h .ok noWords with
              descs := s.descs.put d (some { x with state := .loaded, pr := { x.pr with pending := 0, resume := false } })
              sweepMarks := s.sweepMarks.put d false
              ready := if x.state = .queued then
                  s.ready.put x.st.priority ((s.ready.get x.st.priority).filter fun e => e != d)
                else s.ready }))))

/-- RELEASE: LOADED and RETIRED become EMPTY and leave their owner's retired set; the rest are refused with STATE (R10
to R12, R21). -/
def Sys2Proof.Claims.ReleaseFreesDescriptor : Prop :=
  ∀ (s : State) (p : PortIx) (id : Word) (h : Handed), s.Waits .release p id h →
    (127 < argIndex h.args → exec (.release p id) s = .next (s.answered h .range noWords)) ∧
    (∀ d : DescIx, argIndex h.args = d.val →
      (s.descs.get d = none → exec (.release p id) s = .next (s.answered h .state noWords)) ∧
      (∀ x, s.descs.get d = some x →
        (x.owner ≠ h.port → h.port ≠ 0 → exec (.release p id) s = .next (s.answered h .owner noWords)) ∧
        (x.owner = h.port ∨ h.port = 0 →
          (x.state ≠ .loaded → x.state ≠ .retired → exec (.release p id) s = .next (s.answered h .state noWords)) ∧
          (x.state = .loaded ∨ x.state = .retired →
            exec (.release p id) s = .next (State.setRetired ({ s.answered h .ok noWords with
              descs := s.descs.put d none, sweepMarks := s.sweepMarks.put d false }) x.owner d false)))))

/-- DISARM returns a live descriptor that is not ACTIVE to LOADED, and RELEASE frees one that is not live (R10 to R12, R20,
R21). -/
def Obligations.DisarmAndRelease : Prop :=
  Claims.DisarmReturnsToLoaded ∧ Claims.ReleaseFreesDescriptor

/-- A removal from a retired set, or an insertion, changes that set at that index alone and re-evaluates the port's
interrupt output (R176, R178). -/
def Sys2Proof.Claims.RetiredSetChange : Prop :=
  ∀ (s : State) (p : PortIx) (d : DescIx) (b : Bool),
    ∃ line : Bool, s.setRetired p d b = { s with
        fnu := s.fnu.put p { s.fnu.get p with retired := (s.fnu.get p).retired.put d b }
        intOut := s.intOut.put p line } ∧
      (line = true ↔ (s.ports.get p).state = .opened ∧ (s.fnu.get p).notice = true ∧
        ((s.fnu.get p).record.isSome = true ∨ b = true ∨ ∃ e, e ≠ d ∧ (s.fnu.get p).retired.get e = true))

/-- A retirement: the record of R9, the removal from the ready queue, and the insertion into the owner's retired set
(R8, R9, R141). -/
def Sys2Proof.Claims.RetirementWritesRecord : Prop :=
  ∀ (s : State) (d : DescIx) (x : Desc) (reason : Code) (detail : Option (SideName × Offset)),
    let written := { s with
      descs := s.descs.put d (some { x with state := .retired, pr := { x.pr with
        pending := 0, resume := false, stop := .none, retired := some { reason, detail } } })
      sweepMarks := s.sweepMarks.put d false
      ready := if x.state = .queued then
          s.ready.put x.st.priority ((s.ready.get x.st.priority).filter fun e => e != d)
        else s.ready }
    (x.st.notice = false → s.retire d x reason detail = written) ∧
    (x.st.notice = true → s.retire d x reason detail = written.setRetired x.owner d true)

/-- A retirement writes the record of R9 and enters the owner's retired set, and a change of a retired set re-evaluates the
interrupt output (R8, R9, R141, R176, R178). -/
def Obligations.RetirementAndRetiredSet : Prop :=
  Claims.RetiredSetChange ∧ Claims.RetirementWritesRecord

/-- A completed unit: units moved and units in block count up, a block end returns units in block to 0 and takes one
from blocks remaining, and each present side steps by its stepping (R40, R41, R91, R92). -/
def Obligations.CompletedUnitProgress : Prop :=
  ∀ (x : Desc),
    let q := x.pr.afterUnit x.st
    let blockEnd := x.pr.unitsInBlock + 1 = x.st.blockLen
    let steps := fun (side : Option Side) (before after : Offset) =>
      (side = none → after = before) ∧
      (∀ w ∈ side,
        (w.stepping = .fixed → after = before) ∧
        (before = .belowZero → (w.stepping = .upWrap ∧ blockEnd ∨ after = .belowZero)) ∧
        (w.stepping = .upWrap → blockEnd → after = .at w.start) ∧
        (∀ o : Word, before = .at o →
          (w.stepping = .up ∨ (w.stepping = .upWrap ∧ ¬ blockEnd) →
            after = .at (BitVec.ofNat 32 (o.toNat + x.st.unitSize.bytes))) ∧
          (w.stepping = .down → o.toNat < x.st.unitSize.bytes → after = .belowZero) ∧
          (w.stepping = .down → x.st.unitSize.bytes ≤ o.toNat →
            after = .at (BitVec.ofNat 32 (o.toNat - x.st.unitSize.bytes)))))
    q = { x.pr with
      unitsMoved := x.pr.unitsMoved + 1
      unitsInBlock := if blockEnd then 0 else x.pr.unitsInBlock + 1
      blocksRem := if blockEnd then x.pr.blocksRem - 1 else x.pr.blocksRem
      src := q.src, dst := q.dst } ∧
    steps x.st.movement.source? x.pr.src q.src ∧ steps x.st.movement.destination? x.pr.dst q.dst

/-! ### Windows -/

/-- The unit check: its five tests in order, and the system address it hands back (R34, R35). -/
def Obligations.UnitCheckTests : Prop :=
  ∀ (windows : Tab (Option Window) 16) (i : WindowIx) (level : Level) (write : Bool) (o : Offset) (size : UnitSize),
    let result := unitCheck windows i level write o size.bytes
    (windows.get i = none → result = .error .windowAbsent) ∧
    (∀ w, windows.get i = some w →
      (w.level < level → result = .error .windowLevel) ∧
      (level ≤ w.level →
        (write = true → w.access = .read → result = .error .windowAccess) ∧
        ((write = true → w.access = .readWrite) →
          (o = .belowZero → result = .error .windowLimit) ∧
          (∀ n : Word, o = .at n →
            (w.size < n.toNat + size.bytes → result = .error .windowLimit) ∧
            (n.toNat + size.bytes ≤ w.size →
              (¬ size.bytes ∣ n.toNat → result = .error .alignment) ∧
              (size.bytes ∣ n.toNat → result = .ok (w.base + n)))))))

/-- SET_WINDOW: RANGE, IN_USE with the ACTIVE descriptor that names the window, MALFORMED, or the window written (R29,
R30, R33). -/
def Obligations.SetWindowWritesWindow : Prop :=
  ∀ (s : State) (p : PortIx) (id : Word) (h : Handed), s.Waits .setWindow p id h →
    (15 < argIndex h.args → exec (.setWindow p id) s = .next (s.answered h .range noWords)) ∧
    (∀ w : WindowIx, argIndex h.args = w.val →
      (∀ d x, s.engine.active = some d → s.descs.get d = some x → x.st.names w = true →
        exec (.setWindow p id) s = .next (s.answered h .inUse (image [BitVec.ofNat 32 d.val]))) ∧
      ((∀ d x, s.engine.active = some d → s.descs.get d = some x → x.st.names w = false) →
        let base := h.args.get 1
        let size := (h.args.get 2).toNat + if bit (h.args.get 3) 0 then 2 ^ 32 else 0
        let level := field (h.args.get 0) 8 4
        let access := field (h.args.get 0) 12 4
        let fits := base.toNat % 8 = 0 ∧ size ≠ 0 ∧ size % 8 = 0 ∧ base.toNat + size ≤ 2 ^ 32 ∧ level ≤ 3 ∧ access ≤ 1
        (¬ fits → exec (.setWindow p id) s = .next (s.answered h .malformed noWords)) ∧
        (fits → ∀ l : Level, l.val = level → exec (.setWindow p id) s = .next { s.answered h .ok noWords with
          windows := s.windows.put w (some
            { base, size, level := l, access := if access = 0 then .read else .readWrite }) })))

/-- CLEAR_WINDOW makes a window absent, whatever it held; a check against it then fails with WINDOW_ABSENT, and a later
SET_WINDOW gives it wholly new fields (R31). -/
def Obligations.ClearWindowMakesAbsent : Prop :=
  ∀ (s : State) (p : PortIx) (id : Word) (h : Handed), s.Waits .clearWindow p id h →
    (15 < argIndex h.args → exec (.clearWindow p id) s = .next (s.answered h .range noWords)) ∧
    (∀ w : WindowIx, argIndex h.args = w.val →
      (∀ d x, s.engine.active = some d → s.descs.get d = some x → x.st.names w = true →
        exec (.clearWindow p id) s = .next (s.answered h .inUse (image [BitVec.ofNat 32 d.val]))) ∧
      ((∀ d x, s.engine.active = some d → s.descs.get d = some x → x.st.names w = false) →
        exec (.clearWindow p id) s = .next { s.answered h .ok noWords with windows := s.windows.put w none } ∧
        (∀ level write o bytes,
          unitCheck (s.windows.put w none) w level write o bytes = .error .windowAbsent) ∧
        (∀ win, (s.windows.put w none).put w (some win) = s.windows.put w (some win))))

/-- READ_WINDOW reports the window's presence and fields as they stand and changes nothing, whoever asks and whether or
not the window is in use (R32). -/
def Obligations.ReadWindowReports : Prop :=
  ∀ (s : State) (p : PortIx) (id : Word) (h : Handed), s.Waits .readWindow p id h →
    (15 < argIndex h.args → exec (.readWindow p id) s = .next (s.answered h .range noWords)) ∧
    (∀ w : WindowIx, argIndex h.args = w.val →
      (s.windows.get w = none → exec (.readWindow p id) s = .next (s.answered h .ok noWords)) ∧
      (∀ win, s.windows.get w = some win → ∃ words : PortWords,
        exec (.readWindow p id) s = .next (s.answered h .ok words) ∧ bit (words.get 0) 0 = true ∧
          field (words.get 0) 8 4 = win.level.val ∧ field (words.get 0) 12 4 = win.access.number ∧
          words.get 1 = win.base ∧ words.get 2 = BitVec.ofNat 32 win.size ∧
          (win.size ≤ 2 ^ 32 → bit (words.get 3) 0 = decide (win.size = 2 ^ 32)))) ∧
    ∀ level args, admissionTest .readWindow p level args = none

/-! ### Gates, invocations and routes -/

/-- SET_GATE: RANGE, NULL_GATE, LEVEL for a gate of a more privileged author, MALFORMED, or the gate written with the
issuer's level as its author level (R46, R47). -/
def Sys2Proof.Claims.SetGateWritesGate : Prop :=
  ∀ (s : State) (p : PortIx) (id : Word) (h : Handed), s.Waits .setGate p id h →
    (63 < argIndex h.args → exec (.setGate p id) s = .next (s.answered h .range noWords)) ∧
    (argIndex h.args = 0 → exec (.setGate p id) s = .next (s.answered h .nullGate noWords)) ∧
    (∀ g : GateIx, g ≠ 0 → argIndex h.args = g.val →
      ((∃ old ∈ s.gates.get g, old.author < h.level) → exec (.setGate p id) s = .next (s.answered h .level noWords)) ∧
      ((∀ old ∈ s.gates.get g, h.level ≤ old.author) →
        let kind := field (h.args.get 0) 8 4
        let reach := field (h.args.get 0) 12 4
        let target := field (h.args.get 0) 16 8
        (2 < kind ∨ 3 < reach ∨ 127 < target → exec (.setGate p id) s = .next (s.answered h .malformed noWords)) ∧
        (∀ (k : GateKind) (r : Level) (d : DescIx), k.number = kind → r.val = reach → d.val = target →
          exec (.setGate p id) s = .next { s.answered h .ok noWords with
            gates := s.gates.put g (some { kind := k, reach := r, author := h.level, target := d }) })))

/-- CLEAR_GATE: RANGE, NULL_GATE, LEVEL, or the gate made absent, an absent gate by any level; an invocation already
handed on is not touched (R48). -/
def Sys2Proof.Claims.ClearGateMakesAbsent : Prop :=
  ∀ (s : State) (p : PortIx) (id : Word) (h : Handed), s.Waits .clearGate p id h →
    (63 < argIndex h.args → exec (.clearGate p id) s = .next (s.answered h .range noWords)) ∧
    (argIndex h.args = 0 → exec (.clearGate p id) s = .next (s.answered h .nullGate noWords)) ∧
    (∀ g : GateIx, g ≠ 0 → argIndex h.args = g.val →
      ((∃ old ∈ s.gates.get g, old.author < h.level) → exec (.clearGate p id) s = .next (s.answered h .level noWords)) ∧
      ((∀ old ∈ s.gates.get g, h.level ≤ old.author) →
        exec (.clearGate p id) s = .next { s.answered h .ok noWords with gates := s.gates.put g none }))

/-- SET_GATE and CLEAR_GATE: their checks in order, and the gate written or made absent (R46 to R48). -/
def Obligations.SetAndClearGate : Prop :=
  Claims.SetGateWritesGate ∧ Claims.ClearGateMakesAbsent

/-- READ_GATE reports the gate's presence and fields as they stand and changes nothing, whoever asks; an absent gate and
G0 are reported absent (R43, R49). -/
def Obligations.ReadGateReports : Prop :=
  ∀ (s : State) (p : PortIx) (id : Word) (h : Handed), s.Waits .readGate p id h →
    (63 < argIndex h.args → exec (.readGate p id) s = .next (s.answered h .range noWords)) ∧
    (∀ g : GateIx, argIndex h.args = g.val →
      (s.gates.get g = none → exec (.readGate p id) s = .next (s.answered h .ok noWords)) ∧
      (∀ gate, s.gates.get g = some gate → ∃ words : PortWords,
        exec (.readGate p id) s = .next (s.answered h .ok words) ∧ bit (words.get 0) 0 = true ∧
          field (words.get 0) 8 4 = gate.kind.number ∧ field (words.get 0) 12 4 = gate.reach.val ∧
          field (words.get 0) 16 4 = gate.author.val ∧ field (words.get 0) 24 8 = gate.target.val)) ∧
    ∀ level args, admissionTest .readGate p level args = none

/-- The words of an INVOKE refused with the gate present: Q0 gives the gate's target with its presence bit, and every
other bit of the image is 0 (R50, R159, R169, section 9.8). -/
def Sys2Proof.Claims.TargetImageWords : Prop :=
  ∀ target : DescIx,
    let w := image [targetWord target]
    field (w.get 0) 0 8 = target.val ∧ bit (w.get 0) 8 = true ∧ field (w.get 0) 9 23 = 0 ∧
      ∀ i : Fin 16, i ≠ 0 → w.get i = 0

/-- The words of an INVOKE answered OK or SATURATED: Q0 gives the target and Q1 the target's state and pending count as
the state reported on holds them, each with its presence bit, and every other bit of the image is 0 (R50, R159, R169,
section 9.8). The pending count is at most 2 (R5). -/
def Sys2Proof.Claims.VerbImageWords : Prop :=
  ∀ (s : State) (d : DescIx) (x : Desc), s.descs.get d = some x → x.pr.pending ≤ 2 →
    let w := s.verbImage d
    field (w.get 0) 0 8 = d.val ∧ bit (w.get 0) 8 = true ∧ field (w.get 0) 9 23 = 0 ∧
      field (w.get 1) 0 4 = stateNumber (some x) ∧ field (w.get 1) 4 4 = 0 ∧ field (w.get 1) 8 2 = x.pr.pending ∧
      field (w.get 1) 10 6 = 0 ∧ bit (w.get 1) 16 = true ∧ field (w.get 1) 17 15 = 0 ∧
      ∀ i : Fin 16, 2 ≤ i.val → w.get i = 0

/-- INVOKE and a line's invocation at the Gate Table: tests 1 to 4 in order, the failing code to the port or a report to
P0, and otherwise an invocation with copies of the gate's fields (R50, R51, R63). -/
def Sys2Proof.Claims.GateTestsTaken : Prop :=
  (∀ (s : State) (p : PortIx) (id : Word) (h : Handed), s.Waits .invoke p id h →
    (argIndex h.args = 0 → s.gates.get 0 = none → exec (.invoke p id) s = .next (s.answered h .nullGate noWords)) ∧
    (63 < argIndex h.args → exec (.invoke p id) s = .next (s.answered h .gateRange noWords)) ∧
    (∀ g : GateIx, g ≠ 0 → argIndex h.args = g.val →
      (s.gates.get g = none → exec (.invoke p id) s = .next (s.answered h .gateAbsent noWords)) ∧
      (∀ gate, s.gates.get g = some gate →
        (gate.reach < h.level →
          exec (.invoke p id) s = .next (s.answered h .gateLevel (image [targetWord gate.target]))) ∧
        (h.level ≤ gate.reach → exec (.invoke p id) s = .next { s.took h with
          invocations := s.invocations ++ [{ invoker := .port h.port h.id, gate := g, kind := gate.kind,
                                              target := gate.target, author := gate.author }] })))) ∧
  (∀ (s : State) (n : Nat) (i : LineInv), s.resetHeld = false → s.lineInvs[n]? = some i → i.gate ≠ 0 →
    (s.gates.get i.gate = none → exec (.lineInvocation n) s = .next { s with
      lineInvs := s.lineInvs.eraseIdx n
      reports := s.reports ++ [(0, { code := .gateAbsent, descriptor := none, gate := some i.gate, line := some i.line,
                                     window := none, detail := none })] }) ∧
    (∀ gate, s.gates.get i.gate = some gate →
      (gate.reach < i.level → exec (.lineInvocation n) s = .next { s with
        lineInvs := s.lineInvs.eraseIdx n
        reports := s.reports ++ [(0, { code := .gateLevel, descriptor := some gate.target, gate := some i.gate,
                                       line := some i.line, window := none, detail := none })] }) ∧
      (i.level ≤ gate.reach → exec (.lineInvocation n) s = .next { s with
        lineInvs := s.lineInvs.eraseIdx n
        invocations := s.invocations ++ [{ invoker := .line i.line, gate := i.gate, kind := gate.kind,
                                            target := gate.target, author := gate.author }] })))

/-- An invocation at the Gate Table, by an INVOKE or by a line, and the words of an INVOKE refused there with the gate
present (R50, R51, R63, section 9.8). -/
def Obligations.GateTableTakesInvocation : Prop :=
  Claims.GateTestsTaken ∧ Claims.TargetImageWords

/-- Tests 5 and 6 and the state test of an invocation at its target: TARGET_ABSENT, TARGET_LEVEL, TARGET_NOT_ARMED,
TARGET_RETIRED, answered to a port and reported to P0 for a line (R50, R52, R63). -/
def Sys2Proof.Claims.TargetTestsTaken : Prop :=
  ∀ (s : State) (n : Nat) (i : Invocation), s.resetHeld = false → s.invocations[n]? = some i →
    let refusedWith := fun code : Code =>
      match i.invoker with
      | .port p id => { s with
          invocations := s.invocations.eraseIdx n
          verdicts := s.verdicts ++ [{ port := p, id, code, words := image [targetWord i.target] }] }
      | .line l => { s with
          invocations := s.invocations.eraseIdx n
          reports := s.reports ++ [(0, { code, descriptor := some i.target, gate := some i.gate, line := some l,
                                         window := none, detail := none })] }
    (s.descs.get i.target = none → exec (.invocationAtTarget n) s = .next (refusedWith .targetAbsent)) ∧
    (∀ x, s.descs.get i.target = some x →
      (x.st.level < i.author → exec (.invocationAtTarget n) s = .next (refusedWith .targetLevel)) ∧
      (i.author ≤ x.st.level → x.state = .loaded →
        exec (.invocationAtTarget n) s = .next (refusedWith .targetNotArmed)) ∧
      (i.author ≤ x.st.level → x.state = .retired →
        exec (.invocationAtTarget n) s = .next (refusedWith .targetRetired)))

/-- An invocation refused at its target, and the words a port is answered with (R50, R52, R63, section 9.8). -/
def Obligations.TargetRefusesInvocation : Prop :=
  Claims.TargetTestsTaken ∧ Claims.TargetImageWords

/-- The verbs of an invocation on a live target: TRIGGER is trigger acceptance, RENEW restores the lease and clears a
LEASE_EXPIRED stop request, CANCEL retires a descriptor that is not ACTIVE and records the stop request of one that is
(R52, R54 to R58). The verdict to a port gives the target's state and pending count as the verb left them (R50). CANCEL
is stated for an engine that is not in WAIT_PORT on the target. -/
def Sys2Proof.Claims.VerbsTaken : Prop :=
  ∀ (s : State) (n : Nat) (i : Invocation) (x : Desc), s.resetHeld = false → s.invocations[n]? = some i →
    s.descs.get i.target = some x → i.author ≤ x.st.level → x.state ≠ .loaded → x.state ≠ .retired →
    let u := { s with invocations := s.invocations.eraseIdx n }
    let told := fun (t : State) (code : Code) =>
      match i.invoker with
      | .port p id => { t with verdicts := t.verdicts ++ [{ port := p, id, code, words := t.verbImage i.target }] }
      | .line _ => t
    let quiet := s.engine.state ≠ .waitPort ∨ s.engine.active ≠ some i.target
    (i.kind = .trigger → (quiet ∨ x.pr.stop = .none) →
      exec (.invocationAtTarget n) s = .next (told (u.acceptTrigger i.target x).1 (u.acceptTrigger i.target x).2)) ∧
    (i.kind = .renew → (quiet ∨ x.pr.stop = .none) → exec (.invocationAtTarget n) s =
      .next (told (u.putDesc i.target (some { x with pr := { x.pr with
        lease := x.st.initialLease
        stop := if x.pr.stop = .leaseExpired then .none else x.pr.stop } })) .ok)) ∧
    (i.kind = .cancel → x.state ≠ .active → quiet → exec (.invocationAtTarget n) s =
      .next (told (u.retire i.target x .cancelled none) .ok)) ∧
    (i.kind = .cancel → x.state = .active → quiet → exec (.invocationAtTarget n) s =
      .next (told (u.putDesc i.target (some { x with pr := { x.pr with
        stop := if x.pr.stop = .none then .cancelled else x.pr.stop } })) .ok))

/-- The verbs of an invocation on a live target, and the words of their verdict field by field (R50, R52, R54 to R58,
section 9.8). -/
def Obligations.VerbActsOnTarget : Prop :=
  Claims.VerbsTaken ∧ Claims.VerbImageWords

/-- A CANCEL on the ACTIVE descriptor of an engine in WAIT_PORT is taken at once: the descriptor retires CANCELLED and
the engine withdraws its claim and lets it go (R58, R75, R76, R127). The verdict to a port is OK with the words of the
target as the verb left it, ACTIVE with its pending count, before the engine takes the stop request (R50; the model's
choice, log 6). -/
def Sys2Proof.Claims.CancelInWaitPort : Prop :=
  ∀ (s : State) (n : Nat) (i : Invocation) (x : Desc), s.invocations[n]? = some i → i.kind = .cancel →
    s.Works .waitPort i.target x → x.state = .active → x.pr.stop = .none → i.author ≤ x.st.level →
    let words := s.verbImage i.target
    exec (.invocationAtTarget n) s = .next
      { State.retire { s with
          invocations := s.invocations.eraseIdx n
          verdicts := match i.invoker with
            | .port p id => s.verdicts ++ [{ port := p, id, code := .ok, words }]
            | .line _ => s.verdicts } i.target x .cancelled none with
        engine := { Engine.reset with state := if s.engine.pauseReq then .paused else .idle }
        master := { s.master with engineClaim := false } } ∧
    (x.pr.pending ≤ 2 →
      field (words.get 0) 0 8 = i.target.val ∧ bit (words.get 0) 8 = true ∧ field (words.get 1) 0 4 = 4 ∧
        field (words.get 1) 8 2 = x.pr.pending ∧ bit (words.get 1) 16 = true ∧
        ∀ k : Fin 16, 2 ≤ k.val → words.get k = 0)

/-- What becomes of a stop request when another event meets it (the table of R125). -/
def Sys2Proof.Claims.StopRequestMeets : Prop :=
  ∀ found : StopRequest,
    found.meet .cancelled = (if found = .none then .cancelled else found) ∧
    found.meet .leaseExpired = (if found = .none then .leaseExpired else found) ∧
    found.meet .withdrawn = .withdrawn ∧
    ∀ x : Desc, x.pr.stop = found → x.renew.pr.stop = (if found = .leaseExpired then .none else found)

/-- A lease that expires on the ACTIVE descriptor of an engine in WAIT_PORT is taken at once: the descriptor retires
LEASE_EXPIRED with its lease at 0, and the engine withdraws its claim and lets it go (R75, R76, R126, R127, R150).
SWEEP_TIMER_EXPIRY is the expiry whatever the timer's count (the model's choice, log 8). -/
def Sys2Proof.Claims.LeaseExpiryInWaitPort : Prop :=
  ∀ (s : State) (d : DescIx) (x : Desc), s.Works .waitPort d x → x.state = .active → x.pr.stop = .none →
    x.st.initialLease ≠ 0 → x.pr.lease ≤ 1 → s.sweep.cursor = d →
    let expired := fun u : State => { State.retire u d { x with pr := { x.pr with lease := 0 } } .leaseExpired none with
      engine := { Engine.reset with state := if s.engine.pauseReq then .paused else .idle }
      master := { s.master with engineClaim := false } }
    s.performVisit = expired { s with sweep := { s.sweep with cursor := d + 1 } } ∧
    (s.sweep.interval ≠ 0 → s.sweep.deferred = 0 →
      exec .sweepTimerExpiry s = .next (expired { s with sweep := { s.sweep with cursor := d + 1, timer := 0 } }))

/-- Stop requests: what one becomes when another event meets it, and how the engine takes a CANCEL and a lease expiry at
once in WAIT_PORT (R58, R75, R125 to R127, R150; the verdict's words and the expiry at any count are the model's choices,
logs 6 and 8). -/
def Obligations.StopRequestsRecordedAndTaken : Prop :=
  Claims.CancelInWaitPort ∧ Claims.LeaseExpiryInWaitPort ∧ Claims.StopRequestMeets

/-- SET_ROUTE: RANGE, MALFORMED, or the route written (R61). -/
def Obligations.SetRouteWritesRoute : Prop :=
  ∀ (s : State) (p : PortIx) (id : Word) (h : Handed), s.Waits .setRoute p id h →
    let level := field (h.args.get 0) 24 4
    let gate := field (h.args.get 0) 16 8
    (31 < argIndex h.args → exec (.setRoute p id) s = .next (s.answered h .range noWords)) ∧
    (∀ l : LineIx, argIndex h.args = l.val →
      (3 < level ∨ (bit (h.args.get 0) 8 = true ∧ (gate = 0 ∨ 63 < gate)) →
        exec (.setRoute p id) s = .next (s.answered h .malformed noWords)) ∧
      (∀ v : Level, v.val = level →
        (bit (h.args.get 0) 8 = false → exec (.setRoute p id) s = .next { s.answered h .ok noWords with
          routes := s.routes.put l { gate := none, level := v } }) ∧
        (∀ g : GateIx, g ≠ 0 → g.val = gate → bit (h.args.get 0) 8 = true →
          exec (.setRoute p id) s = .next { s.answered h .ok noWords with
            routes := s.routes.put l { gate := some g, level := v } })))

/-- READ_ROUTE reports the route as it stands, the gate present with its index or absent, and the line level; it reads
nothing else and changes nothing, and every port may ask (R62). Bits 0 to 7 of the word hold the line's index (log 13). -/
def Obligations.ReadRouteReports : Prop :=
  ∀ (s : State) (p : PortIx) (id : Word) (h : Handed), s.Waits .readRoute p id h →
    (31 < argIndex h.args → exec (.readRoute p id) s = .next (s.answered h .range noWords)) ∧
    (∀ l : LineIx, argIndex h.args = l.val → ∃ words : PortWords,
      exec (.readRoute p id) s = .next (s.answered h .ok words) ∧ words = routeImage l (s.routes.get l) ∧
        field (words.get 0) 0 8 = l.val ∧
        field (words.get 0) 24 4 = (s.routes.get l).level.val ∧
        bit (words.get 0) 8 = (s.routes.get l).gate.isSome ∧
        ∀ g ∈ (s.routes.get l).gate, field (words.get 0) 16 8 = g.val) ∧
    ∀ level args, admissionTest .readRoute p level args = none

/-- A trigger line: an assertion after a release invokes the routed gate at the line level, an unrouted line invokes
nothing, a line held asserted makes no further event, and a release is recorded (R63). -/
def Obligations.TriggerLineInvokes : Prop :=
  ∀ (s : State) (l : LineIx), s.resetHeld = false →
    (s.lineSeen.get l = true → exec (.triggerLineEvent l) s = .next s) ∧
    (s.lineSeen.get l = false → (s.routes.get l).gate = none →
      exec (.triggerLineEvent l) s = .next { s with lineSeen := s.lineSeen.put l true }) ∧
    (∀ g, s.lineSeen.get l = false → (s.routes.get l).gate = some g →
      exec (.triggerLineEvent l) s = .next { s with
        lineSeen := s.lineSeen.put l true
        lineInvs := s.lineInvs ++ [{ line := l, gate := g, level := (s.routes.get l).level }] }) ∧
    exec (.triggerLineRelease l) s = .next { s with lineSeen := s.lineSeen.put l false }

/-- Trigger acceptance on a live descriptor: pending counts up and an ARMED one is queued at the tail of its level, or
with pending at 2 the trigger is missed (R22, R23). -/
def Sys2Proof.Claims.TriggerAcceptance : Prop :=
  ∀ (s : State) (d : DescIx) (x : Desc),
    (x.pr.pending ≤ 1 → x.state = .armed → s.acceptTrigger d x = ({ s with
        descs := s.descs.put d (some { x with state := .queued, pr := { x.pr with pending := x.pr.pending + 1 } })
        sweepMarks := s.sweepMarks.put d false
        ready := s.ready.put x.st.priority (s.ready.get x.st.priority ++ [d]) }, .ok)) ∧
    (x.pr.pending ≤ 1 → x.state ≠ .armed →
      s.acceptTrigger d x = (s.putDesc d (some { x with pr := { x.pr with pending := x.pr.pending + 1 } }), .ok)) ∧
    (2 ≤ x.pr.pending → s.acceptTrigger d x =
      (s.putDesc d (some { x with pr := { x.pr with
        missed := if x.pr.missed < 255 then x.pr.missed + 1 else x.pr.missed } }), .saturated))

/-- A chain: CHAIN_ABSENT, CHAIN_NOT_ARMED, CHAIN_RETIRED or CHAIN_LEVEL is reported to the completed descriptor's
owner, and otherwise trigger acceptance is applied to the successor (R136, R137). -/
def Sys2Proof.Claims.ChainTriggersSuccessor : Prop :=
  ∀ (s : State) (n : Nat) (c : Chain), s.resetHeld = false → s.chains[n]? = some c →
    let u := { s with chains := s.chains.eraseIdx n }
    let fails := fun code : Code => { u with
      reports := s.reports ++ [(c.owner, { code, descriptor := some c.completed, gate := none, line := none,
                                           window := none, detail := none })] }
    (s.descs.get c.successor = none → exec (.chain n) s = .next (fails .chainAbsent)) ∧
    (∀ x, s.descs.get c.successor = some x →
      (x.state = .loaded → exec (.chain n) s = .next (fails .chainNotArmed)) ∧
      (x.state = .retired → exec (.chain n) s = .next (fails .chainRetired)) ∧
      (x.state ≠ .loaded → x.state ≠ .retired → x.st.level < c.level →
        exec (.chain n) s = .next (fails .chainLevel)) ∧
      (x.state ≠ .loaded → x.state ≠ .retired → c.level ≤ x.st.level →
        exec (.chain n) s = .next (u.acceptTrigger c.successor x).1))

/-- Trigger acceptance, and a chain, which applies it to the successor or reports its failure (R22, R23, R136, R137). -/
def Obligations.ChainAppliesTrigger : Prop :=
  Claims.TriggerAcceptance ∧ Claims.ChainTriggersSuccessor

/-! ### The engine -/

/-- PAUSE by the engine's state: PAUSED from IDLE at once, from WAIT_PORT with the descriptor set aside at the head of
its level, a pause request in GUARD, MOVE and PERIPHERAL, STATE in PAUSED (R75, R77). -/
def Sys2Proof.Claims.PauseStopsEngine : Prop :=
  ∀ (s : State) (p : PortIx) (id : Word) (h : Handed), s.Waits .pause p id h →
    (s.engine.state = .paused → exec (.pause p id) s = .next (s.answered h .state noWords)) ∧
    (s.engine.state = .idle → ∃ words : PortWords, field (words.get 0) 0 4 = EngineState.paused.number ∧
      bit (words.get 0) 4 = s.engine.pauseReq ∧
      exec (.pause p id) s =
        .next { s.answered h .ok words with engine := { s.engine with state := .paused } }) ∧
    (s.engine.state = .guard ∨ s.engine.state = .move ∨ s.engine.state = .peripheral →
      ∃ words : PortWords, field (words.get 0) 0 4 = s.engine.state.number ∧ bit (words.get 0) 4 = true ∧
        exec (.pause p id) s =
          .next { s.answered h .ok words with engine := { s.engine with pauseReq := true } }) ∧
    (∀ d x, s.Works .waitPort d x → ∃ words : PortWords, field (words.get 0) 0 4 = EngineState.paused.number ∧
      bit (words.get 0) 4 = false ∧
      exec (.pause p id) s = .next { s.answered h .ok words with
        descs := s.descs.put d (some { x with state := .queued, pr := { x.pr with resume := s.engine.spellBegun } })
        sweepMarks := s.sweepMarks.put d false
        ready := s.ready.put x.st.priority (d :: s.ready.get x.st.priority)
        engine := { Engine.reset with state := .paused }
        master := { s.master with engineClaim := false } })

/-- RESUME: PAUSED becomes IDLE, a pause request is cleared, and anything else is refused with STATE (R78). The words
report the engine state and the pause request as RESUME leaves them, before any selection (the model's choice, log
31). -/
def Sys2Proof.Claims.ResumeRestartsEngine : Prop :=
  ∀ (s : State) (p : PortIx) (id : Word) (h : Handed), s.Waits .resume p id h →
    (s.engine.state = .idle ∨ s.engine.state = .waitPort → exec (.resume p id) s =
      .next (s.answered h .state noWords)) ∧
    (s.engine.state = .paused → ∃ words : PortWords, field (words.get 0) 0 4 = EngineState.idle.number ∧
      bit (words.get 0) 4 = s.engine.pauseReq ∧
      exec (.resume p id) s = .next { s.answered h .ok words with engine := { s.engine with state := .idle } }) ∧
    (s.engine.state = .guard ∨ s.engine.state = .move ∨ s.engine.state = .peripheral →
      (s.engine.pauseReq = false → exec (.resume p id) s = .next (s.answered h .state noWords)) ∧
      (s.engine.pauseReq = true → ∃ words : PortWords, field (words.get 0) 0 4 = s.engine.state.number ∧
        bit (words.get 0) 4 = false ∧
        exec (.resume p id) s =
          .next { s.answered h .ok words with engine := { s.engine with pauseReq := false } }))

/-- PAUSE and RESUME by the engine's state (R75, R77, R78; what RESUME reports is log 31). -/
def Obligations.PauseAndResume : Prop :=
  Claims.PauseStopsEngine ∧ Claims.ResumeRestartsEngine

/-- Selection: an idle engine takes the head of the highest level that holds a descriptor. One with its resume mark goes
on with its spell, one with a guard keeps its trigger until the guard is read, and any other consumes one trigger; the
engine claims the port and waits for it (R66, R69, R71, R73, R81). -/
def Obligations.SelectionTakesHead : Prop :=
  ∀ s : State, s.resetHeld = false →
    (s.engine.state ≠ .idle → exec .selection s = .next s) ∧
    (s.engine.state = .idle → (∀ k : Priority, s.ready.get k = []) → exec .selection s = .next s) ∧
    (∀ (k : Priority) (d : DescIx) (rest : List DescIx) (x : Desc), s.engine = Engine.reset →
      s.master.holder ≠ some .engine → (s.master.bus = .granted → s.master.holder = some .sweep) →
      s.ready.get k = d :: rest → (∀ j : Priority, k < j → s.ready.get j = []) →
      s.descs.get d = some x → x.state = .queued → x.Ok →
      exec .selection s = .next { s with
        ready := s.ready.put k rest
        descs := s.descs.put d (some { x with state := .active, pr := { x.pr with
          resume := false
          pending := if x.pr.resume = true ∨ x.st.guard.isSome = true then x.pr.pending else x.pr.pending - 1 } })
        sweepMarks := s.sweepMarks.put d false
        engine := { state := .waitPort, active := some d, spellBegun := x.pr.resume || x.st.guard.isNone,
                    unitsSince := 0, pauseReq := false, inFlight := none }
        master := { s.master with
          engineClaim := true
          bus := if s.master.bus = .notRequesting then .requesting else s.master.bus } })

/-- The first access or exchange of a unit, by the kind, when its unit check passes (R85 to R89, R104, R105).
While an ask is outstanding the unit in flight names the memory side, DESTINATION (the model's choice, log 30). -/
def Obligations.UnitStarts : Prop :=
  ∀ (s : State) (d : DescIx) (x : Desc) (a : Word),
    let inMove := fun f : InFlight => { s with engine := { s.engine with state := .move, inFlight := some f } }
    (∀ src dst, x.st.movement = .copy src dst →
      unitCheck s.windows src.window x.st.level false x.pr.src x.st.unitSize.bytes = .ok a →
      s.startUnit d x = inMove { kind := .sourceRead, side := .source, window := src.window, offset := x.pr.src,
                                 address := a, data := none }) ∧
    (∀ src strobe, x.st.movement = .send src strobe →
      unitCheck s.windows src.window x.st.level false x.pr.src x.st.unitSize.bytes = .ok a →
      s.startUnit d x = inMove { kind := .sourceRead, side := .source, window := src.window, offset := x.pr.src,
                                 address := a, data := none }) ∧
    (∀ dst pattern, x.st.movement = .fill dst pattern →
      unitCheck s.windows dst.window x.st.level true x.pr.dst x.st.unitSize.bytes = .ok a →
      s.startUnit d x = inMove { kind := .destinationWrite, side := .destination, window := dst.window,
                                 offset := x.pr.dst, address := a, data := some (x.st.unitSize.trim pattern) }) ∧
    (∀ dst strobe, x.st.movement = .receive dst strobe →
      unitCheck s.windows dst.window x.st.level true x.pr.dst x.st.unitSize.bytes = .ok a →
      s.startUnit d x = { s with
        channels := s.channels.put strobe.channel { state := .asking s.strobeLimit x.st.unitSize, timer := 0 }
        engine := { s.engine with
          state := .peripheral
          inFlight := some { kind := .ask, side := .destination, window := dst.window, offset := x.pr.dst,
                             address := a, data := none } } })

/-- A unit that fails, the engine holding the port: with no stop request the descriptor retires with the failure's code
and detail and the report is taken, and a stop request takes the failure's place; the engine lets go and the port is
given back (R76, R82, R83, R100, R101, R127, R128, R142). A failing first check of each kind fails the unit so (R86 to
R89). The model's reading: waiting reports are taken before this one (log 3), a release request is served here (log 5),
and the record is settled before the port is handed on (log 27). -/
def Obligations.UnitFails : Prop :=
  ∀ (s : State) (d : DescIx) (x : Desc) (code : Code) (window : WindowIx) (side : SideName) (offset : Offset),
    s.master.holder = some .engine →
    (x.pr.stop = .none → s.unitFails d x code window side offset =
      (State.reportNow (s.retire d x code (some (side, offset))) x.owner
        (failureReport d code window side offset)).parted) ∧
    (x.pr.stop = .cancelled → s.unitFails d x code window side offset = (s.retire d x .cancelled none).parted) ∧
    (x.pr.stop = .leaseExpired → s.unitFails d x code window side offset = (s.retire d x .leaseExpired none).parted) ∧
    (x.pr.stop = .withdrawn → s.unitFails d x code window side offset =
      State.parted { s.makeEmpty d x with freed := s.freed.put x.owner true }) ∧
    (∀ src dst, x.st.movement = .copy src dst →
      unitCheck s.windows src.window x.st.level false x.pr.src x.st.unitSize.bytes = .error code →
      s.startUnit d x = s.unitFails d x code src.window .source x.pr.src) ∧
    (∀ src strobe, x.st.movement = .send src strobe →
      unitCheck s.windows src.window x.st.level false x.pr.src x.st.unitSize.bytes = .error code →
      s.startUnit d x = s.unitFails d x code src.window .source x.pr.src) ∧
    (∀ dst strobe, x.st.movement = .receive dst strobe →
      unitCheck s.windows dst.window x.st.level true x.pr.dst x.st.unitSize.bytes = .error code →
      s.startUnit d x = s.unitFails d x code dst.window .destination x.pr.dst) ∧
    (∀ dst pattern, x.st.movement = .fill dst pattern →
      unitCheck s.windows dst.window x.st.level true x.pr.dst x.st.unitSize.bytes = .error code →
      s.startUnit d x = s.unitFails d x code dst.window .destination x.pr.dst)

/-- The bus grant: ignored unless asked for; given back at once when nothing waits for it; handed to the engine in
WAIT_PORT when no visit waits, which starts its unit or reads its guard; and deferred visits come first, each followed
by the hand-on anew unless its read is on the bus (R75, R81, R82, R115, R151). A guard whose check fails retires its
descriptor, and its report is taken after those that wait (R116, R142; log 3). -/
def Obligations.BusGrantHandsOn : Prop :=
  ∀ s : State, s.resetHeld = false →
    (s.master.bus ≠ .requesting → exec .busGrant s = .next s) ∧
    (s.master.bus = .requesting → s.sweep.deferred = 0 →
      (s.master.engineClaim = false → exec .busGrant s = .next { s with
        master := { s.master with bus := .notRequesting, holder := none } }) ∧
      (∀ d x, s.master.engineClaim = true → s.Works .waitPort d x →
        let u := { s with master := { s.master with bus := .granted, holder := some .engine, engineClaim := false } }
        (s.engine.spellBegun = true → exec .busGrant s = .next (u.startUnit d x)) ∧
        (∀ g a, s.engine.spellBegun = false → x.st.guard = some g →
          unitCheck s.windows g.window x.st.level false (.at g.offset) 4 = .ok a →
          exec .busGrant s = .next { u with engine := { s.engine with
            state := .guard
            inFlight := some { kind := .guardRead, side := .guard, window := g.window, offset := .at g.offset,
                               address := a, data := none } } }) ∧
        (∀ g code, s.engine.spellBegun = false → x.st.guard = some g → x.pr.stop = .none →
          unitCheck s.windows g.window x.st.level false (.at g.offset) 4 = .error code →
          exec .busGrant s = .next (State.reportNow (s.retire d x code (some (.guard, .at g.offset))) x.owner
            (failureReport d code g.window .guard (.at g.offset))).rested))) ∧
    (∀ n : Nat, s.master.bus = .requesting → s.sweep.deferred = n + 1 →
      let u := State.performVisit { s with
        master := { s.master with bus := .granted, holder := some .sweep }
        sweep := { s.sweep with deferred := n } }
      (u.sweep.read.isSome = true → exec .busGrant s = .next u) ∧
      (u.sweep.read = none →
        exec .busGrant s = exec .busGrant { u with master := { u.master with bus := .requesting, holder := none } }))

/-- A release request is recorded while the port has a holder and ignored where there is no grant (R83). -/
def Sys2Proof.Claims.ReleaseRequestRecorded : Prop :=
  ∀ s : State, s.resetHeld = false →
    (∀ holder, s.master.bus = .granted → s.master.holder = some holder →
      exec .releaseRequest s = .next { s with master := { s.master with releaseReq := true } }) ∧
    (s.master.bus ≠ .granted → exec .releaseRequest s = .next s)

/-- The engine gives back the port it holds: under a release request the grant goes back and is asked for again if a
visit or the engine waits; else, without a claim, the port is handed on, and with nothing waiting the grant goes back
(R82, R83). The model's reading: so at every give-back by the engine, a unit's failure included (log 5). -/
def Sys2Proof.Claims.EngineGivesPortBack : Prop :=
  ∀ s : State,
    (s.master.holder ≠ some .engine → s.engineGivesBack = s) ∧
    (s.master.holder = some .engine → s.master.releaseReq = true → s.engineGivesBack = { s with
      master := { s.master with
        bus := if s.sweep.deferred = 0 ∧ s.master.engineClaim = false then .notRequesting else .requesting
        holder := none
        releaseReq := false } }) ∧
    (s.master.holder = some .engine → s.master.releaseReq = false → s.sweep.deferred = 0 →
      s.engineGivesBack = { s with master := { s.master with bus := .notRequesting, holder := none } }) ∧
    (s.master.holder = some .engine → s.master.releaseReq = false → s.master.engineClaim = false →
      s.engineGivesBack = s.handOn)

/-- The hand-on of a freed port: a waiting visit is performed first, and unless its read is then on the bus the port is
handed on anew; else the engine in WAIT_PORT takes it, and starts its unit or reads its guard; else the grant goes back
(R75, R81, R82, R115, R151). A guard whose check fails retires its descriptor, and its report is taken after those that
wait (R116, R142; log 3). -/
def Sys2Proof.Claims.PortHandedOn : Prop :=
  ∀ s : State,
    (s.sweep.deferred ≠ 0 →
      (s.visited.sweep.read.isSome = true → s.handOn = s.visited) ∧
      (s.visited.sweep.read = none → s.handOn = s.visited.handOn)) ∧
    (s.sweep.deferred = 0 →
      (s.master.engineClaim = false →
        s.handOn = { s with master := { s.master with bus := .notRequesting, holder := none } }) ∧
      (∀ d x, s.master.engineClaim = true → s.Works .waitPort d x →
        let u := { s with master := { s.master with holder := some .engine, engineClaim := false } }
        (s.engine.spellBegun = true → s.handOn = u.startUnit d x) ∧
        (∀ g, s.engine.spellBegun = false → x.st.guard = some g →
          (∀ a, unitCheck s.windows g.window x.st.level false (.at g.offset) 4 = .ok a →
            s.handOn = { u with engine := { s.engine with
              state := .guard
              inFlight := some { kind := .guardRead, side := .guard, window := g.window, offset := .at g.offset,
                                 address := a, data := none } } }) ∧
          (∀ code, x.pr.stop = .none →
            unitCheck s.windows g.window x.st.level false (.at g.offset) 4 = .error code →
            s.handOn = (State.reportNow (s.retire d x code (some (.guard, .at g.offset))) x.owner
              (failureReport d code g.window .guard (.at g.offset))).rested))))

/-- The engine alone on the bus that lets its descriptor go comes to rest, with no release request left and the grant
given back (R76, R82, R83). -/
def Sys2Proof.Claims.LettingGoRests : Prop :=
  ∀ s : State, s.AloneOnBus → s.parted = s.rested

/-- A release request is recorded under a grant and served where the engine gives the port back; without one the port is
handed on, deferred visits first (R82, R83; logs 3 and 5). -/
def Obligations.ReleaseRequestServed : Prop :=
  Claims.ReleaseRequestRecorded ∧ Claims.EngineGivesPortBack ∧ Claims.PortHandedOn ∧ Claims.LettingGoRests

/-- The six conditions of a guard on a word, under its mask (R112, R113): each condition and the next are opposites, the
sign of GREATER is bit 31 of the masked value, and the word decided on is the one the read returned. -/
def Obligations.GuardConditions : Prop :=
  ∀ (g : Guard) (word : Word),
    let v := word &&& g.mask
    let f := g.reference &&& g.mask
    (g.condition = .equal → (g.holds word = true ↔ v = f)) ∧
    (g.condition = .notEqual → (g.holds word = true ↔ v ≠ f)) ∧
    (g.condition = .above → (g.holds word = true ↔ f.toNat < v.toNat)) ∧
    (g.condition = .notAbove → (g.holds word = true ↔ v.toNat ≤ f.toNat)) ∧
    (g.condition = .greater → (g.holds word = true ↔ f.toInt < v.toInt)) ∧
    (g.condition = .notGreater → (g.holds word = true ↔ v.toInt ≤ f.toInt)) ∧
    (Guard.holds { g with condition := .equal } word = !Guard.holds { g with condition := .notEqual } word) ∧
    (Guard.holds { g with condition := .above } word = !Guard.holds { g with condition := .notAbove } word) ∧
    (Guard.holds { g with condition := .greater } word = !Guard.holds { g with condition := .notGreater } word) ∧
    (g.mask.getLsbD 31 = false →
      Guard.holds { g with condition := .greater } word = Guard.holds { g with condition := .above } word ∧
      Guard.holds { g with condition := .notGreater } word = Guard.holds { g with condition := .notAbove } word)

/-- The engine's guard read ends while no visit waits: the port is given back, then a stop request, a failure, a false
guard or a true guard is taken, in that order; a true guard consumes one trigger and the engine claims the port again,
or is paused (R72, R75, R83, R116, R117, R142). By R81 the engine's claim stands in WAIT_PORT alone, so not here. The
model's reading: the grant goes back before a true guard's spell asks for it again (log 4), and the reports that wait
are taken before a failure's own (log 3). A false guard brings the descriptor back to WAITING, and a guard result of an
earlier stay there that waits untaken is from then on past (R25, R123; log 17). -/
def Sys2Proof.Claims.GuardReadDecidesAlone : Prop :=
  ∀ (s : State) (d : DescIx) (x : Desc) (g : Guard), s.Works .guard d x → x.st.guard = some g → s.AloneOnBus →
    s.master.engineClaim = false →
    (x.pr.stop ≠ .none → ∀ result : ReadEnd,
      (x.pr.stop = .cancelled → exec (.guardReadEnd result) s = .next (s.retire d x .cancelled none).rested) ∧
      (x.pr.stop = .leaseExpired → exec (.guardReadEnd result) s = .next (s.retire d x .leaseExpired none).rested) ∧
      (x.pr.stop = .withdrawn → exec (.guardReadEnd result) s =
        .next (State.rested { s.makeEmpty d x with freed := s.freed.put x.owner true }))) ∧
    (x.pr.stop = .none →
      (exec (.guardReadEnd .busError) s =
        .next (State.reportNow (s.retire d x .busError (some (.guard, .at g.offset))) x.owner
          (failureReport d .busError g.window .guard (.at g.offset))).rested) ∧
      (∀ word : Word,
        (g.holds word = false → exec (.guardReadEnd (.word word)) s =
          .next (State.rested { s.putDesc d (some { x with state := .waiting }) with
            guardResults := s.guardResults.map fun r => if r.desc = d then { r with past := true } else r })) ∧
        (g.holds word = true → x.pr.blocksRem ≠ 0 → s.engine.unitsSince = 0 →
          let y := { x with pr := { x.pr with pending := x.pr.pending - 1 } }
          (s.engine.pauseReq = true → exec (.guardReadEnd (.word word)) s =
            .next (State.rested { s with
              descs := s.descs.put d (some { y with state := .queued, pr := { y.pr with resume := true } })
              sweepMarks := s.sweepMarks.put d false
              ready := s.ready.put x.st.priority (d :: s.ready.get x.st.priority) })) ∧
          (s.engine.pauseReq = false → exec (.guardReadEnd (.word word)) s = .next { s.putDesc d (some y) with
            engine := { s.engine with state := .waitPort, spellBegun := true, inFlight := none }
            master := { bus := .requesting, holder := none, engineClaim := true, releaseReq := false } }))))

/-- The engine's guard read ends whatever waits for the port: the port is given back first, so visits may be served and
may change the descriptor's record, and the outcome is taken on the record they leave (R25, R72, R82, R83, R116, R117,
R123, R142; logs 3, 4 and 17). -/
def Sys2Proof.Claims.GuardReadDecidesAfterGiveBack : Prop :=
  ∀ (s : State) (d : DescIx) (x : Desc) (g : Guard), s.Works .guard d x → x.st.guard = some g →
    s.master.holder = some .engine → s.master.engineClaim = false →
    let t := State.engineGivesBack { s with engine := { s.engine with inFlight := none } }
    let rest := fun u : State =>
      { u with engine := { Engine.reset with state := if s.engine.pauseReq then .paused else .idle } }
    ∃ y, t.descs.get d = some y ∧
      exec (.guardReadEnd .busError) s = .next (rest (t.failed d y .busError g.window .guard (.at g.offset))) ∧
      (y.pr.stop ≠ .none → ∀ word, exec (.guardReadEnd (.word word)) s =
        .next (rest (t.failed d y .busError g.window .guard (.at g.offset)))) ∧
      (y.pr.stop = .none → ∀ word,
        (g.holds word = false → exec (.guardReadEnd (.word word)) s =
          .next (rest { t.putDesc d (some { y with state := .waiting }) with
            guardResults := t.guardResults.map fun r => if r.desc = d then { r with past := true } else r })) ∧
        (g.holds word = true → y.pr.blocksRem ≠ 0 → s.engine.unitsSince = 0 →
          let z := { y with pr := { y.pr with pending := y.pr.pending - 1 } }
          (s.engine.pauseReq = true → exec (.guardReadEnd (.word word)) s = .next (rest { t with
            descs := t.descs.put d (some { z with state := .queued, pr := { z.pr with resume := true } })
            sweepMarks := t.sweepMarks.put d false
            ready := t.ready.put y.st.priority (d :: t.ready.get y.st.priority) })) ∧
          (s.engine.pauseReq = false → exec (.guardReadEnd (.word word)) s = .next { t.putDesc d (some z) with
            engine := { s.engine with state := .waitPort, spellBegun := true, inFlight := none }
            master := { t.master with
              engineClaim := true
              bus := if t.master.bus = .notRequesting then .requesting else t.master.bus } })))

/-- The end of the engine's guard read, with no visit waiting and with any (R25, R72, R75, R82, R83, R116, R117, R123;
logs 3, 4 and 17). -/
def Obligations.GuardReadDecides : Prop :=
  Claims.GuardReadDecidesAlone ∧ Claims.GuardReadDecidesAfterGiveBack

/-- A write that completes, and an offer that is accepted, complete the unit; the descriptor's channel is then IDLE
(R88, R91, R104). Answers with no exchange to end are ignored (R107), and a completion with no write on the bus does
nothing (log 2). -/
def Sys2Proof.Claims.UnitCompletionTaken : Prop :=
  ∀ s : State, s.resetHeld = false →
    (∀ d x f, s.Works .move d x → s.engine.inFlight = some f →
      (f.kind = .destinationWrite → exec .unitCompletion s = .next (s.unitCompletes d x)) ∧
      (f.kind ≠ .destinationWrite → exec .unitCompletion s = .next s)) ∧
    (s.engine.state ≠ .move → exec .unitCompletion s = .next s) ∧
    (∀ (d : DescIx) (x : Desc) (f : InFlight) (strobe : Strobe) (limit : Nat) (size : UnitSize) (data : UnitData),
      s.Works .peripheral d x → s.engine.inFlight = some f → f.kind = .offer → x.st.movement.strobe? = some strobe →
      (s.channels.get strobe.channel).state = .offering limit size data →
      exec (.accept strobe.channel) s = .next (State.unitCompletes { s with
        channels := s.channels.put strobe.channel { (s.channels.get strobe.channel) with state := .idle } } d x)) ∧
    (∀ c : ChannelIx, (s.channels.get c).state = .idle ∨ (∃ l z, (s.channels.get c).state = .asking l z) →
      exec (.accept c) s = .next s)

/-- An end request pulses its channel's end signal once and changes no channel; the pulses are counted by the model
(R108, R134; log 10). -/
def Sys2Proof.Claims.EndRequestPulses : Prop :=
  ∀ (s : State) (n : Nat) (c : ChannelIx), s.resetHeld = false → s.endReqs[n]? = some c →
    exec (.endRequest n) s = .next { s with
      endReqs := s.endReqs.eraseIdx n, endPulses := s.endPulses.put c (s.endPulses.get c + 1) }

/-- What ends a unit, and the end request of a completion when it is taken (R88, R91, R104, R107, R108, R134; logs 2 and
10). -/
def Obligations.UnitEndsAndEndPulses : Prop :=
  Claims.UnitCompletionTaken ∧ Claims.EndRequestPulses

/-- The progress a reload writes, field by field (the table of R131). -/
def Sys2Proof.Claims.ReloadedProgress : Prop :=
  ∀ (pr : Progress) (st : StaticPart),
    pr.afterReload st = { Progress.initial st with
      pending := pr.pending, missed := pr.missed
      reloads := if pr.reloads < 255 then pr.reloads + 1 else pr.reloads } ∧
    (∀ w ∈ st.movement.source?, (pr.afterReload st).src = .at w.start) ∧
    (∀ w ∈ st.movement.destination?, (pr.afterReload st).dst = .at w.start) ∧
    (pr.afterReload st).blocksRem = st.blockCount ∧ (pr.afterReload st).unitsInBlock = 0 ∧
    (pr.afterReload st).unitsMoved = 0 ∧ (pr.afterReload st).lease = st.initialLease ∧
    (pr.afterReload st).resume = false ∧ (pr.afterReload st).stop = .none ∧ (pr.afterReload st).retired = none

/-- The boundary after a unit, where the descriptor leaves ACTIVE: completion (retired DONE, reloaded, or freed for a
CLOSING owner) before a stop request, that before the end of the spell, that before a pause, that before a yield; then
the engine lets go and the port is given back (R73, R74, R76, R82, R83, R98, R130 to R135; the record is settled before
the port is handed on, log 27). -/
def Sys2Proof.Claims.BoundaryLetsGo : Prop :=
  ∀ (s : State) (d : DescIx) (x : Desc), s.master.holder = some .engine →
    let y := { x with pr := x.pr.afterUnit x.st }
    let blockEnd := x.pr.unitsInBlock + 1 = x.st.blockLen
    let quota := x.st.mode = .single ∨ (x.st.mode = .block ∧ y.pr.unitsInBlock = 0)
    let aside := State.parted { s with
      descs := s.descs.put d (some { y with state := .queued, pr := { y.pr with resume := true } })
      sweepMarks := s.sweepMarks.put d false
      ready := s.ready.put x.st.priority (d :: s.ready.get x.st.priority) }
    let queuedAt := fun (pr : Progress) => { s with
      descs := s.descs.put d (some { x with state := .queued, pr })
      sweepMarks := s.sweepMarks.put d false
      ready := s.ready.put x.st.priority (s.ready.get x.st.priority ++ [d]) }
    let armedAt := fun (pr : Progress) => { s with
      descs := s.descs.put d (some { x with state := .armed, pr }), sweepMarks := s.sweepMarks.put d false }
    let handed := fun (t : State) => State.parted { t with
      endReqs := s.endReqs ++ (match x.st.movement.strobe? with
        | none => []
        | some strobe => if strobe.endPulse then [strobe.channel] else [])
      chains := s.chains ++ (match x.st.successor with
        | none => []
        | some successor => [{ successor, completed := d, level := x.st.level, owner := x.owner }]) }
    (y.pr.blocksRem = 0 →
      ((s.ports.get x.owner).state = .closing → s.unitCompletes d x =
        handed { s.makeEmpty d y with freed := s.freed.put x.owner true }) ∧
      ((s.ports.get x.owner).state = .opened →
        (x.st.reload = false → s.unitCompletes d x = handed (s.retire d y .done none)) ∧
        (x.st.reload = true → 0 < x.pr.pending → s.unitCompletes d x = handed (queuedAt (y.pr.afterReload x.st))) ∧
        (x.st.reload = true → x.pr.pending = 0 → s.unitCompletes d x = handed (armedAt (y.pr.afterReload x.st))))) ∧
    (y.pr.blocksRem ≠ 0 →
      (x.pr.stop = .cancelled → s.unitCompletes d x = (s.retire d y .cancelled none).parted) ∧
      (x.pr.stop = .leaseExpired → s.unitCompletes d x = (s.retire d y .leaseExpired none).parted) ∧
      (x.pr.stop = .withdrawn →
        s.unitCompletes d x = State.parted { s.makeEmpty d y with freed := s.freed.put x.owner true }) ∧
      (x.pr.stop = .none →
        (quota → 0 < x.pr.pending → s.unitCompletes d x = (queuedAt y.pr).parted) ∧
        (quota → x.pr.pending = 0 → s.unitCompletes d x = (armedAt y.pr).parted) ∧
        (¬ quota → s.engine.pauseReq = true → s.unitCompletes d x = aside) ∧
        (¬ quota → s.engine.pauseReq = false → x.st.mode = .run → blockEnd →
          (∃ k : Priority, x.st.priority < k ∧ s.ready.get k ≠ []) → s.unitCompletes d x = aside)))

/-- The boundaries where the descriptor leaves ACTIVE, and the progress that a reload writes there (R73, R74, R76, R82,
R83, R98, R130 to R135; log 27). -/
def Obligations.UnitBoundaryLetsGo : Prop :=
  Claims.BoundaryLetsGo ∧ Claims.ReloadedProgress

/-- The boundary after a unit, where the spell goes on: within the burst the next unit starts on the port held; at the
end of a RUN block the port is given back and claimed in one event, so it is handed on with the engine in WAIT_PORT,
waiting visits first, and with none the next unit starts; a release request sends the engine to WAIT_PORT with the bus
asked for again (R73, R81 to R83, R96, R97). -/
def Obligations.UnitBoundaryContinues : Prop :=
  ∀ (s : State) (d : DescIx) (x : Desc), s.master.holder = some .engine → s.engine.active = some d →
    s.engine.spellBegun = true → s.engine.pauseReq = false → x.pr.stop = .none →
    let y := { x with pr := x.pr.afterUnit x.st }
    let blockEnd := x.pr.unitsInBlock + 1 = x.st.blockLen
    let counted := { s.putDesc d (some y) with
      engine := { s.engine with unitsSince := s.engine.unitsSince + 1, inFlight := none } }
    y.pr.blocksRem ≠ 0 →
      (¬ blockEnd → x.st.mode ≠ .single → s.master.releaseReq = false →
        s.unitCompletes d x = counted.startUnit d y) ∧
      (blockEnd → x.st.mode = .run → (∀ k : Priority, x.st.priority < k → s.ready.get k = []) →
        s.master.releaseReq = false → s.sweep.deferred = 0 →
        s.unitCompletes d x = State.startUnit { counted with
          engine := { counted.engine with state := .waitPort }
          master := { s.master with holder := some .engine, engineClaim := false } } d y) ∧
      (blockEnd → x.st.mode = .run → (∀ k : Priority, x.st.priority < k → s.ready.get k = []) →
        s.master.releaseReq = false →
        s.unitCompletes d x = State.handOn { counted with
          engine := { counted.engine with state := .waitPort }
          master := { s.master with engineClaim := true } }) ∧
      (s.master.releaseReq = true → x.st.mode ≠ .single →
        (blockEnd → x.st.mode = .run ∧ ∀ k : Priority, x.st.priority < k → s.ready.get k = []) →
        s.unitCompletes d x = { counted with
          engine := { counted.engine with state := .waitPort }
          master := { bus := .requesting, holder := none, engineClaim := true, releaseReq := false } })

/-- The data of a unit are its first unit-size bytes (R87, R88, R89; log 23). -/
def Sys2Proof.Claims.UnitDataTrimmed : Prop :=
  ∀ (size : UnitSize) (data : UnitData) (i : Nat),
    (size.trim data).getLsbD i = (decide (i < 8 * size.bytes) && data.getLsbD i)

/-- The source read of a unit completes: a COPY goes on to its destination write, checked first, and a SEND to its offer
on the strobe channel; an event with no such read on the bus does nothing (R86, R88, R104; log 2). While the offer is
outstanding the unit in flight keeps the side, window and offset of the memory side (the model's choice, log 30). -/
def Sys2Proof.Claims.SourceReadGoesOn : Prop :=
  ∀ (s : State) (data : UnitData),
    (s.engine.state ≠ .move → exec (.unitReadEnd data) s = .next s) ∧
    (∀ d x f, s.Works .move d x → s.engine.inFlight = some f →
      (f.kind ≠ .sourceRead → exec (.unitReadEnd data) s = .next s) ∧
      (f.kind = .sourceRead →
        (∀ src dst a, x.st.movement = .copy src dst →
          unitCheck s.windows dst.window x.st.level true x.pr.dst x.st.unitSize.bytes = .ok a →
          exec (.unitReadEnd data) s = .next { s with engine := { s.engine with
            state := .move
            inFlight := some { kind := .destinationWrite, side := .destination, window := dst.window,
                               offset := x.pr.dst, address := a, data := some (x.st.unitSize.trim data) } } }) ∧
        (∀ src dst code, x.st.movement = .copy src dst →
          unitCheck s.windows dst.window x.st.level true x.pr.dst x.st.unitSize.bytes = .error code →
          exec (.unitReadEnd data) s = .next (s.unitFails d x code dst.window .destination x.pr.dst)) ∧
        (∀ src strobe, x.st.movement = .send src strobe →
          exec (.unitReadEnd data) s = .next { s with
            channels := s.channels.put strobe.channel
              { state := .offering s.strobeLimit x.st.unitSize (x.st.unitSize.trim data), timer := 0 }
            engine := { s.engine with
              state := .peripheral
              inFlight := some { f with kind := .offer, data := some (x.st.unitSize.trim data) } } })))

/-- A supply ends an ask and the unit goes on to its write; supplies with no ask to end are ignored (R89, R105,
R107). -/
def Sys2Proof.Claims.SupplyGoesOnToWrite : Prop :=
  ∀ (s : State) (data : UnitData), s.resetHeld = false →
    (∀ (d : DescIx) (x : Desc) (f : InFlight) (strobe : Strobe) (limit : Nat) (size : UnitSize),
      s.Works .peripheral d x → s.engine.inFlight = some f → f.kind = .ask → x.st.movement.strobe? = some strobe →
      (s.channels.get strobe.channel).state = .asking limit size →
      exec (.supply strobe.channel data) s = .next { s with
        channels := s.channels.put strobe.channel { (s.channels.get strobe.channel) with state := .idle }
        engine := { s.engine with
          state := .move
          inFlight := some { f with kind := .destinationWrite, data := some (x.st.unitSize.trim data) } } }) ∧
    (∀ c : ChannelIx, (s.channels.get c).state = .idle ∨ (∃ l z v, (s.channels.get c).state = .offering l z v) →
      exec (.supply c data) s = .next s)

/-- The data of a unit arrive, by its source read or by a supply, and the unit goes on (R86 to R89, R104, R105, R107). -/
def Obligations.UnitGoesOnWithData : Prop :=
  Claims.UnitDataTrimmed ∧ Claims.SourceReadGoesOn ∧ Claims.SupplyGoesOnToWrite

/-- A bus error on a unit's access fails the unit on the side it concerns, or a stop request takes the failure's place;
with no access on the bus it does nothing (R90, R100, R101, R142; logs 2, 3, 5 and 27). -/
def Sys2Proof.Claims.AccessBusErrorFailsUnit : Prop :=
  ∀ s : State, s.resetHeld = false →
    (s.engine.state ≠ .move → exec .accessBusError s = .next s) ∧
    (∀ d x f, s.Works .move d x → s.engine.inFlight = some f → s.master.holder = some .engine →
      exec .accessBusError s = .next (s.failed d x .busError f.window f.side f.offset).parted)

/-- A refusal and an expired wait timer end an exchange of either direction, and the unit fails on side PERIPHERAL with
PERIPHERAL_ERROR or PERIPHERAL_TIMEOUT, or a stop request takes the failure's place; in IDLE neither does anything
(R100, R101, R104, R105, R107, R142; logs 3, 5 and 27). WAIT_TIMER_EXPIRY is the expiry whatever the timer's count
(log 8). -/
def Sys2Proof.Claims.ExchangeFails : Prop :=
  ∀ s : State, s.resetHeld = false →
    (∀ c : ChannelIx, (s.channels.get c).state = .idle →
      exec (.refuse c) s = .next s ∧ exec (.waitTimerExpiry c) s = .next s) ∧
    (∀ (d : DescIx) (x : Desc) (f : InFlight) (strobe : Strobe), s.Works .peripheral d x →
      s.engine.inFlight = some f → (f.kind = .offer ∨ f.kind = .ask) → x.st.movement.strobe? = some strobe →
      (s.channels.get strobe.channel).state ≠ .idle → s.master.holder = some .engine →
      let u := { s with
        channels := s.channels.put strobe.channel { (s.channels.get strobe.channel) with state := .idle } }
      exec (.refuse strobe.channel) s =
        .next (u.failed d x .peripheralError f.window .peripheral f.offset).parted ∧
      exec (.waitTimerExpiry strobe.channel) s =
        .next (u.failed d x .peripheralTimeout f.window .peripheral f.offset).parted)

/-- A bus error, a refusal and an expired wait timer fail the unit in flight (R90, R100, R101, R104, R105, R107, R142;
logs 2, 3, 5, 8 and 27). -/
def Obligations.AccessesAndExchangesFail : Prop :=
  Claims.AccessBusErrorFailsUnit ∧ Claims.ExchangeFails

/-- SET_STROBE_LIMIT: LEVEL at admission from a port not at level 0, MALFORMED for 0 or above 4095, or the limit
written with both limits reported. Exchanges in flight keep their own limit, and an exchange begun in a state takes the
limit it holds (R109; the whole word A0 is compared, log 16). -/
def Obligations.SetStrobeLimitWritesLimit : Prop :=
  ∀ (s : State) (p : PortIx) (id : Word) (h : Handed), s.Waits .setStrobeLimit p id h →
    let limit := (h.args.get 0).toNat
    (limit = 0 ∨ 4095 < limit → exec (.setStrobeLimit p id) s = .next (s.answered h .malformed noWords)) ∧
    (1 ≤ limit → limit ≤ 4095 → exec (.setStrobeLimit p id) s = .next
      { s.answered h .ok (image [BitVec.ofNat 32 s.strobeLimit, BitVec.ofNat 32 limit]) with strobeLimit := limit }) ∧
    (∀ level args, admissionTest .setStrobeLimit p level args = if level = 0 then none else some .level) ∧
    (∀ (x : Desc) (strobe : Strobe) (f : InFlight) (data : UnitData),
      ((s.startOffer x strobe f data).channels.get strobe.channel).state =
        .offering s.strobeLimit x.st.unitSize (x.st.unitSize.trim data))

/-! ### The sweep -/

/-- SET_SWEEP: MALFORMED above 65535, or the interval written, the timer at 0 and the deferred visits discarded; cursor,
SWEEP_LATE and a read in flight stay, and the former interval, the new one, the cursor and the visits discarded are
reported (R145; the whole word A0 is compared, log 16). -/
def Obligations.SetSweepWritesInterval : Prop :=
  ∀ (s : State) (p : PortIx) (id : Word) (h : Handed), s.Waits .setSweep p id h →
    let interval := (h.args.get 0).toNat
    (65535 < interval → exec (.setSweep p id) s = .next (s.answered h .malformed noWords)) ∧
    (interval ≤ 65535 → exec (.setSweep p id) s = .next
      { s.answered h .ok (image [BitVec.ofNat 32 s.sweep.interval, BitVec.ofNat 32 interval,
          BitVec.ofNat 32 s.sweep.cursor.val, BitVec.ofNat 32 s.sweep.deferred]) with
        sweep := { s.sweep with interval, timer := 0, deferred := 0 } })

/-- The interval timer expires: nothing while the sweep is off; else the timer returns to 0 and a visit falls due, which
is performed, deferred with the bus asked for, or dropped with SWEEP_LATE set (R146 to R148). SWEEP_TIMER_EXPIRY is the
expiry whatever the timer's count (the model's choice, log 8). -/
def Obligations.SweepExpiryVisits : Prop :=
  ∀ s : State, s.resetHeld = false →
    let u := { s with sweep := { s.sweep with timer := 0 } }
    let deferred := { s with
      sweep := { s.sweep with timer := 0, deferred := s.sweep.deferred + 1 }
      master := { s.master with bus := if s.master.bus = .notRequesting then .requesting else s.master.bus } }
    let needsPort := ∃ x, s.descs.get s.sweep.cursor = some x ∧ x.state = .waiting ∧
      (x.st.initialLease = 0 ∨ 2 ≤ x.pr.lease)
    (s.sweep.interval = 0 → exec .sweepTimerExpiry s = .next s) ∧
    (s.sweep.interval ≠ 0 →
      (s.sweep.deferred = 0 → ¬ needsPort → exec .sweepTimerExpiry s = .next u.performVisit) ∧
      (s.sweep.deferred = 0 → needsPort → (s.master.bus = .granted → s.master.holder.isSome = true) →
        exec .sweepTimerExpiry s = .next deferred) ∧
      (s.sweep.deferred = 1 → exec .sweepTimerExpiry s = .next deferred) ∧
      (2 ≤ s.sweep.deferred → exec .sweepTimerExpiry s =
        .next { s with sweep := { s.sweep with timer := 0, late := true } }))

/-- A visit by the state of the descriptor at the cursor, which advances first: nothing for EMPTY, LOADED and RETIRED,
the lease step for the live ones, an expired lease retiring a descriptor or stopping the ACTIVE one, and the guard
re-read of one that stays WAITING (R25, R120, R149, R150, R152). -/
def Obligations.VisitByState : Prop :=
  ∀ (s : State),
    let d := s.sweep.cursor
    let u := { s with sweep := { s.sweep with cursor := d + 1 } }
    (s.descs.get d = none → s.performVisit = u) ∧
    (∀ x, s.descs.get d = some x →
      (x.state = .loaded ∨ x.state = .retired → s.performVisit = u) ∧
      (x.state = .armed ∨ x.state = .queued ∨ x.state = .active →
        (x.st.initialLease = 0 → s.performVisit = u) ∧
        (x.st.initialLease ≠ 0 → 2 ≤ x.pr.lease →
          s.performVisit = u.putDesc d (some { x with pr := { x.pr with lease := x.pr.lease - 1 } }))) ∧
      (x.state = .armed ∨ x.state = .queued ∨ x.state = .waiting → x.st.initialLease ≠ 0 → x.pr.lease ≤ 1 →
        s.performVisit = u.retire d { x with pr := { x.pr with lease := 0 } } .leaseExpired none) ∧
      (x.state = .active → x.st.initialLease ≠ 0 → x.pr.lease ≤ 1 → s.engine.state ≠ .waitPort →
        s.performVisit = u.putDesc d (some { x with pr := { x.pr with
          lease := 0, stop := if x.pr.stop = .none then .leaseExpired else x.pr.stop } })) ∧
      (∀ g, x.state = .waiting → x.st.guard = some g → (x.st.initialLease = 0 ∨ 2 ≤ x.pr.lease) →
        let v := { u with
          descs := s.descs.put d (some { x with pr := { x.pr with
            lease := if x.st.initialLease = 0 then x.pr.lease else x.pr.lease - 1 } })
          sweepMarks := s.sweepMarks.put d true }
        (∀ a, unitCheck s.windows g.window x.st.level false (.at g.offset) 4 = .ok a →
          s.performVisit = { v with sweep := { u.sweep with read := some { desc := d, address := a, guard := g } } }) ∧
        (∀ code, unitCheck s.windows g.window x.st.level false (.at g.offset) 4 = .error code →
          s.performVisit = { v with
            guardResults := s.guardResults ++ [{ desc := d, guard := g, outcome := .failed code, past := false }] })))

/-- The sweep's read ends and its result is handed on. Under a release request the grant goes back first; else the port
is handed on: waiting visits before the engine, then the engine in WAIT_PORT, which starts its unit or reads its guard,
and with no one waiting the grant goes back (R75, R82, R83, R112, R115, R120, R152). A guard whose check fails retires
its descriptor, and its report is taken after those that wait (R116, R142; log 3). -/
def Obligations.SweepReadHandsResult : Prop :=
  ∀ (s : State) (r : SweepRead) (result : ReadEnd), s.resetHeld = false → s.sweep.read = some r →
    let outcome : GuardOutcome := match result with
      | .word w => if r.guard.holds w then .isTrue else .isFalse
      | .busError => .failed .busError
    let u : State := { s with
      sweep := { s.sweep with read := none }
      guardResults := s.guardResults ++ [{ desc := r.desc, guard := r.guard, outcome, past := false }] }
    (s.master.releaseReq = true → exec (.sweepReadEnd result) s = .next { u with master := { s.master with
        bus := if s.sweep.deferred = 0 ∧ s.master.engineClaim = false then .notRequesting else .requesting
        holder := none, releaseReq := false } }) ∧
    (s.master.releaseReq = false → exec (.sweepReadEnd result) s = .next u.handOn) ∧
    (s.master.releaseReq = false → s.sweep.deferred ≠ 0 →
      (u.visited.sweep.read.isSome = true → exec (.sweepReadEnd result) s = .next u.visited) ∧
      (u.visited.sweep.read = none → exec (.sweepReadEnd result) s = .next u.visited.handOn)) ∧
    (s.master.releaseReq = false → s.sweep.deferred = 0 →
      (s.master.engineClaim = false → exec (.sweepReadEnd result) s = .next { u with master := { s.master with
        bus := .notRequesting, holder := none } }) ∧
      (s.master.engineClaim = true → ∀ d x, s.Works .waitPort d x →
        let v := { u with master := { s.master with holder := some .engine, engineClaim := false } }
        (s.engine.spellBegun = true → exec (.sweepReadEnd result) s = .next (v.startUnit d x)) ∧
        (∀ g a, s.engine.spellBegun = false → x.st.guard = some g →
          unitCheck s.windows g.window x.st.level false (.at g.offset) 4 = .ok a →
          exec (.sweepReadEnd result) s = .next { v with engine := { s.engine with
            state := .guard
            inFlight := some { kind := .guardRead, side := .guard, window := g.window, offset := .at g.offset,
                               address := a, data := none } } }) ∧
        (∀ g code, s.engine.spellBegun = false → x.st.guard = some g → x.pr.stop = .none →
          unitCheck s.windows g.window x.st.level false (.at g.offset) 4 = .error code →
          exec (.sweepReadEnd result) s =
            .next (State.reportNow (u.retire d x code (some (.guard, .at g.offset))) x.owner
              (failureReport d code g.window .guard (.at g.offset))).rested)))

/-- A guard result is applied only where the sweep read mark is set, which is then cleared: true queues the descriptor
at the tail of its level, false leaves it WAITING, a failure retires it with a report to its owner, which is taken after
the reports that wait (R25, R120, R121, R142; log 3). A result of an earlier stay in WAITING is discarded, and the mark
is left to the read that set it (R25, R123; log 17). -/
def Obligations.GuardResultApplied : Prop :=
  ∀ (s : State) (n : Nat) (r : GuardResult), s.resetHeld = false → s.guardResults[n]? = some r →
    let u := { s with guardResults := s.guardResults.eraseIdx n }
    (s.sweepMarks.get r.desc = false → exec (.guardResult n) s = .next u) ∧
    (r.past = true → exec (.guardResult n) s = .next u) ∧
    (∀ x, s.sweepMarks.get r.desc = true → r.past = false → s.descs.get r.desc = some x →
      let v := { u with sweepMarks := s.sweepMarks.put r.desc false }
      (r.outcome = .isTrue → exec (.guardResult n) s = .next { v with
        descs := s.descs.put r.desc (some { x with state := .queued })
        ready := s.ready.put x.st.priority (s.ready.get x.st.priority ++ [r.desc]) }) ∧
      (r.outcome = .isFalse → exec (.guardResult n) s = .next v) ∧
      (∀ code, r.outcome = .failed code → exec (.guardResult n) s =
        .next (State.reportNow (v.retire r.desc x code (some (.guard, .at r.guard.offset))) x.owner
          (failureReport r.desc code r.guard.window .guard (.at r.guard.offset)))))

/-! ### Fault reports and notices -/

/-- A fault report is kept for its port, for P0 if that port is CLOSING, or dropped if P0 is CLOSING too. Kept, it is
held in an empty record or only sets the overflow mark, and the interrupt output is re-evaluated. FAULT_REPORT takes the
oldest report handed on (R173, R178). -/
def Sys2Proof.Claims.FaultReportKept : Prop :=
  ∀ (s : State) (p : PortIx) (r : Report) (rest : List (PortIx × Report)), s.resetHeld = false →
    s.reports = (p, r) :: rest →
    let u := { s with reports := rest }
    let kept := fun q : PortIx =>
      let f := s.fnu.get q
      let e := match f.record with
        | none => { f with record := some r }
        | some _ => { f with overflow := true }
      { u with
        fnu := s.fnu.put q e
        intOut := s.intOut.put q ((s.ports.get q).state == .opened && f.notice) }
    ((s.ports.get p).state = .opened → exec .faultReport s = .next (kept p)) ∧
    ((s.ports.get p).state = .closing → (s.ports.get 0).state = .opened → exec .faultReport s = .next (kept 0)) ∧
    ((s.ports.get p).state = .closing → (s.ports.get 0).state = .closing →
      exec .faultReport s = .next { u with faultDropped := true })

/-- The report of a retirement is taken in the retirement's own event, as FAULT_REPORT would take it, after the reports
that wait, oldest first (R142, R173; the order within the event is log 3). -/
def Sys2Proof.Claims.RetirementReportTaken : Prop :=
  ∀ (s : State) (p : PortIx) (r : Report), s.resetHeld = false →
    (s.reports = [] → exec .faultReport { s with reports := [(p, r)] } = .next (s.reportNow p r)) ∧
    (∀ q e rest, s.reports = (q, e) :: rest →
      ∃ t, exec .faultReport s = .next t ∧ t.reports = rest ∧ s.reportNow p r = t.reportNow p r)

/-- What a fault report does when it is taken, as an event of its own or with the retirement that makes it (R142, R173,
R178; log 3). -/
def Obligations.FaultReportTaken : Prop :=
  Claims.FaultReportKept ∧ Claims.RetirementReportTaken

/-- TAKE_FAULT empties the issuing port's own record and reports what it held, each present field with its presence bit,
an absent one as 0, and every bit the image does not use as 0; or it answers NONE (R159, R169, R170, R174, R178, section
9.8). -/
def Sys2Proof.Claims.TakeFaultEmptiesRecord : Prop :=
  ∀ (s : State) (p : PortIx) (id : Word) (h : Handed), s.Waits .takeFault p id h →
    let f := s.fnu.get h.port
    (f.record = none → exec (.takeFault p id) s = .next (s.answered h .none noWords)) ∧
    (∀ r, f.record = some r → ∃ words : PortWords,
      exec (.takeFault p id) s = .next { s.answered h .ok words with
        fnu := s.fnu.put h.port { f with record := none, overflow := false }
        intOut := s.intOut.put h.port ((s.ports.get h.port).state == .opened && f.notice && f.anyRetired) } ∧
      field (words.get 0) 0 8 = r.code.value ∧ bit (words.get 0) 8 = f.overflow ∧
      bit (words.get 0) 9 = r.descriptor.isSome ∧ bit (words.get 0) 10 = r.gate.isSome ∧
      bit (words.get 0) 11 = r.line.isSome ∧ bit (words.get 0) 12 = r.window.isSome ∧
      bit (words.get 0) 13 = r.detail.isSome ∧
      (∀ d ∈ r.descriptor, field (words.get 1) 0 8 = d.val) ∧ (∀ g ∈ r.gate, field (words.get 1) 8 8 = g.val) ∧
      (∀ l ∈ r.line, field (words.get 1) 16 8 = l.val) ∧ (∀ w ∈ r.window, field (words.get 1) 24 8 = w.val) ∧
      bit (words.get 0) 14 = r.detail.isSome ∧ field (words.get 0) 16 16 = 0 ∧
      (r.descriptor = none → field (words.get 1) 0 8 = 0) ∧ (r.gate = none → field (words.get 1) 8 8 = 0) ∧
      (r.line = none → field (words.get 1) 16 8 = 0) ∧ (r.window = none → field (words.get 1) 24 8 = 0) ∧
      (r.detail = none → bit (words.get 0) 15 = false ∧ words.get 2 = 0 ∧ words.get 3 = 0) ∧
      (∀ side offset, r.detail = some (side, offset) → words.get 2 = BitVec.ofNat 32 side.number ∧
        words.get 3 = offset.word ∧ bit (words.get 0) 15 = offset.isBelow) ∧
      ∀ i : Fin 16, 4 ≤ i.val → words.get i = 0)

/-- TAKE_RETIRED removes the lowest index of the issuing port's own retired set and reports it with the number left, or
answers NONE (R177, R178). -/
def Sys2Proof.Claims.TakeRetiredTakesLowest : Prop :=
  ∀ (s : State) (p : PortIx) (id : Word) (h : Handed), s.Waits .takeRetired p id h →
    let f := s.fnu.get h.port
    ((∀ d : DescIx, f.retired.get d = false) → exec (.takeRetired p id) s = .next (s.answered h .none noWords)) ∧
    (∀ d : DescIx, f.retired.get d = true → (∀ e : DescIx, e < d → f.retired.get e = false) →
      exec (.takeRetired p id) s = .next (State.setRetired (s.answered h .ok (image [BitVec.ofNat 32 d.val,
        BitVec.ofNat 32 ((List.finRange 128).countP fun e => e != d && f.retired.get e)])) h.port d false))

/-- SET_NOTICE is refused with CLOSING for a port withdrawn since its admission, or writes the notice enable, reports
the former one and re-evaluates the interrupt output (R178, R181). -/
def Sys2Proof.Claims.SetNoticeWritesEnable : Prop :=
  ∀ (s : State) (p : PortIx) (id : Word) (h : Handed), s.Waits .setNotice p id h →
    let f := s.fnu.get h.port
    ((∀ c ∈ (s.ports.get h.port).held, c.id ≠ h.id) →
      exec (.setNotice p id) s = .next (s.answered h .closing noWords)) ∧
    ((∃ c ∈ (s.ports.get h.port).held, c.id = h.id) → exec (.setNotice p id) s = .next
      { s.answered h .ok (image [if f.notice then 1 else 0]) with
        fnu := s.fnu.put h.port { f with notice := bit (h.args.get 0) 0 }
        intOut := s.intOut.put h.port ((s.ports.get h.port).state == .opened && bit (h.args.get 0) 0 &&
          (f.record.isSome || f.anyRetired)) })

/-- TAKE_FAULT, TAKE_RETIRED and SET_NOTICE act on the issuing port's own fault record, retired set and notice enable, and
the interrupt output follows (R174, R177, R178). -/
def Obligations.TakesAndNotice : Prop :=
  Claims.TakeFaultEmptiesRecord ∧ Claims.TakeRetiredTakesLowest ∧ Claims.SetNoticeWritesEnable

/-! ### Withdraw -/

/-- The withdraw event of an OPEN port: its record, its notices and its descriptors by their states, the ready queue
without them, and the engine only where it stood in WAIT_PORT with one of them; a port already CLOSING is left as it is
(R75, R179 to R185). -/
def Obligations.WithdrawEvent : Prop :=
  ∀ (s : State) (p : PortIx),
    ((s.ports.get p).state = .closing → s.withdrawPort p = s) ∧
    ((s.ports.get p).state = .opened →
      let t := s.withdrawPort p
      let r := s.ports.get p
      let waits := fun d : DescIx => s.engine.state = .waitPort ∧ s.engine.active = some d
      t = { s with
        ports := t.ports, fnu := s.fnu.put p NoticeRec.reset, intOut := s.intOut.put p false, descs := t.descs
        sweepMarks := t.sweepMarks, ready := t.ready, engine := t.engine, master := t.master } ∧
      (∃ state : PortState,
        t.ports = s.ports.put p { r with
          state, level := if p = 0 then 0 else 3, held := none, writeRefused := false
          lastResult := if r.held.isSome then .closing else r.lastResult
          results := if r.held.isSome then noWords else r.results } ∧
        (state = .closing ↔ ∃ d x, s.descs.get d = some x ∧ x.owner = p ∧ x.state = .active ∧ ¬ waits d)) ∧
      (∀ d x, s.descs.get d = some x →
        (x.owner ≠ p → t.descs.get d = some x ∧ t.sweepMarks.get d = s.sweepMarks.get d) ∧
        (x.owner = p → (x.state = .active ∧ ¬ waits d) →
          t.descs.get d = some { x with pr := { x.pr with stop := .withdrawn } }) ∧
        (x.owner = p → (x.state ≠ .active ∨ waits d) → t.descs.get d = none ∧ t.sweepMarks.get d = false)) ∧
      (∀ d, s.descs.get d = none → t.descs.get d = none) ∧
      (∀ k : Priority, t.ready.get k = (s.ready.get k).filter fun d =>
        !(s.descs.get d).any fun x => x.owner == p && x.state == .queued && x.st.priority == k) ∧
      (∀ d x, waits d → s.descs.get d = some x → x.owner = p → x.state = .active →
        t.engine = s.engine.dropped ∧ t.master = { s.master with engineClaim := false }) ∧
      ((∀ d x, waits d → s.descs.get d = some x → x.owner = p → x.state ≠ .active) →
        t.engine = s.engine ∧ t.master = s.master))

/-- What starts a withdraw: a WITHDRAW command, answered OK unless it names its issuer, whose own command the withdraw
drops; and an assertion of a withdraw line after a release (R180, R181). The model's own: a WITHDRAW that stands admitted
though it names a port above 3, which admission refuses (R158, R163), is answered RANGE by its owner (log 22), and all 32
bits of A0 are compared (log 16). -/
def Sys2Proof.Claims.WithdrawStarts : Prop :=
  (∀ (s : State) (p : PortIx) (id : Word) (h : Handed), s.Waits .withdraw p id h →
    (3 < (h.args.get 0).toNat → exec (.withdraw p id) s = .next (s.answered h .range noWords)) ∧
    ((h.args.get 0).toNat = h.port.val → exec (.withdraw p id) s = .next ((s.took h).withdrawPort h.port)) ∧
    (∀ q : PortIx, q ≠ h.port → (h.args.get 0).toNat = q.val →
      exec (.withdraw p id) s = .next ((s.answered h .ok noWords).withdrawPort q))) ∧
  (∀ (s : State) (p : PortIx), s.resetHeld = false →
    (s.withdrawSeen.get p = true → exec (.withdrawLineEvent p) s = .next s) ∧
    (s.withdrawSeen.get p = false → exec (.withdrawLineEvent p) s =
      .next (State.withdrawPort { s with withdrawSeen := s.withdrawSeen.put p true } p)) ∧
    exec (.withdrawLineRelease p) s = .next { s with withdrawSeen := s.withdrawSeen.put p false })

/-- The return of a CLOSING port to OPEN, on the notice that its last descriptor is free: level, notice enable and
results stay, and the interrupt output is re-evaluated; without the notice nothing happens (R185; log 2). -/
def Sys2Proof.Claims.PortReturnsToOpen : Prop :=
  ∀ (s : State) (p : PortIx), s.resetHeld = false →
    (s.freed.get p = false → exec (.portReturnOpen p) s = .next s) ∧
    (s.freed.get p = true → exec (.portReturnOpen p) s = .next { s with
      freed := s.freed.put p false
      ports := s.ports.put p { s.ports.get p with state := .opened }
      intOut := s.intOut.put p ((s.fnu.get p).notice &&
        ((s.fnu.get p).record.isSome || (s.fnu.get p).anyRetired)) })

/-- What starts a withdraw, and the return of the port to OPEN that ends it (R180, R181, R185; logs 2, 16 and 22). -/
def Obligations.WithdrawStartsAndEnds : Prop :=
  Claims.WithdrawStarts ∧ Claims.PortReturnsToOpen
end

