-- ==== Sys2Proof/Laws/Arguments.lean ====
section
/-! SUPPORT. When each part of a LOAD's arguments parses, and what it parses to (R15, section 9.8): for each parser one
lemma for the arguments it accepts and one for those it does not. -/

namespace Sys2Proof.Machine

theorem index?_below {k n : Nat} (h : n < k) : index? k n = some ⟨n, h⟩ := by simp [index?, h]

theorem index?_above {k n : Nat} (h : ¬ n < k) : index? k n = none := by simp [index?, h]

theorem stepping_accepted {n : Nat} (h : n ≤ 3) : ∃ t, Stepping.ofNumber? n = some t ∧ t.number = n := by
  rcases n with _ | _ | _ | _ | n <;> first | exact ⟨_, rfl, rfl⟩ | omega

theorem stepping_refused {n : Nat} (h : ¬ n ≤ 3) : Stepping.ofNumber? n = none := by
  rcases n with _ | _ | _ | _ | n <;> first | rfl | omega

theorem condition_accepted {n : Nat} (h : n ≤ 5) : ∃ t, Condition.ofNumber? n = some t ∧ t.number = n := by
  rcases n with _ | _ | _ | _ | _ | _ | n <;> first | exact ⟨_, rfl, rfl⟩ | omega

theorem condition_refused {n : Nat} (h : ¬ n ≤ 5) : Condition.ofNumber? n = none := by
  rcases n with _ | _ | _ | _ | _ | _ | n <;> first | rfl | omega

theorem mode_accepted {n : Nat} (h : n ≤ 2) : ∃ t, Mode.ofNumber? n = some t ∧ t.number = n := by
  rcases n with _ | _ | _ | n <;> first | exact ⟨_, rfl, rfl⟩ | omega

theorem mode_refused {n : Nat} (h : ¬ n ≤ 2) : Mode.ofNumber? n = none := by
  rcases n with _ | _ | _ | n <;> first | rfl | omega

theorem unitSize_accepted {n : Nat} (h : n ∈ [1, 2, 4, 8]) : ∃ t, UnitSize.ofBytes? n = some t ∧ t.bytes = n := by
  simp only [List.mem_cons, List.not_mem_nil, or_false] at h
  rcases h with rfl | rfl | rfl | rfl <;> exact ⟨_, rfl, rfl⟩

theorem unitSize_refused {n : Nat} (h : n ∉ [1, 2, 4, 8]) : UnitSize.ofBytes? n = none := by
  unfold UnitSize.ofBytes?
  split <;> simp_all

/-- A side parses when its window and stepping are in range. -/
theorem parseSide_accepted {a : PortWords} {lo : Nat} {sw : Fin 16} (hw : field (a.get 3) lo 8 ≤ 15)
    (hs : field (a.get 3) (lo + 8) 4 ≤ 3) :
    ∃ t, parseSide a lo sw = some t ∧ t.window.val = field (a.get 3) lo 8 ∧
      t.stepping.number = field (a.get 3) (lo + 8) 4 ∧ t.start = a.get sw := by
  obtain ⟨t, e1, e2⟩ := stepping_accepted hs
  exact ⟨{ window := ⟨field (a.get 3) lo 8, by omega⟩, start := a.get sw, stepping := t },
    by simp [parseSide, index?_below (show field (a.get 3) lo 8 < 16 by omega), e1], rfl, e2, rfl⟩

theorem parseSide_refused {a : PortWords} {lo : Nat} {sw : Fin 16}
    (h : ¬ (field (a.get 3) lo 8 ≤ 15 ∧ field (a.get 3) (lo + 8) 4 ≤ 3)) : parseSide a lo sw = none := by
  unfold parseSide
  by_cases hw : field (a.get 3) lo 8 ≤ 15
  · simp [stepping_refused fun hs => h ⟨hw, hs⟩]
  · simp [index?_above (show ¬ field (a.get 3) lo 8 < 16 by omega)]

theorem parseStrobe_accepted {a : PortWords} (h : field (a.get 2) 16 4 ≤ 7) :
    ∃ t, parseStrobe a = some t ∧ t.channel.val = field (a.get 2) 16 4 ∧ t.endPulse = bit (a.get 2) 20 :=
  ⟨{ channel := ⟨field (a.get 2) 16 4, by omega⟩, endPulse := bit (a.get 2) 20 },
    by simp [parseStrobe, index?_below (show field (a.get 2) 16 4 < 8 by omega)], rfl, rfl⟩

theorem parseStrobe_refused {a : PortWords} (h : ¬ field (a.get 2) 16 4 ≤ 7) : parseStrobe a = none := by
  simp [parseStrobe, index?_above (show ¬ field (a.get 2) 16 4 < 8 by omega)]

/-- A guard parses when its window, condition and alignment are in range. -/
theorem parseGuard_accepted {a : PortWords} (hw : field (a.get 8) 0 8 ≤ 15) (hc : field (a.get 8) 8 4 ≤ 5)
    (ha : (a.get 9).toNat % 4 = 0) :
    ∃ g, parseGuard a = some g ∧ g.window.val = field (a.get 8) 0 8 ∧ g.condition.number = field (a.get 8) 8 4 ∧
      g.offset = a.get 9 ∧ g.mask = a.get 10 ∧ g.reference = a.get 11 := by
  obtain ⟨t, e1, e2⟩ := condition_accepted hc
  exact ⟨{ window := ⟨field (a.get 8) 0 8, by omega⟩, offset := a.get 9, mask := a.get 10, reference := a.get 11,
           condition := t },
    by simp [parseGuard, index?_below (show field (a.get 8) 0 8 < 16 by omega), e1, ha], rfl, e2, rfl, rfl, rfl⟩

theorem parseGuard_refused {a : PortWords}
    (h : ¬ (field (a.get 8) 0 8 ≤ 15 ∧ field (a.get 8) 8 4 ≤ 5 ∧ (a.get 9).toNat % 4 = 0)) : parseGuard a = none := by
  unfold parseGuard
  by_cases hw : field (a.get 8) 0 8 ≤ 15
  · by_cases hc : field (a.get 8) 8 4 ≤ 5
    · obtain ⟨t, e1, -⟩ := condition_accepted hc
      have ha : ¬ (a.get 9).toNat % 4 = 0 := fun ha => h ⟨hw, hc, ha⟩
      simp only [index?_below (show field (a.get 8) 0 8 < 16 by omega), e1, ha]
      rfl
    · simp [condition_refused hc]
  · simp [index?_above (show ¬ field (a.get 8) 0 8 < 16 by omega)]

/-- A part that is not marked present is absent; one that is marked must parse. -/
@[simp] theorem parseOptional_absent {α : Type} (part : Option α) : parseOptional false part = some none := rfl

@[simp] theorem parseOptional_present {α : Type} (part : Option α) : parseOptional true part = part.map some := rfl

end Sys2Proof.Machine
end

