-- ==== Sys2Proof/Laws/DescOk.lean ====
section
/-! SUPPORT. `Desc.Ok` (R2, R5, R7, R110, R124, R140) under each change a record goes through. -/

namespace Sys2Proof.Machine

theorem saturate_le {n : Nat} (h : n ≤ Config.saturation) : saturate n ≤ Config.saturation := by
  unfold saturate
  by_cases hn : n < Config.saturation
  · rw [if_pos hn]; exact hn
  · rw [if_neg hn]; exact h

namespace Desc

/-- The part of `Desc.Ok` that holds of the ACTIVE descriptor's record even when its last block has just ended. -/
def Bounded (x : Desc) : Prop :=
  x.st.Ok ∧ x.Conserves ∧ x.pr.pending ≤ Config.maxPending ∧ x.pr.missed ≤ Config.saturation ∧
    x.pr.reloads ≤ Config.saturation ∧ x.pr.lease ≤ x.st.initialLease

variable {x : Desc}

theorem Ok.bounded (h : x.Ok) : x.Bounded := by
  obtain ⟨h1, h2, -, h3, -⟩ := h
  exact ⟨h1, h2, h3.1, h3.2.1, h3.2.2.1, h3.2.2.2.1⟩

theorem Ok.static (h : x.Ok) : x.st.Ok := h.1

theorem Ok.stop_none (h : x.Ok) (hx : x.state ≠ .active) : x.pr.stop = .none := by
  by_contra hc; exact hx (h.2.2.2.2.1 hc)

theorem Ok.resume_clear (h : x.Ok) (hx : x.state ≠ .queued) : x.pr.resume = false := by
  have := h.2.2.2.1.2.2.2.2.2.2.2
  by_contra hc; exact hx (this (by simpa using hc))

theorem Ok.retired_none (h : x.Ok) (hx : x.state ≠ .retired) : x.pr.retired = none := by
  have := h.2.2.2.2.2
  by_contra hc
  exact hx (this.1 (Option.isSome_iff_ne_none.2 hc))

theorem Ok.blocks (h : x.Ok) (hx : x.state ≠ .retired) : x.pr.blocksRem ≠ 0 := fun hc => hx (h.2.2.1 hc).1

/-- What makes a record right, given its bounds. -/
theorem Bounded.ok (h : x.Bounded)
    (hb : x.pr.blocksRem = 0 → x.state = .retired ∧ x.pr.retired = some { reason := .done, detail := none })
    (h0 : x.state = .loaded ∨ x.state = .armed ∨ x.state = .retired → x.pr.pending = 0)
    (hq : x.state = .queued → 1 ≤ x.pr.pending ∨ x.pr.resume = true) (hw : x.state = .waiting → 1 ≤ x.pr.pending)
    (hr : x.pr.resume = true → x.state = .queued) (hs : x.pr.stop ≠ .none → x.state = .active)
    (ht : x.pr.retired.isSome = true ↔ x.state = .retired) : x.Ok :=
  ⟨h.1, h.2.1, hb, ⟨h.2.2.1, h.2.2.2.1, h.2.2.2.2.1, h.2.2.2.2.2, h0, hq, hw, hr⟩, hs, ht⟩

theorem Bounded.retire_ok (h : x.Bounded) (c : Code) (det : Option (SideName × Offset))
    (hb : x.pr.blocksRem = 0 → c = .done ∧ det = none) : (x.retire c det).Ok := by
  obtain ⟨h1, h2, h3, h4, h5, h6⟩ := h
  refine Bounded.ok ⟨h1, h2, Nat.zero_le _, h4, h5, h6⟩ ?_ ?_ ?_ ?_ ?_ ?_ ?_ <;>
    simp [Desc.retire, Desc.withProgress]
  exact hb

theorem initial_ok {st : StaticPart} (h : st.Ok) (state : DescState) (owner : PortIx)
    (hs : state = .loaded ∨ state = .armed) : Desc.Ok { state, owner, st, pr := Progress.initial st } := by
  have hb := h.1
  have hc := h.2.2.1
  refine Bounded.ok ⟨h, ⟨?_, ?_⟩, ?_, ?_, ?_, ?_⟩ ?_ ?_ ?_ ?_ ?_ ?_ ?_ <;>
    rcases hs with rfl | rfl <;> simp [Progress.initial] <;> omega

/-- Changing the counts of a record that stays in its state. -/
theorem Ok.counts (h : x.Ok) (pending missed lease : Nat) (hp : pending ≤ Config.maxPending)
    (hp1 : x.pr.pending ≤ pending) (hl : x.state ≠ .loaded ∧ x.state ≠ .armed ∧ x.state ≠ .retired ∨ pending = 0)
    (hm : missed ≤ Config.saturation) (hle : lease ≤ x.st.initialLease) :
    Desc.Ok { x with pr := { x.pr with pending, missed, lease } } := by
  obtain ⟨h1, h2, h3, ⟨-, -, h6, -, h8, h9, h10, h11⟩, h12, h13⟩ := h
  refine ⟨h1, h2, h3, ⟨hp, hm, h6, hle, ?_, ?_, ?_, h11⟩, h12, h13⟩
  · intro hs; rcases hl with hl | hl
    · rcases hs with hs | hs | hs <;> simp_all
    · exact hl
  · intro hs; rcases h9 hs with h | h
    · exact .inl (Nat.le_trans h hp1)
    · exact .inr h
  · intro hs; exact Nat.le_trans (h10 hs) hp1

theorem Ok.lease (h : x.Ok) (n : Nat) (hn : n ≤ x.st.initialLease) :
    Desc.Ok { x with pr := { x.pr with lease := n } } := by
  obtain ⟨h1, h2, h3, ⟨h4, h5, h6, -, h8⟩, h9⟩ := h
  exact ⟨h1, h2, h3, ⟨h4, h5, h6, hn, h8⟩, h9⟩

theorem Ok.missed (h : x.Ok) : Desc.Ok { x with pr := { x.pr with missed := saturate x.pr.missed } } := by
  obtain ⟨h1, h2, h3, ⟨h4, h5, h6⟩, h9⟩ := h
  exact ⟨h1, h2, h3, ⟨h4, saturate_le h5, h6⟩, h9⟩

/-- A trigger accepted on a live record (R22). -/
theorem Ok.accept (h : x.Ok) (hp : x.pr.pending < Config.maxPending) (hl : x.state ≠ .loaded)
    (hr : x.state ≠ .retired) :
    Desc.Ok (x.withProgress (if x.state = .armed then .queued else x.state)
      { x.pr with pending := x.pr.pending + 1 }) := by
  obtain ⟨h1, h2, h3, ⟨h4, h5, h6, h7, h8, h9, h10, h11⟩, h12, h13⟩ := h
  refine ⟨h1, h2, ?_, ⟨hp, h5, h6, h7, ?_, ?_, ?_, ?_⟩, ?_, ?_⟩ <;> simp only [Desc.withProgress]
  · intro hb; exact absurd (h3 hb).1 hr
  · split <;> simp_all
  · intro _; omega
  · intro _; omega
  · intro hres; have := h11 hres; simp [this]
  · intro hs; have := h12 hs; simp [this]
  · rw [h13]; split <;> simp_all

/-- A stop request recorded on, or taken back from, an ACTIVE record (R125, R56). -/
theorem Ok.stop (h : x.Ok) (hx : x.state = .active) (r : StopRequest) :
    Desc.Ok { x with pr := { x.pr with stop := r } } := by
  obtain ⟨h1, h2, h3, h4, h5, h6⟩ := h
  exact ⟨h1, h2, h3, h4, fun _ => hx, h6⟩

theorem Ok.renew (h : x.Ok) : x.renew.Ok := by
  obtain ⟨h1, h2, h3, ⟨h4, h5, h6, h7, h8⟩, h12, h13⟩ := h
  refine ⟨h1, h2, h3, ⟨h4, h5, h6, Nat.le_refl _, h8⟩, ?_, h13⟩
  simp only [Desc.renew]; intro hs; split at hs
  · exact absurd rfl hs
  · exact h12 hs

/-- DISARM (R20). -/
theorem Ok.disarm (h : x.Ok) (hx : x.state = .armed ∨ x.state = .queued ∨ x.state = .waiting) :
    Desc.Ok (x.withProgress .loaded { x.pr with pending := 0, resume := false }) := by
  have hr : x.state ≠ .retired := by rcases hx with h | h | h <;> simp [h]
  have ha : x.state ≠ .active := by rcases hx with h | h | h <;> simp [h]
  have hb := h.blocks hr
  have hs := h.stop_none ha
  have ht := h.retired_none hr
  obtain ⟨h1, h2, h3, h4, h5, h6⟩ := h.bounded
  refine Bounded.ok ⟨h1, h2, Nat.zero_le _, h4, h5, h6⟩ ?_ ?_ ?_ ?_ ?_ ?_ ?_ <;> simp [Desc.withProgress, hb, hs, ht]

/-- A record that leaves ACTIVE, or WAITING, without ending, or enters ACTIVE from the queue. -/
theorem Ok.move (h : x.Ok) (hx : x.state ≠ .retired) (state : DescState) (pending : Nat) (resume : Bool)
    (hs : x.pr.stop = .none) (hp : pending ≤ Config.maxPending) (hst : state ≠ .retired)
    (h0 : state = .loaded ∨ state = .armed → pending = 0) (hq : state = .queued → 1 ≤ pending ∨ resume = true)
    (hw : state = .waiting → 1 ≤ pending) (hr : resume = true → state = .queued) :
    Desc.Ok (x.withProgress state { x.pr with pending, resume }) := by
  have hb := h.blocks hx
  have ht := h.retired_none hx
  obtain ⟨h1, h2, h3, h4, h5, h6⟩ := h.bounded
  refine Bounded.ok ⟨h1, h2, hp, h4, h5, h6⟩ ?_ ?_ ?_ ?_ ?_ ?_ ?_ <;>
    simp only [Desc.withProgress, hs, ht]
  · exact fun hc => absurd hc hb
  · intro hc; rcases hc with hc | hc | hc
    · exact h0 (.inl hc)
    · exact h0 (.inr hc)
    · exact absurd hc hst
  · exact hq
  · exact hw
  · exact hr
  · simp
  · simp [hst]

/-- A completed unit (R91) keeps the sum of R110. -/
theorem Ok.afterUnit (h : x.Ok) (hx : x.state ≠ .retired) :
    Bounded { x with pr := x.pr.afterUnit x.st } := by
  have hb := h.blocks hx
  obtain ⟨h1, ⟨h2, h2'⟩, h3, h4, h5, h6⟩ := h.bounded
  refine ⟨h1, ⟨?_, ?_⟩, h3, h4, h5, h6⟩
  · simp only [Progress.afterUnit, beq_iff_eq]
    obtain ⟨n, hn⟩ := Nat.exists_eq_succ_of_ne_zero hb
    rw [hn] at h2 ⊢
    by_cases he : x.pr.unitsInBlock + 1 = x.st.blockLen
    · simp only [he, if_true, Nat.succ_sub_one]
      have : (n.succ) * x.st.blockLen = n * x.st.blockLen + x.st.blockLen := Nat.succ_mul _ _
      omega
    · simp only [he, if_false]; omega
  · simp only [Progress.afterUnit, beq_iff_eq]
    have := h1.1
    split <;> omega

/-- A reload (R131). -/
theorem Bounded.reload_ok (h : x.Bounded) :
    Desc.Ok (x.withProgress (if 0 < x.pr.pending then .queued else .armed) (x.pr.afterReload x.st)) := by
  obtain ⟨h1, h2, h3, h4, h5, h6⟩ := h
  have hb := h1.1
  have hc := h1.2.2.1
  have hs := saturate_le h5
  refine Bounded.ok ⟨h1, ⟨?_, ?_⟩, h3, h4, hs, Nat.le_refl _⟩ ?_ ?_ ?_ ?_ ?_ ?_ ?_ <;>
    simp only [Desc.withProgress, Progress.afterReload, Progress.initial]
  · omega
  · omega
  · intro hc; omega
  · by_cases hp : 0 < x.pr.pending <;> simp [hp]; omega
  · by_cases hp : 0 < x.pr.pending <;> simp [hp]; omega
  · by_cases hp : 0 < x.pr.pending <;> simp [hp]
  · simp
  · simp
  · by_cases hp : 0 < x.pr.pending <;> simp [hp]

end Desc

end Sys2Proof.Machine
end

