-- ==== Sys2Proof/Laws/State.lean ====
section
/-! SUPPORT. What each plain update of State does to each field: true by rfl, one line a field. -/

namespace Sys2Proof.Machine.State

variable (s : State)

/-! ### putPort -/

@[simp] theorem putPort_ports (p : PortIx) (r : PortRec) : (s.putPort p r).ports = s.ports.put p r := rfl
@[simp] theorem putPort_faultDropped (p : PortIx) (r : PortRec) : (s.putPort p r).faultDropped = s.faultDropped := rfl
@[simp] theorem putPort_withdrawSeen (p : PortIx) (r : PortRec) : (s.putPort p r).withdrawSeen = s.withdrawSeen := rfl
@[simp] theorem putPort_fnu (p : PortIx) (r : PortRec) : (s.putPort p r).fnu = s.fnu := rfl
@[simp] theorem putPort_intOut (p : PortIx) (r : PortRec) : (s.putPort p r).intOut = s.intOut := rfl
@[simp] theorem putPort_windows (p : PortIx) (r : PortRec) : (s.putPort p r).windows = s.windows := rfl
@[simp] theorem putPort_gates (p : PortIx) (r : PortRec) : (s.putPort p r).gates = s.gates := rfl
@[simp] theorem putPort_routes (p : PortIx) (r : PortRec) : (s.putPort p r).routes = s.routes := rfl
@[simp] theorem putPort_lineSeen (p : PortIx) (r : PortRec) : (s.putPort p r).lineSeen = s.lineSeen := rfl
@[simp] theorem putPort_descs (p : PortIx) (r : PortRec) : (s.putPort p r).descs = s.descs := rfl
@[simp] theorem putPort_sweepMarks (p : PortIx) (r : PortRec) : (s.putPort p r).sweepMarks = s.sweepMarks := rfl
@[simp] theorem putPort_ready (p : PortIx) (r : PortRec) : (s.putPort p r).ready = s.ready := rfl
@[simp] theorem putPort_engine (p : PortIx) (r : PortRec) : (s.putPort p r).engine = s.engine := rfl
@[simp] theorem putPort_master (p : PortIx) (r : PortRec) : (s.putPort p r).master = s.master := rfl
@[simp] theorem putPort_channels (p : PortIx) (r : PortRec) : (s.putPort p r).channels = s.channels := rfl
@[simp] theorem putPort_strobeLimit (p : PortIx) (r : PortRec) : (s.putPort p r).strobeLimit = s.strobeLimit := rfl
@[simp] theorem putPort_endPulses (p : PortIx) (r : PortRec) : (s.putPort p r).endPulses = s.endPulses := rfl
@[simp] theorem putPort_sweep (p : PortIx) (r : PortRec) : (s.putPort p r).sweep = s.sweep := rfl
@[simp] theorem putPort_resetHeld (p : PortIx) (r : PortRec) : (s.putPort p r).resetHeld = s.resetHeld := rfl
@[simp] theorem putPort_handed (p : PortIx) (r : PortRec) : (s.putPort p r).handed = s.handed := rfl
@[simp] theorem putPort_lateClears (p : PortIx) (r : PortRec) : (s.putPort p r).lateClears = s.lateClears := rfl
@[simp] theorem putPort_verdicts (p : PortIx) (r : PortRec) : (s.putPort p r).verdicts = s.verdicts := rfl
@[simp] theorem putPort_lineInvs (p : PortIx) (r : PortRec) : (s.putPort p r).lineInvs = s.lineInvs := rfl
@[simp] theorem putPort_invocations (p : PortIx) (r : PortRec) : (s.putPort p r).invocations = s.invocations := rfl
@[simp] theorem putPort_chains (p : PortIx) (r : PortRec) : (s.putPort p r).chains = s.chains := rfl
@[simp] theorem putPort_endReqs (p : PortIx) (r : PortRec) : (s.putPort p r).endReqs = s.endReqs := rfl
@[simp] theorem putPort_reports (p : PortIx) (r : PortRec) : (s.putPort p r).reports = s.reports := rfl
@[simp] theorem putPort_guardResults (p : PortIx) (r : PortRec) : (s.putPort p r).guardResults = s.guardResults := rfl
@[simp] theorem putPort_freed (p : PortIx) (r : PortRec) : (s.putPort p r).freed = s.freed := rfl
@[simp] theorem putPort_pending (p : PortIx) (r : PortRec) : (s.putPort p r).pending = s.pending := rfl

/-! ### putNotice -/

@[simp] theorem putNotice_ports (p : PortIx) (r : NoticeRec) : (s.putNotice p r).ports = s.ports := rfl
@[simp] theorem putNotice_faultDropped (p : PortIx) (r : NoticeRec) :
    (s.putNotice p r).faultDropped = s.faultDropped := rfl
@[simp] theorem putNotice_withdrawSeen (p : PortIx) (r : NoticeRec) :
    (s.putNotice p r).withdrawSeen = s.withdrawSeen := rfl
@[simp] theorem putNotice_fnu (p : PortIx) (r : NoticeRec) : (s.putNotice p r).fnu = s.fnu.put p r := rfl
@[simp] theorem putNotice_intOut (p : PortIx) (r : NoticeRec) : (s.putNotice p r).intOut = s.intOut := rfl
@[simp] theorem putNotice_windows (p : PortIx) (r : NoticeRec) : (s.putNotice p r).windows = s.windows := rfl
@[simp] theorem putNotice_gates (p : PortIx) (r : NoticeRec) : (s.putNotice p r).gates = s.gates := rfl
@[simp] theorem putNotice_routes (p : PortIx) (r : NoticeRec) : (s.putNotice p r).routes = s.routes := rfl
@[simp] theorem putNotice_lineSeen (p : PortIx) (r : NoticeRec) : (s.putNotice p r).lineSeen = s.lineSeen := rfl
@[simp] theorem putNotice_descs (p : PortIx) (r : NoticeRec) : (s.putNotice p r).descs = s.descs := rfl
@[simp] theorem putNotice_sweepMarks (p : PortIx) (r : NoticeRec) : (s.putNotice p r).sweepMarks = s.sweepMarks := rfl
@[simp] theorem putNotice_ready (p : PortIx) (r : NoticeRec) : (s.putNotice p r).ready = s.ready := rfl
@[simp] theorem putNotice_engine (p : PortIx) (r : NoticeRec) : (s.putNotice p r).engine = s.engine := rfl
@[simp] theorem putNotice_master (p : PortIx) (r : NoticeRec) : (s.putNotice p r).master = s.master := rfl
@[simp] theorem putNotice_channels (p : PortIx) (r : NoticeRec) : (s.putNotice p r).channels = s.channels := rfl
@[simp] theorem putNotice_strobeLimit (p : PortIx) (r : NoticeRec) :
    (s.putNotice p r).strobeLimit = s.strobeLimit := rfl
@[simp] theorem putNotice_endPulses (p : PortIx) (r : NoticeRec) : (s.putNotice p r).endPulses = s.endPulses := rfl
@[simp] theorem putNotice_sweep (p : PortIx) (r : NoticeRec) : (s.putNotice p r).sweep = s.sweep := rfl
@[simp] theorem putNotice_resetHeld (p : PortIx) (r : NoticeRec) : (s.putNotice p r).resetHeld = s.resetHeld := rfl
@[simp] theorem putNotice_handed (p : PortIx) (r : NoticeRec) : (s.putNotice p r).handed = s.handed := rfl
@[simp] theorem putNotice_lateClears (p : PortIx) (r : NoticeRec) : (s.putNotice p r).lateClears = s.lateClears := rfl
@[simp] theorem putNotice_verdicts (p : PortIx) (r : NoticeRec) : (s.putNotice p r).verdicts = s.verdicts := rfl
@[simp] theorem putNotice_lineInvs (p : PortIx) (r : NoticeRec) : (s.putNotice p r).lineInvs = s.lineInvs := rfl
@[simp] theorem putNotice_invocations (p : PortIx) (r : NoticeRec) :
    (s.putNotice p r).invocations = s.invocations := rfl
@[simp] theorem putNotice_chains (p : PortIx) (r : NoticeRec) : (s.putNotice p r).chains = s.chains := rfl
@[simp] theorem putNotice_endReqs (p : PortIx) (r : NoticeRec) : (s.putNotice p r).endReqs = s.endReqs := rfl
@[simp] theorem putNotice_reports (p : PortIx) (r : NoticeRec) : (s.putNotice p r).reports = s.reports := rfl
@[simp] theorem putNotice_guardResults (p : PortIx) (r : NoticeRec) :
    (s.putNotice p r).guardResults = s.guardResults := rfl
@[simp] theorem putNotice_freed (p : PortIx) (r : NoticeRec) : (s.putNotice p r).freed = s.freed := rfl
@[simp] theorem putNotice_pending (p : PortIx) (r : NoticeRec) : (s.putNotice p r).pending = s.pending := rfl

/-! ### putChannel -/

@[simp] theorem putChannel_ports (c : ChannelIx) (r : Channel) : (s.putChannel c r).ports = s.ports := rfl
@[simp] theorem putChannel_faultDropped (c : ChannelIx) (r : Channel) :
    (s.putChannel c r).faultDropped = s.faultDropped := rfl
@[simp] theorem putChannel_withdrawSeen (c : ChannelIx) (r : Channel) :
    (s.putChannel c r).withdrawSeen = s.withdrawSeen := rfl
@[simp] theorem putChannel_fnu (c : ChannelIx) (r : Channel) : (s.putChannel c r).fnu = s.fnu := rfl
@[simp] theorem putChannel_intOut (c : ChannelIx) (r : Channel) : (s.putChannel c r).intOut = s.intOut := rfl
@[simp] theorem putChannel_windows (c : ChannelIx) (r : Channel) : (s.putChannel c r).windows = s.windows := rfl
@[simp] theorem putChannel_gates (c : ChannelIx) (r : Channel) : (s.putChannel c r).gates = s.gates := rfl
@[simp] theorem putChannel_routes (c : ChannelIx) (r : Channel) : (s.putChannel c r).routes = s.routes := rfl
@[simp] theorem putChannel_lineSeen (c : ChannelIx) (r : Channel) : (s.putChannel c r).lineSeen = s.lineSeen := rfl
@[simp] theorem putChannel_descs (c : ChannelIx) (r : Channel) : (s.putChannel c r).descs = s.descs := rfl
@[simp] theorem putChannel_sweepMarks (c : ChannelIx) (r : Channel) :
    (s.putChannel c r).sweepMarks = s.sweepMarks := rfl
@[simp] theorem putChannel_ready (c : ChannelIx) (r : Channel) : (s.putChannel c r).ready = s.ready := rfl
@[simp] theorem putChannel_engine (c : ChannelIx) (r : Channel) : (s.putChannel c r).engine = s.engine := rfl
@[simp] theorem putChannel_master (c : ChannelIx) (r : Channel) : (s.putChannel c r).master = s.master := rfl
@[simp] theorem putChannel_channels (c : ChannelIx) (r : Channel) :
    (s.putChannel c r).channels = s.channels.put c r := rfl
@[simp] theorem putChannel_strobeLimit (c : ChannelIx) (r : Channel) :
    (s.putChannel c r).strobeLimit = s.strobeLimit := rfl
@[simp] theorem putChannel_endPulses (c : ChannelIx) (r : Channel) : (s.putChannel c r).endPulses = s.endPulses := rfl
@[simp] theorem putChannel_sweep (c : ChannelIx) (r : Channel) : (s.putChannel c r).sweep = s.sweep := rfl
@[simp] theorem putChannel_resetHeld (c : ChannelIx) (r : Channel) : (s.putChannel c r).resetHeld = s.resetHeld := rfl
@[simp] theorem putChannel_handed (c : ChannelIx) (r : Channel) : (s.putChannel c r).handed = s.handed := rfl
@[simp] theorem putChannel_lateClears (c : ChannelIx) (r : Channel) :
    (s.putChannel c r).lateClears = s.lateClears := rfl
@[simp] theorem putChannel_verdicts (c : ChannelIx) (r : Channel) : (s.putChannel c r).verdicts = s.verdicts := rfl
@[simp] theorem putChannel_lineInvs (c : ChannelIx) (r : Channel) : (s.putChannel c r).lineInvs = s.lineInvs := rfl
@[simp] theorem putChannel_invocations (c : ChannelIx) (r : Channel) :
    (s.putChannel c r).invocations = s.invocations := rfl
@[simp] theorem putChannel_chains (c : ChannelIx) (r : Channel) : (s.putChannel c r).chains = s.chains := rfl
@[simp] theorem putChannel_endReqs (c : ChannelIx) (r : Channel) : (s.putChannel c r).endReqs = s.endReqs := rfl
@[simp] theorem putChannel_reports (c : ChannelIx) (r : Channel) : (s.putChannel c r).reports = s.reports := rfl
@[simp] theorem putChannel_guardResults (c : ChannelIx) (r : Channel) :
    (s.putChannel c r).guardResults = s.guardResults := rfl
@[simp] theorem putChannel_freed (c : ChannelIx) (r : Channel) : (s.putChannel c r).freed = s.freed := rfl
@[simp] theorem putChannel_pending (c : ChannelIx) (r : Channel) : (s.putChannel c r).pending = s.pending := rfl

/-! ### putDesc -/

@[simp] theorem putDesc_ports (d : DescIx) (x : Option Desc) : (s.putDesc d x).ports = s.ports := rfl
@[simp] theorem putDesc_faultDropped (d : DescIx) (x : Option Desc) :
    (s.putDesc d x).faultDropped = s.faultDropped := rfl
@[simp] theorem putDesc_withdrawSeen (d : DescIx) (x : Option Desc) :
    (s.putDesc d x).withdrawSeen = s.withdrawSeen := rfl
@[simp] theorem putDesc_fnu (d : DescIx) (x : Option Desc) : (s.putDesc d x).fnu = s.fnu := rfl
@[simp] theorem putDesc_intOut (d : DescIx) (x : Option Desc) : (s.putDesc d x).intOut = s.intOut := rfl
@[simp] theorem putDesc_windows (d : DescIx) (x : Option Desc) : (s.putDesc d x).windows = s.windows := rfl
@[simp] theorem putDesc_gates (d : DescIx) (x : Option Desc) : (s.putDesc d x).gates = s.gates := rfl
@[simp] theorem putDesc_routes (d : DescIx) (x : Option Desc) : (s.putDesc d x).routes = s.routes := rfl
@[simp] theorem putDesc_lineSeen (d : DescIx) (x : Option Desc) : (s.putDesc d x).lineSeen = s.lineSeen := rfl
@[simp] theorem putDesc_descs (d : DescIx) (x : Option Desc) : (s.putDesc d x).descs = s.descs.put d x := rfl
@[simp] theorem putDesc_sweepMarks (d : DescIx) (x : Option Desc) :
    (s.putDesc d x).sweepMarks = s.sweepMarks.put d (s.sweepMarks.get d && x.any fun x => x.state == .waiting) := rfl
@[simp] theorem putDesc_ready (d : DescIx) (x : Option Desc) : (s.putDesc d x).ready = s.ready := rfl
@[simp] theorem putDesc_engine (d : DescIx) (x : Option Desc) : (s.putDesc d x).engine = s.engine := rfl
@[simp] theorem putDesc_master (d : DescIx) (x : Option Desc) : (s.putDesc d x).master = s.master := rfl
@[simp] theorem putDesc_channels (d : DescIx) (x : Option Desc) : (s.putDesc d x).channels = s.channels := rfl
@[simp] theorem putDesc_strobeLimit (d : DescIx) (x : Option Desc) :
    (s.putDesc d x).strobeLimit = s.strobeLimit := rfl
@[simp] theorem putDesc_endPulses (d : DescIx) (x : Option Desc) : (s.putDesc d x).endPulses = s.endPulses := rfl
@[simp] theorem putDesc_sweep (d : DescIx) (x : Option Desc) : (s.putDesc d x).sweep = s.sweep := rfl
@[simp] theorem putDesc_resetHeld (d : DescIx) (x : Option Desc) : (s.putDesc d x).resetHeld = s.resetHeld := rfl
@[simp] theorem putDesc_handed (d : DescIx) (x : Option Desc) : (s.putDesc d x).handed = s.handed := rfl
@[simp] theorem putDesc_lateClears (d : DescIx) (x : Option Desc) : (s.putDesc d x).lateClears = s.lateClears := rfl
@[simp] theorem putDesc_verdicts (d : DescIx) (x : Option Desc) : (s.putDesc d x).verdicts = s.verdicts := rfl
@[simp] theorem putDesc_lineInvs (d : DescIx) (x : Option Desc) : (s.putDesc d x).lineInvs = s.lineInvs := rfl
@[simp] theorem putDesc_invocations (d : DescIx) (x : Option Desc) :
    (s.putDesc d x).invocations = s.invocations := rfl
@[simp] theorem putDesc_chains (d : DescIx) (x : Option Desc) : (s.putDesc d x).chains = s.chains := rfl
@[simp] theorem putDesc_endReqs (d : DescIx) (x : Option Desc) : (s.putDesc d x).endReqs = s.endReqs := rfl
@[simp] theorem putDesc_reports (d : DescIx) (x : Option Desc) : (s.putDesc d x).reports = s.reports := rfl
@[simp] theorem putDesc_guardResults (d : DescIx) (x : Option Desc) :
    (s.putDesc d x).guardResults = s.guardResults := rfl
@[simp] theorem putDesc_freed (d : DescIx) (x : Option Desc) : (s.putDesc d x).freed = s.freed := rfl
@[simp] theorem putDesc_pending (d : DescIx) (x : Option Desc) : (s.putDesc d x).pending = s.pending := rfl

/-! ### enterWaiting -/

@[simp] theorem enterWaiting_ports (d : DescIx) (x : Desc) : (s.enterWaiting d x).ports = s.ports := rfl
@[simp] theorem enterWaiting_faultDropped (d : DescIx) (x : Desc) :
    (s.enterWaiting d x).faultDropped = s.faultDropped := rfl
@[simp] theorem enterWaiting_withdrawSeen (d : DescIx) (x : Desc) :
    (s.enterWaiting d x).withdrawSeen = s.withdrawSeen := rfl
@[simp] theorem enterWaiting_fnu (d : DescIx) (x : Desc) : (s.enterWaiting d x).fnu = s.fnu := rfl
@[simp] theorem enterWaiting_intOut (d : DescIx) (x : Desc) : (s.enterWaiting d x).intOut = s.intOut := rfl
@[simp] theorem enterWaiting_windows (d : DescIx) (x : Desc) : (s.enterWaiting d x).windows = s.windows := rfl
@[simp] theorem enterWaiting_gates (d : DescIx) (x : Desc) : (s.enterWaiting d x).gates = s.gates := rfl
@[simp] theorem enterWaiting_routes (d : DescIx) (x : Desc) : (s.enterWaiting d x).routes = s.routes := rfl
@[simp] theorem enterWaiting_lineSeen (d : DescIx) (x : Desc) : (s.enterWaiting d x).lineSeen = s.lineSeen := rfl
@[simp] theorem enterWaiting_descs (d : DescIx) (x : Desc) :
    (s.enterWaiting d x).descs = s.descs.put d (some { x with state := .waiting }) := rfl
@[simp] theorem enterWaiting_sweepMarks (d : DescIx) (x : Desc) :
    (s.enterWaiting d x).sweepMarks = s.sweepMarks.put d (s.sweepMarks.get d && true) := rfl
@[simp] theorem enterWaiting_ready (d : DescIx) (x : Desc) : (s.enterWaiting d x).ready = s.ready := rfl
@[simp] theorem enterWaiting_engine (d : DescIx) (x : Desc) : (s.enterWaiting d x).engine = s.engine := rfl
@[simp] theorem enterWaiting_master (d : DescIx) (x : Desc) : (s.enterWaiting d x).master = s.master := rfl
@[simp] theorem enterWaiting_channels (d : DescIx) (x : Desc) : (s.enterWaiting d x).channels = s.channels := rfl
@[simp] theorem enterWaiting_strobeLimit (d : DescIx) (x : Desc) :
    (s.enterWaiting d x).strobeLimit = s.strobeLimit := rfl
@[simp] theorem enterWaiting_endPulses (d : DescIx) (x : Desc) : (s.enterWaiting d x).endPulses = s.endPulses := rfl
@[simp] theorem enterWaiting_sweep (d : DescIx) (x : Desc) : (s.enterWaiting d x).sweep = s.sweep := rfl
@[simp] theorem enterWaiting_resetHeld (d : DescIx) (x : Desc) : (s.enterWaiting d x).resetHeld = s.resetHeld := rfl
@[simp] theorem enterWaiting_handed (d : DescIx) (x : Desc) : (s.enterWaiting d x).handed = s.handed := rfl
@[simp] theorem enterWaiting_lateClears (d : DescIx) (x : Desc) :
    (s.enterWaiting d x).lateClears = s.lateClears := rfl
@[simp] theorem enterWaiting_verdicts (d : DescIx) (x : Desc) : (s.enterWaiting d x).verdicts = s.verdicts := rfl
@[simp] theorem enterWaiting_lineInvs (d : DescIx) (x : Desc) : (s.enterWaiting d x).lineInvs = s.lineInvs := rfl
@[simp] theorem enterWaiting_invocations (d : DescIx) (x : Desc) :
    (s.enterWaiting d x).invocations = s.invocations := rfl
@[simp] theorem enterWaiting_chains (d : DescIx) (x : Desc) : (s.enterWaiting d x).chains = s.chains := rfl
@[simp] theorem enterWaiting_endReqs (d : DescIx) (x : Desc) : (s.enterWaiting d x).endReqs = s.endReqs := rfl
@[simp] theorem enterWaiting_reports (d : DescIx) (x : Desc) : (s.enterWaiting d x).reports = s.reports := rfl
@[simp] theorem enterWaiting_guardResults (d : DescIx) (x : Desc) :
    (s.enterWaiting d x).guardResults =
      s.guardResults.map fun r => if r.desc = d then { r with past := true } else r := rfl
@[simp] theorem enterWaiting_freed (d : DescIx) (x : Desc) : (s.enterWaiting d x).freed = s.freed := rfl
@[simp] theorem enterWaiting_pending (d : DescIx) (x : Desc) : (s.enterWaiting d x).pending = s.pending := rfl

/-! ### putReady -/

@[simp] theorem putReady_ports (k : Priority) (l : List DescIx) : (s.putReady k l).ports = s.ports := rfl
@[simp] theorem putReady_faultDropped (k : Priority) (l : List DescIx) :
    (s.putReady k l).faultDropped = s.faultDropped := rfl
@[simp] theorem putReady_withdrawSeen (k : Priority) (l : List DescIx) :
    (s.putReady k l).withdrawSeen = s.withdrawSeen := rfl
@[simp] theorem putReady_fnu (k : Priority) (l : List DescIx) : (s.putReady k l).fnu = s.fnu := rfl
@[simp] theorem putReady_intOut (k : Priority) (l : List DescIx) : (s.putReady k l).intOut = s.intOut := rfl
@[simp] theorem putReady_windows (k : Priority) (l : List DescIx) : (s.putReady k l).windows = s.windows := rfl
@[simp] theorem putReady_gates (k : Priority) (l : List DescIx) : (s.putReady k l).gates = s.gates := rfl
@[simp] theorem putReady_routes (k : Priority) (l : List DescIx) : (s.putReady k l).routes = s.routes := rfl
@[simp] theorem putReady_lineSeen (k : Priority) (l : List DescIx) : (s.putReady k l).lineSeen = s.lineSeen := rfl
@[simp] theorem putReady_descs (k : Priority) (l : List DescIx) : (s.putReady k l).descs = s.descs := rfl
@[simp] theorem putReady_sweepMarks (k : Priority) (l : List DescIx) :
    (s.putReady k l).sweepMarks = s.sweepMarks := rfl
@[simp] theorem putReady_ready (k : Priority) (l : List DescIx) : (s.putReady k l).ready = s.ready.put k l := rfl
@[simp] theorem putReady_engine (k : Priority) (l : List DescIx) : (s.putReady k l).engine = s.engine := rfl
@[simp] theorem putReady_master (k : Priority) (l : List DescIx) : (s.putReady k l).master = s.master := rfl
@[simp] theorem putReady_channels (k : Priority) (l : List DescIx) : (s.putReady k l).channels = s.channels := rfl
@[simp] theorem putReady_strobeLimit (k : Priority) (l : List DescIx) :
    (s.putReady k l).strobeLimit = s.strobeLimit := rfl
@[simp] theorem putReady_endPulses (k : Priority) (l : List DescIx) : (s.putReady k l).endPulses = s.endPulses := rfl
@[simp] theorem putReady_sweep (k : Priority) (l : List DescIx) : (s.putReady k l).sweep = s.sweep := rfl
@[simp] theorem putReady_resetHeld (k : Priority) (l : List DescIx) : (s.putReady k l).resetHeld = s.resetHeld := rfl
@[simp] theorem putReady_handed (k : Priority) (l : List DescIx) : (s.putReady k l).handed = s.handed := rfl
@[simp] theorem putReady_lateClears (k : Priority) (l : List DescIx) :
    (s.putReady k l).lateClears = s.lateClears := rfl
@[simp] theorem putReady_verdicts (k : Priority) (l : List DescIx) : (s.putReady k l).verdicts = s.verdicts := rfl
@[simp] theorem putReady_lineInvs (k : Priority) (l : List DescIx) : (s.putReady k l).lineInvs = s.lineInvs := rfl
@[simp] theorem putReady_invocations (k : Priority) (l : List DescIx) :
    (s.putReady k l).invocations = s.invocations := rfl
@[simp] theorem putReady_chains (k : Priority) (l : List DescIx) : (s.putReady k l).chains = s.chains := rfl
@[simp] theorem putReady_endReqs (k : Priority) (l : List DescIx) : (s.putReady k l).endReqs = s.endReqs := rfl
@[simp] theorem putReady_reports (k : Priority) (l : List DescIx) : (s.putReady k l).reports = s.reports := rfl
@[simp] theorem putReady_guardResults (k : Priority) (l : List DescIx) :
    (s.putReady k l).guardResults = s.guardResults := rfl
@[simp] theorem putReady_freed (k : Priority) (l : List DescIx) : (s.putReady k l).freed = s.freed := rfl
@[simp] theorem putReady_pending (k : Priority) (l : List DescIx) : (s.putReady k l).pending = s.pending := rfl

/-! ### insertTail -/

@[simp] theorem insertTail_ports (d : DescIx) (k : Priority) : (s.insertTail d k).ports = s.ports := rfl
@[simp] theorem insertTail_faultDropped (d : DescIx) (k : Priority) :
    (s.insertTail d k).faultDropped = s.faultDropped := rfl
@[simp] theorem insertTail_withdrawSeen (d : DescIx) (k : Priority) :
    (s.insertTail d k).withdrawSeen = s.withdrawSeen := rfl
@[simp] theorem insertTail_fnu (d : DescIx) (k : Priority) : (s.insertTail d k).fnu = s.fnu := rfl
@[simp] theorem insertTail_intOut (d : DescIx) (k : Priority) : (s.insertTail d k).intOut = s.intOut := rfl
@[simp] theorem insertTail_windows (d : DescIx) (k : Priority) : (s.insertTail d k).windows = s.windows := rfl
@[simp] theorem insertTail_gates (d : DescIx) (k : Priority) : (s.insertTail d k).gates = s.gates := rfl
@[simp] theorem insertTail_routes (d : DescIx) (k : Priority) : (s.insertTail d k).routes = s.routes := rfl
@[simp] theorem insertTail_lineSeen (d : DescIx) (k : Priority) : (s.insertTail d k).lineSeen = s.lineSeen := rfl
@[simp] theorem insertTail_descs (d : DescIx) (k : Priority) : (s.insertTail d k).descs = s.descs := rfl
@[simp] theorem insertTail_sweepMarks (d : DescIx) (k : Priority) :
    (s.insertTail d k).sweepMarks = s.sweepMarks := rfl
@[simp] theorem insertTail_ready (d : DescIx) (k : Priority) :
    (s.insertTail d k).ready = s.ready.put k (s.ready.get k ++ [d]) := rfl
@[simp] theorem insertTail_engine (d : DescIx) (k : Priority) : (s.insertTail d k).engine = s.engine := rfl
@[simp] theorem insertTail_master (d : DescIx) (k : Priority) : (s.insertTail d k).master = s.master := rfl
@[simp] theorem insertTail_channels (d : DescIx) (k : Priority) : (s.insertTail d k).channels = s.channels := rfl
@[simp] theorem insertTail_strobeLimit (d : DescIx) (k : Priority) :
    (s.insertTail d k).strobeLimit = s.strobeLimit := rfl
@[simp] theorem insertTail_endPulses (d : DescIx) (k : Priority) : (s.insertTail d k).endPulses = s.endPulses := rfl
@[simp] theorem insertTail_sweep (d : DescIx) (k : Priority) : (s.insertTail d k).sweep = s.sweep := rfl
@[simp] theorem insertTail_resetHeld (d : DescIx) (k : Priority) : (s.insertTail d k).resetHeld = s.resetHeld := rfl
@[simp] theorem insertTail_handed (d : DescIx) (k : Priority) : (s.insertTail d k).handed = s.handed := rfl
@[simp] theorem insertTail_lateClears (d : DescIx) (k : Priority) :
    (s.insertTail d k).lateClears = s.lateClears := rfl
@[simp] theorem insertTail_verdicts (d : DescIx) (k : Priority) : (s.insertTail d k).verdicts = s.verdicts := rfl
@[simp] theorem insertTail_lineInvs (d : DescIx) (k : Priority) : (s.insertTail d k).lineInvs = s.lineInvs := rfl
@[simp] theorem insertTail_invocations (d : DescIx) (k : Priority) :
    (s.insertTail d k).invocations = s.invocations := rfl
@[simp] theorem insertTail_chains (d : DescIx) (k : Priority) : (s.insertTail d k).chains = s.chains := rfl
@[simp] theorem insertTail_endReqs (d : DescIx) (k : Priority) : (s.insertTail d k).endReqs = s.endReqs := rfl
@[simp] theorem insertTail_reports (d : DescIx) (k : Priority) : (s.insertTail d k).reports = s.reports := rfl
@[simp] theorem insertTail_guardResults (d : DescIx) (k : Priority) :
    (s.insertTail d k).guardResults = s.guardResults := rfl
@[simp] theorem insertTail_freed (d : DescIx) (k : Priority) : (s.insertTail d k).freed = s.freed := rfl
@[simp] theorem insertTail_pending (d : DescIx) (k : Priority) : (s.insertTail d k).pending = s.pending := rfl

/-! ### insertHead -/

@[simp] theorem insertHead_ports (d : DescIx) (k : Priority) : (s.insertHead d k).ports = s.ports := rfl
@[simp] theorem insertHead_faultDropped (d : DescIx) (k : Priority) :
    (s.insertHead d k).faultDropped = s.faultDropped := rfl
@[simp] theorem insertHead_withdrawSeen (d : DescIx) (k : Priority) :
    (s.insertHead d k).withdrawSeen = s.withdrawSeen := rfl
@[simp] theorem insertHead_fnu (d : DescIx) (k : Priority) : (s.insertHead d k).fnu = s.fnu := rfl
@[simp] theorem insertHead_intOut (d : DescIx) (k : Priority) : (s.insertHead d k).intOut = s.intOut := rfl
@[simp] theorem insertHead_windows (d : DescIx) (k : Priority) : (s.insertHead d k).windows = s.windows := rfl
@[simp] theorem insertHead_gates (d : DescIx) (k : Priority) : (s.insertHead d k).gates = s.gates := rfl
@[simp] theorem insertHead_routes (d : DescIx) (k : Priority) : (s.insertHead d k).routes = s.routes := rfl
@[simp] theorem insertHead_lineSeen (d : DescIx) (k : Priority) : (s.insertHead d k).lineSeen = s.lineSeen := rfl
@[simp] theorem insertHead_descs (d : DescIx) (k : Priority) : (s.insertHead d k).descs = s.descs := rfl
@[simp] theorem insertHead_sweepMarks (d : DescIx) (k : Priority) :
    (s.insertHead d k).sweepMarks = s.sweepMarks := rfl
@[simp] theorem insertHead_ready (d : DescIx) (k : Priority) :
    (s.insertHead d k).ready = s.ready.put k (d :: s.ready.get k) := rfl
@[simp] theorem insertHead_engine (d : DescIx) (k : Priority) : (s.insertHead d k).engine = s.engine := rfl
@[simp] theorem insertHead_master (d : DescIx) (k : Priority) : (s.insertHead d k).master = s.master := rfl
@[simp] theorem insertHead_channels (d : DescIx) (k : Priority) : (s.insertHead d k).channels = s.channels := rfl
@[simp] theorem insertHead_strobeLimit (d : DescIx) (k : Priority) :
    (s.insertHead d k).strobeLimit = s.strobeLimit := rfl
@[simp] theorem insertHead_endPulses (d : DescIx) (k : Priority) : (s.insertHead d k).endPulses = s.endPulses := rfl
@[simp] theorem insertHead_sweep (d : DescIx) (k : Priority) : (s.insertHead d k).sweep = s.sweep := rfl
@[simp] theorem insertHead_resetHeld (d : DescIx) (k : Priority) : (s.insertHead d k).resetHeld = s.resetHeld := rfl
@[simp] theorem insertHead_handed (d : DescIx) (k : Priority) : (s.insertHead d k).handed = s.handed := rfl
@[simp] theorem insertHead_lateClears (d : DescIx) (k : Priority) :
    (s.insertHead d k).lateClears = s.lateClears := rfl
@[simp] theorem insertHead_verdicts (d : DescIx) (k : Priority) : (s.insertHead d k).verdicts = s.verdicts := rfl
@[simp] theorem insertHead_lineInvs (d : DescIx) (k : Priority) : (s.insertHead d k).lineInvs = s.lineInvs := rfl
@[simp] theorem insertHead_invocations (d : DescIx) (k : Priority) :
    (s.insertHead d k).invocations = s.invocations := rfl
@[simp] theorem insertHead_chains (d : DescIx) (k : Priority) : (s.insertHead d k).chains = s.chains := rfl
@[simp] theorem insertHead_endReqs (d : DescIx) (k : Priority) : (s.insertHead d k).endReqs = s.endReqs := rfl
@[simp] theorem insertHead_reports (d : DescIx) (k : Priority) : (s.insertHead d k).reports = s.reports := rfl
@[simp] theorem insertHead_guardResults (d : DescIx) (k : Priority) :
    (s.insertHead d k).guardResults = s.guardResults := rfl
@[simp] theorem insertHead_freed (d : DescIx) (k : Priority) : (s.insertHead d k).freed = s.freed := rfl
@[simp] theorem insertHead_pending (d : DescIx) (k : Priority) : (s.insertHead d k).pending = s.pending := rfl

/-! ### removeReady -/

@[simp] theorem removeReady_ports (d : DescIx) (k : Priority) : (s.removeReady d k).ports = s.ports := rfl
@[simp] theorem removeReady_faultDropped (d : DescIx) (k : Priority) :
    (s.removeReady d k).faultDropped = s.faultDropped := rfl
@[simp] theorem removeReady_withdrawSeen (d : DescIx) (k : Priority) :
    (s.removeReady d k).withdrawSeen = s.withdrawSeen := rfl
@[simp] theorem removeReady_fnu (d : DescIx) (k : Priority) : (s.removeReady d k).fnu = s.fnu := rfl
@[simp] theorem removeReady_intOut (d : DescIx) (k : Priority) : (s.removeReady d k).intOut = s.intOut := rfl
@[simp] theorem removeReady_windows (d : DescIx) (k : Priority) : (s.removeReady d k).windows = s.windows := rfl
@[simp] theorem removeReady_gates (d : DescIx) (k : Priority) : (s.removeReady d k).gates = s.gates := rfl
@[simp] theorem removeReady_routes (d : DescIx) (k : Priority) : (s.removeReady d k).routes = s.routes := rfl
@[simp] theorem removeReady_lineSeen (d : DescIx) (k : Priority) : (s.removeReady d k).lineSeen = s.lineSeen := rfl
@[simp] theorem removeReady_descs (d : DescIx) (k : Priority) : (s.removeReady d k).descs = s.descs := rfl
@[simp] theorem removeReady_sweepMarks (d : DescIx) (k : Priority) :
    (s.removeReady d k).sweepMarks = s.sweepMarks := rfl
@[simp] theorem removeReady_ready (d : DescIx) (k : Priority) :
    (s.removeReady d k).ready = s.ready.put k ((s.ready.get k).filter fun e => e != d) := rfl
@[simp] theorem removeReady_engine (d : DescIx) (k : Priority) : (s.removeReady d k).engine = s.engine := rfl
@[simp] theorem removeReady_master (d : DescIx) (k : Priority) : (s.removeReady d k).master = s.master := rfl
@[simp] theorem removeReady_channels (d : DescIx) (k : Priority) : (s.removeReady d k).channels = s.channels := rfl
@[simp] theorem removeReady_strobeLimit (d : DescIx) (k : Priority) :
    (s.removeReady d k).strobeLimit = s.strobeLimit := rfl
@[simp] theorem removeReady_endPulses (d : DescIx) (k : Priority) : (s.removeReady d k).endPulses = s.endPulses := rfl
@[simp] theorem removeReady_sweep (d : DescIx) (k : Priority) : (s.removeReady d k).sweep = s.sweep := rfl
@[simp] theorem removeReady_resetHeld (d : DescIx) (k : Priority) : (s.removeReady d k).resetHeld = s.resetHeld := rfl
@[simp] theorem removeReady_handed (d : DescIx) (k : Priority) : (s.removeReady d k).handed = s.handed := rfl
@[simp] theorem removeReady_lateClears (d : DescIx) (k : Priority) :
    (s.removeReady d k).lateClears = s.lateClears := rfl
@[simp] theorem removeReady_verdicts (d : DescIx) (k : Priority) : (s.removeReady d k).verdicts = s.verdicts := rfl
@[simp] theorem removeReady_lineInvs (d : DescIx) (k : Priority) : (s.removeReady d k).lineInvs = s.lineInvs := rfl
@[simp] theorem removeReady_invocations (d : DescIx) (k : Priority) :
    (s.removeReady d k).invocations = s.invocations := rfl
@[simp] theorem removeReady_chains (d : DescIx) (k : Priority) : (s.removeReady d k).chains = s.chains := rfl
@[simp] theorem removeReady_endReqs (d : DescIx) (k : Priority) : (s.removeReady d k).endReqs = s.endReqs := rfl
@[simp] theorem removeReady_reports (d : DescIx) (k : Priority) : (s.removeReady d k).reports = s.reports := rfl
@[simp] theorem removeReady_guardResults (d : DescIx) (k : Priority) :
    (s.removeReady d k).guardResults = s.guardResults := rfl
@[simp] theorem removeReady_freed (d : DescIx) (k : Priority) : (s.removeReady d k).freed = s.freed := rfl
@[simp] theorem removeReady_pending (d : DescIx) (k : Priority) : (s.removeReady d k).pending = s.pending := rfl

/-! ### evalInt -/

@[simp] theorem evalInt_ports (p : PortIx) : (s.evalInt p).ports = s.ports := rfl
@[simp] theorem evalInt_faultDropped (p : PortIx) : (s.evalInt p).faultDropped = s.faultDropped := rfl
@[simp] theorem evalInt_withdrawSeen (p : PortIx) : (s.evalInt p).withdrawSeen = s.withdrawSeen := rfl
@[simp] theorem evalInt_fnu (p : PortIx) : (s.evalInt p).fnu = s.fnu := rfl
@[simp] theorem evalInt_intOut (p : PortIx) : (s.evalInt p).intOut = s.intOut.put p (s.intCondition p) := rfl
@[simp] theorem evalInt_windows (p : PortIx) : (s.evalInt p).windows = s.windows := rfl
@[simp] theorem evalInt_gates (p : PortIx) : (s.evalInt p).gates = s.gates := rfl
@[simp] theorem evalInt_routes (p : PortIx) : (s.evalInt p).routes = s.routes := rfl
@[simp] theorem evalInt_lineSeen (p : PortIx) : (s.evalInt p).lineSeen = s.lineSeen := rfl
@[simp] theorem evalInt_descs (p : PortIx) : (s.evalInt p).descs = s.descs := rfl
@[simp] theorem evalInt_sweepMarks (p : PortIx) : (s.evalInt p).sweepMarks = s.sweepMarks := rfl
@[simp] theorem evalInt_ready (p : PortIx) : (s.evalInt p).ready = s.ready := rfl
@[simp] theorem evalInt_engine (p : PortIx) : (s.evalInt p).engine = s.engine := rfl
@[simp] theorem evalInt_master (p : PortIx) : (s.evalInt p).master = s.master := rfl
@[simp] theorem evalInt_channels (p : PortIx) : (s.evalInt p).channels = s.channels := rfl
@[simp] theorem evalInt_strobeLimit (p : PortIx) : (s.evalInt p).strobeLimit = s.strobeLimit := rfl
@[simp] theorem evalInt_endPulses (p : PortIx) : (s.evalInt p).endPulses = s.endPulses := rfl
@[simp] theorem evalInt_sweep (p : PortIx) : (s.evalInt p).sweep = s.sweep := rfl
@[simp] theorem evalInt_resetHeld (p : PortIx) : (s.evalInt p).resetHeld = s.resetHeld := rfl
@[simp] theorem evalInt_handed (p : PortIx) : (s.evalInt p).handed = s.handed := rfl
@[simp] theorem evalInt_lateClears (p : PortIx) : (s.evalInt p).lateClears = s.lateClears := rfl
@[simp] theorem evalInt_verdicts (p : PortIx) : (s.evalInt p).verdicts = s.verdicts := rfl
@[simp] theorem evalInt_lineInvs (p : PortIx) : (s.evalInt p).lineInvs = s.lineInvs := rfl
@[simp] theorem evalInt_invocations (p : PortIx) : (s.evalInt p).invocations = s.invocations := rfl
@[simp] theorem evalInt_chains (p : PortIx) : (s.evalInt p).chains = s.chains := rfl
@[simp] theorem evalInt_endReqs (p : PortIx) : (s.evalInt p).endReqs = s.endReqs := rfl
@[simp] theorem evalInt_reports (p : PortIx) : (s.evalInt p).reports = s.reports := rfl
@[simp] theorem evalInt_guardResults (p : PortIx) : (s.evalInt p).guardResults = s.guardResults := rfl
@[simp] theorem evalInt_freed (p : PortIx) : (s.evalInt p).freed = s.freed := rfl
@[simp] theorem evalInt_pending (p : PortIx) : (s.evalInt p).pending = s.pending := rfl

/-! ### handReport -/

@[simp] theorem handReport_ports (p : PortIx) (r : Report) : (s.handReport p r).ports = s.ports := rfl
@[simp] theorem handReport_faultDropped (p : PortIx) (r : Report) :
    (s.handReport p r).faultDropped = s.faultDropped := rfl
@[simp] theorem handReport_withdrawSeen (p : PortIx) (r : Report) :
    (s.handReport p r).withdrawSeen = s.withdrawSeen := rfl
@[simp] theorem handReport_fnu (p : PortIx) (r : Report) : (s.handReport p r).fnu = s.fnu := rfl
@[simp] theorem handReport_intOut (p : PortIx) (r : Report) : (s.handReport p r).intOut = s.intOut := rfl
@[simp] theorem handReport_windows (p : PortIx) (r : Report) : (s.handReport p r).windows = s.windows := rfl
@[simp] theorem handReport_gates (p : PortIx) (r : Report) : (s.handReport p r).gates = s.gates := rfl
@[simp] theorem handReport_routes (p : PortIx) (r : Report) : (s.handReport p r).routes = s.routes := rfl
@[simp] theorem handReport_lineSeen (p : PortIx) (r : Report) : (s.handReport p r).lineSeen = s.lineSeen := rfl
@[simp] theorem handReport_descs (p : PortIx) (r : Report) : (s.handReport p r).descs = s.descs := rfl
@[simp] theorem handReport_sweepMarks (p : PortIx) (r : Report) : (s.handReport p r).sweepMarks = s.sweepMarks := rfl
@[simp] theorem handReport_ready (p : PortIx) (r : Report) : (s.handReport p r).ready = s.ready := rfl
@[simp] theorem handReport_engine (p : PortIx) (r : Report) : (s.handReport p r).engine = s.engine := rfl
@[simp] theorem handReport_master (p : PortIx) (r : Report) : (s.handReport p r).master = s.master := rfl
@[simp] theorem handReport_channels (p : PortIx) (r : Report) : (s.handReport p r).channels = s.channels := rfl
@[simp] theorem handReport_strobeLimit (p : PortIx) (r : Report) :
    (s.handReport p r).strobeLimit = s.strobeLimit := rfl
@[simp] theorem handReport_endPulses (p : PortIx) (r : Report) : (s.handReport p r).endPulses = s.endPulses := rfl
@[simp] theorem handReport_sweep (p : PortIx) (r : Report) : (s.handReport p r).sweep = s.sweep := rfl
@[simp] theorem handReport_resetHeld (p : PortIx) (r : Report) : (s.handReport p r).resetHeld = s.resetHeld := rfl
@[simp] theorem handReport_handed (p : PortIx) (r : Report) : (s.handReport p r).handed = s.handed := rfl
@[simp] theorem handReport_lateClears (p : PortIx) (r : Report) : (s.handReport p r).lateClears = s.lateClears := rfl
@[simp] theorem handReport_verdicts (p : PortIx) (r : Report) : (s.handReport p r).verdicts = s.verdicts := rfl
@[simp] theorem handReport_lineInvs (p : PortIx) (r : Report) : (s.handReport p r).lineInvs = s.lineInvs := rfl
@[simp] theorem handReport_invocations (p : PortIx) (r : Report) :
    (s.handReport p r).invocations = s.invocations := rfl
@[simp] theorem handReport_chains (p : PortIx) (r : Report) : (s.handReport p r).chains = s.chains := rfl
@[simp] theorem handReport_endReqs (p : PortIx) (r : Report) : (s.handReport p r).endReqs = s.endReqs := rfl
@[simp] theorem handReport_reports (p : PortIx) (r : Report) :
    (s.handReport p r).reports = s.reports ++ [(p, r)] := rfl
@[simp] theorem handReport_guardResults (p : PortIx) (r : Report) :
    (s.handReport p r).guardResults = s.guardResults := rfl
@[simp] theorem handReport_freed (p : PortIx) (r : Report) : (s.handReport p r).freed = s.freed := rfl
@[simp] theorem handReport_pending (p : PortIx) (r : Report) : (s.handReport p r).pending = s.pending := rfl

/-! ### dropEngine -/

@[simp] theorem dropEngine_ports : (s.dropEngine).ports = s.ports := rfl
@[simp] theorem dropEngine_faultDropped : (s.dropEngine).faultDropped = s.faultDropped := rfl
@[simp] theorem dropEngine_withdrawSeen : (s.dropEngine).withdrawSeen = s.withdrawSeen := rfl
@[simp] theorem dropEngine_fnu : (s.dropEngine).fnu = s.fnu := rfl
@[simp] theorem dropEngine_intOut : (s.dropEngine).intOut = s.intOut := rfl
@[simp] theorem dropEngine_windows : (s.dropEngine).windows = s.windows := rfl
@[simp] theorem dropEngine_gates : (s.dropEngine).gates = s.gates := rfl
@[simp] theorem dropEngine_routes : (s.dropEngine).routes = s.routes := rfl
@[simp] theorem dropEngine_lineSeen : (s.dropEngine).lineSeen = s.lineSeen := rfl
@[simp] theorem dropEngine_descs : (s.dropEngine).descs = s.descs := rfl
@[simp] theorem dropEngine_sweepMarks : (s.dropEngine).sweepMarks = s.sweepMarks := rfl
@[simp] theorem dropEngine_ready : (s.dropEngine).ready = s.ready := rfl
@[simp] theorem dropEngine_engine : (s.dropEngine).engine = s.engine.dropped := rfl
@[simp] theorem dropEngine_master : (s.dropEngine).master = { s.master with engineClaim := false } := rfl
@[simp] theorem dropEngine_channels : (s.dropEngine).channels = s.channels := rfl
@[simp] theorem dropEngine_strobeLimit : (s.dropEngine).strobeLimit = s.strobeLimit := rfl
@[simp] theorem dropEngine_endPulses : (s.dropEngine).endPulses = s.endPulses := rfl
@[simp] theorem dropEngine_sweep : (s.dropEngine).sweep = s.sweep := rfl
@[simp] theorem dropEngine_resetHeld : (s.dropEngine).resetHeld = s.resetHeld := rfl
@[simp] theorem dropEngine_handed : (s.dropEngine).handed = s.handed := rfl
@[simp] theorem dropEngine_lateClears : (s.dropEngine).lateClears = s.lateClears := rfl
@[simp] theorem dropEngine_verdicts : (s.dropEngine).verdicts = s.verdicts := rfl
@[simp] theorem dropEngine_lineInvs : (s.dropEngine).lineInvs = s.lineInvs := rfl
@[simp] theorem dropEngine_invocations : (s.dropEngine).invocations = s.invocations := rfl
@[simp] theorem dropEngine_chains : (s.dropEngine).chains = s.chains := rfl
@[simp] theorem dropEngine_endReqs : (s.dropEngine).endReqs = s.endReqs := rfl
@[simp] theorem dropEngine_reports : (s.dropEngine).reports = s.reports := rfl
@[simp] theorem dropEngine_guardResults : (s.dropEngine).guardResults = s.guardResults := rfl
@[simp] theorem dropEngine_freed : (s.dropEngine).freed = s.freed := rfl
@[simp] theorem dropEngine_pending : (s.dropEngine).pending = s.pending := rfl

/-! ### freeHolder -/

@[simp] theorem freeHolder_ports : (s.freeHolder).ports = s.ports := rfl
@[simp] theorem freeHolder_faultDropped : (s.freeHolder).faultDropped = s.faultDropped := rfl
@[simp] theorem freeHolder_withdrawSeen : (s.freeHolder).withdrawSeen = s.withdrawSeen := rfl
@[simp] theorem freeHolder_fnu : (s.freeHolder).fnu = s.fnu := rfl
@[simp] theorem freeHolder_intOut : (s.freeHolder).intOut = s.intOut := rfl
@[simp] theorem freeHolder_windows : (s.freeHolder).windows = s.windows := rfl
@[simp] theorem freeHolder_gates : (s.freeHolder).gates = s.gates := rfl
@[simp] theorem freeHolder_routes : (s.freeHolder).routes = s.routes := rfl
@[simp] theorem freeHolder_lineSeen : (s.freeHolder).lineSeen = s.lineSeen := rfl
@[simp] theorem freeHolder_descs : (s.freeHolder).descs = s.descs := rfl
@[simp] theorem freeHolder_sweepMarks : (s.freeHolder).sweepMarks = s.sweepMarks := rfl
@[simp] theorem freeHolder_ready : (s.freeHolder).ready = s.ready := rfl
@[simp] theorem freeHolder_engine : (s.freeHolder).engine = s.engine := rfl
@[simp] theorem freeHolder_master : (s.freeHolder).master = { s.master with holder := none } := rfl
@[simp] theorem freeHolder_channels : (s.freeHolder).channels = s.channels := rfl
@[simp] theorem freeHolder_strobeLimit : (s.freeHolder).strobeLimit = s.strobeLimit := rfl
@[simp] theorem freeHolder_endPulses : (s.freeHolder).endPulses = s.endPulses := rfl
@[simp] theorem freeHolder_sweep : (s.freeHolder).sweep = s.sweep := rfl
@[simp] theorem freeHolder_resetHeld : (s.freeHolder).resetHeld = s.resetHeld := rfl
@[simp] theorem freeHolder_handed : (s.freeHolder).handed = s.handed := rfl
@[simp] theorem freeHolder_lateClears : (s.freeHolder).lateClears = s.lateClears := rfl
@[simp] theorem freeHolder_verdicts : (s.freeHolder).verdicts = s.verdicts := rfl
@[simp] theorem freeHolder_lineInvs : (s.freeHolder).lineInvs = s.lineInvs := rfl
@[simp] theorem freeHolder_invocations : (s.freeHolder).invocations = s.invocations := rfl
@[simp] theorem freeHolder_chains : (s.freeHolder).chains = s.chains := rfl
@[simp] theorem freeHolder_endReqs : (s.freeHolder).endReqs = s.endReqs := rfl
@[simp] theorem freeHolder_reports : (s.freeHolder).reports = s.reports := rfl
@[simp] theorem freeHolder_guardResults : (s.freeHolder).guardResults = s.guardResults := rfl
@[simp] theorem freeHolder_freed : (s.freeHolder).freed = s.freed := rfl
@[simp] theorem freeHolder_pending : (s.freeHolder).pending = s.pending := rfl

/-! ### giveGrantBack -/

@[simp] theorem giveGrantBack_ports : (s.giveGrantBack).ports = s.ports := rfl
@[simp] theorem giveGrantBack_faultDropped : (s.giveGrantBack).faultDropped = s.faultDropped := rfl
@[simp] theorem giveGrantBack_withdrawSeen : (s.giveGrantBack).withdrawSeen = s.withdrawSeen := rfl
@[simp] theorem giveGrantBack_fnu : (s.giveGrantBack).fnu = s.fnu := rfl
@[simp] theorem giveGrantBack_intOut : (s.giveGrantBack).intOut = s.intOut := rfl
@[simp] theorem giveGrantBack_windows : (s.giveGrantBack).windows = s.windows := rfl
@[simp] theorem giveGrantBack_gates : (s.giveGrantBack).gates = s.gates := rfl
@[simp] theorem giveGrantBack_routes : (s.giveGrantBack).routes = s.routes := rfl
@[simp] theorem giveGrantBack_lineSeen : (s.giveGrantBack).lineSeen = s.lineSeen := rfl
@[simp] theorem giveGrantBack_descs : (s.giveGrantBack).descs = s.descs := rfl
@[simp] theorem giveGrantBack_sweepMarks : (s.giveGrantBack).sweepMarks = s.sweepMarks := rfl
@[simp] theorem giveGrantBack_ready : (s.giveGrantBack).ready = s.ready := rfl
@[simp] theorem giveGrantBack_engine : (s.giveGrantBack).engine = s.engine := rfl
@[simp] theorem giveGrantBack_master :
    (s.giveGrantBack).master = { s.master with bus := .notRequesting, holder := none } := rfl
@[simp] theorem giveGrantBack_channels : (s.giveGrantBack).channels = s.channels := rfl
@[simp] theorem giveGrantBack_strobeLimit : (s.giveGrantBack).strobeLimit = s.strobeLimit := rfl
@[simp] theorem giveGrantBack_endPulses : (s.giveGrantBack).endPulses = s.endPulses := rfl
@[simp] theorem giveGrantBack_sweep : (s.giveGrantBack).sweep = s.sweep := rfl
@[simp] theorem giveGrantBack_resetHeld : (s.giveGrantBack).resetHeld = s.resetHeld := rfl
@[simp] theorem giveGrantBack_handed : (s.giveGrantBack).handed = s.handed := rfl
@[simp] theorem giveGrantBack_lateClears : (s.giveGrantBack).lateClears = s.lateClears := rfl
@[simp] theorem giveGrantBack_verdicts : (s.giveGrantBack).verdicts = s.verdicts := rfl
@[simp] theorem giveGrantBack_lineInvs : (s.giveGrantBack).lineInvs = s.lineInvs := rfl
@[simp] theorem giveGrantBack_invocations : (s.giveGrantBack).invocations = s.invocations := rfl
@[simp] theorem giveGrantBack_chains : (s.giveGrantBack).chains = s.chains := rfl
@[simp] theorem giveGrantBack_endReqs : (s.giveGrantBack).endReqs = s.endReqs := rfl
@[simp] theorem giveGrantBack_reports : (s.giveGrantBack).reports = s.reports := rfl
@[simp] theorem giveGrantBack_guardResults : (s.giveGrantBack).guardResults = s.guardResults := rfl
@[simp] theorem giveGrantBack_freed : (s.giveGrantBack).freed = s.freed := rfl
@[simp] theorem giveGrantBack_pending : (s.giveGrantBack).pending = s.pending := rfl

/-! ### serveRelease -/

@[simp] theorem serveRelease_ports : (s.serveRelease).ports = s.ports := rfl
@[simp] theorem serveRelease_faultDropped : (s.serveRelease).faultDropped = s.faultDropped := rfl
@[simp] theorem serveRelease_withdrawSeen : (s.serveRelease).withdrawSeen = s.withdrawSeen := rfl
@[simp] theorem serveRelease_fnu : (s.serveRelease).fnu = s.fnu := rfl
@[simp] theorem serveRelease_intOut : (s.serveRelease).intOut = s.intOut := rfl
@[simp] theorem serveRelease_windows : (s.serveRelease).windows = s.windows := rfl
@[simp] theorem serveRelease_gates : (s.serveRelease).gates = s.gates := rfl
@[simp] theorem serveRelease_routes : (s.serveRelease).routes = s.routes := rfl
@[simp] theorem serveRelease_lineSeen : (s.serveRelease).lineSeen = s.lineSeen := rfl
@[simp] theorem serveRelease_descs : (s.serveRelease).descs = s.descs := rfl
@[simp] theorem serveRelease_sweepMarks : (s.serveRelease).sweepMarks = s.sweepMarks := rfl
@[simp] theorem serveRelease_ready : (s.serveRelease).ready = s.ready := rfl
@[simp] theorem serveRelease_engine : (s.serveRelease).engine = s.engine := rfl
@[simp] theorem serveRelease_master :
    (s.serveRelease).master = { s.master with
        bus := if s.sweep.deferred != 0 || s.master.engineClaim then .requesting else .notRequesting
        holder := none, releaseReq := false } := rfl
@[simp] theorem serveRelease_channels : (s.serveRelease).channels = s.channels := rfl
@[simp] theorem serveRelease_strobeLimit : (s.serveRelease).strobeLimit = s.strobeLimit := rfl
@[simp] theorem serveRelease_endPulses : (s.serveRelease).endPulses = s.endPulses := rfl
@[simp] theorem serveRelease_sweep : (s.serveRelease).sweep = s.sweep := rfl
@[simp] theorem serveRelease_resetHeld : (s.serveRelease).resetHeld = s.resetHeld := rfl
@[simp] theorem serveRelease_handed : (s.serveRelease).handed = s.handed := rfl
@[simp] theorem serveRelease_lateClears : (s.serveRelease).lateClears = s.lateClears := rfl
@[simp] theorem serveRelease_verdicts : (s.serveRelease).verdicts = s.verdicts := rfl
@[simp] theorem serveRelease_lineInvs : (s.serveRelease).lineInvs = s.lineInvs := rfl
@[simp] theorem serveRelease_invocations : (s.serveRelease).invocations = s.invocations := rfl
@[simp] theorem serveRelease_chains : (s.serveRelease).chains = s.chains := rfl
@[simp] theorem serveRelease_endReqs : (s.serveRelease).endReqs = s.endReqs := rfl
@[simp] theorem serveRelease_reports : (s.serveRelease).reports = s.reports := rfl
@[simp] theorem serveRelease_guardResults : (s.serveRelease).guardResults = s.guardResults := rfl
@[simp] theorem serveRelease_freed : (s.serveRelease).freed = s.freed := rfl
@[simp] theorem serveRelease_pending : (s.serveRelease).pending = s.pending := rfl

/-! ### putInFlight -/

@[simp] theorem putInFlight_ports (e : EngineState) (f : InFlight) : (s.putInFlight e f).ports = s.ports := rfl
@[simp] theorem putInFlight_faultDropped (e : EngineState) (f : InFlight) :
    (s.putInFlight e f).faultDropped = s.faultDropped := rfl
@[simp] theorem putInFlight_withdrawSeen (e : EngineState) (f : InFlight) :
    (s.putInFlight e f).withdrawSeen = s.withdrawSeen := rfl
@[simp] theorem putInFlight_fnu (e : EngineState) (f : InFlight) : (s.putInFlight e f).fnu = s.fnu := rfl
@[simp] theorem putInFlight_intOut (e : EngineState) (f : InFlight) : (s.putInFlight e f).intOut = s.intOut := rfl
@[simp] theorem putInFlight_windows (e : EngineState) (f : InFlight) : (s.putInFlight e f).windows = s.windows := rfl
@[simp] theorem putInFlight_gates (e : EngineState) (f : InFlight) : (s.putInFlight e f).gates = s.gates := rfl
@[simp] theorem putInFlight_routes (e : EngineState) (f : InFlight) : (s.putInFlight e f).routes = s.routes := rfl
@[simp] theorem putInFlight_lineSeen (e : EngineState) (f : InFlight) :
    (s.putInFlight e f).lineSeen = s.lineSeen := rfl
@[simp] theorem putInFlight_descs (e : EngineState) (f : InFlight) : (s.putInFlight e f).descs = s.descs := rfl
@[simp] theorem putInFlight_sweepMarks (e : EngineState) (f : InFlight) :
    (s.putInFlight e f).sweepMarks = s.sweepMarks := rfl
@[simp] theorem putInFlight_ready (e : EngineState) (f : InFlight) : (s.putInFlight e f).ready = s.ready := rfl
@[simp] theorem putInFlight_engine (e : EngineState) (f : InFlight) :
    (s.putInFlight e f).engine = { s.engine with state := e, inFlight := some f } := rfl
@[simp] theorem putInFlight_master (e : EngineState) (f : InFlight) : (s.putInFlight e f).master = s.master := rfl
@[simp] theorem putInFlight_channels (e : EngineState) (f : InFlight) :
    (s.putInFlight e f).channels = s.channels := rfl
@[simp] theorem putInFlight_strobeLimit (e : EngineState) (f : InFlight) :
    (s.putInFlight e f).strobeLimit = s.strobeLimit := rfl
@[simp] theorem putInFlight_endPulses (e : EngineState) (f : InFlight) :
    (s.putInFlight e f).endPulses = s.endPulses := rfl
@[simp] theorem putInFlight_sweep (e : EngineState) (f : InFlight) : (s.putInFlight e f).sweep = s.sweep := rfl
@[simp] theorem putInFlight_resetHeld (e : EngineState) (f : InFlight) :
    (s.putInFlight e f).resetHeld = s.resetHeld := rfl
@[simp] theorem putInFlight_handed (e : EngineState) (f : InFlight) : (s.putInFlight e f).handed = s.handed := rfl
@[simp] theorem putInFlight_lateClears (e : EngineState) (f : InFlight) :
    (s.putInFlight e f).lateClears = s.lateClears := rfl
@[simp] theorem putInFlight_verdicts (e : EngineState) (f : InFlight) :
    (s.putInFlight e f).verdicts = s.verdicts := rfl
@[simp] theorem putInFlight_lineInvs (e : EngineState) (f : InFlight) :
    (s.putInFlight e f).lineInvs = s.lineInvs := rfl
@[simp] theorem putInFlight_invocations (e : EngineState) (f : InFlight) :
    (s.putInFlight e f).invocations = s.invocations := rfl
@[simp] theorem putInFlight_chains (e : EngineState) (f : InFlight) : (s.putInFlight e f).chains = s.chains := rfl
@[simp] theorem putInFlight_endReqs (e : EngineState) (f : InFlight) : (s.putInFlight e f).endReqs = s.endReqs := rfl
@[simp] theorem putInFlight_reports (e : EngineState) (f : InFlight) : (s.putInFlight e f).reports = s.reports := rfl
@[simp] theorem putInFlight_guardResults (e : EngineState) (f : InFlight) :
    (s.putInFlight e f).guardResults = s.guardResults := rfl
@[simp] theorem putInFlight_freed (e : EngineState) (f : InFlight) : (s.putInFlight e f).freed = s.freed := rfl
@[simp] theorem putInFlight_pending (e : EngineState) (f : InFlight) : (s.putInFlight e f).pending = s.pending := rfl

/-! ### endExchange -/

@[simp] theorem endExchange_ports (c : ChannelIx) : (s.endExchange c).ports = s.ports := rfl
@[simp] theorem endExchange_faultDropped (c : ChannelIx) : (s.endExchange c).faultDropped = s.faultDropped := rfl
@[simp] theorem endExchange_withdrawSeen (c : ChannelIx) : (s.endExchange c).withdrawSeen = s.withdrawSeen := rfl
@[simp] theorem endExchange_fnu (c : ChannelIx) : (s.endExchange c).fnu = s.fnu := rfl
@[simp] theorem endExchange_intOut (c : ChannelIx) : (s.endExchange c).intOut = s.intOut := rfl
@[simp] theorem endExchange_windows (c : ChannelIx) : (s.endExchange c).windows = s.windows := rfl
@[simp] theorem endExchange_gates (c : ChannelIx) : (s.endExchange c).gates = s.gates := rfl
@[simp] theorem endExchange_routes (c : ChannelIx) : (s.endExchange c).routes = s.routes := rfl
@[simp] theorem endExchange_lineSeen (c : ChannelIx) : (s.endExchange c).lineSeen = s.lineSeen := rfl
@[simp] theorem endExchange_descs (c : ChannelIx) : (s.endExchange c).descs = s.descs := rfl
@[simp] theorem endExchange_sweepMarks (c : ChannelIx) : (s.endExchange c).sweepMarks = s.sweepMarks := rfl
@[simp] theorem endExchange_ready (c : ChannelIx) : (s.endExchange c).ready = s.ready := rfl
@[simp] theorem endExchange_engine (c : ChannelIx) : (s.endExchange c).engine = s.engine := rfl
@[simp] theorem endExchange_master (c : ChannelIx) : (s.endExchange c).master = s.master := rfl
@[simp] theorem endExchange_channels (c : ChannelIx) :
    (s.endExchange c).channels = s.channels.put c { (s.channels.get c) with state := .idle } := rfl
@[simp] theorem endExchange_strobeLimit (c : ChannelIx) : (s.endExchange c).strobeLimit = s.strobeLimit := rfl
@[simp] theorem endExchange_endPulses (c : ChannelIx) : (s.endExchange c).endPulses = s.endPulses := rfl
@[simp] theorem endExchange_sweep (c : ChannelIx) : (s.endExchange c).sweep = s.sweep := rfl
@[simp] theorem endExchange_resetHeld (c : ChannelIx) : (s.endExchange c).resetHeld = s.resetHeld := rfl
@[simp] theorem endExchange_handed (c : ChannelIx) : (s.endExchange c).handed = s.handed := rfl
@[simp] theorem endExchange_lateClears (c : ChannelIx) : (s.endExchange c).lateClears = s.lateClears := rfl
@[simp] theorem endExchange_verdicts (c : ChannelIx) : (s.endExchange c).verdicts = s.verdicts := rfl
@[simp] theorem endExchange_lineInvs (c : ChannelIx) : (s.endExchange c).lineInvs = s.lineInvs := rfl
@[simp] theorem endExchange_invocations (c : ChannelIx) : (s.endExchange c).invocations = s.invocations := rfl
@[simp] theorem endExchange_chains (c : ChannelIx) : (s.endExchange c).chains = s.chains := rfl
@[simp] theorem endExchange_endReqs (c : ChannelIx) : (s.endExchange c).endReqs = s.endReqs := rfl
@[simp] theorem endExchange_reports (c : ChannelIx) : (s.endExchange c).reports = s.reports := rfl
@[simp] theorem endExchange_guardResults (c : ChannelIx) : (s.endExchange c).guardResults = s.guardResults := rfl
@[simp] theorem endExchange_freed (c : ChannelIx) : (s.endExchange c).freed = s.freed := rfl
@[simp] theorem endExchange_pending (c : ChannelIx) : (s.endExchange c).pending = s.pending := rfl

/-! ### deferVisit -/

@[simp] theorem deferVisit_ports : (s.deferVisit).ports = s.ports := rfl
@[simp] theorem deferVisit_faultDropped : (s.deferVisit).faultDropped = s.faultDropped := rfl
@[simp] theorem deferVisit_withdrawSeen : (s.deferVisit).withdrawSeen = s.withdrawSeen := rfl
@[simp] theorem deferVisit_fnu : (s.deferVisit).fnu = s.fnu := rfl
@[simp] theorem deferVisit_intOut : (s.deferVisit).intOut = s.intOut := rfl
@[simp] theorem deferVisit_windows : (s.deferVisit).windows = s.windows := rfl
@[simp] theorem deferVisit_gates : (s.deferVisit).gates = s.gates := rfl
@[simp] theorem deferVisit_routes : (s.deferVisit).routes = s.routes := rfl
@[simp] theorem deferVisit_lineSeen : (s.deferVisit).lineSeen = s.lineSeen := rfl
@[simp] theorem deferVisit_descs : (s.deferVisit).descs = s.descs := rfl
@[simp] theorem deferVisit_sweepMarks : (s.deferVisit).sweepMarks = s.sweepMarks := rfl
@[simp] theorem deferVisit_ready : (s.deferVisit).ready = s.ready := rfl
@[simp] theorem deferVisit_engine : (s.deferVisit).engine = s.engine := rfl
@[simp] theorem deferVisit_master :
    (s.deferVisit).master = { s.master with
        bus := if s.master.bus = .notRequesting then .requesting else s.master.bus } := rfl
@[simp] theorem deferVisit_channels : (s.deferVisit).channels = s.channels := rfl
@[simp] theorem deferVisit_strobeLimit : (s.deferVisit).strobeLimit = s.strobeLimit := rfl
@[simp] theorem deferVisit_endPulses : (s.deferVisit).endPulses = s.endPulses := rfl
@[simp] theorem deferVisit_sweep : (s.deferVisit).sweep = { s.sweep with deferred := s.sweep.deferred + 1 } := rfl
@[simp] theorem deferVisit_resetHeld : (s.deferVisit).resetHeld = s.resetHeld := rfl
@[simp] theorem deferVisit_handed : (s.deferVisit).handed = s.handed := rfl
@[simp] theorem deferVisit_lateClears : (s.deferVisit).lateClears = s.lateClears := rfl
@[simp] theorem deferVisit_verdicts : (s.deferVisit).verdicts = s.verdicts := rfl
@[simp] theorem deferVisit_lineInvs : (s.deferVisit).lineInvs = s.lineInvs := rfl
@[simp] theorem deferVisit_invocations : (s.deferVisit).invocations = s.invocations := rfl
@[simp] theorem deferVisit_chains : (s.deferVisit).chains = s.chains := rfl
@[simp] theorem deferVisit_endReqs : (s.deferVisit).endReqs = s.endReqs := rfl
@[simp] theorem deferVisit_reports : (s.deferVisit).reports = s.reports := rfl
@[simp] theorem deferVisit_guardResults : (s.deferVisit).guardResults = s.guardResults := rfl
@[simp] theorem deferVisit_freed : (s.deferVisit).freed = s.freed := rfl
@[simp] theorem deferVisit_pending : (s.deferVisit).pending = s.pending := rfl

/-! ### answer -/

@[simp] theorem answer_ports (h : Handed) (code : Code) (words : PortWords) :
    (s.answer h code words).ports = s.ports := rfl
@[simp] theorem answer_faultDropped (h : Handed) (code : Code) (words : PortWords) :
    (s.answer h code words).faultDropped = s.faultDropped := rfl
@[simp] theorem answer_withdrawSeen (h : Handed) (code : Code) (words : PortWords) :
    (s.answer h code words).withdrawSeen = s.withdrawSeen := rfl
@[simp] theorem answer_fnu (h : Handed) (code : Code) (words : PortWords) : (s.answer h code words).fnu = s.fnu := rfl
@[simp] theorem answer_intOut (h : Handed) (code : Code) (words : PortWords) :
    (s.answer h code words).intOut = s.intOut := rfl
@[simp] theorem answer_windows (h : Handed) (code : Code) (words : PortWords) :
    (s.answer h code words).windows = s.windows := rfl
@[simp] theorem answer_gates (h : Handed) (code : Code) (words : PortWords) :
    (s.answer h code words).gates = s.gates := rfl
@[simp] theorem answer_routes (h : Handed) (code : Code) (words : PortWords) :
    (s.answer h code words).routes = s.routes := rfl
@[simp] theorem answer_lineSeen (h : Handed) (code : Code) (words : PortWords) :
    (s.answer h code words).lineSeen = s.lineSeen := rfl
@[simp] theorem answer_descs (h : Handed) (code : Code) (words : PortWords) :
    (s.answer h code words).descs = s.descs := rfl
@[simp] theorem answer_sweepMarks (h : Handed) (code : Code) (words : PortWords) :
    (s.answer h code words).sweepMarks = s.sweepMarks := rfl
@[simp] theorem answer_ready (h : Handed) (code : Code) (words : PortWords) :
    (s.answer h code words).ready = s.ready := rfl
@[simp] theorem answer_engine (h : Handed) (code : Code) (words : PortWords) :
    (s.answer h code words).engine = s.engine := rfl
@[simp] theorem answer_master (h : Handed) (code : Code) (words : PortWords) :
    (s.answer h code words).master = s.master := rfl
@[simp] theorem answer_channels (h : Handed) (code : Code) (words : PortWords) :
    (s.answer h code words).channels = s.channels := rfl
@[simp] theorem answer_strobeLimit (h : Handed) (code : Code) (words : PortWords) :
    (s.answer h code words).strobeLimit = s.strobeLimit := rfl
@[simp] theorem answer_endPulses (h : Handed) (code : Code) (words : PortWords) :
    (s.answer h code words).endPulses = s.endPulses := rfl
@[simp] theorem answer_sweep (h : Handed) (code : Code) (words : PortWords) :
    (s.answer h code words).sweep = s.sweep := rfl
@[simp] theorem answer_resetHeld (h : Handed) (code : Code) (words : PortWords) :
    (s.answer h code words).resetHeld = s.resetHeld := rfl
@[simp] theorem answer_handed (h : Handed) (code : Code) (words : PortWords) :
    (s.answer h code words).handed = s.handed := rfl
@[simp] theorem answer_lateClears (h : Handed) (code : Code) (words : PortWords) :
    (s.answer h code words).lateClears = s.lateClears := rfl
@[simp] theorem answer_verdicts (h : Handed) (code : Code) (words : PortWords) :
    (s.answer h code words).verdicts = s.verdicts ++ [{ port := h.port, id := h.id, code, words }] := rfl
@[simp] theorem answer_lineInvs (h : Handed) (code : Code) (words : PortWords) :
    (s.answer h code words).lineInvs = s.lineInvs := rfl
@[simp] theorem answer_invocations (h : Handed) (code : Code) (words : PortWords) :
    (s.answer h code words).invocations = s.invocations := rfl
@[simp] theorem answer_chains (h : Handed) (code : Code) (words : PortWords) :
    (s.answer h code words).chains = s.chains := rfl
@[simp] theorem answer_endReqs (h : Handed) (code : Code) (words : PortWords) :
    (s.answer h code words).endReqs = s.endReqs := rfl
@[simp] theorem answer_reports (h : Handed) (code : Code) (words : PortWords) :
    (s.answer h code words).reports = s.reports := rfl
@[simp] theorem answer_guardResults (h : Handed) (code : Code) (words : PortWords) :
    (s.answer h code words).guardResults = s.guardResults := rfl
@[simp] theorem answer_freed (h : Handed) (code : Code) (words : PortWords) :
    (s.answer h code words).freed = s.freed := rfl
@[simp] theorem answer_pending (h : Handed) (code : Code) (words : PortWords) :
    (s.answer h code words).pending = s.pending := rfl

/-! ### refuse -/

@[simp] theorem refuse_ports (h : Handed) (code : Code) : (s.refuse h code).ports = s.ports := rfl
@[simp] theorem refuse_faultDropped (h : Handed) (code : Code) :
    (s.refuse h code).faultDropped = s.faultDropped := rfl
@[simp] theorem refuse_withdrawSeen (h : Handed) (code : Code) :
    (s.refuse h code).withdrawSeen = s.withdrawSeen := rfl
@[simp] theorem refuse_fnu (h : Handed) (code : Code) : (s.refuse h code).fnu = s.fnu := rfl
@[simp] theorem refuse_intOut (h : Handed) (code : Code) : (s.refuse h code).intOut = s.intOut := rfl
@[simp] theorem refuse_windows (h : Handed) (code : Code) : (s.refuse h code).windows = s.windows := rfl
@[simp] theorem refuse_gates (h : Handed) (code : Code) : (s.refuse h code).gates = s.gates := rfl
@[simp] theorem refuse_routes (h : Handed) (code : Code) : (s.refuse h code).routes = s.routes := rfl
@[simp] theorem refuse_lineSeen (h : Handed) (code : Code) : (s.refuse h code).lineSeen = s.lineSeen := rfl
@[simp] theorem refuse_descs (h : Handed) (code : Code) : (s.refuse h code).descs = s.descs := rfl
@[simp] theorem refuse_sweepMarks (h : Handed) (code : Code) : (s.refuse h code).sweepMarks = s.sweepMarks := rfl
@[simp] theorem refuse_ready (h : Handed) (code : Code) : (s.refuse h code).ready = s.ready := rfl
@[simp] theorem refuse_engine (h : Handed) (code : Code) : (s.refuse h code).engine = s.engine := rfl
@[simp] theorem refuse_master (h : Handed) (code : Code) : (s.refuse h code).master = s.master := rfl
@[simp] theorem refuse_channels (h : Handed) (code : Code) : (s.refuse h code).channels = s.channels := rfl
@[simp] theorem refuse_strobeLimit (h : Handed) (code : Code) : (s.refuse h code).strobeLimit = s.strobeLimit := rfl
@[simp] theorem refuse_endPulses (h : Handed) (code : Code) : (s.refuse h code).endPulses = s.endPulses := rfl
@[simp] theorem refuse_sweep (h : Handed) (code : Code) : (s.refuse h code).sweep = s.sweep := rfl
@[simp] theorem refuse_resetHeld (h : Handed) (code : Code) : (s.refuse h code).resetHeld = s.resetHeld := rfl
@[simp] theorem refuse_handed (h : Handed) (code : Code) : (s.refuse h code).handed = s.handed := rfl
@[simp] theorem refuse_lateClears (h : Handed) (code : Code) : (s.refuse h code).lateClears = s.lateClears := rfl
@[simp] theorem refuse_verdicts (h : Handed) (code : Code) :
    (s.refuse h code).verdicts = s.verdicts ++ [{ port := h.port, id := h.id, code, words := noWords }] := rfl
@[simp] theorem refuse_lineInvs (h : Handed) (code : Code) : (s.refuse h code).lineInvs = s.lineInvs := rfl
@[simp] theorem refuse_invocations (h : Handed) (code : Code) : (s.refuse h code).invocations = s.invocations := rfl
@[simp] theorem refuse_chains (h : Handed) (code : Code) : (s.refuse h code).chains = s.chains := rfl
@[simp] theorem refuse_endReqs (h : Handed) (code : Code) : (s.refuse h code).endReqs = s.endReqs := rfl
@[simp] theorem refuse_reports (h : Handed) (code : Code) : (s.refuse h code).reports = s.reports := rfl
@[simp] theorem refuse_guardResults (h : Handed) (code : Code) :
    (s.refuse h code).guardResults = s.guardResults := rfl
@[simp] theorem refuse_freed (h : Handed) (code : Code) : (s.refuse h code).freed = s.freed := rfl
@[simp] theorem refuse_pending (h : Handed) (code : Code) : (s.refuse h code).pending = s.pending := rfl

/-! ### handInvocation -/

@[simp] theorem handInvocation_ports (v : Invoker) (g : GateIx) (gate : Gate) :
    (s.handInvocation v g gate).ports = s.ports := rfl
@[simp] theorem handInvocation_faultDropped (v : Invoker) (g : GateIx) (gate : Gate) :
    (s.handInvocation v g gate).faultDropped = s.faultDropped := rfl
@[simp] theorem handInvocation_withdrawSeen (v : Invoker) (g : GateIx) (gate : Gate) :
    (s.handInvocation v g gate).withdrawSeen = s.withdrawSeen := rfl
@[simp] theorem handInvocation_fnu (v : Invoker) (g : GateIx) (gate : Gate) :
    (s.handInvocation v g gate).fnu = s.fnu := rfl
@[simp] theorem handInvocation_intOut (v : Invoker) (g : GateIx) (gate : Gate) :
    (s.handInvocation v g gate).intOut = s.intOut := rfl
@[simp] theorem handInvocation_windows (v : Invoker) (g : GateIx) (gate : Gate) :
    (s.handInvocation v g gate).windows = s.windows := rfl
@[simp] theorem handInvocation_gates (v : Invoker) (g : GateIx) (gate : Gate) :
    (s.handInvocation v g gate).gates = s.gates := rfl
@[simp] theorem handInvocation_routes (v : Invoker) (g : GateIx) (gate : Gate) :
    (s.handInvocation v g gate).routes = s.routes := rfl
@[simp] theorem handInvocation_lineSeen (v : Invoker) (g : GateIx) (gate : Gate) :
    (s.handInvocation v g gate).lineSeen = s.lineSeen := rfl
@[simp] theorem handInvocation_descs (v : Invoker) (g : GateIx) (gate : Gate) :
    (s.handInvocation v g gate).descs = s.descs := rfl
@[simp] theorem handInvocation_sweepMarks (v : Invoker) (g : GateIx) (gate : Gate) :
    (s.handInvocation v g gate).sweepMarks = s.sweepMarks := rfl
@[simp] theorem handInvocation_ready (v : Invoker) (g : GateIx) (gate : Gate) :
    (s.handInvocation v g gate).ready = s.ready := rfl
@[simp] theorem handInvocation_engine (v : Invoker) (g : GateIx) (gate : Gate) :
    (s.handInvocation v g gate).engine = s.engine := rfl
@[simp] theorem handInvocation_master (v : Invoker) (g : GateIx) (gate : Gate) :
    (s.handInvocation v g gate).master = s.master := rfl
@[simp] theorem handInvocation_channels (v : Invoker) (g : GateIx) (gate : Gate) :
    (s.handInvocation v g gate).channels = s.channels := rfl
@[simp] theorem handInvocation_strobeLimit (v : Invoker) (g : GateIx) (gate : Gate) :
    (s.handInvocation v g gate).strobeLimit = s.strobeLimit := rfl
@[simp] theorem handInvocation_endPulses (v : Invoker) (g : GateIx) (gate : Gate) :
    (s.handInvocation v g gate).endPulses = s.endPulses := rfl
@[simp] theorem handInvocation_sweep (v : Invoker) (g : GateIx) (gate : Gate) :
    (s.handInvocation v g gate).sweep = s.sweep := rfl
@[simp] theorem handInvocation_resetHeld (v : Invoker) (g : GateIx) (gate : Gate) :
    (s.handInvocation v g gate).resetHeld = s.resetHeld := rfl
@[simp] theorem handInvocation_handed (v : Invoker) (g : GateIx) (gate : Gate) :
    (s.handInvocation v g gate).handed = s.handed := rfl
@[simp] theorem handInvocation_lateClears (v : Invoker) (g : GateIx) (gate : Gate) :
    (s.handInvocation v g gate).lateClears = s.lateClears := rfl
@[simp] theorem handInvocation_verdicts (v : Invoker) (g : GateIx) (gate : Gate) :
    (s.handInvocation v g gate).verdicts = s.verdicts := rfl
@[simp] theorem handInvocation_lineInvs (v : Invoker) (g : GateIx) (gate : Gate) :
    (s.handInvocation v g gate).lineInvs = s.lineInvs := rfl
@[simp] theorem handInvocation_invocations (v : Invoker) (g : GateIx) (gate : Gate) :
    (s.handInvocation v g gate).invocations = s.invocations ++
      [{ invoker := v, gate := g, kind := gate.kind, target := gate.target, author := gate.author }] := rfl
@[simp] theorem handInvocation_chains (v : Invoker) (g : GateIx) (gate : Gate) :
    (s.handInvocation v g gate).chains = s.chains := rfl
@[simp] theorem handInvocation_endReqs (v : Invoker) (g : GateIx) (gate : Gate) :
    (s.handInvocation v g gate).endReqs = s.endReqs := rfl
@[simp] theorem handInvocation_reports (v : Invoker) (g : GateIx) (gate : Gate) :
    (s.handInvocation v g gate).reports = s.reports := rfl
@[simp] theorem handInvocation_guardResults (v : Invoker) (g : GateIx) (gate : Gate) :
    (s.handInvocation v g gate).guardResults = s.guardResults := rfl
@[simp] theorem handInvocation_freed (v : Invoker) (g : GateIx) (gate : Gate) :
    (s.handInvocation v g gate).freed = s.freed := rfl
@[simp] theorem handInvocation_pending (v : Invoker) (g : GateIx) (gate : Gate) :
    (s.handInvocation v g gate).pending = s.pending := rfl

end Sys2Proof.Machine.State
end

