-- ==== Sys2Proof/Laws/Tab.lean ====
section
/-! SUPPORT. Lemmas of the fixed-size tables. -/

namespace Sys2Proof.Tab

variable {α β : Type} {n : Nat}

@[simp] theorem get_put_same (t : Tab α n) (i : Fin n) (x : α) : (t.put i x).get i = x := by
  simp [Tab.get, Tab.put]

theorem get_put_of_ne (t : Tab α n) {i j : Fin n} (x : α) (h : i ≠ j) : (t.put i x).get j = t.get j := by
  have hij : i.val ≠ j.val := fun e => h (Fin.ext e)
  simp [Tab.get, Tab.put, Vector.getElem_set_ne _ _ hij]

theorem get_put (t : Tab α n) (i j : Fin n) (x : α) : (t.put i x).get j = if i = j then x else t.get j := by
  by_cases h : i = j
  · subst h; simp
  · simp [h, get_put_of_ne t x h]

@[simp] theorem get_fill (x : α) (i : Fin n) : (Tab.fill n x).get i = x := by simp [Tab.get, Tab.fill]

@[simp] theorem put_get_self (t : Tab α n) (i : Fin n) : t.put i (t.get i) = t := by
  apply Vector.ext
  intro k hk
  by_cases h : i.val = k
  · subst h; simp [Tab.get, Tab.put]
  · simp [Tab.put, Vector.getElem_set_ne _ _ h]

@[simp] theorem put_put_same (t : Tab α n) (i : Fin n) (x y : α) : (t.put i x).put i y = t.put i y := by
  simp [Tab.put, Vector.set_set]

/-- Two tables with the same record at every index are one. -/
theorem ext_get {t u : Tab α n} (h : ∀ i, t.get i = u.get i) : t = u := by
  apply Vector.ext
  intro k hk
  exact h ⟨k, hk⟩

@[simp] theorem get_map (f : α → β) (t : Tab α n) (i : Fin n) : Tab.get (Vector.map f t) i = f (t.get i) := by
  simp [Tab.get]

end Sys2Proof.Tab
end

