-- ==== Sys2Proof/Laws/Frame.lean ====
section
/-! SUPPORT. The frame of the descriptor, notice, engine and sweep operations: which parts of State none of them touches,
and the two rules about notices (R171, R178) that each of them keeps. One lemma an operation, in the order of Ops and
EngineOps; each says so of every argument. -/

namespace Sys2Proof.Machine

/-! ### The frame -/

/-- What the operations of Ops and EngineOps leave as it is, and the rules about notices they keep. -/
structure Frame (s t : State) : Prop where
  ports : t.ports = s.ports
  withdrawSeen : t.withdrawSeen = s.withdrawSeen
  windows : t.windows = s.windows
  gates : t.gates = s.gates
  routes : t.routes = s.routes
  lineSeen : t.lineSeen = s.lineSeen
  strobeLimit : t.strobeLimit = s.strobeLimit
  endPulses : t.endPulses = s.endPulses
  resetHeld : t.resetHeld = s.resetHeld
  handed : t.handed = s.handed
  lateClears : t.lateClears = s.lateClears
  verdicts : t.verdicts = s.verdicts
  lineInvs : t.lineInvs = s.lineInvs
  invocations : t.invocations = s.invocations
  pending : t.pending = s.pending
  deferred : t.sweep.deferred ≤ s.sweep.deferred
  interrupts : s.InterruptsOk → t.InterruptsOk
  overflow : s.OverflowOk → t.OverflowOk

namespace Frame

theorem refl (s : State) : Frame s s :=
  ⟨rfl, rfl, rfl, rfl, rfl, rfl, rfl, rfl, rfl, rfl, rfl, rfl, rfl, rfl, rfl, Nat.le_refl _, id, id⟩

theorem trans {s t u : State} (h : Frame s t) (k : Frame t u) : Frame s u :=
  ⟨k.ports.trans h.ports, k.withdrawSeen.trans h.withdrawSeen, k.windows.trans h.windows, k.gates.trans h.gates,
    k.routes.trans h.routes, k.lineSeen.trans h.lineSeen, k.strobeLimit.trans h.strobeLimit,
    k.endPulses.trans h.endPulses, k.resetHeld.trans h.resetHeld, k.handed.trans h.handed,
    k.lateClears.trans h.lateClears, k.verdicts.trans h.verdicts, k.lineInvs.trans h.lineInvs,
    k.invocations.trans h.invocations, k.pending.trans h.pending, Nat.le_trans k.deferred h.deferred,
    fun i => k.interrupts (h.interrupts i), fun o => k.overflow (h.overflow o)⟩

end Frame

/-- The rule about interrupt outputs reads the port states, the notice records and the outputs alone. -/
theorem State.InterruptsOk.congr {s t : State} (hp : t.ports = s.ports) (hf : t.fnu = s.fnu)
    (hi : t.intOut = s.intOut) (h : s.InterruptsOk) : t.InterruptsOk := by
  intro p
  have := h p
  simp only [State.intCondition] at this ⊢
  rw [hp, hf, hi]; exact this

/-- The rule about overflow marks reads the notice records alone. -/
theorem State.OverflowOk.congr {s t : State} (hf : t.fnu = s.fnu) (h : s.OverflowOk) : t.OverflowOk := by
  intro p
  rw [hf]; exact h p

/-- An update of the descriptors, the queue, the engine, the master port, the channels, the sweep or the events handed
on from them is inside the frame. -/
theorem Frame.inner (s : State) (descs : Tab (Option Desc) 128) (sweepMarks : Tab Bool 128)
    (ready : Tab (List DescIx) 8) (engine : Engine) (master : MasterPort) (channels : Tab Channel 8) (sweep : Sweep)
    (chains : List Chain) (endReqs : List ChannelIx) (reports : List (PortIx × Report))
    (guardResults : List GuardResult) (freed : Tab Bool 4) (faultDropped : Bool)
    (hd : sweep.deferred ≤ s.sweep.deferred) :
    Frame s { s with
      descs, sweepMarks, ready, engine, master, channels, sweep, chains, endReqs, reports, guardResults, freed,
      faultDropped } :=
  ⟨rfl, rfl, rfl, rfl, rfl, rfl, rfl, rfl, rfl, rfl, rfl, rfl, rfl, rfl, rfl, hd,
    State.InterruptsOk.congr rfl rfl rfl, State.OverflowOk.congr rfl⟩

/-! ### Notices and reports -/

/-- Writing one port's notice record and re-evaluating its output keeps every output right. -/
theorem putNotice_evalInt_interrupts {s : State} (p : PortIx) (r : NoticeRec) (h : s.InterruptsOk) :
    ((s.putNotice p r).evalInt p).InterruptsOk := by
  intro q
  have hq := h q
  by_cases e : p = q
  · subst e; simp [State.intCondition]
  · simpa [State.intCondition, Tab.get_put_of_ne, e] using hq

theorem putNotice_overflow {s : State} (p : PortIx) (r : NoticeRec) (hr : r.overflow = true → r.record.isSome = true)
    (h : s.OverflowOk) : (s.putNotice p r).OverflowOk := by
  intro q
  have hq := h q
  by_cases e : p = q
  · subst e; simpa using hr
  · simpa [Tab.get_put_of_ne, e] using hq

/-- Writing one port's notice record, its overflow mark allowed, and re-evaluating its output is inside the frame. -/
theorem Frame.notice {s : State} (p : PortIx) (r : NoticeRec)
    (hr : s.OverflowOk → r.overflow = true → r.record.isSome = true) : Frame s ((s.putNotice p r).evalInt p) :=
  ⟨rfl, rfl, rfl, rfl, rfl, rfl, rfl, rfl, rfl, rfl, rfl, rfl, rfl, rfl, rfl, Nat.le_refl _,
    putNotice_evalInt_interrupts p r, fun h => State.OverflowOk.congr rfl (putNotice_overflow p r (hr h) h)⟩

namespace State

variable (s : State)

theorem putDesc_frame (d : DescIx) (x : Option Desc) : Frame s (s.putDesc d x) :=
  Frame.inner s _ _ _ _ _ _ _ _ _ _ _ _ _ (Nat.le_refl _)

theorem putReady_frame (k : Priority) (l : List DescIx) : Frame s (s.putReady k l) :=
  Frame.inner s _ _ _ _ _ _ _ _ _ _ _ _ _ (Nat.le_refl _)

theorem insertTail_frame (d : DescIx) (k : Priority) : Frame s (s.insertTail d k) := s.putReady_frame _ _

theorem insertHead_frame (d : DescIx) (k : Priority) : Frame s (s.insertHead d k) := s.putReady_frame _ _

theorem removeReady_frame (d : DescIx) (k : Priority) : Frame s (s.removeReady d k) := s.putReady_frame _ _

theorem leaveQueue_frame (d : DescIx) (x : Desc) : Frame s (s.leaveQueue d x) := by
  unfold leaveQueue; split
  · exact s.removeReady_frame _ _
  · exact Frame.refl s

theorem setRetired_frame (p : PortIx) (d : DescIx) (b : Bool) : Frame s (s.setRetired p d b) :=
  Frame.notice p _ fun h => h p

theorem keepReport_frame (p : PortIx) (r : Report) : Frame s (s.keepReport p r) := by
  unfold keepReport
  cases hr : (s.fnu.get p).record with
  | none => simp only [hr]; exact Frame.notice p _ fun _ _ => rfl
  | some r' => simp only [hr]; exact Frame.notice p _ fun _ _ => by simp

theorem takeReport_frame (p : PortIx) (r : Report) : Frame s (s.takeReport p r) := by
  unfold takeReport; split
  · exact s.keepReport_frame _ _
  · split
    · exact s.keepReport_frame _ _
    · exact Frame.inner s _ _ _ _ _ _ _ _ _ _ _ _ _ (Nat.le_refl _)

theorem drainReports_frame : Frame s s.drainReports := by
  unfold drainReports
  have start : Frame s { s with reports := [] } := Frame.inner s _ _ _ _ _ _ _ _ _ _ _ _ _ (Nat.le_refl _)
  generalize s.reports = l
  revert start
  generalize { s with reports := [] } = t
  induction l generalizing t with
  | nil => exact id
  | cons a l ih => exact fun h => ih _ (h.trans (takeReport_frame t a.1 a.2))

theorem reportNow_frame (p : PortIx) (r : Report) : Frame s (s.reportNow p r) :=
  s.drainReports_frame.trans (takeReport_frame _ _ _)

theorem handReport_frame (p : PortIx) (r : Report) : Frame s (s.handReport p r) :=
  Frame.inner s _ _ _ _ _ _ _ _ _ _ _ _ _ (Nat.le_refl _)

/-! ### Retirement, freeing, stop requests -/

theorem retire_frame (d : DescIx) (x : Desc) (c : Code) (det : Option (SideName × Offset)) :
    Frame s (s.retire d x c det) := by
  unfold retire
  have h := (s.leaveQueue_frame d x).trans (putDesc_frame (s.leaveQueue d x) d (some (x.retire c det)))
  by_cases hn : x.st.notice = true
  · simp only [hn, if_true]; exact h.trans (setRetired_frame _ _ _ _)
  · simp only [hn]; exact h

theorem makeEmpty_frame (d : DescIx) (x : Desc) : Frame s (s.makeEmpty d x) :=
  ((s.leaveQueue_frame d x).trans (putDesc_frame _ _ _)).trans (setRetired_frame _ _ _ _)

theorem retireFault_frame (d : DescIx) (x : Desc) (c : Code) (w : WindowIx) (sd : SideName) (o : Offset) :
    Frame s (s.retireFault d x c w sd o) :=
  (s.retire_frame _ _ _ _).trans (reportNow_frame _ _ _)

theorem markFreed_frame (p : PortIx) : Frame s { s with freed := s.freed.put p true } :=
  Frame.inner s _ _ _ _ _ _ _ _ _ _ _ _ _ (Nat.le_refl _)

theorem settleStop_frame (d : DescIx) (x : Desc) : Frame s (s.settleStop d x) := by
  unfold settleStop; split
  · exact Frame.refl s
  · exact s.retire_frame _ _ _ _
  · exact s.retire_frame _ _ _ _
  · exact (s.makeEmpty_frame d x).trans (markFreed_frame _ _)

theorem acceptTrigger_frame (d : DescIx) (x : Desc) : Frame s (s.acceptTrigger d x).1 := by
  unfold acceptTrigger
  split
  · simp only; split
    · exact (s.putDesc_frame _ _).trans (insertTail_frame _ _ _)
    · exact s.putDesc_frame _ _
  · exact s.putDesc_frame _ _

/-! ### The engine and the sweep -/

/-- Changing the engine's, the master port's or the channels' records is inside the frame. -/
theorem engine_frame (e : Engine) (m : MasterPort) (c : Tab Channel 8) :
    Frame s { s with engine := e, master := m, channels := c } :=
  Frame.inner s _ _ _ _ _ _ _ _ _ _ _ _ _ (Nat.le_refl _)

theorem dropEngine_frame : Frame s s.dropEngine := s.engine_frame _ _ _

theorem stopInWaitPort_frame (d : DescIx) : Frame s (s.stopInWaitPort d) := by
  unfold stopInWaitPort; split
  · split
    · exact Frame.refl s
    · split
      · exact Frame.refl s
      · exact (s.settleStop_frame _ _).trans (dropEngine_frame _)
  · exact Frame.refl s

theorem raiseStop_frame (d : DescIx) (x : Desc) (r : StopRequest) : Frame s (s.raiseStop d x r) :=
  (s.putDesc_frame _ _).trans (stopInWaitPort_frame _ _)

theorem stepLease_frame (d : DescIx) (x : Desc) : Frame s (s.stepLease d x) := by
  unfold stepLease; split
  · exact s.putDesc_frame _ _
  · simp only; split
    · exact s.raiseStop_frame _ _ _
    · exact s.retire_frame _ _ _ _

theorem startReread_frame (d : DescIx) (x : Desc) : Frame s (s.startReread d x) := by
  unfold startReread; split
  · exact Frame.refl s
  · simp only; split
    · exact Frame.inner s _ _ _ _ _ _ _ _ _ _ _ _ _ (Nat.le_refl _)
    · exact Frame.inner s _ _ _ _ _ _ _ _ _ _ _ _ _ (Nat.le_refl _)

theorem visit_frame (d : DescIx) : Frame s (s.visit d) := by
  unfold visit; split
  · exact Frame.refl s
  · rename_i x _
    split
    · exact Frame.refl s
    · simp only
      have h : Frame s (if x.st.initialLease = 0 then s else s.stepLease d x) := by
        split
        · exact Frame.refl s
        · exact s.stepLease_frame _ _
      split
      · exact h
      · split
        · exact h.trans (startReread_frame _ _ _)
        · exact h

theorem performVisit_frame : Frame s s.performVisit := by
  have h : Frame s { s with sweep := { s.sweep with cursor := s.sweep.cursor + 1 } } :=
    Frame.inner s _ _ _ _ _ _ _ _ _ _ _ _ _ (Nat.le_refl _)
  exact h.trans (visit_frame _ _)

theorem freeHolder_frame : Frame s s.freeHolder := s.engine_frame _ _ _

theorem giveGrantBack_frame : Frame s s.giveGrantBack := s.engine_frame _ _ _

theorem serveRelease_frame : Frame s s.serveRelease := s.engine_frame _ _ _

theorem serveVisits_frame (n : Nat) : Frame s (serveVisits n s) := by
  induction n generalizing s with
  | zero => exact Frame.refl s
  | succ n ih =>
    unfold serveVisits; split
    · exact Frame.refl s
    · simp only
      have h : Frame s (performVisit { s with
          master := { s.master with holder := some .sweep },
          sweep := { s.sweep with deferred := s.sweep.deferred - 1 } }) :=
        (Frame.inner s _ _ _ _ _ _ _ _ _ _ _ _ _ (Nat.sub_le _ _)).trans (performVisit_frame _)
      split
      · exact h
      · exact (h.trans (freeHolder_frame _)).trans (ih _)

theorem handOnToSweep_frame : Frame s s.handOnToSweep := by
  unfold handOnToSweep
  have h := s.freeHolder_frame.trans (serveVisits_frame _ s.sweep.deferred)
  simp only; split
  · exact h
  · exact h.trans (giveGrantBack_frame _)

theorem engineGivesBack_frame : Frame s s.engineGivesBack := by
  unfold engineGivesBack; split
  · split
    · exact s.serveRelease_frame
    · exact s.handOnToSweep_frame
  · exact Frame.refl s

theorem letGo_frame : Frame s s.letGo := s.dropEngine_frame.trans (engineGivesBack_frame _)

theorem settleFailure_frame (d : DescIx) (x : Desc) (c : Code) (w : WindowIx) (sd : SideName) (o : Offset) :
    Frame s (s.settleFailure d x c w sd o) := by
  unfold settleFailure; split
  · exact s.retireFault_frame _ _ _ _ _ _
  · exact s.settleStop_frame _ _

theorem unitFails_frame (d : DescIx) (x : Desc) (c : Code) (w : WindowIx) (sd : SideName) (o : Offset) :
    Frame s (s.unitFails d x c w sd o) :=
  (s.settleFailure_frame _ _ _ _ _ _).trans (letGo_frame _)

theorem guardReadOver_frame : Frame s s.guardReadOver := (s.engine_frame _ _ _).trans (engineGivesBack_frame _)

theorem guardReadFails_frame (g : Guard) (c : Code) : Frame s (s.guardReadFails g c) := by
  unfold guardReadFails; simp only; split
  · exact s.guardReadOver_frame
  · exact (s.guardReadOver_frame.trans (settleFailure_frame _ _ _ _ _ _ _)).trans (dropEngine_frame _)

theorem putInFlight_frame (e : EngineState) (f : InFlight) : Frame s (s.putInFlight e f) := s.engine_frame _ _ _

theorem putChannel_frame (c : ChannelIx) (r : Channel) : Frame s (s.putChannel c r) := s.engine_frame _ _ _

theorem startGuardRead_frame (x : Desc) (g : Guard) : Frame s (s.startGuardRead x g) := by
  unfold startGuardRead; split
  · exact s.putInFlight_frame _ _
  · exact (s.engine_frame _ _ _).trans (guardReadFails_frame _ _ _)

theorem startSourceRead_frame (d : DescIx) (x : Desc) (src : Side) : Frame s (s.startSourceRead d x src) := by
  unfold startSourceRead; split
  · exact s.putInFlight_frame _ _
  · exact s.unitFails_frame _ _ _ _ _ _

theorem startDestinationWrite_frame (d : DescIx) (x : Desc) (dst : Side) (data : UnitData) :
    Frame s (s.startDestinationWrite d x dst data) := by
  unfold startDestinationWrite; split
  · exact s.putInFlight_frame _ _
  · exact s.unitFails_frame _ _ _ _ _ _

theorem startOffer_frame (x : Desc) (strobe : Strobe) (f : InFlight) (data : UnitData) :
    Frame s (s.startOffer x strobe f data) :=
  (s.putChannel_frame _ _).trans (putInFlight_frame _ _ _)

theorem startAsk_frame (d : DescIx) (x : Desc) (dst : Side) (strobe : Strobe) :
    Frame s (s.startAsk d x dst strobe) := by
  unfold startAsk; split
  · exact (s.putChannel_frame _ _).trans (putInFlight_frame _ _ _)
  · exact s.unitFails_frame _ _ _ _ _ _

theorem startUnit_frame (d : DescIx) (x : Desc) : Frame s (s.startUnit d x) := by
  unfold startUnit; split
  · exact s.startSourceRead_frame _ _ _
  · exact s.startSourceRead_frame _ _ _
  · exact s.startAsk_frame _ _ _ _
  · exact s.startDestinationWrite_frame _ _ _ _

theorem engineTakesPort_frame : Frame s s.engineTakesPort := by
  unfold engineTakesPort
  have h : Frame s { s with master := { s.master with engineClaim := false, holder := some .engine } } :=
    s.engine_frame _ _ _
  simp only; split
  · exact h
  · split
    · exact h.trans (startUnit_frame _ _ _)
    · split
      · exact h.trans (startGuardRead_frame _ _ _)
      · exact h

theorem handOn_frame : Frame s s.handOn := by
  unfold handOn
  have h := s.freeHolder_frame.trans (serveVisits_frame _ s.sweep.deferred)
  simp only; split
  · exact h
  · split
    · exact h.trans (engineTakesPort_frame _)
    · exact h.trans (giveGrantBack_frame _)

theorem claimPort_frame : Frame s s.claimPort := by
  unfold claimPort; simp only; split
  · split
    · exact (s.engine_frame _ _ _).trans (serveRelease_frame _)
    · exact (s.engine_frame _ _ _).trans (handOn_frame _)
  · split
    · exact (s.engine_frame _ _ _).trans (engineTakesPort_frame _)
    · exact s.engine_frame _ _ _

/-! ### Completion and the unit boundary -/

theorem reloadDesc_frame (d : DescIx) (x : Desc) : Frame s (s.reloadDesc d x) := by
  unfold reloadDesc; simp only; split
  · exact (s.putDesc_frame _ _).trans (insertTail_frame _ _ _)
  · exact s.putDesc_frame _ _

theorem settleCompletion_frame (d : DescIx) (x : Desc) : Frame s (s.settleCompletion d x) := by
  unfold settleCompletion; split
  · exact (s.makeEmpty_frame d x).trans (markFreed_frame _ _)
  · split
    · exact s.reloadDesc_frame _ _
    · exact s.retire_frame _ _ _ _

theorem handEndRequest_frame (x : StaticPart) : Frame s (s.handEndRequest x) := by
  unfold handEndRequest; split
  · exact Frame.refl s
  · split
    · exact Frame.inner s _ _ _ _ _ _ _ _ _ _ _ _ _ (Nat.le_refl _)
    · exact Frame.refl s

theorem handChain_frame (d : DescIx) (x : Desc) : Frame s (s.handChain d x) := by
  unfold handChain; split
  · exact Frame.refl s
  · exact Frame.inner s _ _ _ _ _ _ _ _ _ _ _ _ _ (Nat.le_refl _)

theorem complete_frame (d : DescIx) (x : Desc) : Frame s (s.complete d x) :=
  (((s.settleCompletion_frame _ _).trans (handEndRequest_frame _ _)).trans (handChain_frame _ _ _)).trans
    (letGo_frame _)

theorem spellEnds_frame (d : DescIx) (x : Desc) : Frame s (s.spellEnds d x) := by
  unfold spellEnds; split
  · exact (s.putDesc_frame _ _).trans (insertTail_frame _ _ _)
  · exact s.putDesc_frame _ _

theorem setAside_frame (d : DescIx) (x : Desc) (r : Bool) : Frame s (s.setAside d x r) :=
  (s.putDesc_frame _ _).trans (insertHead_frame _ _ _)

theorem continueSpell_frame (d : DescIx) (x : Desc) (b : Bool) : Frame s (s.continueSpell d x b) := by
  unfold continueSpell; split
  · exact s.startUnit_frame _ _
  · exact s.claimPort_frame

theorem boundary_frame (d : DescIx) (x : Desc) (b : Bool) : Frame s (s.boundary d x b) := by
  unfold boundary
  repeat' split
  · exact s.complete_frame _ _
  · exact (s.settleStop_frame _ _).trans (letGo_frame _)
  · exact (s.spellEnds_frame _ _).trans (letGo_frame _)
  · exact (s.setAside_frame _ _ _).trans (letGo_frame _)
  · exact (s.setAside_frame _ _ _).trans (letGo_frame _)
  · exact s.continueSpell_frame _ _ _

theorem startSpell_frame (d : DescIx) (x : Desc) : Frame s (s.startSpell d x) :=
  ((s.putDesc_frame _ _).trans (engine_frame _ _ _ _)).trans (boundary_frame _ _ _ _)

theorem unitCompletes_frame (d : DescIx) (x : Desc) : Frame s (s.unitCompletes d x) :=
  ((s.putDesc_frame _ _).trans (engine_frame _ _ _ _)).trans (boundary_frame _ _ _ _)

theorem endExchange_frame (c : ChannelIx) : Frame s (s.endExchange c) := s.putChannel_frame _ _

theorem exchangeFails_frame (c : ChannelIx) (code : Code) : Frame s (s.exchangeFails c code) := by
  unfold exchangeFails; simp only; split
  · split
    · exact (s.endExchange_frame c).trans (unitFails_frame _ _ _ _ _ _ _)
    · exact s.endExchange_frame c
  · exact s.endExchange_frame c

end State

end Sys2Proof.Machine
end

