-- ==== Sys2Proof/Laws/Records.lean ====
section
/-! SUPPORT. How one descriptor's record changes: `Held` is what the rules say of the records, the ready queue, the
sweep read marks, the retired sets and the owners, and one lemma for each kind of change says that it is kept. -/

namespace Sys2Proof.Machine

/-! ### The claim -/

/-- The claims about descriptor records, with `a` the ACTIVE descriptor. `skip` names a record that is being worked on
and is exempt from the claims about single records; `C` says whether the claims about closing ports are included. -/
structure Held (C : Prop) (s : State) (a skip : Option DescIx) : Prop where
  marks : s.MarksOk
  queue : s.QueueOk
  active : ∀ d, a = some d ↔ ∃ x, s.descs.get d = some x ∧ x.state = .active
  sets : s.RetiredSetsOk
  ok : ∀ d x, skip ≠ some d → s.descs.get d = some x → x.Ok
  owner : C → ∀ d x, skip ≠ some d → s.descs.get d = some x →
    ((s.ports.get x.owner).state = .closing ↔ x.pr.stop = .withdrawn)
  freed : C → ∀ p, (s.freed.get p = true → (s.ports.get p).state = .closing ∧
      ∀ d x, s.descs.get d = some x → x.owner ≠ p) ∧
    ((s.ports.get p).state = .closing → s.freed.get p = true ∨ ∃ d x, s.descs.get d = some x ∧ x.owner = p)

/-- The record of d has the state, the static part and the owner of x. -/
def Like (s : State) (d : DescIx) (x : Desc) : Prop :=
  ∃ y, s.descs.get d = some y ∧ y.state = x.state ∧ y.st = x.st ∧ y.owner = x.owner

theorem Like.self {s : State} {d : DescIx} {x : Desc} (h : s.descs.get d = some x) : Like s d x := ⟨x, h, rfl, rfl, rfl⟩

variable {C : Prop} {s t : State} {a skip : Option DescIx} {d : DescIx} {x x' : Desc}

namespace Held

/-- The claims read nothing else. -/
theorem congr (h : Held C s a skip) (hd : t.descs = s.descs) (hm : t.sweepMarks = s.sweepMarks)
    (hr : t.ready = s.ready) (hf : ∀ p, (t.fnu.get p).retired = (s.fnu.get p).retired)
    (hp : ∀ p, (t.ports.get p).state = (s.ports.get p).state) (hfr : t.freed = s.freed) : Held C t a skip where
  marks := by intro e; rw [hm, hd]; exact h.marks e
  queue := by intro e k; rw [hr, hd]; exact h.queue e k
  active := by rw [hd]; exact h.active
  sets := by intro p e; rw [hf, hd]; exact h.sets p e
  ok := by rw [hd]; exact h.ok
  owner := by rw [hd]; intro c e x he hx; rw [hp]; exact h.owner c e x he hx
  freed := by rw [hd, hfr]; intro c p; rw [hp]; exact h.freed c p

theorem weaken (h : Held C s a none) (skip : Option DescIx) : Held C s a skip where
  marks := h.marks
  queue := h.queue
  active := h.active
  sets := h.sets
  ok := fun d x _ => h.ok d x (by simp)
  owner := fun c d x _ => h.owner c d x (by simp)
  freed := h.freed

theorem notInSets (h : Held C s a skip) (l : Like s d x) (hx : x.state ≠ .retired) (p : PortIx) :
    (s.fnu.get p).retired.get d = false := by
  obtain ⟨y, hy, hs, -, -⟩ := l
  by_contra hc
  obtain ⟨z, hz, hr, -⟩ := h.sets p d (by simpa using hc)
  rw [hy] at hz; cases hz; exact hx (hs ▸ hr)

/-- How often d stands in each list. -/
theorem count_self (h : Held C s a skip) (l : Like s d x) (k : Priority) :
    (s.ready.get k).count d = if x.state = .queued ∧ x.st.priority = k then 1 else 0 := by
  obtain ⟨y, hy, hs, ht, -⟩ := l
  rw [h.queue d k, hy]; simp [placesAt, hs, ht]

theorem count_leaveQueue (h : Held C s a skip) (l : Like s d x) (e : DescIx) (k : Priority) :
    ((s.leaveQueue d x).ready.get k).count e = if e = d then 0 else (s.ready.get k).count e := by
  have hc := h.count_self l k
  unfold State.leaveQueue
  by_cases hq : x.state = .queued
  · rw [if_pos hq, State.removeReady_ready, Tab.get_put]
    by_cases hk : x.st.priority = k
    · subst hk
      rw [if_pos rfl]
      by_cases he : e = d
      · subst he; simp [List.count_eq_zero]
      · simp [he, List.count_filter]
    · rw [if_neg hk]
      by_cases he : e = d
      · subst he; simp [hc, hk]
      · simp [he]
  · rw [if_neg hq]
    by_cases he : e = d
    · subst he; simp [hc, hq]
    · simp [he]

/-- One record is replaced. -/
theorem update (h : Held C s a (some d)) (l : Like s d x) (ho : x'.owner = x.owner)
    (hd : t.descs = s.descs.put d (some x'))
    (hm : t.sweepMarks = s.sweepMarks.put d (s.sweepMarks.get d && x'.state == .waiting))
    (hr : ∀ e k, (t.ready.get k).count e =
      if e = d then (if x'.state = .queued ∧ x'.st.priority = k then 1 else 0) else (s.ready.get k).count e)
    (hp : t.ports = s.ports) (hf : t.freed = s.freed)
    (hs : ∀ p e, (t.fnu.get p).retired.get e = true →
      (e ≠ d ∧ (s.fnu.get p).retired.get e = true) ∨
        (e = d ∧ p = x'.owner ∧ x'.state = .retired ∧ x'.st.notice = true))
    (hok : skip = some d ∨ skip = none ∧ x'.Ok ∧
      (C → ((s.ports.get x'.owner).state = .closing ↔ x'.pr.stop = .withdrawn)))
    (ha : x'.state = .active → a = none ∨ a = some d) :
    Held C t (if x'.state = .active then some d else if a = some d then none else a) skip where
  marks := by
    intro e he
    rw [hm, Tab.get_put] at he
    rw [hd, Tab.get_put]
    by_cases hed : d = e
    · subst hed
      simp only [if_true, Bool.and_eq_true, beq_iff_eq] at he
      exact ⟨x', by simp, he.2⟩
    · rw [if_neg hed] at he ⊢; exact h.marks e he
  queue := by
    intro e k
    rw [hr, hd, Tab.get_put]
    by_cases hed : e = d
    · subst hed; simp [placesAt]
    · rw [if_neg hed, if_neg (Ne.symm hed)]; exact h.queue e k
  active := by
    intro e
    rw [hd, Tab.get_put]
    by_cases hed : d = e
    · subst hed
      by_cases hx : x'.state = .active
      · simp [hx]
      · by_cases had : a = some d <;> simp [hx, had]
    · rw [if_neg hed]
      have := h.active e
      by_cases hx : x'.state = .active
      · rw [if_pos hx, ← this]
        rcases ha hx with h1 | h1 <;> simp [h1, hed]
      · rw [if_neg hx, ← this]
        by_cases had : a = some d
        · simp [had, hed]
        · simp [had]
  sets := by
    intro p e he
    rw [hd, Tab.get_put]
    rcases hs p e he with ⟨h1, h2⟩ | ⟨h1, h2, h3, h4⟩
    · rw [if_neg (Ne.symm h1)]; exact h.sets p e h2
    · subst h1; simp [h2, h3, h4]
  ok := by
    intro e y he hy
    rw [hd, Tab.get_put] at hy
    by_cases hed : d = e
    · subst hed
      rcases hok with h1 | ⟨-, h2, -⟩
      · exact absurd h1 he
      · simp only [if_true, Option.some.injEq] at hy; exact hy ▸ h2
    · rw [if_neg hed] at hy; exact h.ok e y (by simpa using hed) hy
  owner := by
    intro c e y he hy
    rw [hd, Tab.get_put] at hy
    rw [hp]
    by_cases hed : d = e
    · subst hed
      rcases hok with h1 | ⟨-, -, h2⟩
      · exact absurd h1 he
      · simp only [if_true, Option.some.injEq] at hy; exact hy ▸ h2 c
    · rw [if_neg hed] at hy; exact h.owner c e y (by simpa using hed) hy
  freed := by
    intro c p
    obtain ⟨h1, h2⟩ := h.freed c p
    obtain ⟨y, hy, -, -, hyo⟩ := l
    rw [hf, hp, hd]
    refine ⟨fun hfp => ⟨(h1 hfp).1, ?_⟩, fun hcl => ?_⟩
    · intro e z hz
      rw [Tab.get_put] at hz
      by_cases hed : d = e
      · subst hed
        simp only [if_true, Option.some.injEq] at hz
        rw [← hz, ho, ← hyo]; exact (h1 hfp).2 d y hy
      · rw [if_neg hed] at hz; exact (h1 hfp).2 e z hz
    · rcases h2 hcl with h3 | ⟨e, z, hz, hzo⟩
      · exact .inl h3
      · right
        by_cases hed : d = e
        · subst hed
          rw [hy] at hz; cases hz
          exact ⟨d, x', by simp, by rw [ho, ← hyo]; exact hzo⟩
        · exact ⟨e, z, by rw [Tab.get_put, if_neg hed]; exact hz, hzo⟩

/-- One record becomes EMPTY; with its owner told so, where the owner is closing. -/
theorem empty (h : Held C s a (some d)) (l : Like s d x)
    (hd : t.descs = s.descs.put d none) (hm : t.sweepMarks = s.sweepMarks.put d false)
    (hr : ∀ e k, (t.ready.get k).count e = if e = d then 0 else (s.ready.get k).count e)
    (hp : t.ports = s.ports)
    (hs : ∀ p e, (t.fnu.get p).retired.get e = true → e ≠ d ∧ (s.fnu.get p).retired.get e = true)
    (hf : C → (s.ports.get x.owner).state ≠ .closing ∧ t.freed = s.freed ∨
      ((s.ports.get x.owner).state = .closing ∧ t.freed = s.freed.put x.owner true ∧
        ∀ e z, e ≠ d → s.descs.get e = some z → z.owner ≠ x.owner)) :
    Held C t (if a = some d then none else a) none where
  marks := by
    intro e he
    rw [hm, Tab.get_put] at he
    rw [hd, Tab.get_put]
    by_cases hed : d = e
    · subst hed; simp at he
    · rw [if_neg hed] at he ⊢; exact h.marks e he
  queue := by
    intro e k
    rw [hr, hd, Tab.get_put]
    by_cases hed : e = d
    · subst hed; simp [placesAt]
    · rw [if_neg hed, if_neg (Ne.symm hed)]; exact h.queue e k
  active := by
    intro e
    rw [hd, Tab.get_put]
    by_cases hed : d = e
    · subst hed; by_cases had : a = some d <;> simp [had]
    · rw [if_neg hed, ← h.active e]
      by_cases had : a = some d
      · simp [had, hed]
      · simp [had]
  sets := by
    intro p e he
    obtain ⟨h1, h2⟩ := hs p e he
    rw [hd, Tab.get_put, if_neg (Ne.symm h1)]; exact h.sets p e h2
  ok := by
    intro e y _ hy
    rw [hd, Tab.get_put] at hy
    by_cases hed : d = e
    · subst hed; simp at hy
    · rw [if_neg hed] at hy; exact h.ok e y (by simpa using hed) hy
  owner := by
    intro c e y _ hy
    rw [hd, Tab.get_put] at hy
    rw [hp]
    by_cases hed : d = e
    · subst hed; simp at hy
    · rw [if_neg hed] at hy; exact h.owner c e y (by simpa using hed) hy
  freed := by
    intro c p
    obtain ⟨h1, h2⟩ := h.freed c p
    obtain ⟨y, hy, -, -, hyo⟩ := l
    rw [hp, hd]
    rcases hf c with ⟨h3, h4⟩ | ⟨h3, h4, h5⟩
    · rw [h4]
      refine ⟨fun hfp => ⟨(h1 hfp).1, ?_⟩, fun hcl => ?_⟩
      · intro e z hz
        rw [Tab.get_put] at hz
        by_cases hed : d = e
        · subst hed; simp at hz
        · rw [if_neg hed] at hz; exact (h1 hfp).2 e z hz
      · rcases h2 hcl with h6 | ⟨e, z, hz, hzo⟩
        · exact .inl h6
        · right
          refine ⟨e, z, ?_, hzo⟩
          rw [Tab.get_put, if_neg]; · exact hz
          rintro rfl
          rw [hy] at hz; cases hz
          rw [← hzo, hyo] at hcl; exact h3 hcl
    · rw [h4, Tab.get_put]
      by_cases hpo : x.owner = p
      · subst hpo
        refine ⟨fun _ => ⟨h3, ?_⟩, fun _ => .inl (by simp)⟩
        intro e z hz
        rw [Tab.get_put] at hz
        by_cases hed : d = e
        · subst hed; simp at hz
        · rw [if_neg hed] at hz; exact h5 e z (Ne.symm hed) hz
      · rw [if_neg hpo]
        refine ⟨fun hfp => ⟨(h1 hfp).1, ?_⟩, fun hcl => ?_⟩
        · intro e z hz
          rw [Tab.get_put] at hz
          by_cases hed : d = e
          · subst hed; simp at hz
          · rw [if_neg hed] at hz; exact (h1 hfp).2 e z hz
        · rcases h2 hcl with h6 | ⟨e, z, hz, hzo⟩
          · exact .inl h6
          · right
            refine ⟨e, z, ?_, hzo⟩
            rw [Tab.get_put, if_neg]; · exact hz
            rintro rfl
            rw [hy] at hz; cases hz
            exact hpo (hyo ▸ hzo)

end Held

end Sys2Proof.Machine
end

