-- ==== Sys2Proof/Laws/Settle.lean ====
section
/-! SUPPORT. What each operation of Ops on descriptor records does to the claims of `Held`, one lemma an operation; and
that fault reports change notice records alone. -/

namespace Sys2Proof.Machine

/-! ### Reports -/

/-- `t` differs from `s` in fault records, overflow marks, interrupt outputs, FAULT_DROPPED and waiting reports alone. -/
def OnlyReports (s t : State) : Prop :=
  ∃ f i b l, t = { s with fnu := f, intOut := i, faultDropped := b, reports := l } ∧
    ∀ q, (f.get q).retired = (s.fnu.get q).retired

theorem OnlyReports.refl (s : State) : OnlyReports s s := ⟨_, _, _, _, rfl, fun _ => rfl⟩

theorem OnlyReports.trans {s t u : State} (h : OnlyReports s t) (k : OnlyReports t u) : OnlyReports s u := by
  obtain ⟨f, i, b, l, rfl, hf⟩ := h
  obtain ⟨f', i', b', l', rfl, hf'⟩ := k
  exact ⟨f', i', b', l', rfl, fun q => (hf' q).trans (hf q)⟩

namespace State

variable (s : State)

theorem keepReport_only (p : PortIx) (r : Report) : OnlyReports s (s.keepReport p r) := by
  unfold keepReport
  simp only
  split <;>
  · refine ⟨_, _, _, _, rfl, fun q => ?_⟩
    by_cases e : p = q
    · subst e; simp
    · simp [Tab.get_put_of_ne, e]

theorem takeReport_only (p : PortIx) (r : Report) : OnlyReports s (s.takeReport p r) := by
  unfold takeReport; split
  · exact s.keepReport_only _ _
  · split
    · exact s.keepReport_only _ _
    · exact ⟨_, _, _, _, rfl, fun _ => rfl⟩

theorem drainReports_only : OnlyReports s s.drainReports := by
  unfold drainReports
  have start : OnlyReports s { s with reports := [] } := ⟨_, _, _, _, rfl, fun _ => rfl⟩
  generalize s.reports = l
  revert start
  generalize { s with reports := [] } = t
  induction l generalizing t with
  | nil => exact id
  | cons a l ih => exact fun h => ih _ (h.trans (takeReport_only t a.1 a.2))

theorem reportNow_only (p : PortIx) (r : Report) : OnlyReports s (s.reportNow p r) :=
  s.drainReports_only.trans (takeReport_only _ _ _)

end State

variable {C : Prop} {s t : State} {a skip : Option DescIx} {d : DescIx} {x : Desc}

theorem Held.reports (h : Held C s a skip) (ht : OnlyReports s t) : Held C t a skip := by
  obtain ⟨f, i, b, l, rfl, hf⟩ := ht
  exact h.congr rfl rfl rfl hf (fun _ => rfl) rfl

/-! ### Records that keep their place -/

/-- The record of d is rewritten in its state and place. -/
theorem Held.replace (h : Held C s a (some d)) (l : Like s d x) {x' : Desc} (hs : x'.state = x.state)
    (ht : x'.st = x.st) (ho : x'.owner = x.owner)
    (hok : skip = some d ∨ skip = none ∧ x'.Ok ∧
      (C → ((s.ports.get x'.owner).state = .closing ↔ x'.pr.stop = .withdrawn))) :
    Held C (s.putDesc d (some x')) a skip := by
  have hact : x'.state = .active → a = some d := fun hx => by
    obtain ⟨y, hy, hys, -, -⟩ := l
    exact (h.active d).2 ⟨y, hy, by rw [hys, ← hs]; exact hx⟩
  have key := h.update (t := s.putDesc d (some x')) l ho rfl rfl ?_ rfl rfl ?_ hok fun hx => .inr (hact hx)
  · by_cases hx : x'.state = .active
    · rw [if_pos hx, ← hact hx] at key; exact key
    · rw [if_neg hx] at key
      by_cases had : a = some d
      · obtain ⟨y, hy, hys⟩ := (h.active d).1 had
        obtain ⟨z, hz, hzs, -, -⟩ := l
        rw [hy] at hz; cases hz
        exact absurd (hs.trans (hzs ▸ hys)) hx
      · rw [if_neg had] at key; exact key
  · intro e k
    rw [State.putDesc_ready]
    by_cases hed : e = d
    · subst hed; rw [h.count_self l k, hs, ht]; simp
    · simp [hed]
  · intro p e he
    by_cases hed : e = d
    · subst hed
      obtain ⟨z, hz, hzr, hzo, hzn⟩ := h.sets p e he
      obtain ⟨y, hy, hys, hyt, hyo⟩ := l
      rw [hy] at hz; cases hz
      exact .inr ⟨rfl, by rw [ho, ← hyo]; exact hzo.symm, by rw [hs, ← hys]; exact hzr, by rw [ht, ← hyt]; exact hzn⟩
    · exact .inl ⟨hed, he⟩

/-- The record of d leaves a state that is neither QUEUED nor RETIRED for one that is neither QUEUED nor RETIRED. -/
theorem Held.change (h : Held C s a (some d)) (l : Like s d x) {x' : Desc} (ho : x'.owner = x.owner)
    (hq : x.state ≠ .queued) (hr : x.state ≠ .retired) (hq' : x'.state ≠ .queued)
    (hok : skip = some d ∨ skip = none ∧ x'.Ok ∧
      (C → ((s.ports.get x'.owner).state = .closing ↔ x'.pr.stop = .withdrawn)))
    (ha : x'.state = .active → a = none ∨ a = some d) :
    Held C (s.putDesc d (some x')) (if x'.state = .active then some d else if a = some d then none else a) skip := by
  refine h.update l ho rfl rfl ?_ rfl rfl ?_ hok ha
  · intro e k
    rw [State.putDesc_ready]
    by_cases hed : e = d
    · subst hed; rw [h.count_self l k]; simp [hq, hq']
    · simp [hed]
  · intro p e he
    by_cases hed : e = d
    · subst hed; exact absurd he (by rw [State.putDesc_fnu, h.notInSets l hr]; simp)
    · exact .inl ⟨hed, he⟩

/-- The record of d enters QUEUED at the tail, or at the head, of its level. -/
theorem Held.enqueue (h : Held C s a (some d)) (l : Like s d x) {x' : Desc} (ho : x'.owner = x.owner)
    (hq : x.state ≠ .queued) (hr : x.state ≠ .retired) (hq' : x'.state = .queued) (hok : x'.Ok)
    (hown : C → ((s.ports.get x'.owner).state = .closing ↔ x'.pr.stop = .withdrawn)) (head : Bool) :
    Held C (if head then (s.putDesc d (some x')).insertHead d x'.st.priority
        else (s.putDesc d (some x')).insertTail d x'.st.priority)
      (if a = some d then none else a) none := by
  have key := h.update (skip := none) (x' := x')
    (t := if head then (s.putDesc d (some x')).insertHead d x'.st.priority
        else (s.putDesc d (some x')).insertTail d x'.st.priority) l ho ?_ ?_ ?_ ?_ ?_ ?_ (.inr ⟨rfl, hok, hown⟩)
    (fun hx => by rw [hq'] at hx; cases hx)
  · have e : (if x'.state = .active then some d else if a = some d then none else a)
        = (if a = some d then none else a) := if_neg (by rw [hq']; simp)
    rw [e] at key; exact key
  all_goals try (cases head <;> rfl)
  · intro e k
    have hc := h.count_self l k
    cases head
    · simp only [Bool.false_eq_true, if_false, State.insertTail_ready, State.putDesc_ready, Tab.get_put]
      by_cases hk : x'.st.priority = k
      · subst hk
        by_cases hed : e = d
        · subst hed; simp [hc, hq, hq']
        · simp [hed, Ne.symm hed]
      · by_cases hed : e = d
        · subst hed; simp [hc, hq, hq', hk]
        · simp [hed, hk]
    · simp only [if_true, State.insertHead_ready, State.putDesc_ready, Tab.get_put]
      by_cases hk : x'.st.priority = k
      · subst hk
        by_cases hed : e = d
        · subst hed; simp [hc, hq, hq']
        · simp [hed, Ne.symm hed]
      · by_cases hed : e = d
        · subst hed; simp [hc, hq, hq', hk]
        · simp [hed, hk]
  · intro p e he
    have he' : (s.fnu.get p).retired.get e = true := by cases head <;> exact he
    by_cases hed : e = d
    · subst hed; rw [h.notInSets l hr] at he'; cases he'
    · exact .inl ⟨hed, he'⟩

/-! ### Retirement and freeing -/

theorem setRetired_get (s : State) (p q : PortIx) (d e : DescIx) (b : Bool) :
    ((s.setRetired p d b).fnu.get q).retired.get e =
      if p = q ∧ d = e then b else (s.fnu.get q).retired.get e := by
  unfold State.setRetired
  simp only [State.evalInt_fnu, State.putNotice_fnu, Tab.get_put]
  by_cases hp : p = q
  · subst hp
    by_cases hd : d = e
    · subst hd; simp
    · simp [hd, Tab.get_put]
  · simp [hp]

@[simp] theorem leaveQueue_same (s : State) (d : DescIx) (x : Desc) :
    (s.leaveQueue d x).descs = s.descs ∧ (s.leaveQueue d x).sweepMarks = s.sweepMarks ∧
      (s.leaveQueue d x).fnu = s.fnu ∧ (s.leaveQueue d x).ports = s.ports ∧ (s.leaveQueue d x).freed = s.freed ∧
      (s.leaveQueue d x).engine = s.engine ∧ (s.leaveQueue d x).master = s.master ∧
      (s.leaveQueue d x).sweep = s.sweep := by
  unfold State.leaveQueue; split <;> simp

theorem leaveQueue_eq (s : State) (d : DescIx) (x : Desc) : ∃ r, s.leaveQueue d x = { s with ready := r } := by
  unfold State.leaveQueue; split
  · exact ⟨_, rfl⟩
  · exact ⟨_, rfl⟩

theorem setRetired_eq (s : State) (p : PortIx) (d : DescIx) (b : Bool) :
    ∃ f i, s.setRetired p d b = { s with fnu := f, intOut := i } := ⟨_, _, rfl⟩

/-- Entering RETIRED (R9, R141). -/
theorem Held.retire (h : Held C s a (some d)) (l : Like s d x) (hx : x.state ≠ .retired) (hb : x.Bounded)
    (c : Code) (det : Option (SideName × Offset)) (hdone : x.pr.blocksRem = 0 → c = .done ∧ det = none)
    (hown : C → (s.ports.get x.owner).state ≠ .closing) :
    Held C (s.retire d x c det) (if a = some d then none else a) none := by
  have hcount := fun e k => h.count_leaveQueue l e k
  obtain ⟨r, hr⟩ := leaveQueue_eq s d x
  have key := h.update (skip := none) (x' := x.retire c det) (t := s.retire d x c det) l rfl ?_ ?_ ?_ ?_ ?_ ?_
    (.inr ⟨rfl, hb.retire_ok c det hdone, fun hC => ⟨fun hc => absurd hc (hown hC), by
      simp [Desc.retire, Desc.withProgress]⟩⟩) (by simp [Desc.retire, Desc.withProgress])
  · rw [if_neg (by simp [Desc.retire, Desc.withProgress])] at key; exact key
  all_goals unfold State.retire
  · rw [hr]; by_cases hn : x.st.notice = true <;> simp [hn, State.setRetired]
  · rw [hr]; by_cases hn : x.st.notice = true <;> simp [hn, State.setRetired]
  · intro e k
    have := hcount e k
    rw [hr] at this ⊢
    have hq : ¬ ((x.retire c det).state = .queued ∧ (x.retire c det).st.priority = k) := by
      simp [Desc.retire, Desc.withProgress]
    rw [if_neg hq]
    by_cases hn : x.st.notice = true <;> simpa [hn, State.setRetired] using this
  · rw [hr]; by_cases hn : x.st.notice = true <;> simp [hn, State.setRetired]
  · rw [hr]; by_cases hn : x.st.notice = true <;> simp [hn, State.setRetired]
  · intro p e he
    rw [hr] at he
    have hnot := h.notInSets l hx
    by_cases hn : x.st.notice = true
    · simp only [hn, if_true] at he
      rw [setRetired_get] at he
      by_cases hpe : x.owner = p ∧ d = e
      · right; exact ⟨hpe.2.symm, hpe.1.symm, rfl, hn⟩
      · rw [if_neg hpe] at he
        left; refine ⟨?_, he⟩
        rintro rfl
        exact absurd he (by simp [hnot p])
    · simp only [hn] at he
      left; refine ⟨?_, he⟩
      rintro rfl
      exact absurd he (by simp [hnot p])

/-- A faulting retirement (R142). -/
theorem Held.retireFault (h : Held C s a (some d)) (l : Like s d x) (hx : x.state ≠ .retired) (hb : x.Bounded)
    (c : Code) (w : WindowIx) (sd : SideName) (o : Offset) (hblk : x.pr.blocksRem ≠ 0)
    (hown : C → (s.ports.get x.owner).state ≠ .closing) :
    Held C (s.retireFault d x c w sd o) (if a = some d then none else a) none :=
  (h.retire l hx hb c _ (fun hc => absurd hc hblk) hown).reports (State.reportNow_only _ _ _)

/-- Becoming EMPTY where the owner is not closing (R10). -/
theorem Held.makeEmpty (h : Held C s a (some d)) (l : Like s d x)
    (hown : C → (s.ports.get x.owner).state ≠ .closing) :
    Held C (s.makeEmpty d x) (if a = some d then none else a) none := by
  have hcount := fun e k => h.count_leaveQueue l e k
  obtain ⟨r, hr⟩ := leaveQueue_eq s d x
  refine h.empty (t := s.makeEmpty d x) l ?_ ?_ ?_ ?_ ?_ ?_ <;> unfold State.makeEmpty
  · rw [hr]; simp [State.setRetired]
  · rw [hr]; simp [State.setRetired]
  · intro e k
    have := hcount e k
    rw [hr] at this ⊢
    simpa [State.setRetired] using this
  · rw [hr]; simp [State.setRetired]
  · intro p e he
    rw [hr, setRetired_get] at he
    by_cases hpe : x.owner = p ∧ d = e
    · rw [if_pos hpe] at he; cases he
    · rw [if_neg hpe] at he
      refine ⟨?_, he⟩
      rintro rfl
      obtain ⟨z, hz, -, hzo, -⟩ := h.sets p e he
      obtain ⟨y, hy, -, -, hyo⟩ := l
      rw [hy] at hz; cases hz
      exact hpe ⟨hyo ▸ hzo, rfl⟩
  · intro hC; rw [hr]; exact .inl ⟨hown hC, rfl⟩

/-- The other records of a closing port, where there are any, would be ACTIVE (R183). -/
theorem Held.closing_alone (h : Held C s a (some d)) (l : Like s d x) (hx : x.state = .active) (hC : C)
    (hcl : (s.ports.get x.owner).state = .closing) :
    ∀ e z, e ≠ d → s.descs.get e = some z → z.owner ≠ x.owner := by
  intro e z hed hz hzo
  have hne : (some d : Option DescIx) ≠ some e := by simpa using Ne.symm hed
  have hst := (h.owner hC e z hne hz).1 (by rw [hzo]; exact hcl)
  have hact : z.state = .active := (h.ok e z hne hz).2.2.2.2.1 (by rw [hst]; simp)
  have h1 := (h.active e).2 ⟨z, hz, hact⟩
  obtain ⟨y, hy, hys, -⟩ := l
  have h2 := (h.active d).2 ⟨y, hy, by rw [hys]; exact hx⟩
  rw [h1] at h2; exact hed (by simpa using h2)

/-- The ACTIVE descriptor of a closing port becomes EMPTY and its port is told (R128, R133). -/
theorem Held.free (h : Held C s a (some d)) (l : Like s d x) (hx : x.state = .active)
    (hown : C → (s.ports.get x.owner).state = .closing) :
    Held C { s.makeEmpty d x with freed := s.freed.put x.owner true } (if a = some d then none else a) none := by
  have hcount := fun e k => h.count_leaveQueue l e k
  obtain ⟨r, hr⟩ := leaveQueue_eq s d x
  refine h.empty (t := { s.makeEmpty d x with freed := s.freed.put x.owner true }) l ?_ ?_ ?_ ?_ ?_ ?_ <;>
    unfold State.makeEmpty
  · rw [hr]; simp [State.setRetired]
  · rw [hr]; simp [State.setRetired]
  · intro e k
    have := hcount e k
    rw [hr] at this ⊢
    simpa [State.setRetired] using this
  · rw [hr]; simp [State.setRetired]
  · intro p e he
    rw [hr] at he
    have he' : (((State.putDesc { s with ready := r } d none).setRetired x.owner d false).fnu.get p).retired.get e
      = true := he
    rw [setRetired_get] at he'
    by_cases hpe : x.owner = p ∧ d = e
    · rw [if_pos hpe] at he'; cases he'
    · rw [if_neg hpe] at he'
      refine ⟨?_, he'⟩
      rintro rfl
      obtain ⟨z, hz, -, hzo, -⟩ := h.sets p e he'
      obtain ⟨y, hy, -, -, hyo⟩ := l
      rw [hy] at hz; cases hz
      exact hpe ⟨hyo ▸ hzo, rfl⟩
  · intro hC
    exact .inr ⟨hown hC, rfl, h.closing_alone l hx hC (hown hC)⟩

theorem makeEmpty_freed (s : State) (d : DescIx) (x : Desc) : (s.makeEmpty d x).freed = s.freed := by
  obtain ⟨r, hr⟩ := leaveQueue_eq s d x
  unfold State.makeEmpty; rw [hr]; rfl

/-- A stop request of the ACTIVE descriptor is taken (R127, R128). -/
theorem Held.settleStop (h : Held C s a (some d)) (l : Like s d x) (hx : x.state = .active) (hb : x.Bounded)
    (hblk : x.pr.blocksRem ≠ 0) (hs : x.pr.stop ≠ .none)
    (hown : C → ((s.ports.get x.owner).state = .closing ↔ x.pr.stop = .withdrawn)) :
    Held C (s.settleStop d x) none none := by
  have had : a = some d := by
    obtain ⟨y, hy, hys, -⟩ := l
    exact (h.active d).2 ⟨y, hy, hys ▸ hx⟩
  have hnr : x.state ≠ .retired := by rw [hx]; simp
  have noDone : ∀ (c : Code), x.pr.blocksRem = 0 → c = .done ∧ (none : Option (SideName × Offset)) = none :=
    fun _ hc => absurd hc hblk
  unfold State.settleStop
  split
  · rename_i hn; exact absurd hn hs
  · rename_i hn
    have := h.retire l hnr hb .cancelled none (noDone _) fun hC hc => by simp [(hown hC).1 hc] at hn
    simpa [had] using this
  · rename_i hn
    have := h.retire l hnr hb .leaseExpired none (noDone _) fun hC hc => by simp [(hown hC).1 hc] at hn
    simpa [had] using this
  · rename_i hn
    have := h.free l hx fun hC => (hown hC).2 hn
    simpa [had, makeEmpty_freed] using this

/-! ### Trigger acceptance -/

/-- A trigger offered to a live descriptor (R22, R23). -/
theorem Held.acceptTrigger (h : Held C s a none) (hx : s.descs.get d = some x) (hl : x.state ≠ .loaded)
    (hr : x.state ≠ .retired) : Held C (s.acceptTrigger d x).1 a none := by
  have hok := h.ok d x (by simp) hx
  have hown := fun hC => h.owner hC d x (by simp) hx
  have hw := h.weaken (some d)
  have l := Like.self hx
  unfold State.acceptTrigger
  by_cases hp : x.pr.pending < Config.maxPending
  · have ha := hok.accept hp hl hr
    simp only [hp, if_true]
    by_cases harm : x.state = .armed
    · simp only [harm, if_true] at ha ⊢
      have := hw.enqueue l (x' := x.withProgress .queued { x.pr with pending := x.pr.pending + 1 }) rfl
        (by rw [harm]; simp) hr rfl ha hown false
      have hna : a ≠ some d := fun hc => by
        obtain ⟨y, hy, hys⟩ := (h.active d).1 hc
        rw [hx] at hy; cases hy; rw [harm] at hys; cases hys
      simpa [hna, Desc.withProgress] using this
    · simp only [harm, if_false] at ha ⊢
      exact hw.replace l rfl rfl rfl (.inr ⟨rfl, ha, hown⟩)
  · simp only [hp, if_false]
    exact hw.replace l rfl rfl rfl (.inr ⟨rfl, hok.missed, hown⟩)

end Sys2Proof.Machine
end

