-- ==== Sys2Proof/Laws/Engine.lean ====
section
/-! SUPPORT. The engine, the sweep and the master port keep the claims about records: `Recs` holds before and after each
of their operations. One lemma an operation, in the order of EngineOps. -/

namespace Sys2Proof.Machine

/-- The claims about records in a state whose engine holds what its record says. -/
structure Recs (C : Prop) (s : State) : Prop where
  held : Held C s s.engine.active none
  working : s.engine.state.working = true ↔ s.engine.active.isSome = true
  fits : s.ActiveOk

/-- The engine works on d, whose record is x; its last block may just have ended. -/
structure Busy (C : Prop) (s : State) (d : DescIx) (x : Desc) : Prop where
  held : Held C s (some d) (some d)
  active : s.engine.active = some d
  desc : s.descs.get d = some x
  state : x.state = .active
  begun : s.engine.spellBegun = true
  bounded : x.Bounded
  ok : x.pr.blocksRem ≠ 0 → x.Ok
  own : C → ((s.ports.get x.owner).state = .closing ↔ x.pr.stop = .withdrawn)

variable {C : Prop} {s t : State} {a : Option DescIx} {d : DescIx} {x : Desc}

theorem Held.fill (h : Held C s a (some d)) (hx : s.descs.get d = some x) (ok : x.Ok)
    (own : C → ((s.ports.get x.owner).state = .closing ↔ x.pr.stop = .withdrawn)) : Held C s a none where
  marks := h.marks
  queue := h.queue
  active := h.active
  sets := h.sets
  ok := fun e y _ hy => by
    by_cases hed : d = e
    · subst hed; rw [hx] at hy; cases hy; exact ok
    · exact h.ok e y (by simpa using hed) hy
  owner := fun hC e y _ hy => by
    by_cases hed : d = e
    · subst hed; rw [hx] at hy; cases hy; exact own hC
    · exact h.owner hC e y (by simpa using hed) hy
  freed := h.freed

namespace Recs

/-- The claims read nothing else. -/
theorem congr (h : Recs C s) (he : t.engine = s.engine) (hd : t.descs = s.descs) (hm : t.sweepMarks = s.sweepMarks)
    (hr : t.ready = s.ready) (hf : ∀ p, (t.fnu.get p).retired = (s.fnu.get p).retired)
    (hp : ∀ p, (t.ports.get p).state = (s.ports.get p).state) (hfr : t.freed = s.freed) : Recs C t where
  held := by rw [he]; exact h.held.congr hd hm hr hf hp hfr
  working := by rw [he]; exact h.working
  fits := by intro e y h1 h2; rw [he] at h1 ⊢; rw [hd] at h2; exact h.fits e y h1 h2

theorem ok (h : Recs C s) (hx : s.descs.get d = some x) : x.Ok := h.held.ok d x (by simp) hx

theorem own (h : Recs C s) (hx : s.descs.get d = some x) :
    C → ((s.ports.get x.owner).state = .closing ↔ x.pr.stop = .withdrawn) := fun hC => h.held.owner hC d x (by simp) hx

theorem active_iff (h : Recs C s) (hx : s.descs.get d = some x) : s.engine.active = some d ↔ x.state = .active := by
  rw [h.held.active d]; constructor
  · rintro ⟨y, hy, hys⟩; rw [hx] at hy; cases hy; exact hys
  · exact fun hs => ⟨x, hx, hs⟩

theorem activeDesc (h : Recs C s) (ha : s.engine.active = some d) :
    ∃ x, s.descs.get d = some x ∧ x.state = .active := (h.held.active d).1 ha

/-- The same engine, with the active descriptor's record untouched. -/
theorem sameEngine (h : Recs C s) (he : t.engine = s.engine) (ht : Held C t s.engine.active none)
    (hd : ∀ e, s.engine.active = some e → t.descs.get e = s.descs.get e) : Recs C t where
  held := by rw [he]; exact ht
  working := by rw [he]; exact h.working
  fits := by intro e y h1 h2; rw [he] at h1 ⊢; rw [hd e h1] at h2; exact h.fits e y h1 h2

/-- A record rewritten in its state and place. -/
theorem replace (h : Recs C s) (hx : s.descs.get d = some x) {x' : Desc} (hs : x'.state = x.state) (ht : x'.st = x.st)
    (ho : x'.owner = x.owner) (hok : x'.Ok)
    (hown : C → ((s.ports.get x'.owner).state = .closing ↔ x'.pr.stop = .withdrawn))
    (hact : s.engine.active = some d →
      (s.engine.state = .waitPort → x'.pr.stop = .none) ∧ (s.engine.spellBegun = false → 1 ≤ x'.pr.pending)) :
    Recs C (s.putDesc d (some x')) where
  held := (h.held.weaken (some d)).replace (Like.self hx) hs ht ho (.inr ⟨rfl, hok, hown⟩)
  working := h.working
  fits := by
    intro e y h1 h2
    rw [State.putDesc_descs, Tab.get_put] at h2
    by_cases hed : d = e
    · subst hed
      simp only [if_true, Option.some.injEq] at h2
      subst h2
      obtain ⟨h3, h4, h5⟩ := h.fits d x h1 hx
      exact ⟨(hact h1).1, fun hb => ⟨(hact h1).2 hb, by rw [ht]; exact (h4 hb).2.1, (h4 hb).2.2⟩, h5⟩
    · rw [if_neg hed] at h2; exact h.fits e y h1 h2

end Recs

/-- The engine drops its descriptor, whose record is settled. -/
theorem Held.dropEngine (h : Held C s none none) : Recs C s.dropEngine where
  held := h.congr rfl rfl rfl (fun _ => rfl) (fun _ => rfl) rfl
  working := by simp only [State.dropEngine_engine, Engine.dropped]; split <;> simp [EngineState.working, Engine.reset]
  fits := by intro e y h1; cases h1

/-! ### Stop requests -/

theorem retire_engine (s : State) (d : DescIx) (x : Desc) (c : Code) (det : Option (SideName × Offset)) :
    (s.retire d x c det).engine = s.engine := by
  obtain ⟨r, hr⟩ := leaveQueue_eq s d x
  unfold State.retire
  rw [hr]
  by_cases hn : x.st.notice = true <;> simp [hn, State.setRetired]

theorem retire_descs (s : State) (d : DescIx) (x : Desc) (c : Code) (det : Option (SideName × Offset)) :
    (s.retire d x c det).descs = s.descs.put d (some (x.retire c det)) := by
  obtain ⟨r, hr⟩ := leaveQueue_eq s d x
  unfold State.retire
  rw [hr]
  by_cases hn : x.st.notice = true <;> simp [hn, State.setRetired]

theorem StopRequest.meet_withdrawn {f r : StopRequest} (hr : r ≠ .withdrawn) :
    f.meet r = .withdrawn ↔ f = .withdrawn := by
  cases f <;> cases r <;> simp_all [StopRequest.meet]

theorem StopRequest.meet_ne_none {f r : StopRequest} (hr : r ≠ .none) : f.meet r ≠ .none := by
  cases f <;> cases r <;> simp_all [StopRequest.meet]

/-- In WAIT_PORT a stop request just set is taken (R75). -/
theorem Held.stopInWaitPort (h : Held C s s.engine.active none)
    (hw : s.engine.state.working = true ↔ s.engine.active.isSome = true) (hx : s.descs.get d = some x)
    (hact : x.state = .active) (hstop : x.pr.stop ≠ .none)
    (hfits : s.engine.state ≠ .waitPort → s.ActiveOk) : Recs C (s.stopInWaitPort d) := by
  have had : s.engine.active = some d := (h.active d).2 ⟨x, hx, hact⟩
  have hok := h.ok d x (by simp) hx
  unfold State.stopInWaitPort
  by_cases hwp : s.engine.state = .waitPort
  · rw [if_pos ⟨hwp, had⟩, hx]
    simp only [hstop, if_false]
    have hw := h.weaken (some d)
    exact (hw.settleStop (Like.self hx) hact hok.bounded (hok.blocks (by rw [hact]; simp)) hstop
      (fun hC => h.owner hC d x (by simp) hx)).dropEngine
  · rw [if_neg fun hc => hwp hc.1]
    exact ⟨h, hw, hfits hwp⟩

/-- A CANCEL or an expiry meets the ACTIVE descriptor (R125). -/
theorem Recs.raiseStop (h : Recs C s) {y : Desc} (hy : s.descs.get d = some y) (hact : y.state = .active) (n : Nat)
    (hn : n ≤ y.st.initialLease) {r : StopRequest} (hr : r ≠ .none) (hr' : r ≠ .withdrawn)
    (hxy : x = { y with pr := { y.pr with lease := n } }) : Recs C (s.raiseStop d x r) := by
  subst hxy
  have had := (h.active_iff hy).2 hact
  have hok := (h.ok hy).lease n hn
  have hown := h.own hy
  unfold State.raiseStop
  refine Held.stopInWaitPort (x := { y with pr := { y.pr with lease := n, stop := y.pr.stop.meet r } })
    ?_ h.working (by simp) hact (StopRequest.meet_ne_none hr) ?_
  · refine (h.held.weaken (some d)).replace (Like.self hy) rfl rfl rfl (.inr ⟨rfl, hok.stop hact _, fun hC => ?_⟩)
    rw [StopRequest.meet_withdrawn hr']; exact hown hC
  · intro hnw e z h1 h2
    have h1' : s.engine.active = some e := h1
    rw [had] at h1'; cases h1'
    rw [State.putDesc_descs, Tab.get_put_same] at h2
    cases h2
    obtain ⟨-, h4, h5⟩ := h.fits d y had hy
    exact ⟨fun hc => absurd hc hnw, h4, h5⟩

/-! ### Sweep visits -/

theorem Recs.stepLease (h : Recs C s) (hx : s.descs.get d = some x) (hr : x.state ≠ .retired) :
    Recs C (s.stepLease d x) := by
  have hok := h.ok hx
  have hle := hok.2.2.2.1.2.2.2.1
  unfold State.stepLease
  by_cases h1 : 1 < x.pr.lease
  · rw [if_pos h1]
    have hown := h.own hx
    refine h.replace hx rfl rfl rfl (hok.lease _ (by omega)) (fun hC => hown hC) fun ha => ?_
    obtain ⟨h3, h4, -⟩ := h.fits d x ha hx
    exact ⟨h3, fun hb => (h4 hb).1⟩
  · rw [if_neg h1]
    simp only
    by_cases hact : x.state = .active
    · rw [if_pos hact]
      exact h.raiseStop hx hact 0 (Nat.zero_le _) (by simp) (by simp) rfl
    · rw [if_neg hact]
      have hna : s.engine.active ≠ some d := fun hc => hact ((h.active_iff hx).1 hc)
      have hok0 := hok.lease 0 (Nat.zero_le _)
      have key := (h.held.weaken (some d)).retire (x := { x with pr := { x.pr with lease := 0 } })
        ⟨x, hx, rfl, rfl, rfl⟩ hr hok0.bounded .leaseExpired none (fun hc => absurd hc (hok.blocks hr))
        (fun hC hc => by
          have := (h.own hx hC).1 hc
          rw [hok.stop_none hact] at this; cases this)
      rw [if_neg hna] at key
      refine h.sameEngine (retire_engine _ _ _ _ _) key fun e he => ?_
      rw [retire_descs, Tab.get_put_of_ne]
      rintro rfl; exact hna he

theorem Recs.startReread (h : Recs C s) (hx : s.descs.get d = some x) (hw : x.state = .waiting) :
    Recs C (s.startReread d x) := by
  unfold State.startReread
  split
  · exact h
  · have key : Recs C { s with sweepMarks := s.sweepMarks.put d true } := by
      refine ⟨⟨?_, h.held.queue, h.held.active, h.held.sets, h.held.ok, h.held.owner, h.held.freed⟩, h.working,
        h.fits⟩
      intro e he
      rw [Tab.get_put] at he
      by_cases hed : d = e
      · subst hed; exact ⟨x, hx, hw⟩
      · rw [if_neg hed] at he; exact h.held.marks e he
    simp only
    split
    · exact key.congr rfl rfl rfl rfl (fun _ => rfl) (fun _ => rfl) rfl
    · exact key.congr rfl rfl rfl rfl (fun _ => rfl) (fun _ => rfl) rfl

theorem Recs.visit (h : Recs C s) : Recs C (s.visit d) := by
  unfold State.visit
  split
  · exact h
  · rename_i x hx
    by_cases hs : x.state = .loaded ∨ x.state = .retired
    · rw [if_pos hs]; exact h
    · rw [if_neg hs]
      have key : Recs C (if x.st.initialLease = 0 then s else s.stepLease d x) := by
        split
        · exact h
        · exact h.stepLease hx fun hc => hs (.inr hc)
      simp only
      split
      · exact key
      · rename_i y hy
        split
        · exact key.startReread hy (by assumption)
        · exact key

theorem Recs.performVisit (h : Recs C s) : Recs C s.performVisit := by
  have : Recs C { s with sweep := { s.sweep with cursor := s.sweep.cursor + 1 } } :=
    h.congr rfl rfl rfl rfl (fun _ => rfl) (fun _ => rfl) rfl
  exact this.visit

/-! ### The master port -/

/-- Changing the master port's, the sweep's or the channels' records and the lists of hand-offs keeps the claims. -/
theorem Recs.outer (h : Recs C s) (m : MasterPort) (w : Sweep) (c : Tab Channel 8) :
    Recs C { s with master := m, sweep := w, channels := c } := h.congr rfl rfl rfl rfl (fun _ => rfl) (fun _ => rfl) rfl

theorem Recs.serveVisits (n : Nat) (h : Recs C s) : Recs C (State.serveVisits n s) := by
  induction n generalizing s with
  | zero => exact h
  | succ n ih =>
    unfold State.serveVisits; split
    · exact h
    · simp only
      have key := (h.outer { s.master with holder := some .sweep }
        { s.sweep with deferred := s.sweep.deferred - 1 } s.channels).performVisit
      split
      · exact key
      · exact ih (key.outer _ _ _)

theorem Recs.handOnToSweep (h : Recs C s) : Recs C s.handOnToSweep := by
  have key := (h.outer { s.master with holder := none } s.sweep s.channels).serveVisits s.sweep.deferred
  unfold State.handOnToSweep
  simp only; split
  · exact key
  · exact key.outer _ _ _

theorem Recs.engineGivesBack (h : Recs C s) : Recs C s.engineGivesBack := by
  unfold State.engineGivesBack; split
  · split
    · exact h.outer _ _ _
    · exact h.handOnToSweep
  · exact h

/-- The engine lets its settled descriptor go (R76). -/
theorem Held.letGo (h : Held C s none none) : Recs C s.letGo := h.dropEngine.engineGivesBack

/-! ### Failures -/

theorem Held.settleFailure (h : Held C s (some d) (some d)) (hx : s.descs.get d = some x) (hact : x.state = .active)
    (hok : x.Ok) (own : C → ((s.ports.get x.owner).state = .closing ↔ x.pr.stop = .withdrawn))
    (c : Code) (w : WindowIx) (sd : SideName) (o : Offset) : Held C (s.settleFailure d x c w sd o) none none := by
  have hnr : x.state ≠ .retired := by rw [hact]; simp
  unfold State.settleFailure
  by_cases hs : x.pr.stop = .none
  · rw [if_pos hs]
    have := h.retireFault (Like.self hx) hnr hok.bounded c w sd o (hok.blocks hnr)
      (fun hC hc => by have := (own hC).1 hc; rw [hs] at this; cases this)
    simpa using this
  · rw [if_neg hs]
    exact h.settleStop (Like.self hx) hact hok.bounded (hok.blocks hnr) hs own

theorem Busy.unitFails (h : Busy C s d x) (hb : x.pr.blocksRem ≠ 0) (c : Code) (w : WindowIx) (sd : SideName)
    (o : Offset) : Recs C (s.unitFails d x c w sd o) :=
  (h.held.settleFailure h.desc h.state (h.ok hb) h.own c w sd o).letGo

theorem Recs.activeDesc? (h : Recs C s) (hx : s.activeDesc? = some (d, x)) :
    s.engine.active = some d ∧ s.descs.get d = some x ∧ x.state = .active := by
  unfold State.activeDesc? at hx
  cases ha : s.engine.active with
  | none => simp [ha] at hx
  | some e =>
    cases hd : s.descs.get e with
    | none => simp [ha, hd] at hx
    | some y =>
      simp only [ha, hd, Option.bind_eq_bind, Option.bind_some, Option.pure_def, Option.some.injEq,
        Prod.mk.injEq] at hx
      obtain ⟨rfl, rfl⟩ := hx
      exact ⟨rfl, hd, (h.active_iff hd).1 ha⟩

theorem Recs.toHeld (h : Recs C s) (ha : s.engine.active = some d) : Held C s (some d) (some d) := by
  have := h.held; rw [ha] at this; exact this.weaken _

theorem Recs.guardReadOver (h : Recs C s) : Recs C s.guardReadOver := by
  have : Recs C { s with engine := { s.engine with inFlight := none } } := ⟨h.held.congr rfl rfl rfl (fun _ => rfl) (fun _ => rfl) rfl, h.working, h.fits⟩
  exact this.engineGivesBack

theorem Recs.guardReadFails (h : Recs C s) (g : Guard) (c : Code) : Recs C (s.guardReadFails g c) := by
  have key := h.guardReadOver
  unfold State.guardReadFails
  simp only; split
  · exact key
  · rename_i d x hx
    obtain ⟨ha, hd, hact⟩ := key.activeDesc? hx
    exact ((key.toHeld ha).settleFailure hd hact (key.ok hd) (key.own hd) c _ _ _).dropEngine

/-! ### Starting accesses and exchanges -/

theorem Recs.startGuardRead (h : Recs C s) (ha : s.engine.active = some d) (hb : s.engine.spellBegun = false)
    (x : Desc) (g : Guard) : Recs C (s.startGuardRead x g) := by
  have key : ∀ f, Recs C { s with engine := { s.engine with state := .guard, inFlight := f } } := fun f => by
    refine ⟨h.held.congr rfl rfl rfl (fun _ => rfl) (fun _ => rfl) rfl, by simp [EngineState.working, ha], ?_⟩
    intro e y h1 h2
    obtain ⟨-, h4, -⟩ := h.fits e y h1 h2
    exact ⟨fun hc => by simp at hc, fun hb => ⟨(h4 hb).1, (h4 hb).2.1, .inr rfl⟩, fun _ => hb⟩
  unfold State.startGuardRead
  split
  · exact key _
  · exact Recs.guardReadFails (key s.engine.inFlight) g _

/-- A unit of d is put in flight. -/
theorem Busy.putInFlight (h : Busy C s d x) (hs : x.Ok) {e : EngineState}
    (he : e = .move ∨ e = .peripheral) (c : Tab Channel 8) (f : InFlight) :
    Recs C (State.putInFlight { s with channels := c } e f) := by
  have hf := h.held.fill h.desc hs h.own
  have ha := h.active
  refine ⟨?_, ?_, ?_⟩
  · rw [State.putInFlight_engine]
    show Held C _ s.engine.active none
    rw [ha]; exact hf.congr rfl rfl rfl (fun _ => rfl) (fun _ => rfl) rfl
  · rcases he with rfl | rfl <;> simp [EngineState.working, State.putInFlight, ha]
  · intro e' y h1 h2
    have hb' := h.begun
    rcases he with rfl | rfl <;> simp [State.putInFlight, hb']

theorem Busy.startUnit (h : Busy C s d x) (hb : x.pr.blocksRem ≠ 0) : Recs C (s.startUnit d x) := by
  have hok := h.ok hb
  unfold State.startUnit State.startSourceRead State.startAsk State.startDestinationWrite
  repeat' split
  all_goals first
    | exact h.unitFails hb _ _ _ _
    | exact h.putInFlight hok (.inl rfl) s.channels _
    | exact h.putInFlight hok (.inr rfl) _ _

theorem Recs.busy (h : Recs C s) (ha : s.engine.active = some d) (hx : s.descs.get d = some x)
    (hb : s.engine.spellBegun = true) : Busy C s d x ∧ x.pr.blocksRem ≠ 0 := by
  have hact := (h.active_iff hx).1 ha
  have hok := h.ok hx
  exact ⟨⟨h.toHeld ha, ha, hx, hact, hb, hok.bounded, fun _ => hok, h.own hx⟩, hok.blocks (by rw [hact]; simp)⟩

theorem Recs.engineTakesPort (h : Recs C s) : Recs C s.engineTakesPort := by
  have key := h.outer { s.master with engineClaim := false, holder := some .engine } s.sweep s.channels
  unfold State.engineTakesPort
  simp only; split
  · exact key
  · rename_i d x hx
    obtain ⟨ha, hd, hact⟩ := key.activeDesc? hx
    by_cases hb : s.engine.spellBegun = true
    · rw [if_pos hb]
      obtain ⟨hbusy, hblk⟩ := key.busy ha hd hb
      exact hbusy.startUnit hblk
    · rw [if_neg hb]
      split
      · exact key.startGuardRead ha (by simpa using hb) _ _
      · exact key

theorem Recs.handOn (h : Recs C s) : Recs C s.handOn := by
  have key := (h.outer { s.master with holder := none } s.sweep s.channels).serveVisits s.sweep.deferred
  unfold State.handOn
  simp only; split
  · exact key
  · split
    · exact key.engineTakesPort
    · exact key.outer _ _ _

/-- The engine waits for the port with d, which carries no stop request. -/
theorem Held.waits (h : Held C s (some d) none) (ha : s.engine.active = some d) (hx : s.descs.get d = some x)
    (hs : x.pr.stop = .none)
    (hb : s.engine.spellBegun = false → 1 ≤ x.pr.pending ∧ x.st.guard.isSome = true) :
    Recs C { s with engine := { s.engine with state := .waitPort, inFlight := none } } := by
  refine ⟨?_, by simp [EngineState.working, ha], ?_⟩
  · show Held C _ s.engine.active none
    rw [ha]; exact h.congr rfl rfl rfl (fun _ => rfl) (fun _ => rfl) rfl
  · intro e y h1 h2
    have h1' : s.engine.active = some e := h1
    rw [ha] at h1'; cases h1'
    have h2' : s.descs.get d = some y := h2
    rw [hx] at h2'; cases h2'
    exact ⟨fun _ => hs, fun hc => ⟨(hb hc).1, (hb hc).2, .inl rfl⟩, fun hc => by simp at hc⟩

/-- The engine claims the port (R81). -/
theorem Recs.claimPort (key : Recs C { s with engine := { s.engine with state := .waitPort, inFlight := none } }) :
    Recs C s.claimPort := by
  unfold State.claimPort
  simp only; split
  · split
    · exact key.outer _ _ _
    · exact (key.outer _ s.sweep s.channels).handOn
  · split
    · exact key.engineTakesPort
    · exact key.outer _ _ _

/-! ### Completion and the unit boundary -/

theorem Busy.settleCompletion (h : Busy C s d x) : Held C (s.settleCompletion d x) none none := by
  have l := Like.self h.desc
  have hnr : x.state ≠ .retired := by rw [h.state]; simp
  have hnq : x.state ≠ .queued := by rw [h.state]; simp
  unfold State.settleCompletion
  by_cases hc : (s.ports.get x.owner).state = .closing
  · rw [if_pos hc]
    have := h.held.free l h.state fun _ => hc
    simpa [makeEmpty_freed] using this
  · rw [if_neg hc]
    by_cases hr : x.st.reload = true
    · rw [if_pos hr]
      have hrok := h.bounded.reload_ok
      have hown : C → ((s.ports.get x.owner).state = .closing ↔ (x.pr.afterReload x.st).stop = .withdrawn) :=
        fun _ => ⟨fun h1 => absurd h1 hc, fun h1 => by simp [Progress.afterReload, Progress.initial] at h1⟩
      unfold State.reloadDesc
      by_cases hp : 0 < x.pr.pending
      · simp only [hp, if_true] at hrok ⊢
        have := h.held.enqueue l (x' := x.withProgress .queued (x.pr.afterReload x.st)) rfl hnq hnr rfl hrok hown false
        simpa [Desc.withProgress] using this
      · simp only [hp, if_false] at hrok ⊢
        have := h.held.change (skip := none) l (x' := x.withProgress .armed (x.pr.afterReload x.st)) rfl hnq hnr
          (by simp [Desc.withProgress]) (.inr ⟨rfl, hrok, hown⟩) (by simp [Desc.withProgress])
        simpa [Desc.withProgress] using this
    · rw [if_neg hr]
      have := h.held.retire l hnr h.bounded .done none (fun _ => ⟨rfl, rfl⟩) fun _ => hc
      simpa using this

theorem Busy.complete (h : Busy C s d x) : Recs C (s.complete d x) := by
  have key := h.settleCompletion
  have k2 : Held C ((s.settleCompletion d x).handEndRequest x.st) none none := by
    unfold State.handEndRequest
    repeat' split
    all_goals first | exact key | exact key.congr rfl rfl rfl (fun _ => rfl) (fun _ => rfl) rfl
  have k3 : Held C (((s.settleCompletion d x).handEndRequest x.st).handChain d x) none none := by
    unfold State.handChain
    split
    · exact k2
    · exact k2.congr rfl rfl rfl (fun _ => rfl) (fun _ => rfl) rfl
  exact k3.letGo

theorem Busy.spellEnds (h : Busy C s d x) (hb : x.pr.blocksRem ≠ 0) (hs : x.pr.stop = .none) :
    Held C (s.spellEnds d x) none none := by
  have l := Like.self h.desc
  have hok := h.ok hb
  have hnr : x.state ≠ .retired := by rw [h.state]; simp
  have hnq : x.state ≠ .queued := by rw [h.state]; simp
  have hp2 := hok.bounded.2.2.1
  have hres := hok.resume_clear hnq
  unfold State.spellEnds
  by_cases hp : 0 < x.pr.pending
  · rw [if_pos hp]
    have ok' := hok.move hnr .queued x.pr.pending x.pr.resume hs hp2 (by simp) (by simp) (fun _ => .inl hp) (by simp)
      (fun _ => rfl)
    have := h.held.enqueue l (x' := x.withProgress .queued x.pr) rfl hnq hnr rfl ok' h.own false
    simpa [Desc.withProgress] using this
  · rw [if_neg hp]
    have ok' := hok.move hnr .armed x.pr.pending x.pr.resume hs hp2 (by simp) (fun _ => by omega) (by simp) (by simp)
      (fun hc => by rw [hres] at hc; cases hc)
    have := h.held.change (skip := none) l (x' := x.withProgress .armed x.pr) rfl hnq hnr
      (by simp [Desc.withProgress]) (.inr ⟨rfl, ok', h.own⟩) (by simp [Desc.withProgress])
    simpa [Desc.withProgress] using this

theorem Held.setAside (h : Held C s (some d) (some d)) (hx : s.descs.get d = some x) (hact : x.state = .active)
    (hok : x.Ok) (own : C → ((s.ports.get x.owner).state = .closing ↔ x.pr.stop = .withdrawn))
    (hs : x.pr.stop = .none) (resume : Bool) (hr : resume = true ∨ 1 ≤ x.pr.pending) :
    Held C (s.setAside d x resume) none none := by
  have hnr : x.state ≠ .retired := by rw [hact]; simp
  have hnq : x.state ≠ .queued := by rw [hact]; simp
  have ok' := hok.move hnr .queued x.pr.pending resume hs hok.bounded.2.2.1 (by simp) (by simp)
    (fun _ => hr.symm) (by simp) (fun _ => rfl)
  have := h.enqueue (Like.self hx) (x' := x.withProgress .queued { x.pr with resume }) rfl hnq hnr rfl ok' own true
  unfold State.setAside
  simpa [Desc.withProgress] using this

theorem Busy.waits (h : Busy C s d x) (hb : x.pr.blocksRem ≠ 0) (hs : x.pr.stop = .none) :
    Recs C { s with engine := { s.engine with state := .waitPort, inFlight := none } } := by
  refine (h.held.fill h.desc (h.ok hb) h.own).waits h.active h.desc hs fun hc => ?_
  rw [h.begun] at hc; cases hc

theorem Busy.continueSpell (h : Busy C s d x) (hb : x.pr.blocksRem ≠ 0) (hs : x.pr.stop = .none) (b : Bool) :
    Recs C (s.continueSpell d x b) := by
  unfold State.continueSpell
  split
  · exact h.startUnit hb
  · exact (h.waits hb hs).claimPort

/-- The unit boundary (R73). -/
theorem Busy.boundary (h : Busy C s d x) (b : Bool) : Recs C (s.boundary d x b) := by
  unfold State.boundary
  by_cases hb : x.pr.blocksRem = 0
  · rw [if_pos hb]; exact h.complete
  · rw [if_neg hb]
    have hok := h.ok hb
    by_cases hs : x.pr.stop = .none
    · rw [if_neg (by simpa using hs)]
      repeat' split
      · exact (h.spellEnds hb hs).letGo
      · exact (h.held.setAside h.desc h.state hok h.own hs true (.inl rfl)).letGo
      · exact (h.held.setAside h.desc h.state hok h.own hs true (.inl rfl)).letGo
      · exact h.continueSpell hb hs _
    · rw [if_pos hs]
      exact (h.held.settleStop (Like.self h.desc) h.state hok.bounded hb hs h.own).letGo

theorem Desc.Ok.consume (h : x.Ok) (hx : x.state = .active) :
    Desc.Ok { x with pr := { x.pr with pending := x.pr.pending - 1 } } := by
  obtain ⟨h1, h2, h3, ⟨h4, h5, h6, h7, h8, h9, h10, h11⟩, h12⟩ := h
  refine ⟨h1, h2, h3, ⟨?_, h5, h6, h7, ?_, ?_, ?_, h11⟩, h12⟩ <;> simp only [hx]
  · omega
  · simp
  · simp
  · simp

/-- What a unit boundary that is reached from s decides, with the port as it is in s. -/
def AtBoundary (C : Prop) (s t : State) : Prop :=
  ∃ u d x b, t = State.boundary u d x b ∧ Busy C u d x ∧ u.master = s.master ∧ u.sweep = s.sweep ∧
    u.engine.pauseReq = s.engine.pauseReq

theorem AtBoundary.recs (h : AtBoundary C s t) : Recs C t := by
  obtain ⟨u, d, x, b, rfl, hb, -⟩ := h; exact hb.boundary b

/-- A spell starts (R71, R72). -/
theorem Held.startSpell (h : Held C s (some d) none) (ha : s.engine.active = some d) (hx : s.descs.get d = some x) :
    AtBoundary C s (s.startSpell d x) := by
  have hact : x.state = .active := by
    obtain ⟨y, hy, hys⟩ := (h.active d).1 rfl
    rw [hx] at hy; cases hy; exact hys
  have hok := h.ok d x (by simp) hx
  have hown := fun hC => h.owner hC d x (by simp) hx
  unfold State.startSpell
  refine ⟨_, _, { x with pr := { x.pr with pending := x.pr.pending - 1 } }, _, rfl,
    ⟨?_, by exact ha, by simp, hact, by rfl, (hok.consume hact).bounded, fun _ => hok.consume hact, by exact hown⟩,
    rfl, rfl, rfl⟩
  exact ((h.weaken (some d)).replace (Like.self hx) (x' := { x with pr := { x.pr with pending := x.pr.pending - 1 } })
    rfl rfl rfl (.inl rfl)).congr rfl rfl rfl (fun _ => rfl) (fun _ => rfl) rfl

/-- A unit completes (R91). -/
theorem Recs.unitCompletes (h : Recs C s) (ha : s.engine.active = some d) (hx : s.descs.get d = some x)
    (hb : s.engine.spellBegun = true) : AtBoundary C s (s.unitCompletes d x) := by
  have hact := (h.active_iff hx).1 ha
  have hok := h.ok hx
  have hnr : x.state ≠ .retired := by rw [hact]; simp
  have hbd := hok.afterUnit hnr
  have hown := h.own hx
  unfold State.unitCompletes
  refine ⟨_, _, { x with pr := x.pr.afterUnit x.st }, _, rfl,
    ⟨?_, by exact ha, by simp, hact, by exact hb, hbd, fun hblk => ?_, by exact hown⟩, rfl, rfl, rfl⟩
  · exact ((h.toHeld ha).replace (Like.self hx) (x' := { x with pr := x.pr.afterUnit x.st }) rfl rfl rfl
      (.inl rfl)).congr rfl rfl rfl (fun _ => rfl) (fun _ => rfl) rfl
  · refine hbd.ok (fun hc => absurd hc hblk) ?_ ?_ ?_ ?_ ?_ ?_ <;> simp only [hact]
    · simp
    · simp
    · simp
    · intro hc; have := hok.resume_clear (by rw [hact]; simp); simp [Progress.afterUnit, this] at hc
    · simp
    · have := hok.retired_none hnr; simp [Progress.afterUnit, this]

/-! ### Strobe exchanges -/

theorem Recs.begun_between (h : Recs C s) (ha : s.engine.active = some d) (hx : s.descs.get d = some x)
    (hs : s.engine.state = .move ∨ s.engine.state = .peripheral) : s.engine.spellBegun = true := by
  by_contra hc
  obtain ⟨-, h4, -⟩ := h.fits d x ha hx
  rcases (h4 (by simpa using hc)).2.2 with h5 | h5 <;> rcases hs with h6 | h6 <;> rw [h5] at h6 <;> cases h6

theorem Recs.exchangeFails (h : Recs C s) (c : ChannelIx) (code : Code) : Recs C (s.exchangeFails c code) := by
  have key := h.outer s.master s.sweep (s.channels.put c { (s.channels.get c) with state := .idle })
  unfold State.exchangeFails
  simp only; split
  · rename_i d x f hx hf
    obtain ⟨ha, hd, hact⟩ := Recs.activeDesc? key hx
    split
    · rename_i hex
      have hst : s.engine.state = .peripheral := by
        simp only [State.exchangeOn, Bool.or_eq_true, Bool.and_eq_true, beq_iff_eq] at hex
        rcases hex with hex | hex <;> exact hex.1.1
      obtain ⟨hb, hblk⟩ := key.busy ha hd (key.begun_between ha hd (.inr hst))
      exact hb.unitFails hblk _ _ _ _
    · exact key
  · exact key

/-! ### The engine's record under visits and hand-ons -/

theorem startReread_engine (s : State) (d : DescIx) (x : Desc) : (s.startReread d x).engine = s.engine := by
  unfold State.startReread; split
  · rfl
  · simp only; split <;> rfl

theorem stopInWaitPort_other (s : State) (d : DescIx) (h : s.engine.state ≠ .waitPort) : s.stopInWaitPort d = s := by
  unfold State.stopInWaitPort; rw [if_neg fun hc => h hc.1]

theorem stepLease_engine (s : State) (d : DescIx) (x : Desc) (h : s.engine.state ≠ .waitPort) :
    (s.stepLease d x).engine = s.engine := by
  unfold State.stepLease; split
  · rfl
  · simp only; split
    · unfold State.raiseStop
      have hs : ∀ t : State, t.engine = s.engine → (t.stopInWaitPort d).engine = s.engine := fun t ht => by
        rw [stopInWaitPort_other t d (by rw [ht]; exact h)]; exact ht
      exact hs _ rfl
    · exact retire_engine _ _ _ _ _

/-- Outside WAIT_PORT a visit leaves the engine's record as it is. -/
theorem visit_engine (s : State) (d : DescIx) (h : s.engine.state ≠ .waitPort) : (s.visit d).engine = s.engine := by
  unfold State.visit; split
  · rfl
  · rename_i x _
    split
    · rfl
    · have key : (if x.st.initialLease = 0 then s else s.stepLease d x).engine = s.engine := by
        split
        · rfl
        · exact stepLease_engine _ _ _ h
      simp only; split
      · exact key
      · split
        · rw [startReread_engine]; exact key
        · exact key

theorem performVisit_engine (s : State) (h : s.engine.state ≠ .waitPort) : s.performVisit.engine = s.engine :=
  visit_engine _ _ h

theorem serveVisits_engine (n : Nat) (s : State) (h : s.engine.state ≠ .waitPort) :
    (State.serveVisits n s).engine = s.engine := by
  induction n generalizing s with
  | zero => rfl
  | succ n ih =>
    unfold State.serveVisits; split
    · rfl
    · simp only
      have key := performVisit_engine { s with
          master := { s.master with holder := some .sweep },
          sweep := { s.sweep with deferred := s.sweep.deferred - 1 } } h
      split
      · exact key
      · refine (ih _ ?_).trans ?_
        · rw [State.freeHolder_engine, key]; exact h
        · rw [State.freeHolder_engine, key]

/-- Outside WAIT_PORT giving the port back leaves the engine's record as it is. -/
theorem engineGivesBack_engine (s : State) (h : s.engine.state ≠ .waitPort) : s.engineGivesBack.engine = s.engine := by
  unfold State.engineGivesBack; split
  · split
    · rfl
    · unfold State.handOnToSweep
      have key := serveVisits_engine s.sweep.deferred s.freeHolder h
      simp only; split
      · exact key
      · exact key
  · rfl

end Sys2Proof.Machine
end

