-- ==== Sys2Proof/Laws/Commands.lean ====
section
/-! SUPPORT. The operations that commands make of the engine's and the table's operations keep the claims about records:
the descriptor commands, invocations, chains, guard results, selection, guard reads, pauses and visits falling due. -/

namespace Sys2Proof.Machine

variable {C : Prop} {s t : State} {a : Option DescIx} {d : DescIx} {x : Desc}

/-! ### Descriptor commands -/

theorem parseStatic_ok {args : PortWords} {st : StaticPart} (h : parseStatic args = some st) : st.Ok := by
  unfold parseStatic at h
  simp only [Option.bind_eq_bind, Option.pure_def, Option.bind_eq_some_iff] at h
  obtain ⟨lv, -, pr, -, mv, -, us, -, md, -, bl, hbl, g, -, su, -, h⟩ := h
  cases h
  unfold parseBlockLen at hbl
  simp only at hbl
  split at hbl
  · rename_i hb
    cases hbl
    refine ⟨hb.1, hb.2, ?_, ?_, ?_⟩
    · unfold parseBlockCount; simp only; split <;> omega
    · unfold parseBlockCount
      have : field (args.get 1) 0 16 < 2 ^ 16 := Nat.mod_lt _ (by decide)
      simp only; split <;> omega
    · have : field (args.get 2) 0 8 < 2 ^ 8 := Nat.mod_lt _ (by decide)
      show field (args.get 2) 0 8 ≤ 255
      omega
  · cases hbl

/-- An EMPTY slot is filled (R16). -/
theorem Held.create (h : Held C s a none) (hx : s.descs.get d = none) {x' : Desc} (hs : x'.state = .loaded)
    (hok : x'.Ok) (hown : C → (s.ports.get x'.owner).state ≠ .closing) :
    Held C ((s.putDesc d (some x')).setRetired x'.owner d false) a none where
  marks := by
    intro e he
    simp only [State.setRetired, State.evalInt_sweepMarks, State.putNotice_sweepMarks, State.putDesc_sweepMarks,
      Tab.get_put, State.evalInt_descs, State.putNotice_descs, State.putDesc_descs] at he ⊢
    by_cases hed : d = e
    · subst hed; simp [hs] at he
    · rw [if_neg hed] at he ⊢; exact h.marks e he
  queue := by
    intro e k
    simp only [State.setRetired, State.evalInt_ready, State.putNotice_ready, State.putDesc_ready,
      State.evalInt_descs, State.putNotice_descs, State.putDesc_descs, Tab.get_put]
    by_cases hed : d = e
    · subst hed; rw [h.queue d k, hx]; simp [placesAt, hs]
    · rw [if_neg hed]; exact h.queue e k
  active := by
    intro e
    simp only [State.setRetired, State.evalInt_descs, State.putNotice_descs, State.putDesc_descs, Tab.get_put]
    rw [h.active e]
    by_cases hed : d = e
    · subst hed; simp [hx, hs]
    · simp [hed]
  sets := by
    intro p e he
    rw [setRetired_get] at he
    have hde : d ≠ e := by
      rintro rfl
      by_cases hpe : x'.owner = p ∧ d = d
      · rw [if_pos hpe] at he; cases he
      · rw [if_neg hpe] at he
        obtain ⟨z, hz, -⟩ := h.sets p d he
        rw [hx] at hz; cases hz
    rw [if_neg fun hc => hde hc.2] at he
    simp only [State.setRetired, State.evalInt_descs, State.putNotice_descs, State.putDesc_descs, Tab.get_put, hde,
      if_false]
    exact h.sets p e he
  ok := by
    intro e y _ hy
    simp only [State.setRetired, State.evalInt_descs, State.putNotice_descs, State.putDesc_descs, Tab.get_put] at hy
    by_cases hed : d = e
    · simp only [hed, if_true, Option.some.injEq] at hy; exact hy ▸ hok
    · rw [if_neg hed] at hy; exact h.ok e y (by simp) hy
  owner := by
    intro hC e y _ hy
    simp only [State.setRetired, State.evalInt_descs, State.putNotice_descs, State.putDesc_descs, Tab.get_put] at hy
    simp only [State.setRetired, State.evalInt_ports, State.putNotice_ports, State.putDesc_ports]
    by_cases hed : d = e
    · simp only [hed, if_true, Option.some.injEq] at hy
      subst hy
      exact ⟨fun hc => absurd hc (hown hC), fun hc => by
        rw [hok.stop_none (by rw [hs]; simp)] at hc; cases hc⟩
    · rw [if_neg hed] at hy; exact h.owner hC e y (by simp) hy
  freed := by
    intro hC p
    obtain ⟨h1, h2⟩ := h.freed hC p
    simp only [State.setRetired, State.evalInt_descs, State.putNotice_descs, State.putDesc_descs, Tab.get_put,
      State.evalInt_ports, State.putNotice_ports, State.putDesc_ports, State.evalInt_freed, State.putNotice_freed,
      State.putDesc_freed]
    refine ⟨fun hf => ⟨(h1 hf).1, ?_⟩, fun hc => ?_⟩
    · intro e y hy
      by_cases hed : d = e
      · simp only [hed, if_true, Option.some.injEq] at hy
        subst hy; rintro rfl; exact hown hC (h1 hf).1
      · rw [if_neg hed] at hy; exact (h1 hf).2 e y hy
    · rcases h2 hc with h3 | ⟨e, y, hy, hyo⟩
      · exact .inl h3
      · refine .inr ⟨e, y, ?_, hyo⟩
        rw [if_neg]; · exact hy
        rintro rfl; rw [hx] at hy; cases hy

/-- A LOADED or RETIRED record is rewritten, and leaves its owner's retired set (R16, R19). -/
theorem Held.rewrite (h : Held C s a none) (hx : s.descs.get d = some x) (hl : x.state = .loaded ∨ x.state = .retired)
    {x' : Desc} (ho : x'.owner = x.owner) (hs : x'.state = .loaded ∨ x'.state = .armed) (hok : x'.Ok) :
    Held C ((s.putDesc d (some x')).setRetired x.owner d false) a none := by
  have hxok := h.ok d x (by simp) hx
  have hna : x.state ≠ .active := by rcases hl with h | h <;> simp [h]
  have hna' : x'.state ≠ .active := by rcases hs with h | h <;> simp [h]
  have had : a ≠ some d := fun hc => by
    obtain ⟨y, hy, hys⟩ := (h.active d).1 hc
    rw [hx] at hy; cases hy; exact hna hys
  have key := (h.weaken (some d)).update (skip := none) (x' := x')
    (t := (s.putDesc d (some x')).setRetired x.owner d false) (Like.self hx) ho rfl rfl ?_ rfl rfl ?_
    (.inr ⟨rfl, hok, fun hC => ?_⟩) (fun hc => absurd hc hna')
  · rw [if_neg hna', if_neg had] at key; exact key
  · intro e k
    have hc := h.count_self (Like.self hx) k
    simp only [State.setRetired, State.evalInt_ready, State.putNotice_ready, State.putDesc_ready]
    by_cases hed : e = d
    · subst hed
      rcases hl with hl | hl <;> rcases hs with hs | hs <;> simp [hc, hl, hs]
    · simp [hed]
  · intro p e he
    rw [setRetired_get] at he
    by_cases hpe : x.owner = p ∧ d = e
    · rw [if_pos hpe] at he; cases he
    · rw [if_neg hpe] at he
      refine .inl ⟨?_, he⟩
      rintro rfl
      obtain ⟨z, hz, -, hzo, -⟩ := h.sets p e he
      rw [hx] at hz; cases hz
      exact hpe ⟨hzo, rfl⟩
  · rw [ho, hok.stop_none hna', ← hxok.stop_none hna]; exact h.owner hC d x (by simp) hx

theorem setRetired_engine (s : State) (p : PortIx) (d : DescIx) (b : Bool) :
    (s.setRetired p d b).engine = s.engine := rfl

theorem Recs.answer (h : Recs C s) (hd : Handed) (c : Code) (w : PortWords) : Recs C (s.answer hd c w) :=
  h.congr rfl rfl rfl rfl (fun _ => rfl) (fun _ => rfl) rfl

theorem Recs.refuse (h : Recs C s) (hd : Handed) (c : Code) : Recs C (s.refuse hd c) := h.answer hd c _

theorem Recs.descriptorChecks (h : Recs C s) (hd : Handed) {act : DescIx → Option Desc → State}
    (ha : ∀ d, Recs C (act d (s.descs.get d))) : Recs C (s.descriptorChecks hd act) := by
  unfold State.descriptorChecks
  split
  · exact h.refuse _ _
  · rename_i d _
    have := ha d
    split
    · rename_i hx; rw [hx] at this; exact this
    · rename_i x hx
      rw [hx] at this
      split
      · exact this
      · exact h.refuse _ _

/-- LOAD keeps the claims; where closing ports are among them, a command still pending must be at an OPEN port. -/
theorem Recs.load (h : Recs C s) (hd : Handed)
    (hp : C → s.stillPending hd = true → (s.ports.get hd.port).state ≠ .closing) : Recs C (s.load hd) := by
  refine h.descriptorChecks hd fun d => ?_
  split
  · exact h.refuse _ _
  · rename_i hpend
    unfold State.loadSlot
    split
    · exact h.refuse _ _
    · rename_i hstate
      split
      · exact h.refuse _ _
      · split
        · exact h.refuse _ _
        · rename_i st hst
          have hok := parseStatic_ok hst
          apply Recs.answer
          unfold State.loadDesc
          cases hx : s.descs.get d with
          | none =>
            have := h.held.create hx (x' := ⟨.loaded, hd.port, st, Progress.initial st⟩) rfl
              (Desc.initial_ok hok _ _ (.inl rfl)) (fun hC => hp hC (by simpa [hx] using hpend))
            refine h.sameEngine rfl this fun e he => ?_
            simp only [State.setRetired, State.evalInt_descs, State.putNotice_descs, State.putDesc_descs]
            rw [Tab.get_put_of_ne]
            rintro rfl
            obtain ⟨y, hy, -⟩ := h.activeDesc he
            rw [hx] at hy; cases hy
          | some x =>
            have hl : x.state = .loaded ∨ x.state = .retired := by
              rw [hx] at hstate
              simp only [Option.any_some, Bool.and_eq_true, bne_iff_ne, not_and, not_not] at hstate
              by_cases h1 : x.state = .loaded
              · exact .inl h1
              · exact .inr (hstate h1)
            have := h.held.rewrite hx hl (x' := ⟨.loaded, x.owner, st, Progress.initial st⟩) rfl (.inl rfl)
              (Desc.initial_ok hok _ _ (.inl rfl))
            refine h.sameEngine rfl this fun e he => ?_
            simp only [State.setRetired, State.evalInt_descs, State.putNotice_descs, State.putDesc_descs]
            rw [Tab.get_put_of_ne]
            rintro rfl
            have := (h.active_iff hx).1 he
            rcases hl with hl | hl <;> rw [hl] at this <;> cases this

theorem Recs.readDescriptor (h : Recs C s) (hd : Handed) : Recs C (s.readDescriptor hd) := by
  refine h.descriptorChecks hd fun d => ?_
  simp only
  repeat' split
  all_goals first | exact h.refuse _ _ | exact h.answer _ _ _

theorem Recs.arm (h : Recs C s) (hd : Handed) : Recs C (s.arm hd) := by
  refine h.descriptorChecks hd fun d => ?_
  cases hx : s.descs.get d with
  | none => exact h.refuse _ _
  | some x =>
    simp only
    split
    · exact h.refuse _ _
    · rename_i hstate
      split
      · exact h.answer _ _ _
      · have hl : x.state = .loaded ∨ x.state = .retired := by
          by_cases h1 : x.state = .loaded
          · exact .inl h1
          · right; by_contra h2; exact hstate ⟨h1, h2⟩
        apply Recs.answer
        have := h.held.rewrite hx hl (x' := x.withProgress .armed (Progress.initial x.st)) rfl (.inr rfl)
          (Desc.initial_ok (h.ok hx).static _ _ (.inr rfl))
        refine h.sameEngine rfl this fun e he => ?_
        simp only [State.setRetired, State.evalInt_descs, State.putNotice_descs, State.putDesc_descs]
        rw [Tab.get_put_of_ne]
        rintro rfl
        have := (h.active_iff hx).1 he
        rcases hl with hl | hl <;> rw [hl] at this <;> cases this

theorem Recs.disarm (h : Recs C s) (hd : Handed) : Recs C (s.disarm hd) := by
  refine h.descriptorChecks hd fun d => ?_
  cases hx : s.descs.get d with
  | none => exact h.refuse _ _
  | some x =>
    simp only
    have key : (x.state = .armed ∨ x.state = .queued ∨ x.state = .waiting) →
        Recs C (((s.leaveQueue d x).putDesc d
          (some (x.withProgress .loaded { x.pr with pending := 0, resume := false }))).answer hd .ok noWords) := by
      intro hst
      apply Recs.answer
      obtain ⟨r, hr⟩ := leaveQueue_eq s d x
      have hc := fun e k => h.held.count_leaveQueue (Like.self hx) e k
      rw [hr] at hc ⊢
      have hna : x.state ≠ .active := by rcases hst with h | h | h <;> simp [h]
      have hnr : x.state ≠ .retired := by rcases hst with h | h | h <;> simp [h]
      have had : s.engine.active ≠ some d := fun hc => hna ((h.active_iff hx).1 hc)
      have hown := h.own hx
      have hu := (h.held.weaken (some d)).update (skip := none)
        (x' := x.withProgress .loaded { x.pr with pending := 0, resume := false })
        (t := State.putDesc { s with ready := r } d
          (some (x.withProgress .loaded { x.pr with pending := 0, resume := false }))) (Like.self hx) rfl rfl rfl
        (fun e k => by simpa [Desc.withProgress] using hc e k) rfl rfl
        (fun p e he => .inl ⟨(fun hed => by
          subst hed
          have := (h.held.notInSets (Like.self hx) hnr) p
          rw [State.putDesc_fnu] at he
          rw [this] at he; cases he), he⟩)
        (.inr ⟨rfl, (h.ok hx).disarm hst, (fun hC => hown hC)⟩) (by simp [Desc.withProgress])
      have e1 : (if (x.withProgress .loaded { x.pr with pending := 0, resume := false }).state = .active then some d
          else if s.engine.active = some d then none else s.engine.active) = s.engine.active := by
        simp [Desc.withProgress, had]
      rw [e1] at hu
      refine h.sameEngine rfl hu fun e he => ?_
      rw [State.putDesc_descs, Tab.get_put_of_ne]
      rintro rfl; exact had he
    split
    · exact key (.inl (by assumption))
    · exact key (.inr (.inl (by assumption)))
    · exact key (.inr (.inr (by assumption)))
    · exact h.answer _ _ _
    · exact h.refuse _ _
    · exact h.refuse _ _

/-- A descriptor that is not ACTIVE becomes EMPTY. -/
theorem Recs.makeEmpty (h : Recs C s) (hx : s.descs.get d = some x) (hna : x.state ≠ .active)
    : Recs C (s.makeEmpty d x) := by
  have had : s.engine.active ≠ some d := fun hc => hna ((h.active_iff hx).1 hc)
  have key := (h.held.weaken (some d)).makeEmpty (Like.self hx) fun hC hc => by
    have := (h.own hx hC).1 hc
    rw [(h.ok hx).stop_none hna] at this; cases this
  rw [if_neg had] at key
  obtain ⟨r, hr⟩ := leaveQueue_eq s d x
  refine h.sameEngine ?_ key fun e he => ?_
  · unfold State.makeEmpty; rw [hr]; rfl
  · unfold State.makeEmpty; rw [hr]
    simp only [State.setRetired, State.evalInt_descs, State.putNotice_descs, State.putDesc_descs]
    rw [Tab.get_put_of_ne]
    rintro rfl; exact had he

theorem Recs.release (h : Recs C s) (hd : Handed) : Recs C (s.release hd) := by
  refine h.descriptorChecks hd fun d => ?_
  cases hx : s.descs.get d with
  | none => exact h.refuse _ _
  | some x =>
    simp only
    split
    · rename_i hst
      exact (h.makeEmpty hx (by rcases hst with h | h <;> simp [h])).answer _ _ _
    · exact h.refuse _ _

/-! ### Invocations, chains, guard results -/

theorem acceptTrigger_engine (s : State) (d : DescIx) (x : Desc) : (s.acceptTrigger d x).1.engine = s.engine := by
  unfold State.acceptTrigger; split
  · simp only; split <;> rfl
  · rfl

theorem acceptTrigger_record (s : State) (d : DescIx) (x : Desc) :
    ∃ x', (s.acceptTrigger d x).1.descs = s.descs.put d (some x') ∧ x'.st = x.st ∧ x'.pr.stop = x.pr.stop ∧
      x.pr.pending ≤ x'.pr.pending := by
  unfold State.acceptTrigger; split
  · simp only; split
    · exact ⟨_, rfl, rfl, rfl, Nat.le_succ _⟩
    · exact ⟨_, rfl, rfl, rfl, Nat.le_succ _⟩
  · exact ⟨_, rfl, rfl, rfl, Nat.le_refl _⟩

theorem Recs.acceptTrigger (h : Recs C s) (hx : s.descs.get d = some x) (hl : x.state ≠ .loaded)
    (hr : x.state ≠ .retired) : Recs C (s.acceptTrigger d x).1 := by
  have he := acceptTrigger_engine s d x
  obtain ⟨x', hd, hst, hstop, hp⟩ := acceptTrigger_record s d x
  refine ⟨by rw [he]; exact h.held.acceptTrigger hx hl hr, by rw [he]; exact h.working, ?_⟩
  intro e y h1 h2
  rw [he] at h1 ⊢
  rw [hd, Tab.get_put] at h2
  by_cases hed : d = e
  · subst hed
    simp only [if_true, Option.some.injEq] at h2
    subst h2
    obtain ⟨h3, h4, h5⟩ := h.fits d x h1 hx
    exact ⟨fun hw => hstop.trans (h3 hw), fun hb => ⟨Nat.le_trans (h4 hb).1 hp, by rw [hst]; exact (h4 hb).2.1,
      (h4 hb).2.2⟩, h5⟩
  · rw [if_neg hed] at h2; exact h.fits e y h1 h2

theorem Recs.renew (h : Recs C s) (hx : s.descs.get d = some x) : Recs C (s.putDesc d (some x.renew)) := by
  have hown := h.own hx
  refine h.replace hx rfl rfl rfl (h.ok hx).renew (fun hC => ?_) fun ha => ?_
  · have := hown hC
    simp only [Desc.renew]
    rw [this]
    cases x.pr.stop <;> simp
  · obtain ⟨h3, h4, -⟩ := h.fits d x ha hx
    refine ⟨fun hw => ?_, fun hb => (h4 hb).1⟩
    have := h3 hw
    simp [Desc.renew, this]

/-- With the claims in force there is nothing to take in WAIT_PORT. -/
theorem Recs.stopInWaitPort_eq (h : Recs C s) : s.stopInWaitPort d = s := by
  unfold State.stopInWaitPort
  split
  · rename_i hc
    split
    · rfl
    · rename_i x hx
      rw [if_pos ((h.fits d x hc.2 hx).1 hc.1)]
  · rfl

theorem Recs.verdictTo (h : Recs C s) (i : Invocation) (c : Code) (w : PortWords) : Recs C (s.verdictTo i c w) := by
  unfold State.verdictTo; split
  · exact h.congr rfl rfl rfl rfl (fun _ => rfl) (fun _ => rfl) rfl
  · exact h

theorem verdictTo_eq (s : State) (i : Invocation) (c : Code) (w : PortWords) :
    ∃ v, s.verdictTo i c w = { s with verdicts := v } := by
  unfold State.verdictTo; split
  · exact ⟨_, rfl⟩
  · exact ⟨_, rfl⟩

theorem Recs.targetRefuses (h : Recs C s) (i : Invocation) (c : Code) : Recs C (s.targetRefuses i c) := by
  unfold State.targetRefuses; split
  · exact h.verdictTo _ _ _
  · exact h.congr rfl rfl rfl rfl (fun _ => rfl) (fun _ => rfl) rfl

theorem targetCheck_ok {i : Invocation} (h : s.targetCheck i = .ok x) :
    s.descs.get i.target = some x ∧ x.state ≠ .loaded ∧ x.state ≠ .retired := by
  unfold State.targetCheck at h
  split at h
  · cases h
  · rename_i y hy
    split at h
    · cases h
    · split at h <;> cases h <;> rename_i hs <;> exact ⟨hy, by rw [hs]; simp, by rw [hs]; simp⟩

theorem Recs.retireLive (h : Recs C s) (hx : s.descs.get d = some x) (hna : x.state ≠ .active)
    (hr : x.state ≠ .retired) (c : Code) (det : Option (SideName × Offset)) : Recs C (s.retire d x c det) := by
  have had : s.engine.active ≠ some d := fun hc => hna ((h.active_iff hx).1 hc)
  have hok := h.ok hx
  have key := (h.held.weaken (some d)).retire (Like.self hx) hr hok.bounded c det
    (fun hc => absurd hc (hok.blocks hr)) fun hC hc => by
      have := (h.own hx hC).1 hc
      rw [hok.stop_none hna] at this; cases this
  rw [if_neg had] at key
  refine h.sameEngine (retire_engine _ _ _ _ _) key fun e he => ?_
  rw [retire_descs, Tab.get_put_of_ne]
  rintro rfl; exact had he

theorem Recs.invokeTarget (h : Recs C s) (i : Invocation) : Recs C (s.invokeTarget i) := by
  unfold State.invokeTarget
  cases hc : s.targetCheck i with
  | error c => exact h.targetRefuses i c
  | ok x =>
    obtain ⟨hx, hl, hr⟩ := targetCheck_ok hc
    have plain : ∀ (s' : State) (c : Code), Recs C s' →
        Recs C ((s'.verdictTo i c (s'.verbImage i.target)).stopInWaitPort i.target) := by
      intro s' c h'
      rw [(h'.verdictTo i c _).stopInWaitPort_eq]; exact h'.verdictTo i c _
    simp only
    unfold State.applyVerb
    cases hk : i.kind with
    | trigger => simp only; exact plain _ _ (h.acceptTrigger hx hl hr)
    | renew => simp only; exact plain _ _ (h.renew hx)
    | cancel =>
      by_cases hact : x.state = .active
      · simp only
        rw [if_pos hact]
        have had := (h.active_iff hx).2 hact
        have hown := h.own hx
        obtain ⟨v, hv⟩ := verdictTo_eq
          (s.putDesc i.target (some { x with pr := { x.pr with stop := x.pr.stop.meet .cancelled } })) i .ok
          ((s.putDesc i.target (some { x with pr := { x.pr with stop := x.pr.stop.meet .cancelled } })).verbImage
            i.target)
        rw [hv]
        refine Held.stopInWaitPort (x := { x with pr := { x.pr with stop := x.pr.stop.meet .cancelled } })
          ?_ h.working (by simp) hact (StopRequest.meet_ne_none (r := .cancelled) (by simp)) ?_
        · have := (h.held.weaken (some i.target)).replace (skip := none) (Like.self hx)
            (x' := { x with pr := { x.pr with stop := x.pr.stop.meet .cancelled } }) rfl rfl rfl
            (.inr ⟨rfl, (h.ok hx).stop hact _, fun hC => by
              rw [StopRequest.meet_withdrawn (by simp)]; exact hown hC⟩)
          exact this.congr rfl rfl rfl (fun _ => rfl) (fun _ => rfl) rfl
        · intro hnw e z h1 h2
          have h1' : s.engine.active = some e := h1
          rw [had] at h1'; cases h1'
          simp only [State.putDesc_descs, Tab.get_put_same] at h2
          cases h2
          obtain ⟨-, h4, h5⟩ := h.fits _ x had hx
          exact ⟨fun hc => absurd hc hnw, h4, h5⟩
      · simp only
        rw [if_neg hact]
        exact plain _ _ (h.retireLive hx hact hr _ _)

theorem Recs.takeChain (h : Recs C s) (c : Chain) : Recs C (s.takeChain c) := by
  unfold State.takeChain
  split
  · exact h.congr rfl rfl rfl rfl (fun _ => rfl) (fun _ => rfl) rfl
  · rename_i x hc
    unfold State.chainCheck at hc
    split at hc
    · cases hc
    · rename_i y hy
      split at hc <;> first
        | contradiction
        | (split at hc
           · cases hc
           · cases hc; rename_i hs _; exact h.acceptTrigger hy (by rw [hs]; simp) (by rw [hs]; simp))

theorem Recs.takeGuardResult (h : Recs C s) (r : GuardResult) : Recs C (s.takeGuardResult r) := by
  unfold State.takeGuardResult
  by_cases hm : s.sweepMarks.get r.desc = true ∧ r.past = false
  · rw [if_pos hm]
    obtain ⟨x, hx, hw⟩ := h.held.marks r.desc hm.1
    have key : Recs C { s with sweepMarks := s.sweepMarks.put r.desc false } := by
      refine ⟨⟨?_, h.held.queue, h.held.active, h.held.sets, h.held.ok, h.held.owner, h.held.freed⟩, h.working,
        h.fits⟩
      intro e he
      rw [Tab.get_put] at he
      by_cases hed : r.desc = e
      · rw [if_pos hed] at he; cases he
      · rw [if_neg hed] at he; exact h.held.marks e he
    simp only [hx]
    have hx' : ({ s with sweepMarks := s.sweepMarks.put r.desc false } : State).descs.get r.desc = some x := hx
    have hna : x.state ≠ .active := by rw [hw]; simp
    have hnr : x.state ≠ .retired := by rw [hw]; simp
    have had : s.engine.active ≠ some r.desc := fun hc => hna ((h.active_iff hx).1 hc)
    have hok := h.ok hx
    have hown := h.own hx
    have hpend : 1 ≤ x.pr.pending := hok.2.2.2.1.2.2.2.2.2.2.1 hw
    unfold State.applyGuardResult
    split
    · have ok' := hok.move hnr .queued x.pr.pending x.pr.resume (hok.stop_none hna) hok.bounded.2.2.1 (by simp)
        (by simp) (fun _ => .inl hpend) (by simp) (fun _ => rfl)
      have := (key.held.weaken (some r.desc)).enqueue (Like.self hx') (x' := { x with state := .queued }) rfl
        (by rw [hw]; simp) hnr rfl ok' hown false
      have e1 : ({ s with sweepMarks := s.sweepMarks.put r.desc false } : State).engine.active = s.engine.active := rfl
      rw [e1, if_neg had] at this
      refine key.sameEngine rfl this fun e he => ?_
      simp only [State.insertTail_descs, State.putDesc_descs]
      rw [Tab.get_put_of_ne]
      rintro rfl; exact had he
    · exact key
    · have := key.retireLive hx' hna hnr
      unfold State.retireFault
      obtain ⟨f, i, b, l, hl, hf⟩ := State.reportNow_only _ _ _
      rw [hl]
      exact (this _ _).congr rfl rfl rfl rfl hf (fun _ => rfl) rfl
  · rw [if_neg hm]; exact h

/-! ### Selection -/

/-- The head of a level is taken off it and becomes ACTIVE (R69). -/
theorem Recs.dequeue (h : Recs C s) (ha : s.engine.active = none) {k : Priority} {rest : List DescIx}
    (hk : s.ready.get k = d :: rest) :
    ∃ x, s.descs.get d = some x ∧ x.state = .queued ∧
      ∀ (x' : Desc) (t : State), x'.state = .active → x'.owner = x.owner → x'.Ok → x'.pr.stop = x.pr.stop →
        t.descs = s.descs.put d (some x') →
        t.sweepMarks = s.sweepMarks.put d (s.sweepMarks.get d && x'.state == .waiting) →
        t.ready = s.ready.put k rest → t.fnu = s.fnu → t.ports = s.ports → t.freed = s.freed →
        Held C t (some d) none := by
  have hq := h.held.queue d k
  rw [hk, List.count_cons_self] at hq
  cases hx : s.descs.get d with
  | none => rw [hx] at hq; simp [placesAt] at hq
  | some x =>
    rw [hx] at hq
    have hst : x.state = .queued ∧ x.st.priority = k := by
      by_contra hc; simp [placesAt, hc] at hq
    have hcnt : rest.count d = 0 := by simp only [placesAt, hst, and_self, if_true] at hq; omega
    refine ⟨x, rfl, hst.1, fun x' t hs' ho hok hstop hd hm hr hf hp hfr => ?_⟩
    have hown := h.own hx
    have key := (h.held.weaken (some d)).update (skip := none) (x' := x') (t := t) (Like.self hx) ho hd hm ?_ hp hfr ?_
      (.inr ⟨rfl, hok, fun hC => by rw [ho, hstop]; exact hown hC⟩) (fun _ => .inl ha)
    · rw [if_pos hs'] at key; exact key
    · intro e j
      have hc := h.held.count_self (Like.self hx) j
      rw [hr, Tab.get_put]
      by_cases hj : k = j
      · subst hj
        by_cases hed : e = d
        · subst hed; simp [hcnt, hs']
        · rw [if_pos rfl, if_neg hed, hk, List.count_cons_of_ne (Ne.symm hed)]
      · by_cases hed : e = d
        · subst hed; simp [hj, hc, hst, hs']
        · simp [hj, hed]
    · intro p e he
      refine .inl ⟨?_, by rw [hf] at he; exact he⟩
      rintro rfl
      have := h.held.notInSets (Like.self hx) (by rw [hst.1]; simp) p
      rw [hf, this] at he; cases he

/-- Selection leaves the part as it was, reaches the boundary before a first unit, or waits for the port (R69, R71). -/
theorem Recs.select_cases (h : Recs C s) (hi : s.engine.state = .idle) :
    s.select = s ∨ AtBoundary C s s.select ∨
      ∃ u, s.select = State.claimPort u ∧
        Recs C { u with engine := { u.engine with state := .waitPort, inFlight := none } } ∧
        u.engine.active.isSome = true ∧ u.master = s.master ∧ u.sweep = s.sweep ∧
        u.engine.pauseReq = s.engine.pauseReq := by
  have ha : s.engine.active = none := by
    have := h.working
    rw [hi] at this
    cases hc : s.engine.active with
    | none => rfl
    | some d => rw [hc] at this; simp [EngineState.working] at this
  unfold State.select
  split
  · exact .inl rfl
  · rename_i k _
    split
    · exact .inl rfl
    · rename_i d rest hk
      right
      obtain ⟨x, hx, hst, mk⟩ := h.dequeue ha hk
      simp only [State.putReady_descs, hx]
      have hok := h.ok hx
      have hnr : x.state ≠ .retired := by rw [hst]; simp
      have hstop := hok.stop_none (by rw [hst]; simp)
      have hqr := hok.2.2.2.1.2.2.2.2.2.1 hst
      unfold State.takeSelection
      by_cases hres : x.pr.resume = true
      · simp only [hres, if_true]
        have ok' := hok.move hnr .active x.pr.pending false hstop hok.bounded.2.2.1 (by simp) (by simp) (by simp)
          (by simp) (by simp)
        have hold := mk { x with state := .active, pr := { x.pr with resume := false } }
          ((s.putReady k rest).putDesc d (some { x with state := .active, pr := { x.pr with resume := false } }))
          rfl rfl ok' rfl rfl rfl rfl rfl rfl rfl
        refine .inl ⟨_, _, { x with state := .active, pr := { x.pr with resume := false } }, _, rfl,
          ⟨Held.weaken ?_ _, by rfl, by simp, rfl, by rfl, ok'.bounded, fun _ => ok', ?_⟩, rfl, rfl, rfl⟩
        · exact mk { x with state := .active, pr := { x.pr with resume := false } } _ rfl rfl ok' rfl rfl rfl rfl rfl
            rfl rfl
        · exact fun hC => hold.owner hC d _ (by simp) (by simp)
      · simp only [hres]
        have hp : 1 ≤ x.pr.pending := hqr.resolve_right hres
        have ok' := hok.move hnr .active x.pr.pending x.pr.resume hstop hok.bounded.2.2.1 (by simp) (by simp)
          (by simp) (by simp) (fun hc => absurd hc hres)
        cases hg : x.st.guard with
        | none =>
          simp only [Bool.false_eq_true, if_false]
          unfold State.startSpell
          have hcon := Desc.Ok.consume (x := { x with state := .active }) ok' rfl
          have hold := mk { x with state := .active, pr := { x.pr with pending := x.pr.pending - 1 } }
            ((s.putReady k rest).putDesc d
              (some { x with state := .active, pr := { x.pr with pending := x.pr.pending - 1 } }))
            rfl rfl hcon rfl rfl rfl rfl rfl rfl rfl
          refine .inl ⟨_, _, { x with state := .active, pr := { x.pr with pending := x.pr.pending - 1 } }, _, rfl,
            ⟨Held.weaken ?_ _, by rfl, by simp, rfl, by rfl, hcon.bounded, fun _ => hcon, ?_⟩, rfl, rfl, rfl⟩
          · exact mk { x with state := .active, pr := { x.pr with pending := x.pr.pending - 1 } } _ rfl rfl hcon rfl
              (by simp) (by simp) rfl rfl rfl rfl
          · exact fun hC => hold.owner hC d _ (by simp) (by simp)
        | some g =>
          simp only [Bool.false_eq_true, if_false]
          refine .inr ⟨_, rfl, Held.waits (d := d) (x := { x with state := .active }) ?_ rfl (by simp) hstop
            fun _ => ⟨hp, by simp [hg]⟩, rfl, rfl, rfl, rfl⟩
          exact mk { x with state := .active } _ rfl rfl ok' rfl rfl rfl rfl rfl rfl rfl

theorem Recs.select (h : Recs C s) (hi : s.engine.state = .idle) : Recs C s.select := by
  rcases h.select_cases hi with h1 | h1 | ⟨u, h1, h2, -⟩
  · rw [h1]; exact h
  · exact h1.recs
  · rw [h1]; exact h2.claimPort

/-! ### Guard reads, units and exchanges -/

theorem Recs.guardReadWord (h : Recs C s) (hg : s.engine.state = .guard) (g : Guard) (w : Word) :
    Recs C (s.guardReadWord g w) := by
  have key := h.guardReadOver
  have heng : s.guardReadOver.engine = { s.engine with inFlight := none } :=
    engineGivesBack_engine _ (by show s.engine.state ≠ .waitPort; rw [hg]; simp)
  unfold State.guardReadWord
  simp only; split
  · exact key
  · rename_i d x hx
    obtain ⟨ha, hd, hact⟩ := key.activeDesc? hx
    have hok := key.ok hd
    have hown := key.own hd
    have hnr : x.state ≠ .retired := by rw [hact]; simp
    split
    · rename_i hs
      exact ((key.toHeld ha).settleStop (Like.self hd) hact hok.bounded (hok.blocks hnr) hs hown).dropEngine
    · rename_i hs
      have hs : x.pr.stop = .none := by simpa using hs
      split
      · have hh := key.held; rw [ha] at hh
        exact (hh.startSpell ha hd).recs
      · obtain ⟨-, h4, h5⟩ := key.fits d x ha hd
        have hp := (h4 (h5 (by rw [heng]; exact hg))).1
        have ok' := hok.move hnr .waiting x.pr.pending x.pr.resume hs hok.bounded.2.2.1 (by simp) (by simp) (by simp)
          (fun _ => hp) (fun hc => by have := hok.resume_clear (by rw [hact]; simp); rw [this] at hc; cases hc)
        unfold State.guardFalse
        have := (key.toHeld ha).change (skip := none) (Like.self hd) (x' := { x with state := .waiting }) rfl
          (by rw [hact]; simp) hnr (by simp) (.inr ⟨rfl, ok', hown⟩) (by simp)
        have waits : Held C (s.guardReadOver.putDesc d (some { x with state := .waiting })) none none := by
          simpa using this
        exact Held.dropEngine (s := s.guardReadOver.enterWaiting d x)
          (waits.congr rfl rfl rfl (fun _ => rfl) (fun _ => rfl) rfl)

theorem Recs.access (h : Recs C s) {f : InFlight} (hx : s.accessInFlight? = some (d, x, f)) :
    Busy C s d x ∧ x.pr.blocksRem ≠ 0 := by
  unfold State.accessInFlight? at hx
  split at hx
  · rename_i hm
    split at hx
    · rename_i d' x' f' hd hf
      cases hx
      obtain ⟨ha, hd, hact⟩ := h.activeDesc? hd
      exact h.busy ha hd (h.begun_between ha hd (.inl hm))
    · cases hx
  · cases hx

theorem Recs.sourceReadDone (h : Recs C s) {f : InFlight} (hx : s.accessInFlight? = some (d, x, f)) (data : UnitData) :
    Recs C (s.sourceReadDone d x f data) := by
  obtain ⟨hb, hblk⟩ := h.access hx
  unfold State.sourceReadDone
  split
  · unfold State.startDestinationWrite; split
    · exact hb.putInFlight (hb.ok hblk) (.inl rfl) s.channels _
    · exact hb.unitFails hblk _ _ _ _
  · exact hb.putInFlight (hb.ok hblk) (.inr rfl) _ _
  · exact h
  · exact h

theorem Recs.accepted (h : Recs C s) (c : ChannelIx) : Recs C (s.accepted c) := by
  have key : Recs C (s.endExchange c) := h.outer s.master s.sweep _
  unfold State.accepted
  simp only; split
  · exact key
  · rename_i d x hx
    obtain ⟨ha, hd, hact⟩ := key.activeDesc? hx
    split
    · rename_i hex
      have hst : s.engine.state = .peripheral := by
        simp only [State.exchangeOn, Bool.and_eq_true, beq_iff_eq] at hex; exact hex.1.1
      exact (key.unitCompletes ha hd (key.begun_between ha hd (.inr hst))).recs
    · exact key

theorem Recs.supplied (h : Recs C s) (c : ChannelIx) (data : UnitData) : Recs C (s.supplied c data) := by
  have key : Recs C (s.endExchange c) := h.outer s.master s.sweep _
  unfold State.supplied
  simp only; split
  · rename_i d x f hx hf
    obtain ⟨ha, hd, hact⟩ := key.activeDesc? hx
    split
    · rename_i hex
      have hst : s.engine.state = .peripheral := by
        simp only [State.exchangeOn, Bool.and_eq_true, beq_iff_eq] at hex; exact hex.1.1
      obtain ⟨hb, hblk⟩ := key.busy ha hd (key.begun_between ha hd (.inr hst))
      exact hb.putInFlight (hb.ok hblk) (.inl rfl) (s.endExchange c).channels _
    · exact key
  · exact key

theorem Recs.waitExpires (h : Recs C s) (c : ChannelIx) : Recs C (s.waitExpires c) := by
  unfold State.waitExpires; split
  · exact h
  · exact h.exchangeFails _ _
  · exact h.exchangeFails _ _

/-! ### PAUSE and RESUME -/

/-- Only the pause request, or the state at rest, of the engine's record changes. -/
theorem Recs.engineRecord (h : Recs C s) (e : Engine) (ha : e.active = s.engine.active)
    (hb : e.spellBegun = s.engine.spellBegun)
    (hs : e.state = s.engine.state ∨ s.engine.active = none ∧ e.state.working = false) :
    Recs C { s with engine := e } := by
  refine ⟨?_, ?_, ?_⟩
  · show Held C _ e.active none
    rw [ha]; exact h.held.congr rfl rfl rfl (fun _ => rfl) (fun _ => rfl) rfl
  · show e.state.working = true ↔ e.active.isSome = true
    rw [ha]
    rcases hs with hs | ⟨h1, h2⟩
    · rw [hs]; exact h.working
    · rw [h1, h2]; simp
  · intro d x h1 h2
    have h1' : s.engine.active = some d := ha ▸ h1
    rcases hs with hs | ⟨h3, -⟩
    · show (e.state = _ → _) ∧ (e.spellBegun = _ → _ ∧ _ ∧ (e.state = _ ∨ e.state = _)) ∧ (e.state = _ → e.spellBegun = _)
      rw [hs, hb]; exact h.fits d x h1' h2
    · rw [h3] at h1'; cases h1'

theorem Recs.idle_active (h : Recs C s) (hs : s.engine.state.working = false) : s.engine.active = none := by
  have := h.working
  rw [hs] at this
  cases hc : s.engine.active with
  | none => rfl
  | some d => rw [hc] at this; simp at this

theorem Recs.pauseEngine (h : Recs C s) (ht : s.pauseEngine = some t) : Recs C t := by
  unfold State.pauseEngine at ht
  split at ht
  · rename_i hs
    cases ht
    exact h.engineRecord _ rfl rfl (.inr ⟨h.idle_active (by rw [hs]; rfl), rfl⟩)
  · rename_i hs
    cases ht
    unfold State.pauseInWaitPort
    cases hx : s.activeDesc? with
    | none =>
      exfalso
      have hw : s.engine.active.isSome = true := h.working.1 (by rw [hs]; rfl)
      obtain ⟨d, hd⟩ := Option.isSome_iff_exists.1 hw
      obtain ⟨x, hx', -⟩ := h.activeDesc hd
      simp [State.activeDesc?, hd, hx'] at hx
    | some dx =>
      obtain ⟨d, x⟩ := dx
      obtain ⟨ha, hd, hact⟩ := h.activeDesc? hx
      obtain ⟨h3, h4, -⟩ := h.fits d x ha hd
      have := (h.toHeld ha).setAside hd hact (h.ok hd) (h.own hd) (h3 hs) s.engine.spellBegun (by
        cases hb : s.engine.spellBegun with
        | true => exact .inl rfl
        | false => exact .inr (h4 hb).1)
      exact (this.congr rfl rfl rfl (fun _ => rfl) (fun _ => rfl) rfl : Held C
        { s.setAside d x s.engine.spellBegun with
          engine := { (s.setAside d x s.engine.spellBegun).engine with pauseReq := true } } none none).dropEngine
  · cases ht; exact h.engineRecord _ rfl rfl (.inl rfl)
  · cases ht; exact h.engineRecord _ rfl rfl (.inl rfl)
  · cases ht; exact h.engineRecord _ rfl rfl (.inl rfl)
  · cases ht

theorem Recs.pause (h : Recs C s) (hd : Handed) : Recs C (s.pause hd) := by
  unfold State.pause
  cases hp : s.pauseEngine with
  | none => exact h.refuse _ _
  | some t => exact (h.pauseEngine hp).answer _ _ _

theorem Recs.resumeEngine (h : Recs C s) (ht : s.resumeEngine = some t) : Recs C t := by
  unfold State.resumeEngine at ht
  split at ht
  · rename_i hs
    cases ht
    exact h.engineRecord _ rfl rfl (.inr ⟨h.idle_active (by rw [hs]; rfl), rfl⟩)
  · split at ht <;> cases ht; exact h.engineRecord _ rfl rfl (.inl rfl)
  · split at ht <;> cases ht; exact h.engineRecord _ rfl rfl (.inl rfl)
  · split at ht <;> cases ht; exact h.engineRecord _ rfl rfl (.inl rfl)
  · cases ht
  · cases ht

theorem Recs.resume (h : Recs C s) (hd : Handed) : Recs C (s.resume hd) := by
  unfold State.resume
  cases hp : s.resumeEngine with
  | none => exact h.refuse _ _
  | some t => exact (h.resumeEngine hp).answer _ _ _

/-! ### Visits falling due and sweep reads -/

theorem Recs.visitDue (h : Recs C s) : Recs C s.visitDue := by
  have hdef : Recs C s.deferVisit := h.outer _ _ s.channels
  unfold State.visitDue
  repeat' split
  · unfold State.sweepClaim; split
    · exact hdef.handOn
    · exact hdef
  · exact h.performVisit
  · exact hdef
  · exact h.outer s.master _ s.channels

theorem Recs.sweepExpires (h : Recs C s) : Recs C s.sweepExpires := by
  unfold State.sweepExpires; split
  · exact h
  · exact Recs.visitDue (h.outer s.master _ s.channels)

theorem Recs.sweepReadOver (h : Recs C s) (r : SweepRead) (e : ReadEnd) : Recs C (s.sweepReadOver r e) := by
  have key : Recs C { s with
      sweep := { s.sweep with read := none }
      guardResults := s.guardResults ++ [{ desc := r.desc, guard := r.guard, outcome := r.outcome e, past := false }] } :=
    h.congr rfl rfl rfl rfl (fun _ => rfl) (fun _ => rfl) rfl
  unfold State.sweepReadOver
  simp only; split
  · exact key.outer _ _ s.channels
  · exact key.handOn

theorem Recs.timeBase (h : Recs C s) : Recs C s.timeBase := by
  unfold State.timeBase
  split
  · exact h
  · split
    · exact h.sweepExpires
    · split
      · exact h.waitExpires _
      · exact h.outer s.master _ _

end Sys2Proof.Machine
end

