-- ==== Sys2Proof/Laws/Fields.lean ====
section
/-! SUPPORT. What a word packed of fields shows, bit by bit and field by field. -/

namespace Sys2Proof.Machine

/-- A word of a result image is the one listed there, or 0. -/
@[simp] theorem image_get (ws : List Word) (i : Fin 16) : (image ws).get i = ws.getD i.val 0 := by
  simp [image, Tab.get]

/-- A bit of a packed word is set where one of its fields sets it. -/
theorem pack_testBit (fs : List (Nat × Nat)) (i : Nat) (h : i < 32) :
    (pack fs).getLsbD i = fs.any fun f => decide (f.2 ≤ i) && f.1.testBit (i - f.2) := by
  suffices key : ∀ w : Word, (fs.foldl (fun w f => w ||| BitVec.ofNat 32 (f.1 * 2 ^ f.2)) w).getLsbD i =
      (w.getLsbD i || fs.any fun f => decide (f.2 ≤ i) && f.1.testBit (i - f.2)) by
    simpa [pack] using key 0
  induction fs with
  | nil => intro w; simp
  | cons f fs ih =>
    intro w
    rw [List.foldl_cons, ih]
    rw [BitVec.getLsbD_or, BitVec.getLsbD_ofNat, Nat.testBit_mul_two_pow, List.any_cons, Bool.or_assoc]
    simp [h]

/-- A flag sets bit 0 alone. -/
theorem flag_testBit (b : Bool) (j : Nat) : (flag b).testBit j = (b && decide (j = 0)) := by
  cases b with
  | false => simp [flag]
  | true => rcases j with _ | j <;> simp [flag, Nat.testBit_succ]

/-- A bit of a field is the bit of the word. -/
theorem field_testBit (w : Word) (lo len j : Nat) :
    (field w lo len).testBit j = (decide (j < len) && w.getLsbD (lo + j)) := by
  simp [field, Nat.testBit_mod_two_pow, Nat.testBit_div_two_pow, BitVec.getLsbD, Nat.add_comm]

theorem field_lt (w : Word) (lo len : Nat) : field w lo len < 2 ^ len := Nat.mod_lt _ (Nat.two_pow_pos len)

/-- A field of a word is a number below its width if the word has that number's bits there. -/
theorem field_eq {w : Word} {lo len v : Nat} (hv : v < 2 ^ len)
    (h : ∀ j, j < len → w.getLsbD (lo + j) = v.testBit j) : field w lo len = v := by
  apply Nat.eq_of_testBit_eq
  intro j
  rw [field_testBit]
  by_cases hj : j < len
  · simp [hj, h j hj]
  · have : v < 2 ^ j := Nat.lt_of_lt_of_le hv (Nat.pow_le_pow_right (by decide) (by omega))
    simp [hj, Nat.testBit_lt_two_pow this]

/-- A field of a packed word is the number packed there, if every other field leaves its bits alone. -/
theorem field_pack {fs : List (Nat × Nat)} {lo len v : Nat} (hl : lo + len ≤ 32) (hv : v < 2 ^ len)
    (h : ∀ j, j < len → (fs.any fun f => decide (f.2 ≤ lo + j) && f.1.testBit (lo + j - f.2)) = v.testBit j) :
    field (pack fs) lo len = v :=
  field_eq hv fun j hj => by rw [pack_testBit fs _ (by omega), h j hj]

end Sys2Proof.Machine
end

