-- ==== Sys2Proof/Laws/Port.lean ====
section
/-! SUPPORT. The master port: what each operation does to the engine's record, the Master Port's and the sweep's, and
that the records agree again (`State.PortFits`) once the operation is over. -/

namespace Sys2Proof.Machine

/-! ### Operations on records leave the port alone -/

/-- The engine, the master port and the sweep are as they were. -/
def SamePort (s t : State) : Prop := t.engine = s.engine ∧ t.master = s.master ∧ t.sweep = s.sweep

theorem SamePort.refl (s : State) : SamePort s s := ⟨rfl, rfl, rfl⟩

theorem SamePort.trans {s t u : State} (h : SamePort s t) (k : SamePort t u) : SamePort s u :=
  ⟨k.1.trans h.1, k.2.1.trans h.2.1, k.2.2.trans h.2.2⟩

theorem OnlyReports.samePort {s t : State} (h : OnlyReports s t) : SamePort s t := by
  obtain ⟨f, i, b, l, rfl, -⟩ := h; exact ⟨rfl, rfl, rfl⟩

namespace State

variable (s : State)

theorem leaveQueue_port (d : DescIx) (x : Desc) : SamePort s (s.leaveQueue d x) := by
  obtain ⟨r, hr⟩ := leaveQueue_eq s d x; rw [hr]; exact ⟨rfl, rfl, rfl⟩

theorem retire_port (d : DescIx) (x : Desc) (c : Code) (det : Option (SideName × Offset)) :
    SamePort s (s.retire d x c det) := by
  obtain ⟨r, hr⟩ := leaveQueue_eq s d x
  unfold State.retire; rw [hr]
  by_cases hn : x.st.notice = true
  · simp only [hn, if_true]; exact ⟨rfl, rfl, rfl⟩
  · simp only [hn]; exact ⟨rfl, rfl, rfl⟩

theorem makeEmpty_port (d : DescIx) (x : Desc) : SamePort s (s.makeEmpty d x) := by
  obtain ⟨r, hr⟩ := leaveQueue_eq s d x
  unfold State.makeEmpty; rw [hr]; exact ⟨rfl, rfl, rfl⟩

theorem retireFault_port (d : DescIx) (x : Desc) (c : Code) (w : WindowIx) (sd : SideName) (o : Offset) :
    SamePort s (s.retireFault d x c w sd o) :=
  (s.retire_port _ _ _ _).trans (State.reportNow_only _ _ _).samePort

theorem settleStop_port (d : DescIx) (x : Desc) : SamePort s (s.settleStop d x) := by
  unfold settleStop; split
  · exact SamePort.refl s
  · exact s.retire_port _ _ _ _
  · exact s.retire_port _ _ _ _
  · exact (s.makeEmpty_port d x).trans ⟨rfl, rfl, rfl⟩

theorem settleFailure_port (d : DescIx) (x : Desc) (c : Code) (w : WindowIx) (sd : SideName) (o : Offset) :
    SamePort s (s.settleFailure d x c w sd o) := by
  unfold settleFailure; split
  · exact s.retireFault_port _ _ _ _ _ _
  · exact s.settleStop_port _ _

theorem reloadDesc_port (d : DescIx) (x : Desc) : SamePort s (s.reloadDesc d x) := by
  unfold reloadDesc; simp only; split <;> exact ⟨rfl, rfl, rfl⟩

theorem settleCompletion_port (d : DescIx) (x : Desc) : SamePort s (s.settleCompletion d x) := by
  unfold settleCompletion; split
  · exact (s.makeEmpty_port d x).trans ⟨rfl, rfl, rfl⟩
  · split
    · exact s.reloadDesc_port _ _
    · exact s.retire_port _ _ _ _

theorem handEndRequest_port (x : StaticPart) : SamePort s (s.handEndRequest x) := by
  unfold handEndRequest; split
  · exact SamePort.refl s
  · split <;> exact ⟨rfl, rfl, rfl⟩

theorem handChain_port (d : DescIx) (x : Desc) : SamePort s (s.handChain d x) := by
  unfold handChain; split <;> exact ⟨rfl, rfl, rfl⟩

theorem spellEnds_port (d : DescIx) (x : Desc) : SamePort s (s.spellEnds d x) := by
  unfold spellEnds; split <;> exact ⟨rfl, rfl, rfl⟩

theorem setAside_port (d : DescIx) (x : Desc) (r : Bool) : SamePort s (s.setAside d x r) := ⟨rfl, rfl, rfl⟩

theorem acceptTrigger_port (d : DescIx) (x : Desc) : SamePort s (s.acceptTrigger d x).1 := by
  unfold acceptTrigger; split
  · simp only; split <;> exact ⟨rfl, rfl, rfl⟩
  · exact ⟨rfl, rfl, rfl⟩

end State

/-! ### Visits -/

/-- What a visit does to the port: the sweep may have put a read on the bus, and an engine in WAIT_PORT may have
dropped its descriptor. -/
def VisitPort (s t : State) : Prop :=
  (∃ r c, t.sweep = { s.sweep with read := r, cursor := c } ∧ (s.sweep.read = none ∨ r = s.sweep.read ∨ r.isSome)) ∧
    ((t.engine = s.engine ∧ t.master = s.master) ∨
      (s.engine.state = .waitPort ∧ t.engine = s.engine.dropped ∧ t.master = { s.master with engineClaim := false }))

theorem stopInWaitPort_port (s : State) (d : DescIx) :
    (s.stopInWaitPort d).sweep = s.sweep ∧
      (((s.stopInWaitPort d).engine = s.engine ∧ (s.stopInWaitPort d).master = s.master) ∨
        (s.engine.state = .waitPort ∧ (s.stopInWaitPort d).engine = s.engine.dropped ∧
          (s.stopInWaitPort d).master = { s.master with engineClaim := false })) := by
  unfold State.stopInWaitPort
  split
  · rename_i hc
    split
    · exact ⟨rfl, .inl ⟨rfl, rfl⟩⟩
    · rename_i x _
      split
      · exact ⟨rfl, .inl ⟨rfl, rfl⟩⟩
      · obtain ⟨h1, h2, h3⟩ := s.settleStop_port d x
        refine ⟨h3, .inr ⟨hc.1, ?_, ?_⟩⟩
        · rw [State.dropEngine_engine, h1]
        · rw [State.dropEngine_master, h2]
  · exact ⟨rfl, .inl ⟨rfl, rfl⟩⟩

theorem raiseStop_port (s : State) (d : DescIx) (x : Desc) (r : StopRequest) :
    (s.raiseStop d x r).sweep = s.sweep ∧
      (((s.raiseStop d x r).engine = s.engine ∧ (s.raiseStop d x r).master = s.master) ∨
        (s.engine.state = .waitPort ∧ (s.raiseStop d x r).engine = s.engine.dropped ∧
          (s.raiseStop d x r).master = { s.master with engineClaim := false })) :=
  stopInWaitPort_port (s.putDesc d (some { x with pr := { x.pr with stop := x.pr.stop.meet r } })) d

theorem stepLease_port (s : State) (d : DescIx) (x : Desc) :
    (s.stepLease d x).sweep = s.sweep ∧
      (((s.stepLease d x).engine = s.engine ∧ (s.stepLease d x).master = s.master) ∨
        (s.engine.state = .waitPort ∧ (s.stepLease d x).engine = s.engine.dropped ∧
          (s.stepLease d x).master = { s.master with engineClaim := false })) := by
  unfold State.stepLease
  split
  · exact ⟨rfl, .inl ⟨rfl, rfl⟩⟩
  · simp only; split
    · exact raiseStop_port _ _ _ _
    · obtain ⟨h1, h2, h3⟩ := s.retire_port d { x with pr := { x.pr with lease := 0 } } .leaseExpired none
      exact ⟨h3, .inl ⟨h1, h2⟩⟩

theorem startReread_port (s : State) (d : DescIx) (x : Desc) :
    (s.startReread d x).engine = s.engine ∧ (s.startReread d x).master = s.master ∧
      ((s.startReread d x).sweep = s.sweep ∨ ∃ r, (s.startReread d x).sweep = { s.sweep with read := some r }) := by
  unfold State.startReread
  split
  · exact ⟨rfl, rfl, .inl rfl⟩
  · simp only; split
    · exact ⟨rfl, rfl, .inr ⟨_, rfl⟩⟩
    · exact ⟨rfl, rfl, .inl rfl⟩

theorem visit_port (s : State) (d : DescIx) : VisitPort s (s.visit d) := by
  have same : VisitPort s s := ⟨⟨s.sweep.read, s.sweep.cursor, rfl, .inr (.inl rfl)⟩, .inl ⟨rfl, rfl⟩⟩
  unfold State.visit
  split
  · exact same
  · rename_i x _
    split
    · exact same
    · have key : (if x.st.initialLease = 0 then s else s.stepLease d x).sweep = s.sweep ∧
          (((if x.st.initialLease = 0 then s else s.stepLease d x).engine = s.engine ∧
            (if x.st.initialLease = 0 then s else s.stepLease d x).master = s.master) ∨
          (s.engine.state = .waitPort ∧
            (if x.st.initialLease = 0 then s else s.stepLease d x).engine = s.engine.dropped ∧
            (if x.st.initialLease = 0 then s else s.stepLease d x).master =
              { s.master with engineClaim := false })) := by
        split
        · exact ⟨rfl, .inl ⟨rfl, rfl⟩⟩
        · exact stepLease_port s d x
      revert key
      generalize (if x.st.initialLease = 0 then s else s.stepLease d x) = t
      rintro ⟨h1, h2⟩
      have plain : VisitPort s t := ⟨⟨s.sweep.read, s.sweep.cursor, h1, .inr (.inl rfl)⟩, h2⟩
      simp only
      split
      · exact plain
      · split
        · rename_i y _ _
          obtain ⟨k1, k2, k3⟩ := startReread_port t d y
          refine ⟨?_, by rw [k1, k2]; exact h2⟩
          rcases k3 with k3 | ⟨r, k3⟩
          · exact ⟨s.sweep.read, s.sweep.cursor, k3.trans h1, .inr (.inl rfl)⟩
          · exact ⟨some r, s.sweep.cursor, by rw [k3, h1], .inr (.inr rfl)⟩
        · exact plain

theorem performVisit_port (s : State) : VisitPort s s.performVisit := by
  obtain ⟨⟨r, c, h1, h2⟩, h3⟩ :=
    visit_port { s with sweep := { s.sweep with cursor := s.sweep.cursor + 1 } } s.sweep.cursor
  exact ⟨⟨r, c, h1, h2⟩, h3⟩

/-! ### Between the engine and the sweep -/

/-- The Master Port's record fits the sweep's, whatever the engine holds. -/
def Mid (s : State) : Prop :=
  (s.master.holder.isSome = true ↔ s.master.bus = .granted) ∧
    (s.master.holder = some .sweep ↔ s.sweep.read.isSome = true) ∧
    (s.master.bus = .notRequesting → s.sweep.deferred = 0) ∧ (s.master.releaseReq = true → s.master.bus = .granted)

theorem Mid.congr {s t : State} (h : Mid s) (hp : SamePort s t) : Mid t := by
  obtain ⟨-, h2, h3⟩ := hp; unfold Mid; rw [h2, h3]; exact h

/-- The engine's record agrees with its claim. -/
def EngineSide (s : State) : Prop := (s.master.engineClaim = true ↔ s.engine.state = .waitPort) ∧ s.EngineRecordOk

theorem Engine.dropped_rest (e : Engine) :
    e.dropped.active = none ∧ e.dropped = { Engine.reset with state := e.dropped.state } ∧
      e.dropped.state.between = false ∧ e.dropped.state ≠ .waitPort ∧ e.dropped.pauseReq = false ∧
      e.dropped.inFlight = none := by
  unfold Engine.dropped; cases e.pauseReq <;> simp [Engine.reset, EngineState.between]

theorem engineRecord_dropped {s : State} {e : Engine} (h : s.engine = e.dropped) : s.EngineRecordOk := by
  obtain ⟨h1, h2, h3, h4, h5, h6⟩ := e.dropped_rest
  refine ⟨fun _ => ?_, fun hp => ?_, ?_⟩
  · rw [h]; exact h2
  · rw [h, h5] at hp; cases hp
  · rw [h, h6, h3]; simp

theorem EngineRecordOk.congr {s t : State} (h : s.EngineRecordOk) (he : t.engine = s.engine) : t.EngineRecordOk := by
  unfold State.EngineRecordOk; rw [he]; exact h

theorem EngineSide.visit {s t : State} (h : EngineSide s) (hv : VisitPort s t) : EngineSide t := by
  rcases hv.2 with ⟨h1, h2⟩ | ⟨-, h1, h2⟩
  · refine ⟨by rw [h1, h2]; exact h.1, EngineRecordOk.congr h.2 h1⟩
  · refine ⟨?_, engineRecord_dropped h1⟩
    rw [h1, h2]
    have := (s.engine.dropped_rest).2.2.2.1
    simp [this]

/-- After the deferred visits have been served: all of them, or up to one whose read is on the bus. -/
theorem serveVisits_port (n : Nat) (s : State) (hn : s.sweep.deferred ≤ n) (hr : s.sweep.read = none)
    (hh : s.master.holder = none) :
    let t := State.serveVisits n s
    t.master.bus = s.master.bus ∧ t.master.releaseReq = s.master.releaseReq ∧
      ((t.master.holder = none ∧ t.sweep.read = none ∧ t.sweep.deferred = 0) ∨
        (t.master.holder = some .sweep ∧ t.sweep.read.isSome = true)) ∧
      (EngineSide s → EngineSide t ∧ (s.engine.state.between = false → t.engine.state.between = false)) ∧
      (s.engine.state ≠ .waitPort → t.engine = s.engine ∧ t.master.engineClaim = s.master.engineClaim) := by
  induction n generalizing s with
  | zero =>
    exact ⟨rfl, rfl, .inl ⟨hh, hr, Nat.le_zero.1 hn⟩, fun h => ⟨h, id⟩, fun _ => ⟨rfl, rfl⟩⟩
  | succ n ih =>
    simp only
    unfold State.serveVisits
    by_cases hd : s.sweep.deferred = 0
    · rw [if_pos hd]; exact ⟨rfl, rfl, .inl ⟨hh, hr, hd⟩, fun h => ⟨h, id⟩, fun _ => ⟨rfl, rfl⟩⟩
    · rw [if_neg hd]
      simp only
      have hv := performVisit_port { s with
        master := { s.master with holder := some .sweep },
        sweep := { s.sweep with deferred := s.sweep.deferred - 1 } }
      revert hv
      generalize State.performVisit { s with
        master := { s.master with holder := some .sweep },
        sweep := { s.sweep with deferred := s.sweep.deferred - 1 } } = u
      intro hv
      obtain ⟨⟨r, c, h1, -⟩, h3⟩ := hv
      have hdef : u.sweep.deferred = s.sweep.deferred - 1 := by rw [h1]
      have hbus : u.master.bus = s.master.bus ∧ u.master.releaseReq = s.master.releaseReq ∧
          u.master.holder = some .sweep := by
        rcases h3 with ⟨-, h5⟩ | ⟨-, -, h5⟩ <;> rw [h5] <;> exact ⟨rfl, rfl, rfl⟩
      have hes : EngineSide s → EngineSide u ∧ (s.engine.state.between = false → u.engine.state.between = false) :=
        fun h => by
        rcases h3 with ⟨h4, h5⟩ | ⟨-, h4, h5⟩
        · exact ⟨⟨by rw [h4, h5]; exact h.1, EngineRecordOk.congr h.2 h4⟩, fun hb => by rw [h4]; exact hb⟩
        · obtain ⟨-, -, j1, j2, -⟩ := s.engine.dropped_rest
          refine ⟨⟨?_, engineRecord_dropped h4⟩, fun _ => by rw [h4]; exact j1⟩
          rw [h4, h5]
          simp [j2]
      have hno : s.engine.state ≠ .waitPort →
          u.engine = s.engine ∧ u.master.engineClaim = s.master.engineClaim := fun hw => by
        rcases h3 with ⟨h4, h5⟩ | ⟨h4, -⟩
        · exact ⟨h4, by rw [h5]⟩
        · exact absurd h4 hw
      by_cases hrd : u.sweep.read.isSome = true
      · rw [if_pos hrd]
        exact ⟨hbus.1, hbus.2.1, .inr ⟨hbus.2.2, hrd⟩, hes, hno⟩
      · rw [if_neg hrd]
        have hrn : u.sweep.read = none := by simpa using hrd
        obtain ⟨i1, i2, i3, i4, i5⟩ := ih u.freeHolder (by rw [State.freeHolder_sweep, hdef]; omega) hrn rfl
        refine ⟨i1.trans hbus.1, i2.trans hbus.2.1, i3, fun h => ?_, fun hw => ?_⟩
        · obtain ⟨⟨e1, e2⟩, e3⟩ := hes h
          obtain ⟨e4, e5⟩ := i4 ⟨e1, EngineRecordOk.congr e2 rfl⟩
          exact ⟨e4, fun hb => e5 (e3 hb)⟩
        obtain ⟨j1, j2⟩ := hno hw
        have hu : u.freeHolder.engine.state ≠ .waitPort := by
          rw [State.freeHolder_engine, j1]; exact hw
        obtain ⟨k1, k2⟩ := i5 hu
        exact ⟨k1.trans j1, k2.trans j2⟩

/-! ### Giving the port back -/

theorem handOnToSweep_mid {s : State} (hb : s.master.bus = .granted) (hr : s.sweep.read = none)
    (hrel : s.master.releaseReq = false) (hw : s.engine.state ≠ .waitPort) :
    Mid s.handOnToSweep ∧ s.handOnToSweep.master.holder ≠ some .engine ∧ s.handOnToSweep.engine = s.engine ∧
      s.handOnToSweep.master.engineClaim = s.master.engineClaim := by
  obtain ⟨h1, h2, h3, -, h5⟩ := serveVisits_port s.sweep.deferred s.freeHolder (Nat.le_refl _) hr rfl
  have hb' : s.freeHolder.master.bus = .granted := hb
  have hrel' : s.freeHolder.master.releaseReq = false := hrel
  obtain ⟨h6, h7⟩ := h5 hw
  unfold State.handOnToSweep
  revert h1 h2 h3 h6 h7
  generalize State.serveVisits s.sweep.deferred s.freeHolder = u
  intro h1 h2 h3 h6 h7
  rcases h3 with ⟨k1, k2, k3⟩ | ⟨k1, k2⟩
  · have : ¬ u.master.holder = some .sweep := by rw [k1]; simp
    simp only [this, if_false]
    refine ⟨⟨?_, ?_, ?_, ?_⟩, ?_, ?_, ?_⟩
    · simp
    · simp [k2]
    · intro _; exact k3
    · intro hc; rw [State.giveGrantBack_master] at hc; simp only at hc
      rw [h2, hrel'] at hc; cases hc
    · simp
    · exact h6
    · exact h7
  · simp only [k1, if_true]
    refine ⟨⟨?_, ?_, ?_, ?_⟩, ?_, h6, h7⟩
    · rw [k1, h1, hb']; simp
    · rw [k1, k2]; simp
    · intro hc; rw [h1, hb'] at hc; cases hc
    · intro _; rw [h1, hb']
    · simp

/-- The engine, with no claim, gives back what it holds (R72, R76, R82, R83). -/
theorem engineGivesBack_mid {s : State} (h : Mid s) (hc : s.master.engineClaim = false)
    (hw : s.engine.state ≠ .waitPort) :
    Mid s.engineGivesBack ∧ s.engineGivesBack.master.holder ≠ some .engine ∧ s.engineGivesBack.engine = s.engine ∧
      s.engineGivesBack.master.engineClaim = false := by
  obtain ⟨h1, h2, h3, h4⟩ := h
  unfold State.engineGivesBack
  by_cases hh : s.master.holder = some .engine
  · rw [if_pos hh]
    have hb : s.master.bus = .granted := h1.1 (by rw [hh]; rfl)
    have hr : s.sweep.read = none := by
      by_contra hc'
      have := h2.2 (Option.isSome_iff_ne_none.2 hc')
      rw [hh] at this; cases this
    by_cases hrel : s.master.releaseReq = true
    · rw [if_pos hrel]
      refine ⟨⟨?_, ?_, ?_, ?_⟩, ?_, rfl, hc⟩
      · rw [State.serveRelease_master]; simp only [Option.isSome_none]
        split <;> simp
      · rw [State.serveRelease_master, State.serveRelease_sweep, hr]; simp
      · rw [State.serveRelease_master, State.serveRelease_sweep]
        intro hbn
        by_contra hd
        simp [hd] at hbn
      · rw [State.serveRelease_master]; simp
      · rw [State.serveRelease_master]; simp
    · rw [if_neg hrel]
      obtain ⟨k1, k2, k3, k4⟩ := handOnToSweep_mid hb hr (by simpa using hrel) hw
      exact ⟨k1, k2, k3, k4.trans hc⟩
  · rw [if_neg hh]; exact ⟨⟨h1, h2, h3, h4⟩, hh, rfl, hc⟩

/-- Once the engine is at rest and holds nothing, everything fits. -/
theorem portFits_rest {s : State} (h : Mid s) (hh : s.master.holder ≠ some .engine)
    (hc : s.master.engineClaim = false) (he : ∃ e : Engine, s.engine = e.dropped) : s.PortFits := by
  obtain ⟨e, he⟩ := he
  obtain ⟨h1, h2, h3, h4⟩ := h
  obtain ⟨-, -, r3, r4, -⟩ := e.dropped_rest
  refine ⟨engineRecord_dropped he, h1, ?_, h2, ?_, fun hb => ⟨hc, h3 hb⟩, h4⟩
  · rw [he, r3]; simp [hh]
  · rw [he, hc]; simp [r4]

/-- The engine lets its descriptor go (R76). -/
theorem letGo_port {s : State} (h : Mid s) : s.letGo.PortFits := by
  have hm : Mid s.dropEngine := h
  obtain ⟨-, -, -, r4, -⟩ := s.engine.dropped_rest
  obtain ⟨k1, k2, k3, k4⟩ := engineGivesBack_mid hm rfl r4
  exact portFits_rest k1 k2 k4 ⟨s.engine, k3⟩

/-- The engine drops its descriptor when it has already given the port back. -/
theorem dropEngine_port {s : State} (h : Mid s) (hh : s.master.holder ≠ some .engine) : s.dropEngine.PortFits :=
  portFits_rest (s := s.dropEngine) h hh rfl ⟨s.engine, rfl⟩

theorem unitFails_port {s : State} (h : Mid s) (d : DescIx) (x : Desc) (c : Code) (w : WindowIx) (sd : SideName)
    (o : Offset) : (s.unitFails d x c w sd o).PortFits :=
  letGo_port (h.congr (s.settleFailure_port d x c w sd o))

/-! ### The engine with the port -/

/-- An access or exchange is put in flight by an engine that holds the port. -/
theorem putInFlight_port {s : State} (h : Mid s) (hh : s.master.holder = some .engine)
    (hc : s.master.engineClaim = false) (ha : s.engine.active.isSome = true) {e : EngineState}
    (he : e.between = true) (f : InFlight) : (s.putInFlight e f).PortFits := by
  obtain ⟨h1, h2, h3, h4⟩ := h
  have hw : e ≠ .waitPort := by rintro rfl; cases he
  refine ⟨⟨?_, ?_, ?_⟩, h1, ?_, h2, ?_, fun hb => ⟨hc, h3 hb⟩, h4⟩
  · intro hn
    have : s.engine.active = none := hn
    rw [this] at ha; cases ha
  · intro _; exact he
  · simp [State.putInFlight, he]
  · simp [State.putInFlight, he, hh]
  · simp [State.putInFlight, hc, hw]

theorem startUnit_port {s : State} (h : Mid s) (hh : s.master.holder = some .engine)
    (hc : s.master.engineClaim = false) (ha : s.engine.active.isSome = true) (d : DescIx) (x : Desc) :
    (s.startUnit d x).PortFits := by
  unfold State.startUnit State.startSourceRead State.startAsk State.startDestinationWrite
  repeat' split
  all_goals first
    | exact unitFails_port h _ _ _ _ _ _
    | exact putInFlight_port h hh hc ha rfl _

/-- The end of a guard read, before its outcome is taken. -/
theorem guardReadOver_port {s : State} (h : Mid s) (hc : s.master.engineClaim = false)
    (hw : s.engine.state ≠ .waitPort) :
    Mid s.guardReadOver ∧ s.guardReadOver.master.holder ≠ some .engine ∧
      s.guardReadOver.engine = { s.engine with inFlight := none } ∧ s.guardReadOver.master.engineClaim = false :=
  engineGivesBack_mid (s := { s with engine := { s.engine with inFlight := none } }) h hc hw

theorem guardReadFails_port {C : Prop} {s : State} (hrec : Recs C s) (h : Mid s) (hc : s.master.engineClaim = false)
    (hw : s.engine.state ≠ .waitPort) (ha : s.engine.active.isSome = true) (g : Guard) (c : Code) :
    (s.guardReadFails g c).PortFits := by
  obtain ⟨k1, k2, k3, k4⟩ := guardReadOver_port h hc hw
  have krec := hrec.guardReadOver
  unfold State.guardReadFails
  simp only
  cases hx : s.guardReadOver.activeDesc? with
  | none =>
    exfalso
    have hact : s.guardReadOver.engine.active.isSome = true := by rw [k3]; exact ha
    obtain ⟨d, hd⟩ := Option.isSome_iff_exists.1 hact
    obtain ⟨x, hx', -⟩ := krec.activeDesc hd
    simp [State.activeDesc?, hd, hx'] at hx
  | some dx =>
    obtain ⟨d, x⟩ := dx
    have hp := s.guardReadOver.settleFailure_port d x c g.window .guard (.at g.offset)
    exact dropEngine_port (k1.congr hp) (by rw [hp.2.1]; exact k2)

theorem engineTakesPort_port {C : Prop} {s : State} (hrec : Recs C s)
    (hm : (s.sweep.read = none) ∧ s.master.bus = .granted) (hw : s.engine.state = .waitPort) :
    s.engineTakesPort.PortFits := by
  have hact : s.engine.active.isSome = true := hrec.working.1 (by rw [hw]; rfl)
  obtain ⟨d, hd⟩ := Option.isSome_iff_exists.1 hact
  obtain ⟨x, hx, -⟩ := hrec.activeDesc hd
  have had : (State.activeDesc?
      { s with master := { s.master with engineClaim := false, holder := some .engine } }) = some (d, x) := by
    simp [State.activeDesc?, hd, hx]
  have hmid : Mid { s with master := { s.master with engineClaim := false, holder := some .engine } } :=
    ⟨by simp [hm.2], by simp [hm.1], by simp [hm.2], by simp [hm.2]⟩
  have krec := hrec.outer { s.master with engineClaim := false, holder := some .engine } s.sweep s.channels
  unfold State.engineTakesPort
  simp only [had]
  by_cases hb : s.engine.spellBegun = true
  · rw [if_pos hb]; exact startUnit_port hmid rfl rfl hact d x
  · rw [if_neg hb]
    have hb' : s.engine.spellBegun = false := by simpa using hb
    obtain ⟨-, h4, -⟩ := hrec.fits d x hd hx
    obtain ⟨g, hg⟩ := Option.isSome_iff_exists.1 (h4 hb').2.1
    simp only [hg]
    unfold State.startGuardRead
    split
    · exact putInFlight_port hmid rfl rfl hact rfl _
    · refine guardReadFails_port (C := C)
        (s := { s with
          master := { s.master with engineClaim := false, holder := some .engine }
          engine := { s.engine with state := .guard } }) ?_ hmid rfl (by simp) hact g _
      refine ⟨krec.held.congr rfl rfl rfl (fun _ => rfl) (fun _ => rfl) rfl, ?_, ?_⟩
      · show EngineState.working .guard = true ↔ s.engine.active.isSome = true
        rw [hact]; simp [EngineState.working]
      intro e y h1 h2
      obtain ⟨-, h5, -⟩ := krec.fits e y h1 h2
      exact ⟨fun hc => by simp at hc, fun hb => ⟨(h5 hb).1, (h5 hb).2.1, .inr rfl⟩, fun _ => hb'⟩

/-- The port is handed on while the engine holds nothing (R82). -/
theorem handOn_port {C : Prop} {s : State} (hrec : Recs C s) (hb : s.master.bus = .granted)
    (hr : s.sweep.read = none) (hrel : s.master.releaseReq = false) (he : EngineSide s)
    (hbt : s.engine.state.between = false) : s.handOn.PortFits := by
  obtain ⟨h1, h2, h3, h4, -⟩ := serveVisits_port s.sweep.deferred s.freeHolder (Nat.le_refl _) hr rfl
  have hb' : s.freeHolder.master.bus = .granted := hb
  have hrel' : s.freeHolder.master.releaseReq = false := hrel
  obtain ⟨h5, h6⟩ := h4 he
  have hu := h6 hbt
  have krec' : Recs C (State.serveVisits s.sweep.deferred s.freeHolder) :=
    (hrec.outer { s.master with holder := none } s.sweep s.channels).serveVisits s.sweep.deferred
  unfold State.handOn
  revert h1 h2 h3 h5 hu krec'
  generalize State.serveVisits s.sweep.deferred s.freeHolder = u
  intro h1 h2 h3 h5 hu krec'
  rcases h3 with ⟨k1, k2, k3⟩ | ⟨k1, k2⟩
  · have : ¬ u.master.holder = some .sweep := by rw [k1]; simp
    simp only [this, if_false]
    by_cases hc : u.master.engineClaim = true
    · rw [if_pos hc]
      exact engineTakesPort_port krec' ⟨k2, h1.trans hb'⟩ (h5.1.1 hc)
    · rw [if_neg hc]
      have hw : u.engine.state ≠ .waitPort := fun h => hc (h5.1.2 h)
      have hc' : u.master.engineClaim = false := by simpa using hc
      refine ⟨EngineRecordOk.congr h5.2 rfl, ?_, ?_, ?_, ?_, ?_, ?_⟩
      · simp
      · simp [hu]
      · simp [k2]
      · simp [hc', hw]
      · intro _; exact ⟨hc', k3⟩
      · intro hx; rw [State.giveGrantBack_master] at hx; simp only at hx; rw [h2, hrel'] at hx; cases hx
  · simp only [k1, if_true]
    refine ⟨h5.2, ?_, ?_, ?_, h5.1, ?_, ?_⟩
    · rw [k1, h1, hb']; simp
    · rw [k1, hu]; simp
    · rw [k1, k2]; simp
    · intro hx; rw [h1, hb'] at hx; cases hx
    · intro _; rw [h1, hb']

/-- A release request is served while the engine holds nothing (R83). -/
theorem serveRelease_port {s : State} (hr : s.sweep.read = none) (he : EngineSide s)
    (hbt : s.engine.state.between = false) : s.serveRelease.PortFits := by
  refine ⟨EngineRecordOk.congr he.2 rfl, ?_, ?_, ?_, ?_, ?_, ?_⟩
  · rw [State.serveRelease_master]; simp only; split <;> simp
  · rw [State.serveRelease_master, State.serveRelease_engine, hbt]; simp
  · rw [State.serveRelease_master, State.serveRelease_sweep, hr]; simp
  · rw [State.serveRelease_master, State.serveRelease_engine]; exact he.1
  · rw [State.serveRelease_master, State.serveRelease_sweep]
    intro hx
    by_contra hc
    have hc' : s.master.engineClaim = true ∨ s.sweep.deferred ≠ 0 := by
      by_contra hn; push Not at hn; exact hc ⟨by simpa using hn.1, hn.2⟩
    rcases hc' with hc' | hc' <;> simp [hc'] at hx
  · rw [State.serveRelease_master]; simp

/-- The engine claims the port (R81, R82). -/
theorem claimPort_port {C : Prop} {s : State}
    (hrec : Recs C { s with engine := { s.engine with state := .waitPort, inFlight := none } }) (h : Mid s)
    (ha : s.engine.active.isSome = true) (hp : s.engine.pauseReq = false) : s.claimPort.PortFits := by
  obtain ⟨h1, h2, h3, h4⟩ := h
  have hside : ∀ m : MasterPort, m.engineClaim = true → EngineSide
      { s with engine := { s.engine with state := .waitPort, inFlight := none }, master := m } := by
    intro m hm
    refine ⟨by simp [hm], ?_, ?_, ?_⟩
    · intro hn; have hn' : s.engine.active = none := hn; rw [hn'] at ha; cases ha
    · intro hc; rw [show ({ s with engine := { s.engine with state := .waitPort, inFlight := none }, master := m } :
        State).engine.pauseReq = s.engine.pauseReq from rfl, hp] at hc; cases hc
    · simp [EngineState.between]
  unfold State.claimPort
  simp only
  split
  · rename_i hh
    have hr : s.sweep.read = none := by
      by_contra hc
      have := h2.2 (Option.isSome_iff_ne_none.2 hc)
      rw [hh] at this; cases this
    have hb : s.master.bus = .granted := h1.1 (by rw [hh]; rfl)
    split
    · exact serveRelease_port hr (hside _ rfl) rfl
    · rename_i hrel
      exact handOn_port (hrec.outer _ s.sweep s.channels) hb hr (by simpa using hrel) (hside _ rfl) rfl
  · rename_i hh
    split
    · rename_i hc
      have hr : s.sweep.read = none := by
        by_contra hx
        have := h2.2 (Option.isSome_iff_ne_none.2 hx)
        rw [hc.2.1] at this; cases this
      exact engineTakesPort_port hrec ⟨hr, hc.1⟩ rfl
    · refine ⟨(hside _ rfl).2, ?_, ?_, h2, ?_, ?_, ?_⟩
      · simp only; split
        · rename_i hb; rw [h1, hb]; simp
        · exact h1
      · simp [EngineState.between, hh]
      · simp
      · simp only; split
        · intro hx; cases hx
        · rename_i hb; exact fun hx => absurd hx hb
      · simp only; intro hx; rw [h4 hx]; simp

/-- What a unit boundary decides (R73). -/
theorem AtBoundary.port {C : Prop} {s t : State} (hb : AtBoundary C s t) (h : Mid s)
    (hc : s.master.engineClaim = false) : t.PortFits := by
  obtain ⟨u, d, x, b, rfl, hbusy, hm, hw, -⟩ := hb
  have hu : Mid u := by unfold Mid; rw [hm, hw]; exact h
  have hcu : u.master.engineClaim = false := by rw [hm]; exact hc
  have hact : u.engine.active.isSome = true := by rw [hbusy.active]; rfl
  unfold State.boundary
  split
  · unfold State.complete
    exact letGo_port (hu.congr ((u.settleCompletion_port d x).trans
      ((State.handEndRequest_port _ _).trans (State.handChain_port _ _ _))))
  · rename_i hblk
    split
    · exact letGo_port (hu.congr (u.settleStop_port d x))
    · rename_i hs
      split
      · exact letGo_port (hu.congr (u.spellEnds_port d x))
      · split
        · exact letGo_port (hu.congr (u.setAside_port d x true))
        · rename_i hp
          split
          · exact letGo_port (hu.congr (u.setAside_port d x true))
          · unfold State.continueSpell
            split
            · rename_i hh
              exact startUnit_port hu hh.1 hcu hact d x
            · exact claimPort_port (hbusy.waits hblk (by simpa using hs)) hu hact (by simpa using hp)

/-! ### What a state whose records fit gives -/

namespace State.PortFits

variable {s : State}

theorem mid (h : s.PortFits) : Mid s := ⟨h.2.1, h.2.2.2.1, fun hb => (h.2.2.2.2.2.1 hb).2, h.2.2.2.2.2.2⟩

theorem side (h : s.PortFits) : EngineSide s := ⟨h.2.2.2.2.1, h.1⟩

theorem noClaim (h : s.PortFits) (hw : s.engine.state ≠ .waitPort) : s.master.engineClaim = false := by
  by_contra hc; exact hw (h.2.2.2.2.1.1 (by simpa using hc))

theorem holds (h : s.PortFits) (hb : s.engine.state.between = true) : s.master.holder = some .engine := h.2.2.1.2 hb

theorem noPause (h : s.PortFits) (hb : s.engine.state.between = false) : s.engine.pauseReq = false := by
  by_contra hc; rw [h.1.2.1 (by simpa using hc)] at hb; cases hb

end State.PortFits

/-! ### The engine's events -/

theorem select_port {C : Prop} {s : State} (hrec : Recs C s) (h : s.PortFits) (hi : s.engine.state = .idle) :
    s.select.PortFits := by
  have hc := h.noClaim (by rw [hi]; simp)
  rcases hrec.select_cases hi with h1 | h1 | ⟨u, h1, h2, h3, h4, h5, h6⟩
  · rw [h1]; exact h
  · exact h1.port h.mid hc
  · rw [h1]
    refine claimPort_port h2 (by unfold Mid; rw [h4, h5]; exact h.mid) h3 ?_
    rw [h6]; exact h.noPause (by rw [hi]; rfl)

theorem guardReadWord_port {C : Prop} {s : State} (hrec : Recs C s) (h : s.PortFits) (hg : s.engine.state = .guard)
    (g : Guard) (w : Word) : (s.guardReadWord g w).PortFits := by
  have hw : s.engine.state ≠ .waitPort := by rw [hg]; simp
  obtain ⟨k1, k2, k3, k4⟩ := guardReadOver_port h.mid (h.noClaim hw) hw
  have krec := hrec.guardReadOver
  have hact : s.guardReadOver.engine.active.isSome = true := by
    rw [k3]; exact hrec.working.1 (by rw [hg]; rfl)
  obtain ⟨d, hd⟩ := Option.isSome_iff_exists.1 hact
  obtain ⟨x, hx, -⟩ := krec.activeDesc hd
  have had : s.guardReadOver.activeDesc? = some (d, x) := by simp [State.activeDesc?, hd, hx]
  unfold State.guardReadWord
  simp only [had]
  split
  · have hp := s.guardReadOver.settleStop_port d x
    exact dropEngine_port (k1.congr hp) (by rw [hp.2.1]; exact k2)
  · split
    · have hh := krec.held; rw [hd] at hh
      exact (hh.startSpell hd hx).port k1 k4
    · unfold State.guardFalse
      exact dropEngine_port (s := s.guardReadOver.enterWaiting d x) k1 k2

theorem sourceReadDone_port {C : Prop} {s : State} (hrec : Recs C s) (h : s.PortFits) {d : DescIx} {x : Desc}
    {f : InFlight} (hx : s.accessInFlight? = some (d, x, f)) (data : UnitData) :
    (s.sourceReadDone d x f data).PortFits := by
  have hm : s.engine.state = .move := by
    unfold State.accessInFlight? at hx; split at hx
    · assumption
    · cases hx
  have hc := h.noClaim (by rw [hm]; simp)
  have hh := h.holds (by rw [hm]; rfl)
  have ha : s.engine.active.isSome = true := by rw [(hrec.access hx).1.active]; rfl
  unfold State.sourceReadDone
  split
  · unfold State.startDestinationWrite; split
    · exact putInFlight_port h.mid hh hc ha rfl _
    · exact unitFails_port h.mid _ _ _ _ _ _
  · exact putInFlight_port (s := s.putChannel _ _) h.mid hh hc ha rfl _
  · exact h
  · exact h

theorem endExchange_port {s : State} (h : s.PortFits) (c : ChannelIx) : (s.endExchange c).PortFits := h

theorem accepted_port {C : Prop} {s : State} (hrec : Recs C s) (h : s.PortFits) (c : ChannelIx) :
    (s.accepted c).PortFits := by
  have key : Recs C (s.endExchange c) := hrec.outer s.master s.sweep _
  unfold State.accepted
  simp only; split
  · exact h
  · rename_i d x hx
    obtain ⟨ha, hd, hact⟩ := key.activeDesc? hx
    split
    · rename_i hex
      have hst : s.engine.state = .peripheral := by
        simp only [State.exchangeOn, Bool.and_eq_true, beq_iff_eq] at hex; exact hex.1.1
      exact (key.unitCompletes ha hd (key.begun_between ha hd (.inr hst))).port (s := s.endExchange c) h.mid
        (h.noClaim (by rw [hst]; simp))
    · exact h

theorem supplied_port {C : Prop} {s : State} (hrec : Recs C s) (h : s.PortFits) (c : ChannelIx) (data : UnitData) :
    (s.supplied c data).PortFits := by
  have key : Recs C (s.endExchange c) := hrec.outer s.master s.sweep _
  unfold State.supplied
  simp only; split
  · rename_i d x f hx hf
    obtain ⟨ha, hd, hact⟩ := key.activeDesc? hx
    split
    · rename_i hex
      have hst : s.engine.state = .peripheral := by
        simp only [State.exchangeOn, Bool.and_eq_true, beq_iff_eq] at hex; exact hex.1.1
      exact putInFlight_port (s := s.endExchange c) h.mid (h.holds (by rw [hst]; rfl))
        (h.noClaim (by rw [hst]; simp)) (by show s.engine.active.isSome = true; rw [show s.engine.active = some d from ha]; rfl)
        rfl _
    · exact h
  · exact h

theorem exchangeFails_port {s : State} (h : s.PortFits) (c : ChannelIx) (code : Code) :
    (s.exchangeFails c code).PortFits := by
  unfold State.exchangeFails
  simp only; split
  · split
    · exact unitFails_port (s := s.endExchange c) h.mid _ _ _ _ _ _
    · exact h
  · exact h

theorem waitExpires_port {s : State} (h : s.PortFits) (c : ChannelIx) : (s.waitExpires c).PortFits := by
  unfold State.waitExpires; split
  · exact h
  · exact exchangeFails_port h c _
  · exact exchangeFails_port h c _

/-- A stop request taken in WAIT_PORT, or a descriptor dropped there otherwise, leaves the records fitting. -/
theorem dropEngine_waiting {s : State} (h : s.PortFits) (hw : s.engine.state = .waitPort) : s.dropEngine.PortFits :=
  dropEngine_port h.mid (fun hc => by have := h.2.2.1.1 hc; rw [hw] at this; cases this)

theorem State.PortFits.congr {s t : State} (h : s.PortFits) (hp : SamePort s t) : t.PortFits := by
  obtain ⟨h1, h2, h3⟩ := hp
  unfold State.PortFits State.EngineRecordOk State.MasterOk; rw [h1, h2, h3]; exact h

theorem State.PortFits.visit {s t : State} (h : s.PortFits) (hv : VisitPort s t) (hr : t.sweep.read = s.sweep.read)
    (hd : t.sweep.deferred = s.sweep.deferred) : t.PortFits := by
  rcases hv.2 with ⟨h1, h2⟩ | ⟨h0, h1, h2⟩
  · unfold State.PortFits State.EngineRecordOk State.MasterOk; rw [h1, h2, hr, hd]; exact h
  · obtain ⟨h3, h4, h5, h6, h7, h8⟩ := h.2
    obtain ⟨-, -, j1, j2, -⟩ := s.engine.dropped_rest
    refine ⟨engineRecord_dropped h1, ?_, ?_, ?_, ?_, ?_, ?_⟩
    · rw [h2]; exact h3
    · rw [h2, h1, j1]
      have : s.master.holder ≠ some .engine := fun hc => by have := h4.1 hc; rw [h0] at this; cases this
      simp [this]
    · rw [h2, hr]; exact h5
    · rw [h2, h1]; simp [j2]
    · rw [h2, hd]; exact fun hb => ⟨rfl, (h7 hb).2⟩
    · rw [h2]; exact h8

theorem stopInWaitPort_fits {s : State} (h : s.PortFits) (d : DescIx) : (s.stopInWaitPort d).PortFits := by
  obtain ⟨h1, h2⟩ := stopInWaitPort_port s d
  exact h.visit ⟨⟨s.sweep.read, s.sweep.cursor, h1, .inr (.inl rfl)⟩, h2⟩ (by rw [h1]) (by rw [h1])

theorem pauseEngine_port {s t : State} (h : s.PortFits) (ht : s.pauseEngine = some t) : t.PortFits := by
  unfold State.pauseEngine at ht
  cases hs : s.engine.state <;> rw [hs] at ht <;> simp only [Option.some.injEq, reduceCtorEq] at ht
  · subst ht
    obtain ⟨⟨e1, e2, e3⟩, m1, m2, m3, m4, m5, m6⟩ := h
    rw [hs] at m2 m4 e3
    have hp : s.engine.pauseReq = false := by
      by_contra hc; have := e2 (by simpa using hc); rw [hs] at this; cases this
    refine ⟨⟨fun ha => ?_, fun hc => ?_, e3⟩, m1, m2, m3, ?_, m5, m6⟩
    · have := e1 ha; simp only; rw [this]
    · rw [show ({ s with engine := { s.engine with state := EngineState.paused } } : State).engine.pauseReq =
        s.engine.pauseReq from rfl, hp] at hc; cases hc
    · simp only; rw [m4]; simp
  · subst ht
    unfold State.pauseInWaitPort
    have key : ∀ u : State, SamePort s u →
        (State.dropEngine { u with engine := { u.engine with pauseReq := true } }).PortFits := by
      intro u hu
      refine dropEngine_port (s := { u with engine := { u.engine with pauseReq := true } })
        (h.mid.congr (t := u) hu) ?_
      show u.master.holder ≠ some .engine
      rw [hu.2.1]
      exact fun hc => by have := h.2.2.1.1 hc; rw [hs] at this; cases this
    split
    · exact key s (SamePort.refl s)
    · exact key _ (s.setAside_port _ _ _)
  all_goals
    subst ht
    obtain ⟨⟨e1, e2, e3⟩, m⟩ := h
    refine ⟨⟨fun ha => ?_, fun _ => by show s.engine.state.between = true; rw [hs]; rfl, e3⟩, m⟩
    have := e1 ha
    have h1 := e3.2 (by rw [hs]; rfl)
    rw [this] at h1; cases h1

theorem resumeEngine_port {s t : State} (h : s.PortFits) (ht : s.resumeEngine = some t) : t.PortFits := by
  unfold State.resumeEngine at ht
  obtain ⟨⟨e1, e2, e3⟩, m1, m2, m3, m4, m5, m6⟩ := h
  cases hs : s.engine.state <;> rw [hs] at ht <;> simp only [Option.some.injEq, reduceCtorEq] at ht
  · subst ht
    rw [hs] at m2 m4 e3
    have hp : s.engine.pauseReq = false := by
      by_contra hc; have := e2 (by simpa using hc); rw [hs] at this; cases this
    refine ⟨⟨fun ha => ?_, fun hc => ?_, e3⟩, m1, m2, m3, ?_, m5, m6⟩
    · have := e1 ha; simp only; rw [this]
    · rw [show ({ s with engine := { s.engine with state := EngineState.idle } } : State).engine.pauseReq =
        s.engine.pauseReq from rfl, hp] at hc; cases hc
    · simp only; rw [m4]; simp
  all_goals
    split at ht
    · simp only [Option.some.injEq] at ht
      subst ht
      refine ⟨⟨fun ha => ?_, fun hc => Bool.noConfusion hc, e3⟩, m1, m2, m3, m4, m5, m6⟩
      have := e1 ha
      have h1 := e3.2 (by rw [hs]; rfl)
      rw [this] at h1; cases h1
    · cases ht

/-! ### The sweep's events -/

/-- The record at d is not WAITING. -/
def NotWaiting (s : State) (d : DescIx) : Prop := ∀ y, s.descs.get d = some y → y.state ≠ .waiting

theorem retire_notWaiting (s : State) (d : DescIx) (x : Desc) (c : Code) (det : Option (SideName × Offset)) :
    NotWaiting (s.retire d x c det) d := by
  intro y hy
  rw [retire_descs, Tab.get_put_same] at hy
  cases hy; simp [Desc.retire, Desc.withProgress]

theorem settleStop_notWaiting {s : State} {d : DescIx} (x : Desc) (h : NotWaiting s d) :
    NotWaiting (s.settleStop d x) d := by
  unfold State.settleStop; split
  · exact h
  · exact retire_notWaiting _ _ _ _ _
  · exact retire_notWaiting _ _ _ _ _
  · intro y hy
    obtain ⟨r, hr⟩ := leaveQueue_eq s d x
    simp [State.makeEmpty, hr, State.setRetired] at hy

theorem stepLease_notWaiting {s : State} {d : DescIx} {x : Desc} (hx : x.state ≠ .waiting ∨ x.pr.lease ≤ 1) :
    NotWaiting (s.stepLease d x) d := by
  unfold State.stepLease
  split
  · rename_i hl
    intro y hy
    rw [State.putDesc_descs, Tab.get_put_same] at hy
    cases hy
    exact hx.resolve_right (by omega)
  · simp only; split
    · rename_i hact
      unfold State.raiseStop
      have key : ∀ pr : Progress, NotWaiting (s.putDesc d (some { x with pr := pr })) d := by
        intro pr y hy
        rw [State.putDesc_descs, Tab.get_put_same] at hy
        cases hy; simp [hact]
      unfold State.stopInWaitPort
      split
      · split
        · exact key _
        · split
          · exact key _
          · exact settleStop_notWaiting _ (key _)
      · exact key _
    · exact retire_notWaiting _ _ _ _ _

/-- A visit that does not need the port puts nothing on the bus. -/
theorem performVisit_read {s : State} (h : s.visitNeedsPort = false) : s.performVisit.sweep.read = s.sweep.read := by
  unfold State.performVisit State.visit
  simp only
  cases hx : s.descs.get s.sweep.cursor with
  | none => rfl
  | some x =>
    simp only
    split
    · rfl
    · unfold State.visitNeedsPort at h
      rw [hx] at h
      simp only [Bool.and_eq_false_iff, beq_eq_false_iff_ne, Bool.or_eq_false_iff, decide_eq_false_iff_not] at h
      by_cases h0 : x.st.initialLease = 0
      · have hw : x.state ≠ .waiting := by
          rcases h with h | h
          · exact h
          · exact absurd h0 h.1
        simp only [h0, if_true, hx]
        rw [if_neg hw]
      · simp only [h0, if_false]
        have hn := stepLease_notWaiting (s := { s with sweep := { s.sweep with cursor := s.sweep.cursor + 1 } })
          (d := s.sweep.cursor) (x := x) (by rcases h with h | h; exacts [.inl h, .inr (by omega)])
        have hr := (stepLease_port { s with sweep := { s.sweep with cursor := s.sweep.cursor + 1 } }
          s.sweep.cursor x).1
        revert hn hr
        generalize State.stepLease { s with sweep := { s.sweep with cursor := s.sweep.cursor + 1 } }
          s.sweep.cursor x = u
        intro hn hr
        cases hy : u.descs.get s.sweep.cursor with
        | none => simp only; rw [hr]
        | some y => simp only; rw [if_neg (hn y hy), hr]

theorem performVisit_fits {s : State} (h : s.PortFits) (hn : s.visitNeedsPort = false) : s.performVisit.PortFits := by
  have hv := performVisit_port s
  refine h.visit hv (performVisit_read hn) ?_
  obtain ⟨⟨r, c, h1, -⟩, -⟩ := hv
  rw [h1]

theorem deferVisit_fits {s : State} (h : s.PortFits) : s.deferVisit.PortFits := by
  obtain ⟨e, m1, m2, m3, m4, m5, m6⟩ := h
  refine ⟨e, ?_, m2, m3, m4, ?_, ?_⟩
  · simp only [State.deferVisit]; split
    · rename_i hb; rw [m1, hb]; simp
    · exact m1
  · simp only [State.deferVisit]; split
    · intro hx; cases hx
    · rename_i hb; exact fun hx => absurd hx hb
  · simp only [State.deferVisit]; intro hx; rw [m6 hx]; simp

theorem visitDue_port {s : State} (h : s.PortFits) : s.visitDue.PortFits := by
  unfold State.visitDue
  split
  · split
    · unfold State.sweepClaim
      split
      · rename_i hc
        have := h.2.1.2 hc.1
        rw [hc.2] at this; cases this
      · exact deferVisit_fits h
    · rename_i hn; exact performVisit_fits h (by simpa using hn)
  · split
    · exact deferVisit_fits h
    · exact h

theorem sweepExpires_port {s : State} (h : s.PortFits) : s.sweepExpires.PortFits := by
  unfold State.sweepExpires
  split
  · exact h
  · exact visitDue_port (s := { s with sweep := { s.sweep with timer := 0 } }) h

theorem sweepReadOver_port {C : Prop} {s : State} (hrec : Recs C s) (h : s.PortFits) (r : SweepRead)
    (hr : s.sweep.read = some r) (e : ReadEnd) : (s.sweepReadOver r e).PortFits := by
  have hh : s.master.holder = some .sweep := h.2.2.2.1.2 (by rw [hr]; rfl)
  have hb : s.master.bus = .granted := h.2.1.1 (by rw [hh]; rfl)
  have hbt : s.engine.state.between = false := by
    by_contra hc; have := h.holds (by simpa using hc); rw [hh] at this; cases this
  unfold State.sweepReadOver
  simp only
  split
  · exact serveRelease_port rfl h.side hbt
  · rename_i hrel
    refine handOn_port (C := C) ?_ hb rfl (by simpa using hrel) h.side hbt
    exact (hrec.outer s.master { s.sweep with read := none } s.channels).congr rfl rfl rfl rfl (fun _ => rfl)
      (fun _ => rfl) rfl

theorem busGranted_port {C : Prop} {s : State} (hrec : Recs C s) (h : s.PortFits) (hb : s.master.bus = .requesting) :
    (State.handOn { s with master := { s.master with bus := .granted } }).PortFits := by
  have hn : s.master.holder = none := by
    by_contra hc
    have := h.2.1.1 (Option.isSome_iff_ne_none.2 hc); rw [hb] at this; cases this
  have hr : s.sweep.read = none := by
    by_contra hx
    have := h.2.2.2.1.2 (Option.isSome_iff_ne_none.2 hx)
    rw [hn] at this; cases this
  have hbt : s.engine.state.between = false := by
    by_contra hc; have := h.holds (by simpa using hc); rw [hn] at this; cases this
  refine handOn_port (C := C) (hrec.outer _ s.sweep s.channels) rfl hr ?_ h.side hbt
  show s.master.releaseReq = false
  by_contra hc
  have := h.2.2.2.2.2.2 (by simpa using hc); rw [hb] at this; cases this

theorem timeBase_port {s : State} (h : s.PortFits) : s.timeBase.PortFits := by
  unfold State.timeBase
  split
  · exact h
  · split
    · exact sweepExpires_port h
    · split
      · exact waitExpires_port h _
      · exact h

end Sys2Proof.Machine
end

