-- ==== Sys2Proof/Laws/HandOn.lean ====
section
/-! SUPPORT. The hand-on of the master port, one visit at a time, and letting a descriptor go, in the words the claims
use (R76, R82, R83). -/

namespace Sys2Proof.Machine

/-- A claim that the engine has not made is not there after a visit. -/
theorem performVisit_noClaim {s : State} (h : s.master.engineClaim = false) :
    s.performVisit.master.engineClaim = false := by
  rcases (performVisit_port s).2 with ⟨-, hm⟩ | ⟨-, -, hm⟩
  · rw [hm]; exact h
  · rw [hm]

theorem performVisit_deferred (s : State) : s.performVisit.sweep.deferred = s.sweep.deferred := by
  obtain ⟨r, c, h, -⟩ := (performVisit_port s).1
  rw [h]

theorem performVisit_holder (s : State) : s.performVisit.master.holder = s.master.holder := by
  rcases (performVisit_port s).2 with ⟨-, hm⟩ | ⟨-, -, hm⟩ <;> rw [hm]

theorem performVisit_releaseReq (s : State) : s.performVisit.master.releaseReq = s.master.releaseReq := by
  rcases (performVisit_port s).2 with ⟨-, hm⟩ | ⟨-, -, hm⟩ <;> rw [hm]

theorem serveVisits_noClaim (n : Nat) {s : State} (h : s.master.engineClaim = false) :
    (State.serveVisits n s).master.engineClaim = false := by
  induction n generalizing s with
  | zero => exact h
  | succ n ih =>
    unfold State.serveVisits
    simp only
    split
    · exact h
    · split
      · exact performVisit_noClaim h
      · exact ih (performVisit_noClaim (s := { s with
          master := { s.master with holder := some .sweep }
          sweep := { s.sweep with deferred := s.sweep.deferred - 1 } }) h)

/-- Where visits wait, one is served: its read is left on the bus, or the port is handed on anew (step 1 of R82). -/
theorem handOn_visit {s : State} (h : s.sweep.deferred ≠ 0) :
    s.handOn = if s.visited.sweep.read.isSome then s.visited else s.visited.handOn := by
  obtain ⟨n, hn⟩ := Nat.exists_eq_succ_of_ne_zero h
  have hv : State.performVisit { s.freeHolder with
      master := { s.freeHolder.master with holder := some .sweep }
      sweep := { s.freeHolder.sweep with deferred := s.freeHolder.sweep.deferred - 1 } } = s.visited := rfl
  have hd : s.visited.sweep.deferred = n := by
    show (State.performVisit _).sweep.deferred = n
    rw [performVisit_deferred]
    show s.sweep.deferred - 1 = n
    omega
  have hs : State.serveVisits s.sweep.deferred s.freeHolder =
      if s.visited.sweep.read.isSome then s.visited else State.serveVisits n s.visited.freeHolder := by
    rw [hn]
    show (if s.freeHolder.sweep.deferred = 0 then s.freeHolder else _) = _
    rw [if_neg (show ¬ s.freeHolder.sweep.deferred = 0 from h)]
    simp only [hv]
  unfold State.handOn
  rw [hs]
  by_cases hr : s.visited.sweep.read.isSome = true
  · have hh : s.visited.master.holder = some .sweep := performVisit_holder _
    simp only [hr, hh, if_true]
  · simp only [hr, hd]
    simp

/-- With no visit waiting and no claim of the engine the grant goes back (step 3 of R82). -/
theorem handOn_none {s : State} (hd : s.sweep.deferred = 0) (hc : s.master.engineClaim = false) :
    s.handOn = { s with master := { s.master with bus := .notRequesting, holder := none } } := by
  simp [State.handOn, hd, State.serveVisits, State.freeHolder, hc, State.giveGrantBack]

/-- With no visit waiting the port goes to the engine that claims it (step 2 of R82). -/
theorem handOn_claim {s : State} (hd : s.sweep.deferred = 0) (hc : s.master.engineClaim = true) :
    s.handOn = s.engineTakesPort := by
  simp [State.handOn, hd, State.serveVisits, State.freeHolder, hc, State.engineTakesPort]

/-- Without a claim of the engine, R82 serves visits and else gives the grant back. -/
theorem handOnToSweep_eq {s : State} (hc : s.master.engineClaim = false) : s.handOnToSweep = s.handOn := by
  have h : (State.serveVisits s.sweep.deferred s.freeHolder).master.engineClaim = false :=
    serveVisits_noClaim _ hc
  simp [State.handOnToSweep, State.handOn, h]

/-- The engine gives back a port for which it has no claim: R82 (R72, R76). -/
theorem engineGivesBack_handOn {s : State} (hh : s.master.holder = some .engine) (hr : s.master.releaseReq = false)
    (hc : s.master.engineClaim = false) : s.engineGivesBack = s.handOn := by
  simp [State.engineGivesBack, hh, hr, handOnToSweep_eq hc]

/-- The engine, holding the port, lets its descriptor go (R76, R82, R83). -/
theorem letGo_parted {s : State} (hh : s.master.holder = some .engine) : s.letGo = s.parted := by
  have hh' : s.dropEngine.master.holder = some .engine := hh
  unfold State.letGo State.parted
  by_cases hr : s.master.releaseReq = true
  · have hr' : s.dropEngine.master.releaseReq = true := hr
    simp only [State.engineGivesBack, hh', hr', hr, if_true, State.serveRelease]
    by_cases hd : s.sweep.deferred = 0 <;> simp [State.dropEngine, Engine.dropped, hd, MasterPort.reset]
  · have hr' : s.dropEngine.master.releaseReq = false := by simpa using hr
    rw [engineGivesBack_handOn hh' hr' rfl, if_neg hr]
    rfl

/-- A failure settles the active descriptor's record, or its stop request does (R72, R100, R101). -/
theorem settleFailure_failed (s : State) (d : DescIx) (x : Desc) (code : Code) (window : WindowIx) (side : SideName)
    (offset : Offset) : s.settleFailure d x code window side offset = s.failed d x code window side offset := by
  unfold State.settleFailure State.failed
  cases h : x.pr.stop <;> simp [State.settleStop, h, State.retireFault, failureReport, makeEmpty_freed]

/-- A unit that fails while the engine holds the port settles the record and gives the port back (R100, R101). -/
theorem unitFails_parted {s : State} (hh : s.master.holder = some .engine) (d : DescIx) (x : Desc) (code : Code)
    (window : WindowIx) (side : SideName) (offset : Offset) :
    s.unitFails d x code window side offset = (s.failed d x code window side offset).parted := by
  unfold State.unitFails
  rw [letGo_parted (by rw [(State.settleFailure_port s d x code window side offset).2.1]; exact hh),
    settleFailure_failed]

/-- Alone on the bus the engine lets go and comes to rest. -/
theorem parted_rested {s : State} (h : s.AloneOnBus) : s.parted = s.rested := by
  obtain ⟨-, h2⟩ := h
  unfold State.parted State.rested
  by_cases hr : s.master.releaseReq = true
  · simp [hr, h2, MasterPort.reset]
  · have hr' : s.master.releaseReq = false := by simpa using hr
    simp only [hr', Bool.false_eq_true, if_false]
    refine (handOn_none ?_ rfl).trans ?_
    · exact h2
    · simp [MasterPort.reset]

end Sys2Proof.Machine
end

