-- ==== Sys2Proof/Laws/Run.lean ====
section
/-! SUPPORT. How a command reaches the operation it stands for: the reset pin released, a handed command found, an
index read from an argument. -/

namespace Sys2Proof.Machine

open Host (Outcome)

/-- With the reset pin released an event acts. -/
theorem whileRunning_released {s : State} (h : s.resetHeld = false) (f : State → State) :
    whileRunning f s = .next (f s) := by
  simp [whileRunning, h]

/-- While the reset pin is asserted an event does nothing. -/
theorem whileRunning_held {s : State} (h : s.resetHeld = true) (f : State → State) : whileRunning f s = .next s := by
  simp [whileRunning, h]

/-- A command that waits at its owner is taken from the hand-offs and acts. -/
theorem ownerTakes_waits {s : State} {c : Command} {p : PortIx} {id : Word} {h : Handed} (w : s.Waits c p id h)
    (act : Handed → State → State) : ownerTakes c p id act s = .next (act h (s.took h)) := by
  simp [ownerTakes, whileRunning, w.1, w.2, State.took]

@[simp] theorem took_answer (s : State) (h : Handed) (code : Code) (words : PortWords) :
    (s.took h).answer h code words = s.answered h code words := rfl

@[simp] theorem took_refuse (s : State) (h : Handed) (code : Code) :
    (s.took h).refuse h code = s.answered h code noWords := rfl

/-- A number below the bound is the index it names. -/
theorem index?_some {n k : Nat} (d : Fin n) (h : k = d.val) : index? n k = some d := by
  subst h; simp [index?]

/-- A number at or above the bound names nothing. -/
theorem index?_none {n k : Nat} (h : n ≤ k) : index? n k = none := by
  unfold index?; rw [dif_neg (by omega)]

/-- The active descriptor and its record, while the engine works on it. -/
theorem State.Works.activeDesc {s : State} {e : EngineState} {d : DescIx} {x : Desc} (h : s.Works e d x) :
    s.activeDesc? = some (d, x) := by
  simp [State.activeDesc?, h.2.2.1, h.2.2.2]

end Sys2Proof.Machine
end

