-- ==== Sys2Proof/WellFormed.lean ====
section
/-! DEFINITION. Which commands are ones the outside world can issue: the operand bounds the types do not carry. -/

namespace Sys2Proof

/-- A write of a port window touches at least one byte. -/
def Instr.bytesOk (bytes : BitVec 4) : Bool := bytes != 0

/-- The unassigned words of a port window: offsets 0x4C to 0x7C and 0xC0 to 0xFC, one word apart (section 9.8). -/
def Instr.unassignedOk (offset : Nat) : Bool :=
  offset % 4 == 0 && ((0x4C ≤ offset && offset ≤ 0x7C) || (0xC0 ≤ offset && offset ≤ 0xFC))

/-- The targets REGISTER_WRITE_IGNORED may name; a write of all four bytes of the command word is a COMMAND_WRITE. -/
def IgnoredWrite.wellFormed : IgnoredWrite → Bool
  | .resultCode => true
  | .portStatus => true
  | .resultWord _ => true
  | .unassigned offset => Instr.unassignedOk offset
  | .narrowCommand bytes => Instr.bytesOk bytes && bytes != 15

/-- The check of a command's operands; every other command has no operand outside its type's range. -/
def Instr.wellFormed : Instr → Bool
  | .argumentWordWrite _ _ bytes _ => Instr.bytesOk bytes
  | .registerWriteIgnored _ target _ => target.wellFormed
  | .admission .. => true
  | .verdictPost .. => true
  | .load .. => true
  | .readDescriptor .. => true
  | .arm .. => true
  | .disarm .. => true
  | .release .. => true
  | .invoke .. => true
  | .setGate .. => true
  | .clearGate .. => true
  | .readGate .. => true
  | .setWindow .. => true
  | .clearWindow .. => true
  | .readWindow .. => true
  | .setRoute .. => true
  | .readRoute .. => true
  | .setSweep .. => true
  | .setStrobeLimit .. => true
  | .pause .. => true
  | .resume .. => true
  | .setPortLevel .. => true
  | .readStatus .. => true
  | .clearStatus .. => true
  | .sweepLateClear .. => true
  | .takeFault .. => true
  | .takeRetired .. => true
  | .setNotice .. => true
  | .withdraw .. => true
  | .invocationAtTarget .. => true
  | .triggerLineEvent .. => true
  | .triggerLineRelease .. => true
  | .lineInvocation .. => true
  | .withdrawLineEvent .. => true
  | .withdrawLineRelease .. => true
  | .portReturnOpen .. => true
  | .resetPin => true
  | .resetRelease .. => true
  | .selection => true
  | .busGrant => true
  | .releaseRequest => true
  | .guardReadEnd .. => true
  | .unitReadEnd .. => true
  | .unitCompletion => true
  | .accessBusError => true
  | .accept .. => true
  | .supply .. => true
  | .refuse .. => true
  | .waitTimerExpiry .. => true
  | .endRequest .. => true
  | .chain .. => true
  | .faultReport => true
  | .sweepTimerExpiry => true
  | .sweepReadEnd .. => true
  | .guardResult .. => true
  | .commandWrite .. => true

end Sys2Proof
end

