-- ==== Sys2Proof/Tests/Slice0.lean ====
section
/-! SUPPORT. Tests: what the well-formedness check refuses, the manual's worked tables, one step of each command on a
small state, and for every claim with premises a state and operands that meet them, clause by clause. -/

namespace Sys2Proof.Tests

set_option Elab.async false

open Sys2Proof.Machine
open Host (Outcome)

/-! ### What the check refuses -/

theorem test_no_byte_written_refused : (Instr.argumentWordWrite 0 0 0 5).wellFormed = false := by decide

theorem test_assigned_word_refused : (Instr.registerWriteIgnored 0 (.unassigned 0x48) 5).wellFormed = false ∧
    (Instr.registerWriteIgnored 0 (.unassigned 0x80) 5).wellFormed = false ∧
    (Instr.registerWriteIgnored 0 (.unassigned 0x100) 5).wellFormed = false := by decide

theorem test_misaligned_word_refused : (Instr.registerWriteIgnored 0 (.unassigned 0x4D) 5).wellFormed = false := by
  decide

theorem test_whole_command_word_refused : (Instr.registerWriteIgnored 0 (.narrowCommand 15) 5).wellFormed = false ∧
    (Instr.registerWriteIgnored 0 (.narrowCommand 0) 5).wellFormed = false := by decide

theorem test_well_formed_accepted : (Instr.argumentWordWrite 3 15 1 5).wellFormed = true ∧
    (Instr.registerWriteIgnored 0 (.unassigned 0x4C) 5).wellFormed = true ∧
    (Instr.registerWriteIgnored 0 (.unassigned 0xFC) 5).wellFormed = true ∧
    (Instr.registerWriteIgnored 0 (.narrowCommand 7) 5).wellFormed = true := by decide

theorem test_no_row_has_bits : decodeTableWord 32 0 = none ∧ State.reset.withFetchWord 32 0 = State.reset :=
  ⟨rfl, rfl⟩

/-! ### Small states -/

/-- The state a command leaves. -/
def after (c : Instr) (s : State) : State :=
  match exec c s with
  | .next t => t
  | .fault _ => s
  | .refused _ => s

/-- Command 1 of a port, as handed to its owner with these argument words. -/
def given (command : Command) (words : List Word) (level : Level := 0) (port : PortIx := 0) : Handed :=
  { command, port, id := 1, level, args := image words }

/-- One command waits at its owner. -/
def send (h : Handed) (s : State) : State := { s with handed := [h] }

theorem send_waits (h : Handed) (s : State) (hs : s.resetHeld = false) :
    (send h s).Waits h.command h.port h.id h := by
  simp [State.Waits, send, Handed.isFor, hs]

/-- W3 of section 2.7. -/
def readWindow : Window := { base := 0x40000, size := 256, level := 1, access := .read }

/-- W6 of section 2.7. -/
def writeWindow : Window := { base := 0x100000, size := 1024, level := 3, access := .readWrite }

/-- The part with W3 and W6 present and the rest of it as at reset. -/
def board : State :=
  { State.reset with windows := (State.reset.windows.put 3 (some readWindow)).put 6 (some writeWindow) }

/-- The COPY of section 2.7, running down past zero. -/
def copyPart : StaticPart :=
  { level := 1, priority := 3
    movement := .copy { window := 3, start := 12, stepping := .down } { window := 6, start := 0, stepping := .up }
    unitSize := .four, mode := .run, blockLen := 2, blockCount := 3, reload := false, notice := true
    initialLease := 0, guard := none, successor := none }

/-- The argument words of a LOAD of `copyPart`, with the index and the level given. -/
def copyWords (index level : Nat) : List Word :=
  [BitVec.ofNat 32 (0x04203000 + 0x100 * level + index), 0x1C020003, 0, 0x01060203, 12, 0]

/-- A guard on the first word of W6. -/
def sampleGuard (condition : Condition) : Guard :=
  { window := 6, offset := 0, mask := 0x800000FF, reference := 0x10, condition }

/-- A record of P1 in the given state, at its initial progress. -/
def record (state : DescState) (st : StaticPart := copyPart) : Desc :=
  { state, owner := 1, st, pr := Progress.initial st }

/-- The part with one descriptor. -/
def holding (d : DescIx) (x : Desc) (s : State := board) : State := { s with descs := s.descs.put d (some x) }

/-- P1's command 1 is pending, admitted or not. -/
def pendingAt (code : Word) (admitted : Bool) (words : List Word := []) : PortRec :=
  { PortRec.reset 3 with
    count := 1, args := image words, held := some { code, id := 1, args := image words, admitted } }

/-- The part with the given record at P1. -/
def port1 (r : PortRec) (s : State := board) : State := { s with ports := s.ports.put 1 r }

/-- The engine works on D5 in the given state, and holds the port unless it waits for it. -/
def busyWith (e : EngineState) (x : Desc) (f : Option InFlight) (begun : Bool := true) : State :=
  { holding 5 x with
    engine := { Engine.reset with state := e, active := some 5, spellBegun := begun, inFlight := f }
    master := if e = .waitPort then { MasterPort.reset with bus := .requesting, engineClaim := true }
      else { MasterPort.reset with bus := .granted, holder := some .engine } }

/-- The write of a unit to the start of W6. -/
def writeInFlight : InFlight :=
  { kind := .destinationWrite, side := .destination, window := 6, offset := .at 0, address := 0x100000, data := some 7 }

/-- The read of a unit of `copyPart` at offset 12. -/
def readInFlight : InFlight :=
  { kind := .sourceRead, side := .source, window := 3, offset := .at 12, address := 0x4000C, data := none }

/-- An invocation of G1 by P2, or by TL4. -/
def invocationOf (kind : GateKind) (invoker : Invoker) : Invocation :=
  { invoker, gate := 1, kind, target := 5, author := 1 }

/-- The part with one invocation on its way to D5. -/
def invoking (i : Invocation) (s : State) : State := { s with invocations := [i] }

/-! ### The manual's tables -/

/-- The table of section 2.7. -/
theorem test_unit_check_table :
    unitCheck board.windows 4 0 false (.at 0) 4 = .error .windowAbsent ∧
    unitCheck board.windows 3 2 false (.at 64) 4 = .error .windowLevel ∧
    unitCheck board.windows 3 1 false (.at 248) 8 = .ok 0x400F8 ∧
    unitCheck board.windows 3 0 true (.at 16) 4 = .error .windowAccess ∧
    unitCheck board.windows 3 1 false (.at 252) 8 = .error .windowLimit ∧
    unitCheck board.windows 3 1 false (.at 34) 4 = .error .alignment ∧
    unitCheck board.windows 3 1 false .belowZero 2 = .error .windowLimit ∧
    unitCheck board.windows 3 3 true (.at 300) 1 = .error .windowLevel :=
  ⟨rfl, rfl, rfl, rfl, rfl, rfl, rfl, rfl⟩

/-- The table of section 6.1: the word 0x80000012 under the mask and reference of `sampleGuard`. -/
theorem test_guard_table :
    (sampleGuard .equal).holds 0x80000012 = false ∧ (sampleGuard .notEqual).holds 0x80000012 = true ∧
    (sampleGuard .above).holds 0x80000012 = true ∧ (sampleGuard .notAbove).holds 0x80000012 = false ∧
    (sampleGuard .greater).holds 0x80000012 = false ∧ (sampleGuard .notGreater).holds 0x80000012 = true := by decide

theorem test_premises_GuardConditions : (sampleGuard .above).condition = .above ∧
    (sampleGuard .notGreater).condition = .notGreater ∧ (sampleGuard .equal).mask.getLsbD 31 = true ∧
    ({ sampleGuard .greater with mask := 0x7FFFFFFF } : Guard).mask.getLsbD 31 = false := by decide

/-- The progress after n units of `copyPart` (the second table of section 2.7). -/
def progressAfter (n : Nat) : Progress := Nat.rec (Progress.initial copyPart) (fun _ pr => pr.afterUnit copyPart) n

theorem test_down_side_table :
    (progressAfter 1).src = .at 8 ∧ (progressAfter 1).unitsInBlock = 1 ∧ (progressAfter 2).blocksRem = 2 ∧
    (progressAfter 3).src = .at 0 ∧ (progressAfter 4).src = .belowZero ∧ (progressAfter 4).unitsMoved = 4 ∧
    (progressAfter 4).blocksRem = 1 ∧ (progressAfter 4).dst = .at 16 := by decide

/-! ### Steps, reset and port windows -/

/-- A sweep expiry due and one not yet due; a wait timer at its limit and one below it. -/
def timed (interval timer : Nat) (c : Channel) : State :=
  { board with sweep := { Sweep.reset with interval, timer }, channels := board.channels.put 2 c }

def waiting (timer : Nat) : Channel := { state := .asking 1 .two, timer }

theorem test_premises_EmptyQueueStepIsTimeBase :
    board.pending = [] ∧ ({ board with resetHeld := true } : State).resetHeld = true ∧
    (timed 1 1 (waiting 0)).sweep.interval ≤ (timed 1 1 (waiting 0)).sweep.timer ∧
    (timed 2 1 (waiting 1)).sweep.timer < (timed 2 1 (waiting 1)).sweep.interval ∧
    (∃ l ∈ ((timed 2 1 (waiting 1)).channels.get 2).state.limit?, l ≤ ((timed 2 1 (waiting 1)).channels.get 2).timer) ∧
    (∀ e : ChannelIx, e < 2 → ((timed 2 1 (waiting 1)).channels.get e).state.limit? = none) ∧
    (∀ c : ChannelIx, ∀ l ∈ ((timed 0 0 (waiting 0)).channels.get c).state.limit?,
      ((timed 0 0 (waiting 0)).channels.get c).timer < l) := by decide

theorem test_time_base_counts : (timed 2 1 (waiting 0)).timeBase.sweep.timer = 2 ∧
    ((timed 2 1 (waiting 0)).timeBase.channels.get 2).timer = 1 ∧
    ((timed 2 1 (waiting 0)).timeBase.channels.get 3).timer = 0 := by decide +kernel

theorem test_premises_ResetPinStopsAndResets :
    ({ board with resetHeld := true } : State).resetHeld = true ∧ Instr.selection ≠ .resetPin ∧
    (∀ l w, Instr.selection ≠ .resetRelease l w) ∧ board.resetHeld = false :=
  ⟨rfl, by decide, fun _ _ h => by simp at h, rfl⟩

theorem test_premises_PortWindowAccesses : board.resetHeld = false ∧ (board.ports.get 1).held = none ∧
    ((port1 (pendingAt 0x30 false)).ports.get 1).held.isSome = true ∧
    (0x3FF : TargetOffset).val = 0x100 * (3 : PortIx).val + 0xFF ∧
    (0x100 : TargetOffset).val = 0x100 * (1 : PortIx).val + 0 := by decide

/-- The first and the last byte of each part of a port window, in all four windows. -/
theorem test_target_write :
    Instr.ofTargetWrite 0x000 15 5 = .argumentWordWrite 0 0 15 5 ∧
    Instr.ofTargetWrite 0x13F 1 5 = .argumentWordWrite 1 15 1 5 ∧
    Instr.ofTargetWrite 0x240 15 5 = .commandWrite 2 5 ∧
    Instr.ofTargetWrite 0x143 7 5 = .registerWriteIgnored 1 (.narrowCommand 7) 5 ∧
    Instr.ofTargetWrite 0x044 15 5 = .registerWriteIgnored 0 .resultCode 5 ∧
    Instr.ofTargetWrite 0x34B 15 5 = .registerWriteIgnored 3 .portStatus 5 ∧
    Instr.ofTargetWrite 0x04C 15 5 = .registerWriteIgnored 0 (.unassigned 0x4C) 5 ∧
    Instr.ofTargetWrite 0x17F 15 5 = .registerWriteIgnored 1 (.unassigned 0x7C) 5 ∧
    Instr.ofTargetWrite 0x080 15 5 = .registerWriteIgnored 0 (.resultWord 0) 5 ∧
    Instr.ofTargetWrite 0x2BF 15 5 = .registerWriteIgnored 2 (.resultWord 15) 5 ∧
    Instr.ofTargetWrite 0x0C0 15 5 = .registerWriteIgnored 0 (.unassigned 0xC0) 5 ∧
    Instr.ofTargetWrite 0x3FF 15 5 = .registerWriteIgnored 3 (.unassigned 0xFC) 5 := by decide

theorem test_target_read :
    board.readTarget 0x048 = 0 ∧ board.readTarget 0x148 = 0x30 ∧ board.readTarget 0x344 = 2 ∧
    (port1 (pendingAt 0x31 true [7])).readTarget 0x100 = 7 ∧ (port1 (pendingAt 0x31 true)).readTarget 0x143 = 0x31 ∧
    (port1 { PortRec.reset 3 with lastAdmitted := 0x40 }).readTarget 0x140 = 0x40 ∧
    (port1 { pendingAt 0x31 true with writeRefused := true }).readTarget 0x148 = 0x33 ∧
    (port1 { PortRec.reset 3 with results := image [8, 9] }).readTarget 0x184 = 9 ∧
    (port1 (pendingAt 0x31 true [7])).readTarget 0x14C = 0 ∧ (port1 (pendingAt 0x31 true [7])).readTarget 0x1FF = 0 := by
  decide

theorem test_argument_bytes :
    (((after (.argumentWordWrite 1 15 9 0xAABBCCDD) (port1 { PortRec.reset 3 with args := Tab.fill 16 0x11223344 })).ports.get
      1).args.get 15) = 0xAA2233DD ∧
    (after (.registerWriteIgnored 1 .portStatus 5) board).ports = board.ports := by decide

theorem test_premises_CommandWriteTaken :
    ((port1 (pendingAt 0x30 true)).ports.get 1).held.isSome = true ∧
    ((port1 { PortRec.reset 3 with state := .closing }).ports.get 1).held = none ∧
    ((port1 { PortRec.reset 3 with state := .closing }).ports.get 1).state = .closing ∧
    (board.ports.get 1).held = none ∧ (board.ports.get 1).state = .opened := by decide

theorem test_command_write : ((after (.commandWrite 1 0x31) board).ports.get 1).held =
    some { code := 0x31, id := 1, args := Tab.fill 16 0, admitted := false } := by decide

/-- What admission decides on: an unknown code, LEVEL for a level-0 command and for a WITHDRAW of another port, RANGE at
port 4, CLEAR_STATUS at level 0, and a command of any level. -/
theorem test_premises_AdmissionDecides :
    ((port1 (pendingAt 0x06 false)).ports.get 1).state = .opened ∧ Command.ofCode 0x06 = none ∧
    Command.ofCode 0x101 = none ∧
    Command.ofCode 0x18 = some .setWindow ∧ ((port1 (pendingAt 0x18 false)).ports.get 1).level ≠ 0 ∧
    Command.ofCode 0x40 = some .withdraw ∧ 3 < ((image [4]).get 0 : Word).toNat ∧
    ((image [3]).get 0 : Word).toNat ≤ 3 ∧ ((image [3]).get 0 : Word).toNat ≠ (1 : PortIx).val ∧
    ((image [1]).get 0 : Word).toNat = (1 : PortIx).val ∧
    Command.ofCode 0x32 = some .clearStatus ∧ (board.ports.get 0).level = 0 ∧
    (∀ c ∈ Command.all, (0x41 : Word).toNat ≠ c.code) ∧ Command.ofCode 0x41 = none ∧
    Command.ofCode 0x01 = some .load := by decide

theorem test_admission :
    ((after (.admission 1) (port1 (pendingAt 0x06 false))).ports.get 1).lastResult = .unknown ∧
    ((after (.admission 1) (port1 (pendingAt 0x18 false))).ports.get 1).lastResult = .level ∧
    ((after (.admission 1) (port1 (pendingAt 0x40 false [4]))).ports.get 1).lastResult = .range ∧
    ((after (.admission 1) (port1 (pendingAt 0x40 false [3]))).ports.get 1).lastResult = .level ∧
    (after (.admission 1) (port1 (pendingAt 0x40 false [1]))).handed = [given .withdraw [1] 3 1] ∧
    (after (.clearStatus 1) (port1 { (pendingAt 0x32 false) with level := 0 } { board with faultDropped := true })).lateClears =
      [{ port := 1, id := 1, droppedNoted := true }] := by decide

/-- A verdict for P1's command. -/
def verdictFor (id : Word) : Verdict := { port := 1, id, code := .ok, words := image [7] }

theorem test_premises_VerdictPosted :
    [verdictFor 1].find? (fun v => v.port == 1 && v.id == 1) = some (verdictFor 1) ∧
    (∃ h ∈ ((port1 (pendingAt 0x30 true)).ports.get 1).held, h.id = 1) ∧
    (∀ h ∈ (board.ports.get 1).held, h.id ≠ 1) ∧
    (∀ h ∈ ((port1 (pendingAt 0x30 true)).ports.get 1).held, h.id ≠ 2) := by decide

theorem test_verdict_post :
    ((after (.verdictPost 1 1) (port1 (pendingAt 0x30 true) { board with verdicts := [verdictFor 1] })).ports.get
      1).results.get 0 = 7 ∧
    (after (.verdictPost 1 2) (port1 (pendingAt 0x30 true) { board with verdicts := [verdictFor 2] })).ports.get 1 =
      pendingAt 0x30 true := by decide

theorem test_premises_SetPortLevelWritesLevel :
    (send (given .setPortLevel [3, 3]) board).Waits .setPortLevel 0 1 (given .setPortLevel [3, 3]) ∧
    (((given .setPortLevel [0, 3]).args.get 0).toNat = 0 ∧ 3 < ((given .setPortLevel [4, 3]).args.get 0).toNat) ∧
    ((given .setPortLevel [3, 3]).args.get 0).toNat = (3 : Fin 4).val ∧
    3 < ((given .setPortLevel [1, 4]).args.get 1).toNat ∧
    ((given .setPortLevel [3, 3]).args.get 1).toNat = (3 : Fin 4).val ∧ (board.ports.get 3).state = .opened ∧
    ((port1 { PortRec.reset 3 with state := .closing }).ports.get 1).state = .closing :=
  ⟨send_waits _ _ rfl, by decide⟩

theorem test_set_port_level :
    ((after (.setPortLevel 0 1) (send (given .setPortLevel [1, 2]) board)).ports.get 1).level = 2 ∧
    (after (.setPortLevel 0 1) (send (given .setPortLevel [0, 2]) board)).verdicts =
      [{ port := 0, id := 1, code := .range, words := noWords }] := by decide

theorem test_premises_PartStatusReportedAndCleared :
    (send (given .readStatus []) board).Waits .readStatus 0 1 (given .readStatus []) ∧
    [({ port := 1, id := 1, droppedNoted := true } : LateClear)].find? (fun c => c.port == 1 && c.id == 1) =
      some { port := 1, id := 1, droppedNoted := true } :=
  ⟨send_waits _ _ rfl, by decide⟩

theorem test_status : (after (.readStatus 0 1) (send (given .readStatus []) board)).verdicts =
      [{ port := 0, id := 1, code := .ok, words := image [0, 0, 0x03030300] }] ∧
    (after (.sweepLateClear 1 1) { board with
      lateClears := [{ port := 1, id := 1, droppedNoted := true }], sweep := { Sweep.reset with late := true } }).verdicts =
      [{ port := 1, id := 1, code := .ok, words := image [0x300] }] := by decide

/-! ### Descriptors -/

/-- The last index and the one past it; the level of the command and one below; the owner, P0, and another port. -/
theorem test_premises_LoadWritesDescriptor :
    (send (given .load (copyWords 127 1)) board).Waits .load 0 1 (given .load (copyWords 127 1)) ∧
    argIndex (image (copyWords 127 1)) = (127 : DescIx).val ∧ 127 < argIndex (image (copyWords 128 1)) ∧
    board.descs.get 127 = none ∧
    (∀ c ∈ (board.ports.get 1).held, c.id ≠ 1) ∧ (∃ c ∈ ((port1 (pendingAt 1 true)).ports.get 1).held, c.id = 1) ∧
    argLoadLevel (image (copyWords 127 1)) < (2 : Level).val ∧ (1 : Level).val ≤ argLoadLevel (image (copyWords 127 1)) ∧
    parseStatic (image (copyWords 127 4)) = none ∧ parseStatic (image (copyWords 127 1)) = some copyPart ∧
    (holding 5 (record .armed)).descs.get 5 = some (record .armed) ∧
    (record .loaded).owner = 1 ∧ (record .armed).state ≠ .loaded ∧ (record .armed).state ≠ .retired ∧
    argLoadLevel (image (copyWords 5 2)) < ((port1 (PortRec.reset 3)).ports.get 1).level.val ∧
    ((port1 (PortRec.reset 1)).ports.get 1).level.val ≤ argLoadLevel (image (copyWords 5 1)) :=
  ⟨send_waits _ _ rfl, by decide⟩

/-- A RECEIVE with every part and every field at the top of its range. -/
def widestWords : PortWords :=
  image [0x0822737F, 0xF7000000, 0x00177FFF, 0x030F0000, 0, 0xFFFFFFF8, 0, 0, 0x50F, 0xFFFFFFFC, 0xFFFFFFFF, 0x80000000]

theorem test_load_arguments : parseStatic widestWords = some
    { level := 3, priority := 7
      movement := .receive { window := 15, start := 0xFFFFFFF8, stepping := .upWrap } { channel := 7, endPulse := true }
      unitSize := .eight, mode := .run, blockLen := 256, blockCount := 65536, reload := true, notice := true
      initialLease := 255, successor := some 127
      guard := some { window := 15, offset := 0xFFFFFFFC, mask := 0xFFFFFFFF, reference := 0x80000000,
                      condition := .notGreater } } := by decide

/-- Each value that R15 lists as MALFORMED, one past its range. -/
theorem test_malformed_arguments :
    ([(0, 0x0822837F), (0, 0x0832737F), (0, 0x0824737F), (0, 0x0822747F), (0, 0x0322737F), (1, 0xF7010000),
      (1, 0xF6000000), (1, 0xFF000000), (1, 0xE7000000), (2, 0x00187FFF), (2, 0x001780FF), (3, 0x03100000),
      (3, 0x040F0000), (8, 0x510), (8, 0x60F), (9, 0xFFFFFFFE)] : List (Fin 16 × Word)).all
        (fun e => parseStatic (widestWords.put e.1 e.2) = none) = true := by decide

theorem test_load :
    (after (.load 1 1) (send (given .load (copyWords 127 1) 1 1) (port1 (pendingAt 1 true)))).descs.get 127 =
      some (record .loaded) ∧
    (after (.load 1 1) (send (given .load (copyWords 127 0) 1 1) (port1 (pendingAt 1 true)))).verdicts =
      [{ port := 1, id := 1, code := .level, words := noWords }] ∧
    (after (.load 1 1) (send (given .load (copyWords 5 1) 1 1) board)).verdicts =
      [{ port := 1, id := 1, code := .closing, words := noWords }] := by decide

theorem test_premises_ReadDescriptorReports :
    (send (given .readDescriptor [0x105]) board).Waits .readDescriptor 0 1 (given .readDescriptor [0x105]) ∧
    127 < argIndex (image [0x80]) ∧ argIndex (image [0x7F]) = (127 : DescIx).val ∧
    1 < field ((image [0x205]).get 0) 8 4 ∧ field ((image [0x105]).get 0) 8 4 = 1 ∧
    field ((image [0x005]).get 0) 8 4 = 0 ∧ board.descs.get 127 = none ∧
    (holding 5 (record .loaded)).descs.get 5 = some (record .loaded) ∧ (record .loaded).owner ≠ 2 :=
  ⟨send_waits _ _ rfl, by decide⟩

/-- D5 retired on its source side, below zero. -/
def failedDown : Desc := (record .active).retire .windowLimit (some (.source, .belowZero))

theorem test_images_of_bounded_records : (record .loaded).st.Ok ∧ (record .armed).Ok ∧ failedDown.Ok ∧
    progressImage { failedDown with pr := { failedDown.pr with src := .belowZero } } =
      image [0x116, 0, 0, 7, 3, 0, 0, 0x180123, 0] := by
  unfold Desc.Ok StaticPart.Ok Desc.Conserves Desc.BlocksOk Desc.CountsOk Desc.MarksFit
  exact ⟨by decide, by decide, by decide, by decide⟩

theorem test_read_descriptor :
    (after (.readDescriptor 0 1) (send (given .readDescriptor [0x005]) (holding 5 (record .loaded)))).verdicts =
      [{ port := 0, id := 1, code := .ok, words := image ([0x111] ++ copyWords 5 1 ++ [0, 0, 0, 0, 0, 0, 3]) }] ∧
    (after (.readDescriptor 0 1) (send (given .readDescriptor [0x105]) (holding 5 (record .armed)))).verdicts =
      [{ port := 0, id := 1, code := .ok, words := image [0x112, 12, 0, 5, 3] }] := by decide

/-- A side that fails, one that passes at its window's end, and a guard that fails and passes. -/
theorem test_premises_ArmStartsDescriptor :
    (send (given .arm [5]) board).Waits .arm 0 1 (given .arm [5]) ∧
    127 < argIndex (image [0x80]) ∧ argIndex (image [5]) = (5 : DescIx).val ∧ board.descs.get 5 = none ∧
    (holding 5 (record .retired)).descs.get 5 = some (record .retired) ∧ (record .retired).owner ≠ 2 ∧
    unitCheck State.reset.windows 3 1 false (.at 12) 4 = .error .windowAbsent ∧
    unitCheck board.windows 3 1 false (.at 12) 4 = .ok 0x4000C ∧
    unitCheck board.windows 3 1 true (.at 0) 4 = .error .windowAccess ∧
    unitCheck board.windows 6 1 true (.at 1020) 4 = .ok 0x1003FC ∧
    unitCheck board.windows 6 1 false (.at 1021) 4 = .error .windowLimit :=
  ⟨send_waits _ _ rfl, by decide, by decide, by decide, by decide, by decide, rfl, rfl, rfl, rfl, rfl⟩

theorem test_arm :
    (after (.arm 1 1) (send (given .arm [5] 1 1) (holding 5 (record .loaded)))).descs.get 5 = some (record .armed) ∧
    (after (.arm 1 1) (send (given .arm [5] 1 1) (holding 5 (record .loaded) State.reset))).verdicts =
      [{ port := 1, id := 1, code := .windowAbsent, words := image [0, 12] }] := by decide

theorem test_premises_DisarmAndRelease :
    (send (given .disarm [5]) board).Waits .disarm 0 1 (given .disarm [5]) ∧
    (send (given .release [5]) board).Waits .release 0 1 (given .release [5]) ∧
    127 < argIndex (image [0x80]) ∧ argIndex (image [0x7F]) = (127 : DescIx).val ∧ board.descs.get 127 = none ∧
    (holding 5 (record .queued)).descs.get 5 = some (record .queued) ∧ (record .queued).owner ≠ 2 :=
  ⟨send_waits _ _ rfl, send_waits _ _ rfl, by decide⟩

theorem test_disarm :
    (after (.disarm 1 1) (send (given .disarm [5] 1 1)
      { holding 5 (record .queued) with ready := board.ready.put 3 [4, 5] })).ready.get 3 = [4] ∧
    (after (.disarm 1 1) (send (given .disarm [5] 1 1) (holding 5 (record .active)))).verdicts =
      [{ port := 1, id := 1, code := .inUse, words := image [5] }] := by decide

theorem test_release :
    (after (.release 1 1) (send (given .release [5] 1 1) (holding 5 (record .retired)))).descs.get 5 = none ∧
    (after (.release 2 1) (send (given .release [5] 2 2) (holding 5 (record .retired)))).verdicts =
      [{ port := 2, id := 1, code := .owner, words := noWords }] := by decide

theorem test_premises_RetirementAndRetiredSet :
    ({ copyPart with notice := false } : StaticPart).notice = false ∧ copyPart.notice = true := by decide

/-- UP_WRAP at a block end and inside a block, DOWN at 4 and at 3, below zero, and an absent side. -/
theorem test_premises_CompletedUnitProgress :
    (progressAfter 1).unitsInBlock + 1 = copyPart.blockLen ∧ (progressAfter 0).unitsInBlock + 1 ≠ copyPart.blockLen ∧
    (Offset.at 4).step .down .four = .at 0 ∧ (Offset.at 3).step .down .four = .belowZero ∧
    stepSide (some { window := 6, start := 8, stepping := .upWrap }) .four true .belowZero = .at 8 ∧
    stepSide none .four true (.at 0) = .at 0 := by decide

/-! ### Windows -/

theorem test_premises_UnitCheckTests :
    board.windows.get 4 = none ∧ board.windows.get 3 = some readWindow ∧ readWindow.level < 2 ∧ (1 : Level) ≤ readWindow.level ∧
    readWindow.access = .read ∧ writeWindow.access = .readWrite ∧ readWindow.size < (249 : Word).toNat + 8 ∧
    (248 : Word).toNat + 8 ≤ readWindow.size ∧ ¬ UnitSize.eight.bytes ∣ (244 : Word).toNat ∧
    UnitSize.eight.bytes ∣ (248 : Word).toNat := by decide

/-- The whole address space as a window: base 0, size 2^32, level 3, READ_WRITE. -/
theorem test_premises_SetWindowWritesWindow :
    (send (given .setWindow [0x130F, 0, 0, 1]) board).Waits .setWindow 0 1 (given .setWindow [0x130F, 0, 0, 1]) ∧
    15 < argIndex (image [0x10]) ∧ argIndex (image [0x130F]) = (15 : WindowIx).val ∧
    (busyWith .move (record .active) (some readInFlight)).engine.active = some 5 ∧ copyPart.names 3 = true ∧
    copyPart.names 5 = false ∧
    parseWindow (image [0x130F, 0, 0, 1]) = some { base := 0, size := 2 ^ 32, level := 3, access := .readWrite } ∧
    parseWindow (image [0x130F, 8, 0, 1]) = none ∧ parseWindow (image [0x1400, 0, 8, 0]) = none ∧
    parseWindow (image [0x2300, 0, 8, 0]) = none ∧ parseWindow (image [0x1300, 4, 8, 0]) = none ∧
    parseWindow (image [0x1300, 0, 0, 0]) = none ∧ parseWindow (image [0x1300, 0, 12, 0]) = none :=
  ⟨send_waits _ _ rfl, by decide⟩

theorem test_set_window :
    (after (.setWindow 0 1) (send (given .setWindow [0x103, 0x80000, 64]) board)).windows.get 3 =
      some { base := 0x80000, size := 64, level := 1, access := .read } ∧
    (after (.setWindow 0 1) (send (given .setWindow [0x103, 0x80000, 64])
      (busyWith .move (record .active) (some readInFlight)))).verdicts =
      [{ port := 0, id := 1, code := .inUse, words := image [5] }] := by decide

theorem test_premises_ClearWindowMakesAbsent :
    (send (given .clearWindow [15]) board).Waits .clearWindow 0 1 (given .clearWindow [15]) ∧
    15 < argIndex (image [0x10]) ∧ argIndex (image [15]) = (15 : WindowIx).val ∧
    (busyWith .move (record .active) (some readInFlight)).descs.get 5 = some (record .active) ∧
    copyPart.names 6 = true ∧ copyPart.names 15 = false :=
  ⟨send_waits _ _ rfl, by decide⟩

theorem test_clear_window :
    (after (.clearWindow 0 1) (send (given .clearWindow [3]) board)).windows.get 3 = none := by decide

theorem test_premises_ReadWindowReports :
    (send (given .readWindow [15] 3 2) board).Waits .readWindow 2 1 (given .readWindow [15] 3 2) ∧
    15 < argIndex (image [0x10]) ∧ argIndex (image [15]) = (15 : WindowIx).val ∧ board.windows.get 15 = none ∧
    board.windows.get 3 = some readWindow ∧ readWindow.size ≤ 2 ^ 32 :=
  ⟨send_waits _ _ rfl, by decide⟩

theorem test_read_window :
    (after (.readWindow 2 1) (send (given .readWindow [6] 3 2) board)).verdicts =
      [{ port := 2, id := 1, code := .ok, words := image [0x1301, 0x100000, 1024, 0] }] := by decide

/-! ### Gates, invocations and routes -/

/-- The part with G1 written by a level-1 port: TRIGGER on D5, reach 2. -/
def gated (s : State := board) : State :=
  { s with gates := s.gates.put 1 (some { kind := .trigger, reach := 2, author := 1, target := 5 }) }

theorem test_premises_SetAndClearGate :
    (send (given .setGate [0x7F323F]) board).Waits .setGate 0 1 (given .setGate [0x7F323F]) ∧
    (send (given .clearGate [63]) board).Waits .clearGate 0 1 (given .clearGate [63]) ∧
    63 < argIndex (image [0x40]) ∧ argIndex (image [0x100]) = 0 ∧ argIndex (image [0x7F323F]) = (63 : GateIx).val ∧
    (∃ old ∈ gated.gates.get 1, old.author < 2) ∧ (∀ old ∈ gated.gates.get 1, (1 : Level) ≤ old.author) ∧
    (∀ old ∈ board.gates.get 63, (3 : Level) ≤ old.author) ∧
    2 < field ((image [0x301]).get 0) 8 4 ∧ 3 < field ((image [0x4001]).get 0) 12 4 ∧
    127 < field ((image [0x800001]).get 0) 16 8 ∧
    GateKind.cancel.number = field ((image [0x7F323F]).get 0) 8 4 ∧
    (3 : Level).val = field ((image [0x7F323F]).get 0) 12 4 ∧ (127 : DescIx).val = field ((image [0x7F323F]).get 0) 16 8 :=
  ⟨send_waits _ _ rfl, send_waits _ _ rfl, by decide⟩

theorem test_set_gate :
    (after (.setGate 1 1) (send (given .setGate [0x052001] 1 1) gated)).gates.get 1 =
      some { kind := .trigger, reach := 2, author := 1, target := 5 } ∧
    (after (.setGate 2 1) (send (given .setGate [0x052001] 2 2) gated)).verdicts =
      [{ port := 2, id := 1, code := .level, words := noWords }] ∧
    (after (.clearGate 1 1) (send (given .clearGate [1] 1 1) gated)).gates.get 1 = none := by decide

theorem test_premises_ReadGateReports :
    (send (given .readGate [63]) board).Waits .readGate 0 1 (given .readGate [63]) ∧ 63 < argIndex (image [0x40]) ∧
    argIndex (image [63]) = (63 : GateIx).val ∧ board.gates.get 63 = none ∧
    gated.gates.get 1 = some { kind := .trigger, reach := 2, author := 1, target := 5 } :=
  ⟨send_waits _ _ rfl, by decide⟩

theorem test_read_gate : (after (.readGate 3 1) (send (given .readGate [1] 3 3) gated)).verdicts =
    [{ port := 3, id := 1, code := .ok, words := image [0x05012001] }] := by decide

/-- A line invocation of G1 at a level. -/
def lineCalls (level : Level) (s : State) : State := { s with lineInvs := [{ line := 4, gate := 1, level }] }

theorem test_premises_GateTableTakesInvocation :
    (send (given .invoke [1]) gated).Waits .invoke 0 1 (given .invoke [1]) ∧ argIndex (image [0]) = 0 ∧
    gated.gates.get 0 = none ∧ 63 < argIndex (image [70]) ∧ argIndex (image [1]) = (1 : GateIx).val ∧
    board.gates.get 1 = none ∧ gated.gates.get 1 = some { kind := .trigger, reach := 2, author := 1, target := 5 } ∧
    (2 : Level) < 3 ∧ (2 : Level) ≤ 2 ∧ (lineCalls 3 gated).lineInvs[0]? = some { line := 4, gate := 1, level := 3 } :=
  ⟨send_waits _ _ rfl, by decide⟩

theorem test_invoke :
    (after (.invoke 2 1) (send (given .invoke [1] 2 2) gated)).invocations = [invocationOf .trigger (.port 2 1)] ∧
    (after (.invoke 3 1) (send (given .invoke [1] 3 3) gated)).verdicts =
      [{ port := 3, id := 1, code := .gateLevel, words := image [0x105] }] ∧
    (after (.lineInvocation 0) (lineCalls 2 gated)).invocations = [invocationOf .trigger (.line 4)] ∧
    (after (.lineInvocation 0) (lineCalls 2 board)).reports =
      [(0, { code := .gateAbsent, descriptor := none, gate := some 1, line := some 4, window := none,
             detail := none })] := by decide

theorem test_premises_TargetRefusesInvocation :
    (invoking (invocationOf .renew (.port 2 1)) board).invocations[0]? = some (invocationOf .renew (.port 2 1)) ∧
    board.descs.get 5 = none ∧ (holding 5 (record .loaded)).descs.get 5 = some (record .loaded) ∧
    ({ copyPart with level := 0 } : StaticPart).level < (invocationOf .renew (.line 4)).author ∧
    (invocationOf .renew (.line 4)).author ≤ (record .loaded).st.level := by decide

theorem test_target_refuses :
    (after (.invocationAtTarget 0) (invoking (invocationOf .renew (.line 4)) board)).reports =
      [(0, { code := .targetAbsent, descriptor := some 5, gate := some 1, line := some 4, window := none,
             detail := none })] ∧
    (after (.invocationAtTarget 0)
      (invoking (invocationOf .renew (.port 2 1)) (holding 5 (record .loaded)))).verdicts =
      [{ port := 2, id := 1, code := .targetNotArmed, words := image [0x105] }] := by decide

theorem test_premises_VerbActsOnTarget :
    (invoking (invocationOf .cancel (.port 2 1)) (holding 5 (record .armed))).invocations[0]? =
      some (invocationOf .cancel (.port 2 1)) ∧
    (holding 5 (record .armed)).descs.get 5 = some (record .armed) ∧
    (invocationOf .cancel (.line 4)).author ≤ (record .armed).st.level ∧ (record .armed).state ≠ .loaded ∧
    (record .armed).state ≠ .retired ∧ (record .armed).pr.stop = .none ∧ board.engine.state ≠ .waitPort ∧
    (busyWith .waitPort (record .active) none).engine.active ≠ some 4 ∧
    (busyWith .move (record .active) (some readInFlight)).engine.state ≠ .waitPort ∧
    (invocationOf .trigger (.line 4)).kind = .trigger ∧ (invocationOf .renew (.line 4)).kind = .renew := by decide

theorem test_verbs :
    (after (.invocationAtTarget 0)
      (invoking (invocationOf .trigger (.port 2 1)) (holding 5 (record .armed)))).ready.get 3 = [5] ∧
    (after (.invocationAtTarget 0)
      (invoking (invocationOf .trigger (.port 2 1)) (holding 5 (record .armed)))).verdicts =
      [{ port := 2, id := 1, code := .ok, words := image [0x105, 0x10103] }] ∧
    ((after (.invocationAtTarget 0) (invoking (invocationOf .renew (.line 4))
      (holding 5 (record .armed { copyPart with initialLease := 10 })))).descs.get 5).map (fun x => x.pr.lease) =
      some 10 := by decide

theorem test_premises_StopRequestsRecordedAndTaken :
    (invoking (invocationOf .cancel (.port 2 1)) (busyWith .waitPort (record .active) none)).invocations[0]? =
      some (invocationOf .cancel (.port 2 1)) ∧
    (busyWith .waitPort (record .active) none).Works .waitPort 5 (record .active) ∧ (record .active).pr.stop = .none ∧
    (invocationOf .cancel (.port 2 1)).author ≤ (record .active).st.level :=
  ⟨rfl, ⟨rfl, rfl, rfl, by decide⟩, rfl, by decide⟩

/-- The bound on pending at its top. -/
theorem test_premises_VerbActsOnTarget_image :
    (holding 5 { record .armed with pr := { (record .armed).pr with pending := 2 } }).descs.get 5 =
      some { record .armed with pr := { (record .armed).pr with pending := 2 } } ∧
    ({ record .armed with pr := { (record .armed).pr with pending := 2 } } : Desc).pr.pending ≤ 2 ∧
    (holding 5 { record .armed with pr := { (record .armed).pr with pending := 2 } }).verbImage 5 =
      image [0x105, 0x10202] ∧ (record .active).pr.pending ≤ 2 := by decide

theorem test_cancel_waiting_for_the_port :
    (after (.invocationAtTarget 0) (invoking (invocationOf .cancel (.port 2 1))
      (busyWith .waitPort (record .active) none))).verdicts =
      [{ port := 2, id := 1, code := .ok, words := image [0x105, 0x10004] }] ∧
    ((after (.invocationAtTarget 0) (invoking (invocationOf .cancel (.port 2 1))
      (busyWith .waitPort (record .active) none))).descs.get 5).map (fun x => x.state) = some .retired ∧
    (after (.invocationAtTarget 0) (invoking (invocationOf .cancel (.port 2 1))
      (busyWith .waitPort (record .active) none))).engine = Engine.reset := by decide

/-- TL31 to G63 at line level 3, the top of each range. -/
theorem test_premises_SetRouteWritesRoute :
    (send (given .setRoute [0x033F011F]) board).Waits .setRoute 0 1 (given .setRoute [0x033F011F]) ∧
    31 < argIndex (image [0x20]) ∧ argIndex (image [0x033F011F]) = (31 : LineIx).val ∧
    3 < field ((image [0x04000000]).get 0) 24 4 ∧ bit ((image [0x00000100]).get 0) 8 = true ∧
    field ((image [0x00000100]).get 0) 16 8 = 0 ∧ 63 < field ((image [0x00400100]).get 0) 16 8 ∧
    bit ((image [0x033F001F]).get 0) 8 = false ∧ (63 : GateIx).val = field ((image [0x033F011F]).get 0) 16 8 ∧
    (3 : Level).val = field ((image [0x033F011F]).get 0) 24 4 :=
  ⟨send_waits _ _ rfl, by decide⟩

theorem test_routes :
    (after (.setRoute 0 1) (send (given .setRoute [0x02010104]) board)).routes.get 4 = { gate := some 1, level := 2 } ∧
    (after (.readRoute 3 1) (send (given .readRoute [4] 3 3)
      { board with routes := board.routes.put 4 { gate := some 1, level := 2 } })).verdicts =
      [{ port := 3, id := 1, code := .ok, words := image [0x02010104] }] := by decide

theorem test_premises_ReadRouteReports :
    (send (given .readRoute [31]) board).Waits .readRoute 0 1 (given .readRoute [31]) ∧ 31 < argIndex (image [0x20]) ∧
    argIndex (image [31]) = (31 : LineIx).val :=
  ⟨send_waits _ _ rfl, by decide⟩

/-- TL4 routed to G1 at level 2. -/
def routed : State := { board with routes := board.routes.put 4 { gate := some 1, level := 2 } }

theorem test_premises_TriggerLineInvokes :
    routed.resetHeld = false ∧ ({ routed with lineSeen := routed.lineSeen.put 4 true } : State).lineSeen.get 4 = true ∧
    routed.lineSeen.get 4 = false ∧ (routed.routes.get 5).gate = none ∧ (routed.routes.get 4).gate = some 1 := by decide

theorem test_trigger_line :
    (after (.triggerLineEvent 4) routed).lineInvs = [{ line := 4, gate := 1, level := 2 }] ∧
    (after (.triggerLineEvent 4) (after (.triggerLineEvent 4) routed)).lineInvs.length = 1 ∧
    (after (.triggerLineRelease 4) (after (.triggerLineEvent 4) routed)).lineSeen.get 4 = false := by decide

/-- A chain from D9, of level 1 and P2's, to D5. -/
def chaining (s : State) : State := { s with chains := [{ successor := 5, completed := 9, level := 1, owner := 2 }] }

theorem test_premises_ChainAppliesTrigger :
    (record .armed).pr.pending ≤ 1 ∧ ({ (record .active).pr with pending := 2 } : Progress).pending = 2 ∧
    (chaining board).chains[0]? = some { successor := 5, completed := 9, level := 1, owner := 2 } ∧
    (chaining board).descs.get 5 = none ∧ (holding 5 (record .loaded)).descs.get 5 = some (record .loaded) ∧
    ({ copyPart with level := 0 } : StaticPart).level < (1 : Level) ∧ (1 : Level) ≤ copyPart.level := by decide

theorem test_chain :
    (after (.chain 0) (chaining (holding 5 (record .armed)))).ready.get 3 = [5] ∧
    (after (.chain 0) (chaining (holding 5 (record .retired)))).reports =
      [(2, { code := .chainRetired, descriptor := some 9, gate := none, line := none, window := none,
             detail := none })] := by decide

/-! ### The engine -/

/-- A pause has been asked for. -/
def pausing (s : State) : State := { s with engine := { s.engine with pauseReq := true } }

theorem test_premises_PauseAndResume :
    (send (given .pause []) (busyWith .waitPort (record .active) none)).Waits .pause 0 1 (given .pause []) ∧
    (send (given .resume []) board).Waits .resume 0 1 (given .resume []) ∧
    (send (given .pause []) (busyWith .waitPort (record .active) none)).Works .waitPort 5 (record .active) ∧
    ({ board with engine := { Engine.reset with state := .paused } } : State).engine.state = .paused ∧
    board.engine.state = .idle ∧ (busyWith .move (record .active) (some readInFlight)).engine.state = .move ∧
    (busyWith .move (record .active) (some readInFlight)).engine.pauseReq = false ∧
    (pausing (busyWith .move (record .active) (some readInFlight))).engine.pauseReq = true :=
  ⟨send_waits _ _ rfl, send_waits _ _ rfl, ⟨rfl, rfl, rfl, by decide⟩, rfl, rfl, rfl, rfl, rfl⟩

theorem test_pause :
    (after (.pause 0 1) (send (given .pause []) (busyWith .waitPort (record .active) none))).ready.get 3 = [5] ∧
    (after (.pause 0 1) (send (given .pause []) (busyWith .waitPort (record .active) none))).engine.state = .paused ∧
    (after (.pause 0 1) (send (given .pause []) (busyWith .move (record .active) (some readInFlight)))).verdicts =
      [{ port := 0, id := 1, code := .ok, words := image [0x14] }] := by decide

theorem test_resume :
    (after (.resume 0 1) (send (given .resume []) { board with engine := { Engine.reset with state := .paused } })).engine =
      Engine.reset ∧
    (after (.resume 0 1)
      (send (given .resume []) (pausing (busyWith .move (record .active) (some readInFlight))))).verdicts =
      [{ port := 0, id := 1, code := .ok, words := image [4] }] ∧
    (after (.resume 0 1) (send (given .resume []) board)).verdicts =
      [{ port := 0, id := 1, code := .state, words := noWords }] := by decide

/-- D5 with one trigger pending. -/
def triggered (state : DescState) (st : StaticPart := copyPart) : Desc :=
  { record state st with pr := { Progress.initial st with pending := 1 } }

/-- D5 QUEUED at priority 3, before D4. -/
def queued : State := { holding 5 (triggered .queued) with ready := board.ready.put 3 [5, 4] }

theorem test_premises_SelectionTakesHead :
    (busyWith .move (record .active) (some readInFlight)).engine.state ≠ .idle ∧ board.engine.state = .idle ∧
    (∀ k : Priority, board.ready.get k = []) ∧ queued.engine = Engine.reset ∧ queued.master.holder ≠ some .engine ∧
    queued.master.bus ≠ .granted ∧ queued.ready.get 3 = [5, 4] ∧ (∀ j : Priority, 3 < j → queued.ready.get j = []) ∧
    queued.descs.get 5 = some (triggered .queued) ∧ (triggered .queued).state = .queued ∧
    (triggered .queued).Ok := by
  refine ⟨by decide, by decide, by decide, by decide, by decide, by decide, by decide, by decide, by decide, by decide, ?_⟩
  unfold Desc.Ok StaticPart.Ok Desc.Conserves Desc.BlocksOk Desc.CountsOk Desc.MarksFit
  decide

theorem test_selection : (after .selection queued).engine =
    { Engine.reset with state := .waitPort, active := some 5, spellBegun := true } ∧
    (after .selection queued).ready.get 3 = [4] ∧ (after .selection queued).master.bus = .requesting := by decide

/-- The four kinds of movement over W3, W6 and channel 2. -/
def sendPart : StaticPart :=
  { copyPart with movement := .send { window := 3, start := 0, stepping := .up } { channel := 2, endPulse := true } }

def receivePart : StaticPart :=
  { copyPart with movement := .receive { window := 6, start := 0, stepping := .up } { channel := 2, endPulse := true } }

def fillPart : StaticPart :=
  { copyPart with movement := .fill { window := 6, start := 0, stepping := .up } 0x1122334455667788 }

theorem test_premises_UnitStarts :
    unitCheck board.windows 3 copyPart.level false (record .active).pr.src 4 = .ok 0x4000C ∧
    unitCheck board.windows 6 fillPart.level true (record .active fillPart).pr.dst 4 = .ok 0x100000 ∧
    sendPart.movement.source?.isSome = true ∧ receivePart.movement.destination?.isSome = true :=
  ⟨rfl, rfl, rfl, rfl⟩

theorem test_units_start :
    (board.startUnit 5 (record .active fillPart)).engine.inFlight =
      some { writeInFlight with data := some 0x55667788 } ∧
    ((board.startUnit 5 (record .active receivePart)).channels.get 2).state = .asking 1000 .four ∧
    (board.startUnit 5 (record .active)).engine.inFlight = some readInFlight ∧
    (board.startUnit 5 (record .active sendPart)).engine.state = .move := by decide

/-- The active D5 with a stop request. -/
def stopped (stop : StopRequest) (st : StaticPart := copyPart) : Desc :=
  { triggered .active st with pr := { (triggered .active st).pr with stop } }

theorem test_premises_UnitFails :
    (busyWith .move (record .active) (some readInFlight)).master.holder = some .engine ∧ (record .active).pr.stop = .none ∧
    (stopped .cancelled).pr.stop = .cancelled ∧ (stopped .leaseExpired).pr.stop = .leaseExpired ∧
    (stopped .withdrawn).pr.stop = .withdrawn ∧
    unitCheck State.reset.windows 3 copyPart.level false (record .active).pr.src 4 = .error .windowAbsent ∧
    unitCheck State.reset.windows 3 sendPart.level false (record .active sendPart).pr.src 4 = .error .windowAbsent ∧
    unitCheck State.reset.windows 6 receivePart.level true (record .active receivePart).pr.dst 4 = .error .windowAbsent ∧
    unitCheck board.windows 3 1 true (.at 0) 4 = .error .windowAccess :=
  ⟨rfl, rfl, rfl, rfl, rfl, rfl, rfl, rfl, rfl⟩

theorem test_first_checks_fail :
    ((State.reset.startUnit 5 (record .active sendPart)).fnu.get 1).record =
      some (failureReport 5 .windowAbsent 3 .source (.at 0)) ∧
    ((State.reset.startUnit 5 (record .active receivePart)).fnu.get 1).record =
      some (failureReport 5 .windowAbsent 6 .destination (.at 0)) := by decide

/-- The bus is asked for, with no visit or one visit deferred. -/
def asking (deferred : Nat) (s : State) : State :=
  { s with master := { s.master with bus := .requesting }, sweep := { Sweep.reset with deferred } }

def guardedPart : StaticPart := { copyPart with guard := some (sampleGuard .equal) }

theorem test_premises_BusGrantHandsOn :
    board.master.bus ≠ .requesting ∧ (asking 0 board).master.engineClaim = false ∧
    (busyWith .waitPort (record .active) none).Works .waitPort 5 (record .active) ∧
    (busyWith .waitPort (record .active) none).master.engineClaim = true ∧
    (busyWith .waitPort (triggered .active guardedPart) none false).engine.spellBegun = false ∧
    unitCheck board.windows 6 1 false (.at 0) 4 = .ok 0x100000 ∧
    unitCheck State.reset.windows 6 1 false (.at 0) 4 = .error .windowAbsent ∧
    (asking 1 board).sweep.deferred = 0 + 1 ∧ (asking 1 board).performVisit.sweep.read = none ∧
    (asking 1 (holding 0 (triggered .waiting guardedPart))).performVisit.sweep.read.isSome = true :=
  ⟨by decide, rfl, ⟨rfl, rfl, rfl, by decide⟩, rfl, rfl, rfl, rfl, rfl, by decide, by decide⟩

theorem test_bus_grant :
    (after .busGrant (busyWith .waitPort (record .active) none)).engine.inFlight = some readInFlight ∧
    (after .busGrant (busyWith .waitPort (triggered .active guardedPart) none false)).engine.state = .guard ∧
    (after .busGrant (asking 1 board)).master = MasterPort.reset ∧
    (after .busGrant (asking 1 (holding 0 (triggered .waiting guardedPart)))).master.holder = some .sweep := by decide

/-- Visits wait for the port, the first at D0, which waits for its guard or is EMPTY. -/
def visiting (deferred : Nat) (d0 : Option Desc) (s : State) : State :=
  { s with sweep := { Sweep.reset with deferred }, descs := s.descs.put 0 d0 }

/-- The engine waits for the port before its guard read of D5, and the port is free. -/
def waitingToRead (windows : Tab (Option Window) 16) : State :=
  { busyWith .waitPort (triggered .active guardedPart) none false with windows }

theorem test_premises_ReleaseRequestServed :
    (busyWith .move (record .active) (some readInFlight)).master.bus = .granted ∧
    (busyWith .move (record .active) (some readInFlight)).master.holder = some .engine ∧
    (busyWith .move (record .active) (some readInFlight)).AloneOnBus ∧
    board.master.bus ≠ .granted ∧ board.master.holder ≠ some .engine ∧
    (after .releaseRequest (busyWith .move (record .active) (some readInFlight))).master.releaseReq = true ∧
    (busyWith .move (record .active) (some readInFlight)).master.releaseReq = false ∧
    (busyWith .move (record .active) (some readInFlight)).master.engineClaim = false ∧
    (visiting 2 none board).sweep.deferred ≠ 0 ∧ (visiting 2 none board).visited.sweep.read = none ∧
    (visiting 1 (some (triggered .waiting guardedPart)) board).visited.sweep.read.isSome = true ∧
    (busyWith .waitPort (record .active) none).Works .waitPort 5 (record .active) ∧
    (waitingToRead board.windows).Works .waitPort 5 (triggered .active guardedPart) ∧
    (waitingToRead board.windows).master.engineClaim = true ∧ (waitingToRead board.windows).engine.spellBegun = false ∧
    (triggered .active guardedPart).pr.stop = .none ∧
    unitCheck board.windows 6 1 false (.at 0) 4 = .ok 0x100000 ∧
    unitCheck State.reset.windows 6 1 false (.at 0) 4 = .error .windowAbsent :=
  ⟨rfl, rfl, ⟨rfl, rfl⟩, by decide, by decide, by decide, rfl, rfl, by decide, by decide, by decide,
    ⟨rfl, rfl, rfl, by decide⟩, ⟨rfl, rfl, rfl, by decide⟩, rfl, rfl, rfl, rfl, rfl⟩

/-- The engine gives back a port for which visits wait: both are served, or the first leaves its read on the bus. -/
theorem test_give_back_serves_visits :
    (after .accessBusError (visiting 2 none (busyWith .move (record .active) (some readInFlight)))).sweep =
      { Sweep.reset with cursor := 2 } ∧
    (after .accessBusError (visiting 2 none (busyWith .move (record .active) (some readInFlight)))).master =
      MasterPort.reset ∧
    (after .accessBusError (visiting 2 (some (triggered .waiting guardedPart))
      (busyWith .move (record .active) (some readInFlight)))).master =
      { MasterPort.reset with bus := .granted, holder := some .sweep } ∧
    (after .accessBusError (visiting 2 none
      (after .releaseRequest (busyWith .move (record .active) (some readInFlight))))).master =
      { MasterPort.reset with bus := .requesting } := by decide

theorem test_port_handed_to_a_guard_read :
    (waitingToRead board.windows).handOn.engine.state = .guard ∧
    ((waitingToRead State.reset.windows).handOn.fnu.get 1).record =
      some (failureReport 5 .windowAbsent 6 .guard (.at 0)) ∧
    (waitingToRead State.reset.windows).handOn.master = MasterPort.reset := by decide

theorem test_release_request :
    (after .releaseRequest (busyWith .move (record .active) (some readInFlight))).master.releaseReq = true ∧
    (after .releaseRequest board).master = MasterPort.reset := by decide

/-- The engine's guard read of D5, whose trigger is pending. -/
def guarding (x : Desc) : State :=
  busyWith .guard x (some
    { kind := .guardRead, side := .guard, window := 6, offset := .at 0, address := 0x100000, data := none }) false

theorem test_premises_GuardReadDecides :
    (guarding (triggered .active guardedPart)).Works .guard 5 (triggered .active guardedPart) ∧
    guardedPart.guard = some (sampleGuard .equal) ∧ (guarding (triggered .active guardedPart)).AloneOnBus ∧
    (guarding (triggered .active guardedPart)).master.engineClaim = false ∧
    (sampleGuard .equal).holds 0x10 = true ∧ (sampleGuard .equal).holds 0x11 = false ∧
    (triggered .active guardedPart).pr.blocksRem ≠ 0 ∧
    (guarding (triggered .active guardedPart)).engine.unitsSince = 0 ∧
    (guarding (triggered .active guardedPart)).engine.pauseReq = false ∧
    (pausing (guarding (triggered .active guardedPart))).engine.pauseReq = true ∧
    (guarding (stopped .cancelled guardedPart)).Works .guard 5 (stopped .cancelled guardedPart) ∧
    (stopped .leaseExpired guardedPart).pr.stop = .leaseExpired ∧ (stopped .withdrawn guardedPart).pr.stop = .withdrawn ∧
    (visiting 1 none (guarding (triggered .active guardedPart))).Works .guard 5 (triggered .active guardedPart) ∧
    (visiting 1 none (guarding (triggered .active guardedPart))).master.holder = some .engine :=
  ⟨⟨rfl, rfl, rfl, by decide⟩, rfl, ⟨rfl, rfl⟩, rfl, by decide, by decide, by decide, rfl, rfl, rfl,
    ⟨rfl, rfl, rfl, by decide⟩, rfl, rfl, ⟨rfl, rfl, rfl, by decide⟩, rfl⟩

theorem test_guard_read_stopped_or_paused :
    ((after (.guardReadEnd (.word 0x10)) (guarding (stopped .cancelled guardedPart))).descs.get 5).map
      (fun x => x.pr.retired) = some (some { reason := .cancelled, detail := none }) ∧
    (after (.guardReadEnd (.word 0x10)) (guarding (stopped .withdrawn guardedPart))).freed.get 1 = true ∧
    (after (.guardReadEnd (.word 0x10)) (pausing (guarding (triggered .active guardedPart)))).engine.state = .paused ∧
    (after (.guardReadEnd (.word 0x10)) (pausing (guarding (triggered .active guardedPart)))).ready.get 3 = [5] := by
  decide

theorem test_guard_read_before_visits :
    (after (.guardReadEnd (.word 0x10)) (visiting 1 none (guarding (triggered .active guardedPart)))).sweep.cursor = 1 ∧
    (after (.guardReadEnd (.word 0x10)) (visiting 1 none (guarding (triggered .active guardedPart)))).engine.state =
      .waitPort ∧
    (after (.guardReadEnd (.word 0x10)) (visiting 1 (some (triggered .waiting guardedPart))
      (guarding (triggered .active guardedPart)))).master =
      { bus := .granted, holder := some .sweep, engineClaim := true, releaseReq := false } := by decide

theorem test_guard_read :
    (after (.guardReadEnd (.word 0x11)) (guarding (triggered .active guardedPart))).descs.get 5 =
      some (triggered .waiting guardedPart) ∧
    (after (.guardReadEnd (.word 0x10)) (guarding (triggered .active guardedPart))).engine.state = .waitPort ∧
    ((after (.guardReadEnd .busError) (guarding (triggered .active guardedPart))).fnu.get 1).record =
      some (failureReport 5 .busError 6 .guard (.at 0)) := by decide

/-! ### Units -/

/-- D5 moving with a write on the bus. -/
def writing (st : StaticPart := copyPart) : State := busyWith .move (record .active st) (some writeInFlight)

/-- D5 in an exchange on channel 2. -/
def exchanging (st : StaticPart) (c : ChannelState) (kind : AccessKind) : State :=
  let s := busyWith .peripheral (record .active st) (some { writeInFlight with kind, data := none })
  { s with channels := s.channels.put 2 { state := c, timer := 5 } }

def offering : State := exchanging sendPart (.offering 1000 .four 7) .offer

def supplying : State := exchanging receivePart (.asking 1000 .four) .ask

theorem test_premises_UnitEndsAndEndPulses :
    writing.Works .move 5 (record .active) ∧ writing.engine.inFlight = some writeInFlight ∧
    writeInFlight.kind = .destinationWrite ∧ readInFlight.kind ≠ .destinationWrite ∧ board.engine.state ≠ .move ∧
    offering.Works .peripheral 5 (record .active sendPart) ∧
    offering.engine.inFlight = some { writeInFlight with kind := .offer, data := none } ∧
    sendPart.movement.strobe? = some { channel := 2, endPulse := true } ∧
    (offering.channels.get 2).state = .offering 1000 .four 7 ∧ (board.channels.get 2).state = .idle ∧
    (supplying.channels.get 2).state = .asking 1000 .four ∧
    ({ board with endReqs := [2] } : State).endReqs[0]? = some 2 :=
  ⟨⟨rfl, rfl, rfl, by decide⟩, rfl, rfl, by decide, by decide, ⟨rfl, rfl, rfl, by decide⟩, rfl, rfl, by decide,
    by decide, by decide, rfl⟩

theorem test_unit_completion : (after .unitCompletion writing).engine.unitsSince = 1 ∧
    (after .unitCompletion writing).engine.inFlight = some { readInFlight with offset := .at 8, address := 0x40008 } := by
  decide

theorem test_accept : ((after (.accept 2) offering).channels.get 2) = { state := .idle, timer := 5 } ∧
    (after (.accept 2) supplying).channels.get 2 = { state := .asking 1000 .four, timer := 5 } ∧
    (after (.accept 2) offering).engine.unitsSince = 1 := by decide

theorem test_end_request : (after (.endRequest 0) { board with endReqs := [2] }).endPulses.get 2 = 1 ∧
    (after (.endRequest 0) { board with endReqs := [2] }).endReqs = [] := by decide

/-- One block of one unit: its only unit completes it, retired, reloaded or reloaded with a trigger pending. -/
def lastUnit (reload : Bool) : StaticPart := { copyPart with blockLen := 1, blockCount := 1, reload }

theorem test_premises_UnitBoundaryLetsGo :
    (writing (lastUnit false)).master.holder = some .engine ∧
    ((record .active (lastUnit true)).pr.afterUnit (lastUnit true)).blocksRem = 0 ∧
    (board.ports.get 1).state = .opened ∧
    ((port1 { PortRec.reset 3 with state := .closing } (writing (lastUnit true))).ports.get 1).state = .closing ∧
    0 < (triggered .active (lastUnit true)).pr.pending ∧ (record .active (lastUnit true)).pr.pending = 0 ∧
    ((record .active).pr.afterUnit copyPart).blocksRem ≠ 0 ∧ (record .active).pr.stop = .none ∧
    ({ copyPart with mode := .single } : StaticPart).mode = .single ∧
    ((progressAfter 1).afterUnit { copyPart with mode := .block }).unitsInBlock = 0 ∧
    copyPart.mode = .run ∧ (progressAfter 1).unitsInBlock + 1 = copyPart.blockLen ∧
    copyPart.priority < 4 ∧ (State.reset.ready.put 4 [9]).get 4 ≠ [] ∧
    ({ Engine.reset with pauseReq := true } : Engine).pauseReq = true := by decide

theorem test_completion :
    ((after .unitCompletion (writing (lastUnit false))).descs.get 5).map (fun x => x.pr.retired) =
      some (some { reason := .done, detail := none }) ∧
    ((after .unitCompletion (writing (lastUnit true))).descs.get 5).map (fun x => (x.state, x.pr.reloads)) =
      some (.armed, 1) ∧
    (after .unitCompletion (writing (lastUnit false))).master = MasterPort.reset ∧
    (after .unitCompletion (writing (lastUnit false))).engine = Engine.reset := by decide

theorem test_premises_UnitBoundaryContinues :
    writing.master.holder = some .engine ∧ writing.engine.active = some 5 ∧ writing.engine.spellBegun = true ∧
    writing.engine.pauseReq = false ∧ (record .active).pr.stop = .none ∧
    ((record .active).pr.afterUnit copyPart).blocksRem ≠ 0 ∧ (record .active).pr.unitsInBlock + 1 ≠ copyPart.blockLen ∧
    copyPart.mode ≠ .single ∧ writing.master.releaseReq = false ∧ writing.sweep.deferred = 0 ∧
    ((progressAfter 1).afterUnit copyPart).blocksRem ≠ 0 ∧ (progressAfter 1).unitsInBlock + 1 = copyPart.blockLen ∧
    (∀ k : Priority, copyPart.priority < k → writing.ready.get k = []) ∧
    (after .releaseRequest writing).master.releaseReq = true := by decide

/-- D5's write of the last unit of a block is on the bus. -/
def endingBlock : State := busyWith .move { record .active with pr := progressAfter 1 } (some writeInFlight)

theorem test_visits_at_block_end :
    (after .unitCompletion (visiting 1 (some (triggered .waiting guardedPart)) endingBlock)).master =
      { bus := .granted, holder := some .sweep, engineClaim := true, releaseReq := false } ∧
    (after .unitCompletion (visiting 1 (some (triggered .waiting guardedPart)) endingBlock)).engine.state = .waitPort ∧
    (after .unitCompletion (visiting 1 none endingBlock)).sweep.cursor = 1 ∧
    (after .unitCompletion (visiting 1 none endingBlock)).engine.state = .move := by decide

theorem test_release_at_boundary : (after .unitCompletion (after .releaseRequest writing)).engine.state = .waitPort ∧
    (after .unitCompletion (after .releaseRequest writing)).master =
      { bus := .requesting, holder := none, engineClaim := true, releaseReq := false } := by decide

theorem test_premises_UnitGoesOnWithData :
    board.engine.state ≠ .move ∧ (busyWith .move (record .active) (some readInFlight)).Works .move 5 (record .active) ∧
    readInFlight.kind = .sourceRead ∧ writeInFlight.kind ≠ .sourceRead ∧
    unitCheck board.windows 6 1 true (record .active).pr.dst 4 = .ok 0x100000 ∧
    unitCheck State.reset.windows 6 1 true (record .active).pr.dst 4 = .error .windowAbsent ∧
    supplying.Works .peripheral 5 (record .active receivePart) ∧
    supplying.engine.inFlight = some { writeInFlight with kind := .ask, data := none } ∧
    (supplying.channels.get 2).state = .asking 1000 .four ∧ (board.channels.get 2).state = .idle ∧
    (offering.channels.get 2).state = .offering 1000 .four 7 :=
  ⟨by decide, ⟨rfl, rfl, rfl, by decide⟩, rfl, by decide, rfl, rfl, ⟨rfl, rfl, rfl, by decide⟩, rfl, by decide,
    by decide, by decide⟩

theorem test_unit_read_end :
    (after (.unitReadEnd 0x1122334455) (busyWith .move (record .active) (some readInFlight))).engine.inFlight =
      some { writeInFlight with data := some 0x22334455 } ∧
    (after (.unitReadEnd 9) (busyWith .move (record .active sendPart) (some readInFlight))).channels.get 2 =
      { state := .offering 1000 .four 9, timer := 0 } := by decide

theorem test_supply : (after (.supply 2 0x1FF00000001) supplying).engine.inFlight =
      some { writeInFlight with data := some 1 } ∧
    (after (.supply 2 1) supplying).engine.state = .move ∧ (after (.supply 2 1) offering) = offering := by decide +kernel

theorem test_premises_AccessesAndExchangesFail :
    board.engine.state ≠ .move ∧ (busyWith .move (record .active) (some readInFlight)).Works .move 5 (record .active) ∧
    (busyWith .move (record .active) (some readInFlight)).master.holder = some .engine ∧
    (busyWith .move (stopped .cancelled) (some readInFlight)).Works .move 5 (stopped .cancelled) ∧
    (board.channels.get 2).state = .idle ∧ offering.Works .peripheral 5 (record .active sendPart) ∧
    supplying.Works .peripheral 5 (record .active receivePart) ∧ offering.master.holder = some .engine ∧
    (offering.channels.get 2).state ≠ .idle ∧ (supplying.channels.get 2).state ≠ .idle :=
  ⟨by decide, ⟨rfl, rfl, rfl, by decide⟩, rfl, ⟨rfl, rfl, rfl, by decide⟩, by decide, ⟨rfl, rfl, rfl, by decide⟩,
    ⟨rfl, rfl, rfl, by decide⟩, rfl, by decide, by decide⟩

/-- A stop request takes the place of a failure (R101). -/
theorem test_failure_under_a_stop_request :
    ((after .accessBusError (busyWith .move (stopped .cancelled) (some readInFlight))).descs.get 5).map
      (fun x => x.pr.retired) = some (some { reason := .cancelled, detail := none }) ∧
    ((after .accessBusError (busyWith .move (stopped .cancelled) (some readInFlight))).fnu.get 1).record = none ∧
    (after .accessBusError (busyWith .move (stopped .withdrawn) (some readInFlight))).descs.get 5 = none := by decide

theorem test_failures :
    ((after .accessBusError (busyWith .move (record .active) (some readInFlight))).fnu.get 1).record =
      some (failureReport 5 .busError 3 .source (.at 12)) ∧
    ((after (.refuse 2) offering).fnu.get 1).record =
      some (failureReport 5 .peripheralError 6 .peripheral (.at 0)) ∧
    ((after (.waitTimerExpiry 2) supplying).fnu.get 1).record =
      some (failureReport 5 .peripheralTimeout 6 .peripheral (.at 0)) ∧
    (after (.waitTimerExpiry 2) supplying).engine = Engine.reset := by decide

theorem test_premises_SetStrobeLimitWritesLimit :
    (send (given .setStrobeLimit [4095]) board).Waits .setStrobeLimit 0 1 (given .setStrobeLimit [4095]) ∧
    ((image [0]).get 0 : Word).toNat = 0 ∧ 4095 < ((image [4096]).get 0 : Word).toNat ∧
    1 ≤ ((image [1]).get 0 : Word).toNat ∧ ((image [4095]).get 0 : Word).toNat ≤ 4095 :=
  ⟨send_waits _ _ rfl, by decide⟩

theorem test_set_strobe_limit :
    (after (.setStrobeLimit 0 1) (send (given .setStrobeLimit [4095]) board)).strobeLimit = 4095 ∧
    (after (.setStrobeLimit 0 1) (send (given .setStrobeLimit [4095]) board)).verdicts =
      [{ port := 0, id := 1, code := .ok, words := image [1000, 4095] }] := by decide

/-! ### The sweep -/

theorem test_premises_SetSweepWritesInterval :
    (send (given .setSweep [65535]) board).Waits .setSweep 0 1 (given .setSweep [65535]) ∧
    65535 < ((image [65536]).get 0 : Word).toNat ∧ ((image [65535]).get 0 : Word).toNat ≤ 65535 :=
  ⟨send_waits _ _ rfl, by decide⟩

theorem test_set_sweep :
    (after (.setSweep 0 1) (send (given .setSweep [65535]) (asking 2 board))).sweep =
      { Sweep.reset with interval := 65535 } ∧
    (after (.setSweep 0 1) (send (given .setSweep [65536]) board)).verdicts =
      [{ port := 0, id := 1, code := .malformed, words := noWords }] := by decide

/-- The sweep runs, its cursor at D5, with some visits deferred. -/
def sweeping (deferred : Nat) (s : State := board) : State :=
  { s with sweep := { Sweep.reset with interval := 100, timer := 100, cursor := 5, deferred } }

/-- A record with a lease of n sweep visits left of 10. -/
def leased (n : Nat) (state : DescState) : Desc :=
  { triggered state { guardedPart with initialLease := 10 } with
    pr := { Progress.initial { guardedPart with initialLease := 10 } with pending := 1, lease := n } }

theorem test_premises_SweepExpiryVisits :
    board.sweep.interval = 0 ∧ (sweeping 0).sweep.interval ≠ 0 ∧ (sweeping 0).sweep.deferred = 0 ∧
    (sweeping 0 board).visitNeedsPort = false ∧ (sweeping 0 (holding 5 (leased 1 .waiting))).visitNeedsPort = false ∧
    (sweeping 0 (holding 5 (leased 2 .waiting))).descs.get 5 = some (leased 2 .waiting) ∧ 2 ≤ (leased 2 .waiting).pr.lease ∧
    (triggered .waiting guardedPart).st.initialLease = 0 ∧ (sweeping 0).master.bus ≠ .granted ∧
    (sweeping 1).sweep.deferred = 1 ∧ 2 ≤ (sweeping 2).sweep.deferred := by decide

theorem test_sweep_expiry :
    (after .sweepTimerExpiry (sweeping 0)).sweep.cursor = 6 ∧
    (after .sweepTimerExpiry (sweeping 0 (holding 5 (leased 2 .waiting)))).sweep.deferred = 1 ∧
    (after .sweepTimerExpiry (sweeping 0 (holding 5 (leased 2 .waiting)))).master.bus = .requesting ∧
    (after .sweepTimerExpiry (sweeping 2)).sweep.late = true := by decide

theorem test_premises_VisitByState :
    (sweeping 0).descs.get 5 = none ∧ (holding 5 (record .loaded)).descs.get 5 = some (record .loaded) ∧
    (record .armed).st.initialLease = 0 ∧ (leased 2 .armed).st.initialLease ≠ 0 ∧ 2 ≤ (leased 2 .armed).pr.lease ∧
    (leased 1 .active).pr.lease ≤ 1 ∧ (writing).engine.state ≠ .waitPort ∧
    (leased 2 .waiting).st.guard = some (sampleGuard .equal) ∧
    unitCheck board.windows 6 1 false (.at 0) 4 = .ok 0x100000 ∧
    unitCheck State.reset.windows 6 1 false (.at 0) 4 = .error .windowAbsent :=
  ⟨by decide, by decide, by decide, by decide, by decide, by decide, by decide, by decide, rfl, rfl⟩

/-- The lease of the active D5 runs out while the engine waits for the port. -/
theorem test_premises_StopRequestsRecordedAndTaken_lease :
    (sweeping 0 (busyWith .waitPort (leased 1 .active) none)).Works .waitPort 5 (leased 1 .active) ∧
    (leased 1 .active).state = .active ∧ (leased 1 .active).pr.stop = .none ∧ (leased 1 .active).st.initialLease ≠ 0 ∧
    (leased 1 .active).pr.lease ≤ 1 ∧ (sweeping 0 (busyWith .waitPort (leased 1 .active) none)).sweep.cursor = 5 ∧
    (sweeping 0 (busyWith .waitPort (leased 1 .active) none)).sweep.interval ≠ 0 ∧
    (sweeping 0 (busyWith .waitPort (leased 1 .active) none)).sweep.deferred = 0 :=
  ⟨⟨rfl, rfl, rfl, by decide⟩, by decide⟩

theorem test_lease_expiry_waiting_for_the_port :
    ((after .sweepTimerExpiry (sweeping 0 (busyWith .waitPort (leased 1 .active) none))).descs.get 5).map
      (fun x => x.pr.retired) = some (some { reason := .leaseExpired, detail := none }) ∧
    (after .sweepTimerExpiry (sweeping 0 (busyWith .waitPort (leased 1 .active) none))).engine = Engine.reset ∧
    (after .sweepTimerExpiry (sweeping 0 (busyWith .waitPort (leased 1 .active) none))).master.engineClaim = false := by
  decide

theorem test_visits :
    ((sweeping 0 (holding 5 (leased 2 .armed))).performVisit.descs.get 5).map (fun x => x.pr.lease) = some 1 ∧
    ((sweeping 0 (holding 5 (leased 1 .armed))).performVisit.descs.get 5).map (fun x => x.pr.retired) =
      some (some { reason := .leaseExpired, detail := none }) ∧
    (sweeping 0 (holding 5 (leased 2 .waiting))).performVisit.sweep.read =
      some { desc := 5, address := 0x100000, guard := sampleGuard .equal } ∧
    (sweeping 0 (holding 5 (leased 2 .waiting))).performVisit.sweepMarks.get 5 = true := by decide

/-- The sweep's read of D5's guard is on the bus. -/
def rereading (s : State := holding 5 (triggered .waiting guardedPart)) : State :=
  { s with
    sweep := { Sweep.reset with read := some { desc := 5, address := 0x100000, guard := sampleGuard .equal } }
    sweepMarks := s.sweepMarks.put 5 true
    master := { s.master with bus := .granted, holder := some .sweep } }

/-- The same with the engine waiting for the port, for D4: for a unit, or for a guard read. -/
def rereadingBefore (x : Desc := record .active) (begun : Bool := true)
    (windows : Tab (Option Window) 16 := board.windows) : State :=
  let s := rereading { busyWith .waitPort x none begun with
    windows, descs := (board.descs.put 5 (some (triggered .waiting guardedPart))).put 4 (some x) }
  { s with engine := { s.engine with active := some 4 } }

/-- The same with a visit waiting, at D0. -/
def rereadingMore (d0 : Option Desc) : State :=
  { rereading with
    sweep := { rereading.sweep with deferred := 1 }
    descs := rereading.descs.put 0 d0 }

theorem test_premises_SweepReadHandsResult :
    rereading.resetHeld = false ∧
    rereading.sweep.read = some { desc := 5, address := 0x100000, guard := sampleGuard .equal } ∧
    (after .releaseRequest rereading).master.releaseReq = true ∧ rereading.master.releaseReq = false ∧
    rereading.sweep.deferred = 0 ∧ rereading.master.engineClaim = false ∧ rereadingBefore.master.engineClaim = true ∧
    rereadingBefore.Works .waitPort 4 (record .active) ∧ rereadingBefore.engine.spellBegun = true ∧
    (rereadingBefore (triggered .active guardedPart) false).Works .waitPort 4 (triggered .active guardedPart) ∧
    (rereadingBefore (triggered .active guardedPart) false).engine.spellBegun = false ∧
    (rereadingBefore (triggered .active guardedPart) false State.reset.windows).Works .waitPort 4
      (triggered .active guardedPart) ∧
    guardedPart.guard = some (sampleGuard .equal) ∧ (triggered .active guardedPart).pr.stop = .none ∧
    unitCheck board.windows 6 1 false (.at 0) 4 = .ok 0x100000 ∧
    unitCheck State.reset.windows 6 1 false (.at 0) 4 = .error .windowAbsent ∧
    (rereadingMore none).sweep.deferred ≠ 0 ∧ (visiting 1 none board).visited.sweep.read = none ∧
    (visiting 1 (some (triggered .waiting guardedPart)) board).visited.sweep.read.isSome = true :=
  ⟨rfl, rfl, by decide, rfl, rfl, rfl, rfl, ⟨rfl, rfl, rfl, by decide⟩, rfl, ⟨rfl, rfl, rfl, by decide⟩, rfl,
    ⟨rfl, rfl, rfl, by decide⟩, rfl, rfl, rfl, rfl, by decide, by decide, by decide⟩

theorem test_sweep_read_end :
    (after (.sweepReadEnd (.word 0x10)) rereading).guardResults =
      [{ desc := 5, guard := sampleGuard .equal, outcome := .isTrue, past := false }] ∧
    (after (.sweepReadEnd (.word 0x10)) rereading).master = MasterPort.reset ∧
    (after (.sweepReadEnd .busError) rereadingBefore).engine.inFlight = some readInFlight := by decide

theorem test_sweep_read_end_hands_on :
    (after (.sweepReadEnd (.word 0x10)) (rereadingMore none)).sweep = { Sweep.reset with cursor := 1 } ∧
    (after (.sweepReadEnd (.word 0x10)) (rereadingMore none)).master = MasterPort.reset ∧
    ((after (.sweepReadEnd (.word 0x10)) (rereadingMore (some (triggered .waiting guardedPart)))).sweep.read.map
      fun r => r.desc) = some 0 ∧
    (after (.sweepReadEnd (.word 0x10)) (rereadingBefore (triggered .active guardedPart) false)).engine.state = .guard ∧
    ((after (.sweepReadEnd (.word 0x10))
      (rereadingBefore (triggered .active guardedPart) false State.reset.windows)).fnu.get 1).record =
      some (failureReport 4 .windowAbsent 6 .guard (.at 0)) := by decide

/-- A guard result for D5, of this stay in WAITING or of an earlier one; D5 waits with its mark or without. -/
def resulting (outcome : GuardOutcome) (mark : Bool) (past : Bool := false) : State :=
  { holding 5 (triggered .waiting guardedPart) with
    sweepMarks := board.sweepMarks.put 5 mark
    guardResults := [{ desc := 5, guard := sampleGuard .equal, outcome, past }] }

theorem test_premises_GuardResultApplied :
    (resulting .isTrue true).guardResults[0]? = 
      some { desc := 5, guard := sampleGuard .equal, outcome := .isTrue, past := false } ∧
    (resulting .isTrue true true).guardResults[0]? =
      some { desc := 5, guard := sampleGuard .equal, outcome := .isTrue, past := true } ∧
    (resulting .isTrue false).sweepMarks.get 5 = false ∧ (resulting .isFalse true).sweepMarks.get 5 = true ∧
    (resulting .isTrue true).descs.get 5 = some (triggered .waiting guardedPart) := by decide

/-- D5 left WAITING and returns to it by a false guard, then a visit marks it again: the first visit's result, still
untaken, is discarded, and the mark stays for the second's (R25, R123). -/
theorem test_guard_result_of_an_earlier_stay :
    (after (.guardReadEnd (.word 0x11)) { guarding (triggered .active guardedPart) with
      guardResults := (resulting .isTrue true).guardResults }).guardResults = (resulting .isTrue true true).guardResults ∧
    (after (.guardResult 0) (resulting .isTrue true true)).ready.get 3 = [] ∧
    (after (.guardResult 0) (resulting .isTrue true true)).sweepMarks.get 5 = true ∧
    (after (.guardResult 0) (resulting .isTrue true true)).guardResults = [] := by decide

theorem test_guard_result :
    (after (.guardResult 0) (resulting .isTrue true)).ready.get 3 = [5] ∧
    (after (.guardResult 0) (resulting .isTrue false)).ready.get 3 = [] ∧
    (after (.guardResult 0) (resulting .isFalse true)).sweepMarks.get 5 = false ∧
    ((after (.guardResult 0) (resulting (.failed .busError) true)).fnu.get 1).record =
      some (failureReport 5 .busError 6 .guard (.at 0)) := by decide

/-! ### Fault reports, notices and withdraw -/

def sampleReport : Report := failureReport 5 .busError 3 .source (.at 12)

/-- A port's notice record with its notice on. -/
def noticed (record : Option Report) : NoticeRec := { NoticeRec.reset with record, notice := true }

/-- P1 closing, with P0 closing too or not. -/
def closing (p0 : PortState) : State :=
  port1 { PortRec.reset 3 with state := .closing }
    { board with ports := board.ports.put 0 { PortRec.reset 0 with state := p0 } }

def reporting (s : State) : State := { s with reports := [(1, sampleReport)] }

theorem test_premises_FaultReportTaken :
    (reporting board).reports = (1, sampleReport) :: [] ∧ (board.ports.get 1).state = .opened ∧
    ((closing .opened).ports.get 1).state = .closing ∧ ((closing .opened).ports.get 0).state = .opened ∧
    ((closing .closing).ports.get 0).state = .closing ∧ board.reports = [] := by decide

/-- A retirement's own report is taken after the one that waits, which fills the record. -/
theorem test_retirement_report_after_those_that_wait :
    ((after .accessBusError (reporting (busyWith .move (record .active) (some writeInFlight)))).fnu.get 1).record =
      some sampleReport ∧
    ((after .accessBusError (reporting (busyWith .move (record .active) (some writeInFlight)))).fnu.get 1).overflow =
      true ∧
    (after .accessBusError (reporting (busyWith .move (record .active) (some writeInFlight)))).reports = [] := by decide

theorem test_fault_report :
    ((after .faultReport (reporting board)).fnu.get 1).record = some sampleReport ∧
    ((after .faultReport (reporting { board with fnu := board.fnu.put 1 (noticed (some sampleReport)) })).fnu.get
      1).overflow = true ∧
    ((after .faultReport (reporting (closing .opened))).fnu.get 0).record = some sampleReport ∧
    (after .faultReport (reporting (closing .closing))).faultDropped = true := by decide

/-- P1 holds a report, and D7 and D5 in its retired set. -/
def notified : State :=
  { board with fnu := board.fnu.put 1 { noticed (some sampleReport) with
      retired := ((Tab.fill 128 false).put 7 true).put 5 true }, intOut := board.intOut.put 1 true }

theorem test_premises_TakesAndNotice :
    (send (given .takeFault [] 3 1) notified).Waits .takeFault 1 1 (given .takeFault [] 3 1) ∧
    (send (given .takeRetired [] 3 1) notified).Waits .takeRetired 1 1 (given .takeRetired [] 3 1) ∧
    (send (given .setNotice [1] 3 1) board).Waits .setNotice 1 1 (given .setNotice [1] 3 1) ∧
    (board.fnu.get 1).record = none ∧ (notified.fnu.get 1).record = some sampleReport ∧
    sampleReport.gate = none ∧ sampleReport.line = none ∧ sampleReport.detail = some (.source, .at 12) ∧
    (∀ d : DescIx, (board.fnu.get 1).retired.get d = false) ∧ (notified.fnu.get 1).retired.get 5 = true ∧
    (∀ e : DescIx, e < 5 → (notified.fnu.get 1).retired.get e = false) ∧
    (∀ c ∈ (board.ports.get 1).held, c.id ≠ 1) ∧
    (∃ c ∈ ((port1 (pendingAt 0x3A true)).ports.get 1).held, c.id = 1) :=
  ⟨send_waits _ _ rfl, send_waits _ _ rfl, send_waits _ _ rfl, by decide⟩

/-- The report of a line whose gate is absent: no descriptor, window or detail. -/
def lineReport : Report :=
  { code := .gateAbsent, descriptor := none, gate := some 1, line := some 4, window := none, detail := none }

theorem test_take_fault :
    (after (.takeFault 1 1) (send (given .takeFault [] 3 1)
      { board with fnu := board.fnu.put 1 (noticed (some lineReport)) })).verdicts =
      [{ port := 1, id := 1, code := .ok, words := image [0xC12, 0x00040100] }] ∧
    (after (.takeFault 1 1) (send (given .takeFault [] 3 1) notified)).verdicts =
      [{ port := 1, id := 1, code := .ok, words := image [0x7225, 0x03000005, 0, 12] }] ∧
    (after (.takeFault 1 1) (send (given .takeFault [] 3 1) notified)).intOut.get 1 = true := by decide

theorem test_take_retired :
    (after (.takeRetired 1 1) (send (given .takeRetired [] 3 1) notified)).verdicts =
      [{ port := 1, id := 1, code := .ok, words := image [5, 1] }] ∧
    (after (.takeRetired 2 1) (send (given .takeRetired [] 3 2) notified)).verdicts =
      [{ port := 2, id := 1, code := .none, words := noWords }] := by decide

theorem test_set_notice :
    (after (.setNotice 1 1) (send (given .setNotice [0] 3 1) (port1 (pendingAt 0x3A true) notified))).intOut.get 1 =
      false ∧
    (after (.setNotice 1 1) (send (given .setNotice [0] 3 1) notified)).verdicts =
      [{ port := 1, id := 1, code := .closing, words := noWords }] := by decide

/-- P1 owns D5, which the engine is moving, and D6, QUEUED behind P2's D7. -/
def owning (e : EngineState) (f : Option InFlight) : State :=
  let s := busyWith e (record .active) f
  { s with
    descs := (s.descs.put 6 (some (triggered .queued))).put 7 (some { triggered .queued with owner := 2 })
    ready := s.ready.put 3 [7, 6] }

theorem test_premises_WithdrawEvent :
    ((closing .opened).ports.get 1).state = .closing ∧ ((owning .move none).ports.get 1).state = .opened ∧
    (owning .move (some readInFlight)).descs.get 5 = some (record .active) ∧ (record .active).owner = 1 ∧
    (owning .move (some readInFlight)).engine.state ≠ .waitPort ∧
    (owning .waitPort none).engine.state = .waitPort ∧ (owning .waitPort none).engine.active = some 5 ∧
    (owning .move none).descs.get 6 = some (triggered .queued) ∧ (triggered .queued).state ≠ .active ∧
    (owning .move none).descs.get 7 = some { triggered .queued with owner := 2 } ∧
    (owning .move none).descs.get 8 = none := by decide

theorem test_withdraw_of_a_moving_port :
    (((owning .move (some readInFlight)).withdrawPort 1).ports.get 1).state = .closing ∧
    (((owning .move (some readInFlight)).withdrawPort 1).descs.get 5).map (fun x => x.pr.stop) = some .withdrawn ∧
    ((owning .move (some readInFlight)).withdrawPort 1).descs.get 6 = none ∧
    ((owning .move (some readInFlight)).withdrawPort 1).ready.get 3 = [7] := by decide +kernel

theorem test_withdraw_of_a_waiting_port :
    (((owning .waitPort none).withdrawPort 1).ports.get 1).state = .opened ∧
    ((owning .waitPort none).withdrawPort 1).engine = Engine.reset ∧
    ((owning .waitPort none).withdrawPort 1).descs.get 5 = none := by decide +kernel

theorem test_premises_WithdrawStartsAndEnds :
    (send (given .withdraw [3]) board).Waits .withdraw 0 1 (given .withdraw [3]) ∧
    3 < ((given .withdraw [4]).args.get 0).toNat ∧ ((given .withdraw [0]).args.get 0).toNat = (0 : PortIx).val ∧
    ((given .withdraw [3]).args.get 0).toNat = (3 : PortIx).val ∧ (3 : PortIx) ≠ (given .withdraw [3]).port ∧
    board.withdrawSeen.get 3 = false ∧
    ({ board with withdrawSeen := board.withdrawSeen.put 3 true } : State).withdrawSeen.get 3 = true ∧
    board.freed.get 1 = false ∧ ({ closing .opened with freed := board.freed.put 1 true } : State).freed.get 1 = true :=
  ⟨send_waits _ _ rfl, by decide⟩

theorem test_withdraw_starts :
    ((after (.withdraw 0 1) (send (given .withdraw [1]) (owning .move (some readInFlight)))).ports.get 1).state =
      .closing ∧
    (after (.withdraw 0 1) (send (given .withdraw [1]) board)).verdicts =
      [{ port := 0, id := 1, code := .ok, words := noWords }] ∧
    (after (.withdrawLineEvent 3) board).withdrawSeen.get 3 = true ∧
    (after (.withdrawLineRelease 3) (after (.withdrawLineEvent 3) board)).withdrawSeen.get 3 = false := by decide +kernel

theorem test_port_return :
    ((after (.portReturnOpen 1) { closing .opened with freed := board.freed.put 1 true }).ports.get 1).state =
      .opened ∧
    (after (.portReturnOpen 1) (closing .opened)).ports.get 1 = (closing .opened).ports.get 1 := by decide

theorem test_reset_pin :
    (after .resetPin notified).intOut.get 1 = false ∧ (after .resetPin notified).resetHeld = true ∧
    (after (.resetRelease ((Tab.fill 32 false).put 4 true) (Tab.fill 4 false)) (after .resetPin notified)).lineSeen.get
      4 = true := by decide

/-! ### A state that satisfies every invariant -/

/-- The active descriptor of a withdrawn port. -/
def lastOfP1 : Desc := { record .active with pr := { Progress.initial copyPart with stop := .withdrawn } }

/-- A unit's write ends for P1, which is CLOSING, with P2's D7 QUEUED, two visits deferred, and P0 told of a fault. -/
def eventful : State :=
  let s := busyWith .move lastOfP1 (some writeInFlight)
  { s with
    ports := s.ports.put 1 { PortRec.reset 3 with state := .closing }
    descs := s.descs.put 7 (some { triggered .queued with owner := 2 })
    ready := s.ready.put 3 [7]
    fnu := s.fnu.put 0 { noticed (some sampleReport) with overflow := true }
    intOut := s.intOut.put 0 true
    sweep := { Sweep.reset with interval := 100, deferred := 2 }
    pending := [.unitCompletion] }

theorem test_eventful_steps : ∃ t, step eventful = .next t := ⟨_, rfl⟩

theorem test_premises_StepKeepsTables : eventful.TablesOk := by
  unfold State.TablesOk State.LevelsOk State.PendingOk State.OverflowOk State.NullGateOk State.WindowsOk
    State.DeferredOk Window.Ok
  decide

theorem test_premises_StepKeepsInterrupts : eventful.InterruptsOk := by unfold State.InterruptsOk; decide

theorem eventful_active (d : DescIx) :
    eventful.engine.active = some d ↔ (eventful.descs.get d).any (fun x => x.state == .active) = true := by
  revert d; decide +kernel

theorem test_premises_StepKeepsRecords : eventful.RecordsOk := by
  refine ⟨fun p d h => ?_, ⟨fun d h => ?_, ?_, fun d => ?_, ?_⟩, ?_, fun d x ha hx => ?_⟩
  · have key : ∀ (p : PortIx) (d : DescIx), (eventful.fnu.get p).retired.get d = false := by decide +kernel
    rw [key] at h; simp at h
  · have key : ∀ d : DescIx, eventful.sweepMarks.get d = false := by decide +kernel
    rw [key] at h; simp at h
  · unfold State.QueueOk placesAt; decide +kernel
  · rw [eventful_active]; simp [Option.any_eq_true]
  · decide
  · unfold State.DescsOk Desc.Ok StaticPart.Ok Desc.Conserves Desc.BlocksOk Desc.CountsOk Desc.MarksFit
    decide +kernel
  · have hd : d = 5 := (Option.some.inj ha).symm
    subst hd
    have hx' : x = lastOfP1 := (Option.some.inj hx).symm
    subst hx'
    decide

theorem test_premises_StepKeepsMasterPort : eventful.PortFits := by
  unfold State.PortFits State.EngineRecordOk State.MasterOk
  decide

theorem test_premises_StepKeepsClosing : eventful.ClosingOk := by
  unfold State.ClosingOk
  decide +kernel

end Sys2Proof.Tests
end

section
/-! The values after reset. -/

namespace Sys2Proof.Machine

theorem reset_port (p : PortIx) : State.reset.ports.get p = PortRec.reset (if p = 0 then 0 else 3) := by
  by_cases hp : p = 0
  · subst hp; exact Tab.get_put_same ..
  · simp only [hp, if_false]
    exact (Tab.get_put_of_ne _ _ (Ne.symm hp)).trans (Tab.get_fill ..)

/-- Settles O5: each table of the reset state is a fill, so every entry is its reset value; P0 alone differs from the
other ports, in its level. -/
theorem resetValues : Obligations.ResetValues := by
  refine ⟨fun p => ?_, fun p => ?_, rfl, fun w => ?_, fun g => ?_, fun l => ?_, fun d => ?_, fun k => ?_, rfl, rfl,
    fun c => ?_, rfl, rfl, rfl, rfl, rfl, rfl, rfl, rfl, rfl, rfl, rfl⟩
  case refine_1 => simp [reset_port, PortRec.reset]
  all_goals simp [State.reset, NoticeRec.reset]

end Sys2Proof.Machine
end

section
/-! The claims about records (O9) under the commands that Laws/Commands does not speak of, and then under every command
and every step. -/

namespace Sys2Proof.Machine

open Host (Outcome)

variable {C : Prop} {s t : State} {d : DescIx} {x : Desc}

/-! ### The claims about records without those about closing ports -/

/-- Without the claims about closing ports, the port records and the freed marks are not read, and a retired set may
lose members. -/
theorem Recs.congrRecords (h : Recs False s) (he : t.engine = s.engine) (hd : t.descs = s.descs)
    (hm : t.sweepMarks = s.sweepMarks) (hr : t.ready = s.ready)
    (hf : ∀ p e, (t.fnu.get p).retired.get e = true → (s.fnu.get p).retired.get e = true) : Recs False t where
  held :=
    { marks := by intro e; rw [hm, hd]; exact h.held.marks e
      queue := by intro e k; rw [hr, hd]; exact h.held.queue e k
      active := by rw [he, hd]; exact h.held.active
      sets := by intro p e hp; rw [hd]; exact h.held.sets p e (hf p e hp)
      ok := by rw [hd]; exact h.held.ok
      owner := False.elim
      freed := False.elim }
  working := by rw [he]; exact h.working
  fits := by intro e y h1 h2; rw [he] at h1 ⊢; rw [hd] at h2; exact h.fits e y h1 h2

theorem Recs.sameRecords (h : Recs False s) (he : t.engine = s.engine) (hd : t.descs = s.descs)
    (hm : t.sweepMarks = s.sweepMarks) (hr : t.ready = s.ready) (hf : t.fnu = s.fnu) : Recs False t :=
  h.congrRecords he hd hm hr fun p e hp => by rwa [hf] at hp

/-- The claims of `State.RecordsOk` are those of `Recs` without the ones about closing ports. -/
theorem recordsOk_iff_recs : s.RecordsOk ↔ Recs False s := by
  constructor
  · rintro ⟨sets, ⟨marks, queue, active, working⟩, descs, fits⟩
    exact ⟨⟨marks, queue, active, sets, fun d x _ hx => descs d x hx, False.elim, False.elim⟩, working, fits⟩
  · rintro ⟨⟨marks, queue, active, sets, ok, -, -⟩, working, fits⟩
    exact ⟨sets, ⟨marks, queue, active, working⟩, fun d x hx => ok d x (by simp) hx, fits⟩

/-- The claims hold of a part that has no descriptors and whose engine is at rest. -/
theorem Recs.reset : Recs False State.reset := by
  have noDesc : ∀ d, State.reset.descs.get d = none := fun d => by simp [State.reset]
  refine recordsOk_iff_recs.1 ⟨fun p d hd => ?_, ⟨fun d hd => ?_, fun d k => ?_, fun d => ?_, ?_⟩, fun d x hx => ?_,
    fun d x ha => ?_⟩
  · simp [State.reset, NoticeRec.reset] at hd
  · simp [State.reset] at hd
  · simp [State.reset, placesAt]
  · simp [noDesc]; simp [State.reset, Engine.reset]
  · simp [State.reset, Engine.reset, EngineState.working]
  · rw [noDesc] at hx; cases hx
  · simp [State.reset, Engine.reset] at ha

theorem Recs.resetPin (ht : execResetPin s = .next t) : Recs False t := by
  have key : Recs False { State.reset with resetHeld := true, pending := s.pending } :=
    Recs.reset.sameRecords rfl rfl rfl rfl rfl
  exact Outcome.next.inj ht ▸ key

/-! ### How a command reaches its operation -/

/-- An event that keeps the claims keeps them whether or not the reset pin holds it off. -/
theorem Recs.whileRunning (h : Recs C s) {event : State → State} (he : Recs C (event s))
    (ht : whileRunning event s = .next t) : Recs C t := by
  unfold Sys2Proof.Machine.whileRunning at ht
  cases ht
  split
  · exact h
  · exact he

/-- A command that keeps the claims at its owner keeps them, waiting there or not. -/
theorem Recs.ownerTakes (h : Recs C s) {c : Command} {p : PortIx} {id : Word} {act : Handed → State → State}
    (ha : ∀ hd u, Recs C u → Recs C (act hd u)) (ht : ownerTakes c p id act s = .next t) : Recs C t := by
  refine h.whileRunning ?_ ht
  split
  · exact h
  · exact ha _ _ (h.congr rfl rfl rfl rfl (fun _ => rfl) (fun _ => rfl) rfl)

/-! ### Ports -/

/-- Writing the record of a port is none of the records' concern. -/
theorem Recs.putPort (h : Recs False s) (p : PortIx) (r : PortRec) : Recs False (s.putPort p r) :=
  h.sameRecords rfl rfl rfl rfl rfl

theorem Recs.writeArgument (h : Recs False s) (p : PortIx) (i : Fin 16) (bytes : BitVec 4) (value : Word) :
    Recs False (s.writeArgument p i bytes value) := by
  unfold State.writeArgument
  simp only
  split <;> exact h.putPort _ _

theorem Recs.handCommand (h : Recs False s) (p : PortIx) (hc : HeldCommand) (c : Command) :
    Recs False (s.handCommand p hc c) := by
  unfold State.handCommand
  simp only
  split <;> exact h.sameRecords rfl rfl rfl rfl rfl

theorem Recs.admitCommand (h : Recs False s) (p : PortIx) (hc : HeldCommand) : Recs False (s.admitCommand p hc) := by
  unfold State.admitCommand
  simp only
  split
  · exact h.putPort _ _
  · exact h.handCommand _ _ _

theorem Recs.setPortLevel (h : Recs False s) (hd : Handed) : Recs False (s.setPortLevel hd) := by
  unfold State.setPortLevel
  split
  · exact h.refuse _ _
  · split
    · exact h.refuse _ _
    · split
      · exact h.refuse _ _
      · simp only
        split
        · exact h.refuse _ _
        · exact (h.putPort _ _).answer _ _ _

/-- Re-evaluating an interrupt output leaves the claims alone. -/
theorem Recs.evalInt (h : Recs C s) (p : PortIx) : Recs C (s.evalInt p) :=
  h.congr rfl rfl rfl rfl (fun _ => rfl) (fun _ => rfl) rfl

/-! ### Withdraw -/

/-- One descriptor in a withdraw: EMPTY, or ACTIVE between boundaries with the stop request WITHDRAWN (R182). -/
theorem Recs.withdrawDesc (h : Recs False s) (p : PortIx) (d : DescIx) : Recs False (s.withdrawDesc p d) := by
  unfold State.withdrawDesc
  split
  · exact h
  · rename_i x hx
    by_cases howner : x.owner = p
    · rw [if_neg (not_not_intro howner)]
      by_cases hact : x.state = .active
      · rw [if_pos hact]
        have had := (h.active_iff hx).2 hact
        split
        · have key := (h.held.weaken (some d)).makeEmpty (Like.self hx) False.elim
          rw [had, if_pos rfl] at key
          exact key.dropEngine
        · rename_i hnw
          refine h.replace hx rfl rfl rfl ((h.ok hx).stop hact _) False.elim fun _ => ⟨fun hw => ?_, fun hb => ?_⟩
          · exact absurd ⟨hw, had⟩ hnw
          · exact ((h.fits d x had hx).2.1 hb).1
      · rw [if_neg hact]; exact h.makeEmpty hx hact
    · rw [if_pos howner]; exact h

theorem Recs.withdrawDescs (h : Recs False s) (p : PortIx) (l : List DescIx) :
    Recs False (l.foldl (State.withdrawDesc p) s) := by
  induction l generalizing s with
  | nil => exact h
  | cons d l ih => exact ih (h.withdrawDesc p d)

/-- A port's retired set may be emptied. -/
theorem Recs.clearNotices (h : Recs False s) (p : PortIx) : Recs False (s.putNotice p NoticeRec.reset) := by
  refine h.congrRecords rfl rfl rfl rfl fun q e he => ?_
  by_cases hq : p = q
  · subst hq; simp [NoticeRec.reset] at he
  · simpa [Tab.get_put_of_ne, hq] using he

/-- The withdraw of a port (R181, R182, R179). -/
theorem Recs.withdrawPort (h : Recs False s) (p : PortIx) : Recs False (s.withdrawPort p) := by
  unfold State.withdrawPort
  split
  · exact h
  · exact (((h.withdrawDescs p (List.finRange 128)).clearNotices p).putPort _ _).evalInt _

theorem Recs.withdrawCommand (h : Recs False s) (hd : Handed) : Recs False (s.withdrawCommand hd) := by
  unfold State.withdrawCommand
  split
  · exact h.refuse _ _
  · split
    · exact h.withdrawPort _
    · exact (h.withdrawPort _).answer _ _ _

/-! ### Gates, routes and windows -/

theorem Recs.gateChecks (h : Recs C s) (hd : Handed) {act : GateIx → State} (ha : ∀ g, Recs C (act g)) :
    Recs C (s.gateChecks hd act) := by
  unfold State.gateChecks
  split
  · exact h.refuse _ _
  · split
    · exact h.refuse _ _
    · split
      · exact h.refuse _ _
      · exact ha _

theorem Recs.setGate (h : Recs C s) (hd : Handed) : Recs C (s.setGate hd) := by
  refine h.gateChecks hd fun g => ?_
  split
  · exact h.refuse _ _
  · apply Recs.answer
    exact h.congr rfl rfl rfl rfl (fun _ => rfl) (fun _ => rfl) rfl

theorem Recs.clearGate (h : Recs C s) (hd : Handed) : Recs C (s.clearGate hd) :=
  h.gateChecks hd fun _ => by
    apply Recs.answer
    exact h.congr rfl rfl rfl rfl (fun _ => rfl) (fun _ => rfl) rfl

theorem Recs.readGate (h : Recs C s) (hd : Handed) : Recs C (s.readGate hd) := by
  unfold State.readGate
  split
  · exact h.refuse _ _
  · exact h.answer _ _ _

theorem Recs.handInvocation (h : Recs C s) (i : Invoker) (g : GateIx) (gate : Gate) :
    Recs C (s.handInvocation i g gate) := h.congr rfl rfl rfl rfl (fun _ => rfl) (fun _ => rfl) rfl

theorem Recs.invoke (h : Recs C s) (hd : Handed) : Recs C (s.invoke hd) := by
  unfold State.invoke
  simp only
  split
  · exact h.handInvocation _ _ _
  · split
    · exact h.answer _ _ _
    · exact h.refuse _ _

theorem Recs.takeLineInvocation (h : Recs C s) (i : LineInv) : Recs C (s.takeLineInvocation i) := by
  unfold State.takeLineInvocation
  split
  · exact h.handInvocation _ _ _
  · exact h.congr rfl rfl rfl rfl (fun _ => rfl) (fun _ => rfl) rfl

theorem Recs.setRoute (h : Recs C s) (hd : Handed) : Recs C (s.setRoute hd) := by
  unfold State.setRoute
  split
  · exact h.refuse _ _
  · split
    · exact h.refuse _ _
    · apply Recs.answer
      exact h.congr rfl rfl rfl rfl (fun _ => rfl) (fun _ => rfl) rfl

theorem Recs.readRoute (h : Recs C s) (hd : Handed) : Recs C (s.readRoute hd) := by
  unfold State.readRoute
  split
  · exact h.refuse _ _
  · exact h.answer _ _ _

theorem Recs.lineEvent (h : Recs C s) (l : LineIx) : Recs C (s.lineEvent l) := by
  unfold State.lineEvent
  simp only
  split <;> exact h.congr rfl rfl rfl rfl (fun _ => rfl) (fun _ => rfl) rfl

theorem Recs.windowChecks (h : Recs C s) (hd : Handed) {act : WindowIx → State} (ha : ∀ w, Recs C (act w)) :
    Recs C (s.windowChecks hd act) := by
  unfold State.windowChecks
  split
  · exact h.refuse _ _
  · split
    · exact h.answer _ _ _
    · exact ha _

theorem Recs.setWindow (h : Recs C s) (hd : Handed) : Recs C (s.setWindow hd) := by
  refine h.windowChecks hd fun w => ?_
  split
  · exact h.refuse _ _
  · apply Recs.answer
    exact h.congr rfl rfl rfl rfl (fun _ => rfl) (fun _ => rfl) rfl

theorem Recs.clearWindow (h : Recs C s) (hd : Handed) : Recs C (s.clearWindow hd) :=
  h.windowChecks hd fun _ => by
    apply Recs.answer
    exact h.congr rfl rfl rfl rfl (fun _ => rfl) (fun _ => rfl) rfl

theorem Recs.readWindow (h : Recs C s) (hd : Handed) : Recs C (s.readWindow hd) := by
  unfold State.readWindow
  split
  · exact h.refuse _ _
  · exact h.answer _ _ _

/-! ### Notices, the strobe limit and the sweep's interval -/

/-- A report that is taken changes no retired set. -/
theorem Recs.reports (h : Recs C s) (ht : OnlyReports s t) : Recs C t := by
  obtain ⟨f, i, b, l, rfl, hf⟩ := ht
  exact h.congr rfl rfl rfl rfl hf (fun _ => rfl) rfl

/-- Writing a port's notice record with its retired set as it was. -/
theorem Recs.putNotice (h : Recs C s) (p : PortIx) (r : NoticeRec) (hr : r.retired = (s.fnu.get p).retired) :
    Recs C (s.putNotice p r) := by
  refine h.congr rfl rfl rfl rfl (fun q => ?_) (fun _ => rfl) rfl
  rw [State.putNotice_fnu, Tab.get_put]
  split
  · rename_i hq; rw [hr, hq]
  · rfl

/-- A descriptor may leave a retired set. -/
theorem Recs.leaveRetired (h : Recs False s) (p : PortIx) (d : DescIx) : Recs False (s.setRetired p d false) := by
  refine h.congrRecords rfl rfl rfl rfl fun q e he => ?_
  rw [setRetired_get] at he
  split at he
  · cases he
  · exact he

theorem Recs.takeFault (h : Recs C s) (hd : Handed) : Recs C (s.takeFault hd) := by
  unfold State.takeFault
  simp only
  split
  · exact h.answer _ _ _
  · apply Recs.answer
    apply Recs.evalInt
    exact h.putNotice _ _ rfl

theorem Recs.takeRetired (h : Recs False s) (hd : Handed) : Recs False (s.takeRetired hd) := by
  unfold State.takeRetired
  split
  · exact h.answer _ _ _
  · exact (h.leaveRetired _ _).answer _ _ _

theorem Recs.setNotice (h : Recs C s) (hd : Handed) : Recs C (s.setNotice hd) := by
  unfold State.setNotice
  split
  · exact h.refuse _ _
  · apply Recs.answer
    apply Recs.evalInt
    exact h.putNotice _ _ rfl

theorem Recs.setStrobeLimit (h : Recs C s) (hd : Handed) : Recs C (s.setStrobeLimit hd) := by
  unfold State.setStrobeLimit
  simp only
  split
  · exact h.refuse _ _
  · apply Recs.answer
    exact h.congr rfl rfl rfl rfl (fun _ => rfl) (fun _ => rfl) rfl

theorem Recs.setSweep (h : Recs C s) (hd : Handed) : Recs C (s.setSweep hd) := by
  unfold State.setSweep
  simp only
  split
  · exact h.refuse _ _
  · apply Recs.answer
    exact h.congr rfl rfl rfl rfl (fun _ => rfl) (fun _ => rfl) rfl

/-! ### The engine's events -/

/-- A guard read is in flight only in GUARD. -/
theorem guardInFlight?_state {g : Guard} (h : s.guardInFlight? = some g) : s.engine.state = .guard := by
  unfold State.guardInFlight? at h
  split at h
  · assumption
  · cases h

/-- The access in flight is that of the active descriptor, whose spell has begun. -/
theorem Recs.accessActive (h : Recs C s) {f : InFlight} (hx : s.accessInFlight? = some (d, x, f)) :
    s.engine.active = some d ∧ s.descs.get d = some x ∧ s.engine.spellBegun = true := by
  have hb := (h.access hx).1
  exact ⟨hb.active, hb.desc, hb.begun⟩

/-! ### Every command -/

/-- Every command keeps the claims about records. -/
theorem Recs.exec (h : Recs False s) (c : Instr) (ht : exec c s = .next t) : Recs False t := by
  unfold Machine.exec at ht
  cases c with
  | argumentWordWrite p i bytes value => exact h.whileRunning (h.writeArgument p i bytes value) ht
  | registerWriteIgnored p target value => exact h.whileRunning (event := fun s => s) h ht
  | commandWrite p code => exact h.whileRunning (h.putPort p _) ht
  | admission p =>
    refine h.whileRunning ?_ ht
    split
    · exact h
    · exact h.admitCommand _ _
  | clearStatus p =>
    refine h.whileRunning ?_ ht
    split
    · exact h
    · split
      · exact h.admitCommand _ _
      · exact h
  | verdictPost p id =>
    refine h.whileRunning ?_ ht
    split
    · exact h
    · simp only
      split <;> exact h.sameRecords rfl rfl rfl rfl rfl
  | load p id => exact h.ownerTakes (fun hd u hu => hu.load hd False.elim) ht
  | readDescriptor p id => exact h.ownerTakes (fun hd u hu => hu.readDescriptor hd) ht
  | arm p id => exact h.ownerTakes (fun hd u hu => hu.arm hd) ht
  | disarm p id => exact h.ownerTakes (fun hd u hu => hu.disarm hd) ht
  | release p id => exact h.ownerTakes (fun hd u hu => hu.release hd) ht
  | invoke p id => exact h.ownerTakes (fun hd u hu => hu.invoke hd) ht
  | setGate p id => exact h.ownerTakes (fun hd u hu => hu.setGate hd) ht
  | clearGate p id => exact h.ownerTakes (fun hd u hu => hu.clearGate hd) ht
  | readGate p id => exact h.ownerTakes (fun hd u hu => hu.readGate hd) ht
  | setWindow p id => exact h.ownerTakes (fun hd u hu => hu.setWindow hd) ht
  | clearWindow p id => exact h.ownerTakes (fun hd u hu => hu.clearWindow hd) ht
  | readWindow p id => exact h.ownerTakes (fun hd u hu => hu.readWindow hd) ht
  | setRoute p id => exact h.ownerTakes (fun hd u hu => hu.setRoute hd) ht
  | readRoute p id => exact h.ownerTakes (fun hd u hu => hu.readRoute hd) ht
  | setSweep p id => exact h.ownerTakes (fun hd u hu => hu.setSweep hd) ht
  | setStrobeLimit p id => exact h.ownerTakes (fun hd u hu => hu.setStrobeLimit hd) ht
  | pause p id => exact h.ownerTakes (fun hd u hu => hu.pause hd) ht
  | resume p id => exact h.ownerTakes (fun hd u hu => hu.resume hd) ht
  | setPortLevel p id => exact h.ownerTakes (fun hd u hu => hu.setPortLevel hd) ht
  | readStatus p id => exact h.ownerTakes (fun hd u hu => hu.answer hd _ _) ht
  | takeFault p id => exact h.ownerTakes (fun hd u hu => hu.takeFault hd) ht
  | takeRetired p id => exact h.ownerTakes (fun hd u hu => hu.takeRetired hd) ht
  | setNotice p id => exact h.ownerTakes (fun hd u hu => hu.setNotice hd) ht
  | withdraw p id => exact h.ownerTakes (fun hd u hu => hu.withdrawCommand hd) ht
  | sweepLateClear p id =>
    refine h.whileRunning ?_ ht
    split
    · exact h
    · exact h.sameRecords rfl rfl rfl rfl rfl
  | invocationAtTarget n =>
    refine h.whileRunning ?_ ht
    split
    · exact h
    · apply Recs.invokeTarget
      exact h.sameRecords rfl rfl rfl rfl rfl
  | lineInvocation n =>
    refine h.whileRunning ?_ ht
    split
    · exact h
    · apply Recs.takeLineInvocation
      exact h.sameRecords rfl rfl rfl rfl rfl
  | chain n =>
    refine h.whileRunning ?_ ht
    split
    · exact h
    · apply Recs.takeChain
      exact h.sameRecords rfl rfl rfl rfl rfl
  | guardResult n =>
    refine h.whileRunning ?_ ht
    split
    · exact h
    · apply Recs.takeGuardResult
      exact h.sameRecords rfl rfl rfl rfl rfl
  | endRequest n =>
    refine h.whileRunning ?_ ht
    split
    · exact h
    · exact h.sameRecords rfl rfl rfl rfl rfl
  | faultReport =>
    refine h.whileRunning ?_ ht
    split
    · exact h
    · exact Recs.reports (h.sameRecords rfl rfl rfl rfl rfl) (State.takeReport_only _ _ _)
  | triggerLineEvent l =>
    refine h.whileRunning ?_ ht
    split
    · exact h
    · exact h.lineEvent l
  | triggerLineRelease l => exact h.whileRunning (h.sameRecords rfl rfl rfl rfl rfl) ht
  | withdrawLineEvent p =>
    refine h.whileRunning ?_ ht
    split
    · exact h
    · apply Recs.withdrawPort
      exact h.sameRecords rfl rfl rfl rfl rfl
  | withdrawLineRelease p => exact h.whileRunning (h.sameRecords rfl rfl rfl rfl rfl) ht
  | portReturnOpen p =>
    refine h.whileRunning ?_ ht
    split
    · exact h.sameRecords rfl rfl rfl rfl rfl
    · exact h
  | resetPin => exact Recs.resetPin ht
  | resetRelease lines withdrawLines =>
    cases ht
    split
    · exact h.sameRecords rfl rfl rfl rfl rfl
    · exact h
  | selection =>
    refine h.whileRunning ?_ ht
    split
    · exact h.select (by assumption)
    · exact h
  | busGrant =>
    refine h.whileRunning ?_ ht
    split
    · exact Recs.handOn (h.sameRecords rfl rfl rfl rfl rfl)
    · exact h
  | releaseRequest =>
    refine h.whileRunning ?_ ht
    split
    · exact h.sameRecords rfl rfl rfl rfl rfl
    · exact h
  | guardReadEnd result =>
    refine h.whileRunning ?_ ht
    split
    · exact h
    · rename_i g hg
      cases result with
      | word w => exact h.guardReadWord (guardInFlight?_state hg) g w
      | busError => exact h.guardReadFails g _
  | unitReadEnd data =>
    refine h.whileRunning ?_ ht
    split
    · exact h
    · rename_i hx
      split
      · exact h.sourceReadDone hx data
      · exact h
  | unitCompletion =>
    refine h.whileRunning ?_ ht
    split
    · exact h
    · rename_i hx
      obtain ⟨ha, hd, hb⟩ := h.accessActive hx
      split
      · exact (h.unitCompletes ha hd hb).recs
      · exact h
  | accessBusError =>
    refine h.whileRunning ?_ ht
    split
    · exact h
    · rename_i hx
      obtain ⟨hb, hblk⟩ := h.access hx
      exact hb.unitFails hblk _ _ _ _
  | accept c =>
    refine h.whileRunning ?_ ht
    split
    · exact h.accepted c
    · exact h
    · exact h
  | supply c data =>
    refine h.whileRunning ?_ ht
    split
    · exact h.supplied c data
    · exact h
    · exact h
  | refuse c =>
    refine h.whileRunning ?_ ht
    split
    · exact h
    · exact h.exchangeFails c _
    · exact h.exchangeFails c _
  | waitTimerExpiry c => exact h.whileRunning (h.waitExpires c) ht
  | sweepTimerExpiry => exact h.whileRunning h.sweepExpires ht
  | sweepReadEnd result =>
    refine h.whileRunning ?_ ht
    split
    · exact h
    · exact h.sweepReadOver _ result

/-- A step, of a command or of the time base, keeps the claims about records. -/
theorem Recs.step (h : Recs False s) (ht : step s = .next t) : Recs False t := by
  unfold Sys2Proof.Machine.step at ht
  split at ht
  · cases ht; exact h.timeBase
  · rename_i c rest _
    have key : Recs False { s with pending := rest } := h.sameRecords rfl rfl rfl rfl rfl
    exact key.exec c ht

/-- Settles O9: the claims of `RecordsOk` are carried through every command and through the time base. -/
theorem stepKeepsRecords : Obligations.StepKeepsRecords := by
  unfold Obligations.StepKeepsRecords
  intro s t hs ht
  exact recordsOk_iff_recs.2 ((recordsOk_iff_recs.1 hs).step ht)

end Sys2Proof.Machine
end

section
/-! The commands of chapter 1 at the Descriptor Table: their checks (R11, R12), and LOAD, READ_DESCRIPTOR, ARM, DISARM
and RELEASE case by case. -/

namespace Sys2Proof.Machine

open Host (Outcome)

variable {s : State} {p : PortIx} {id : Word} {h : Handed} {d : DescIx} {x : Desc}

/-! ### A command taken from the hand-offs -/

@[simp] theorem took_descs (s : State) (h : Handed) : (s.took h).descs = s.descs := rfl
@[simp] theorem took_windows (s : State) (h : Handed) : (s.took h).windows = s.windows := rfl
@[simp] theorem took_ports (s : State) (h : Handed) : (s.took h).ports = s.ports := rfl

theorem exec_load (w : s.Waits .load p id h) : exec (.load p id) s = .next ((s.took h).load h) :=
  ownerTakes_waits w fun h s => s.load h

theorem exec_readDescriptor (w : s.Waits .readDescriptor p id h) :
    exec (.readDescriptor p id) s = .next ((s.took h).readDescriptor h) :=
  ownerTakes_waits w fun h s => s.readDescriptor h

theorem exec_arm (w : s.Waits .arm p id h) : exec (.arm p id) s = .next ((s.took h).arm h) :=
  ownerTakes_waits w fun h s => s.arm h

theorem exec_disarm (w : s.Waits .disarm p id h) : exec (.disarm p id) s = .next ((s.took h).disarm h) :=
  ownerTakes_waits w fun h s => s.disarm h

theorem exec_release (w : s.Waits .release p id h) : exec (.release p id) s = .next ((s.took h).release h) :=
  ownerTakes_waits w fun h s => s.release h

/-! ### The checks that come first (R12) -/

section Checks

variable {act : DescIx → Option Desc → State}

/-- An index above 127 names no descriptor. -/
theorem descriptorChecks_range (hi : 127 < argIndex h.args) :
    (s.took h).descriptorChecks h act = s.answered h .range noWords := by
  simp [State.descriptorChecks, index?_none (show 128 ≤ argIndex h.args from hi)]

/-- An EMPTY descriptor has no owner to refuse the issuer. -/
theorem descriptorChecks_empty (hi : argIndex h.args = d.val) (hx : s.descs.get d = none) :
    (s.took h).descriptorChecks h act = act d none := by
  simp [State.descriptorChecks, index?_some d hi, hx]

/-- The ownership test refuses an issuer that is neither the owner nor P0 (R11). -/
theorem descriptorChecks_owner (hi : argIndex h.args = d.val) (hx : s.descs.get d = some x) (ho : x.owner ≠ h.port)
    (h0 : h.port ≠ 0) : (s.took h).descriptorChecks h act = s.answered h .owner noWords := by
  simp [State.descriptorChecks, index?_some d hi, hx, ho, h0]

/-- The ownership test lets the owner and P0 pass (R11). -/
theorem descriptorChecks_allowed (hi : argIndex h.args = d.val) (hx : s.descs.get d = some x)
    (ho : x.owner = h.port ∨ h.port = 0) : (s.took h).descriptorChecks h act = act d (some x) := by
  simp only [State.descriptorChecks, index?_some d hi, took_descs, hx]
  rw [if_pos ho]

end Checks

/-! ### Records written outside WAITING -/

/-- A record that is not WAITING is written without its sweep read mark (R25). -/
theorem putDesc_unmarked (s : State) (d : DescIx) (x : Desc) (hx : x.state ≠ .waiting) :
    s.putDesc d (some x) = { s with descs := s.descs.put d (some x), sweepMarks := s.sweepMarks.put d false } := by
  have : (x.state == .waiting) = false := by simpa using hx
  simp [State.putDesc, this]

/-- A descriptor that becomes EMPTY has no sweep read mark (R25). -/
theorem putDesc_empty (s : State) (d : DescIx) :
    s.putDesc d none = { s with descs := s.descs.put d none, sweepMarks := s.sweepMarks.put d false } := by
  simp [State.putDesc]

/-- A transition out of QUEUED takes the descriptor off its level (R8, R68). -/
theorem leaveQueue_ready (s : State) (d : DescIx) (x : Desc) :
    s.leaveQueue d x = { s with
      ready := if x.state = .queued then
          s.ready.put x.st.priority ((s.ready.get x.st.priority).filter fun e => e != d)
        else s.ready } := by
  unfold State.leaveQueue
  by_cases hq : x.state = .queued
  · rw [if_pos hq, if_pos hq]; rfl
  · rw [if_neg hq, if_neg hq]

/-! ### DISARM and RELEASE -/

theorem disarmReturnsToLoaded_claim : Claims.DisarmReturnsToLoaded := by
  intro s p id h w
  rw [exec_disarm w]
  unfold State.disarm
  refine ⟨fun hi => by rw [descriptorChecks_range hi], fun d hi => ⟨fun hx => ?_, fun x hx => ⟨?_, ?_⟩⟩⟩
  · rw [descriptorChecks_empty hi hx]; rfl
  · intro ho h0; rw [descriptorChecks_owner hi hx ho h0]
  · intro ho
    rw [descriptorChecks_allowed hi hx ho]
    have written : ∀ pr : Progress, (((s.took h).leaveQueue d x).putDesc d (some (x.withProgress .loaded pr))).answer h
        .ok noWords = { s.answered h .ok noWords with
          descs := s.descs.put d (some { x with state := .loaded, pr })
          sweepMarks := s.sweepMarks.put d false
          ready := if x.state = .queued then
              s.ready.put x.st.priority ((s.ready.get x.st.priority).filter fun e => e != d)
            else s.ready } := fun pr => by
      rw [leaveQueue_ready, putDesc_unmarked _ _ _ (by simp [Desc.withProgress])]; rfl
    refine ⟨fun hs => ?_, fun hs => ?_, fun hs => ?_⟩
    · rcases hs with hs | hs <;> simp [hs]
    · simp [hs, inUseImage, pack]
    · rw [← written]; rcases hs with hs | hs | hs <;> simp [hs]

theorem releaseFreesDescriptor_claim : Claims.ReleaseFreesDescriptor := by
  intro s p id h w
  rw [exec_release w]
  unfold State.release
  refine ⟨fun hi => by rw [descriptorChecks_range hi], fun d hi => ⟨fun hx => ?_, fun x hx => ⟨?_, ?_⟩⟩⟩
  · rw [descriptorChecks_empty hi hx]; rfl
  · intro ho h0; rw [descriptorChecks_owner hi hx ho h0]
  · intro ho
    rw [descriptorChecks_allowed hi hx ho]
    refine ⟨fun h1 h2 => ?_, fun hs => ?_⟩
    · simp [h1, h2]
    · have hq : x.state ≠ .queued := by rcases hs with hs | hs <;> simp [hs]
      simp only [hs, if_true]
      unfold State.makeEmpty State.leaveQueue
      rw [if_neg hq, putDesc_empty]
      rfl

/-- Settles O21, by the checks that DISARM and RELEASE share: each check refuses with its code, and a descriptor that
passes them all gets the claimed record. -/
theorem disarmAndRelease : Obligations.DisarmAndRelease :=
  ⟨disarmReturnsToLoaded_claim, releaseFreesDescriptor_claim⟩

/-! ### LOAD -/

/-- A LOAD's record is written, its owner's retired set left and the LOAD answered (R16). -/
theorem loadDesc_answered (s : State) (h : Handed) (d : DescIx) (owner : PortIx) (st : StaticPart) :
    ((s.took h).loadDesc d owner st).answer h .ok noWords =
      State.setRetired ({ s.answered h .ok noWords with
        descs := s.descs.put d (some { state := .loaded, owner, st, pr := Progress.initial st })
        sweepMarks := s.sweepMarks.put d false }) owner d false := by
  unfold State.loadDesc
  rw [putDesc_unmarked _ _ _ (by simp)]
  rfl

/-- The command of a port that is still pending there was not dropped by a withdraw (R181). -/
theorem stillPending_iff (s : State) (h : Handed) :
    s.stillPending h = true ↔ ∃ c ∈ (s.ports.get h.port).held, c.id = h.id := by
  simp [State.stillPending, Option.any_eq_true, Option.mem_def]

/-- The level test of a LOAD into an EMPTY slot: the issuer's level alone (R14). -/
theorem loadLevelOk_empty_iff (s : State) (h : Handed) :
    s.loadLevelOk h none = true ↔ h.level.val ≤ argLoadLevel h.args := by
  simp [State.loadLevelOk]

/-- The level test of a LOAD over a record: the owner's level too, where the issuer is not the owner (R14). -/
theorem loadLevelOk_record_iff (s : State) (h : Handed) (x : Desc) :
    s.loadLevelOk h (some x) = true ↔ h.level.val ≤ argLoadLevel h.args ∧
      (x.owner = h.port ∨ (s.ports.get x.owner).level.val ≤ argLoadLevel h.args) := by
  simp [State.loadLevelOk]

section LoadSlot

variable {slot : Option Desc}

/-- A LOAD over a live record is refused (R14). -/
theorem loadSlot_live (hx : x.state ≠ .loaded) (hx' : x.state ≠ .retired) :
    (s.took h).loadSlot h d (some x) = s.answered h .state noWords := by
  simp [State.loadSlot, hx, hx']

theorem loadSlot_level (hx : ∀ x ∈ slot, x.state = .loaded ∨ x.state = .retired)
    (hl : s.loadLevelOk h slot ≠ true) : (s.took h).loadSlot h d slot = s.answered h .level noWords := by
  have hl' : (s.took h).loadLevelOk h slot = false := Bool.eq_false_iff.2 hl
  cases slot with
  | none => simp [State.loadSlot, hl']
  | some x => rcases hx x rfl with hs | hs <;> simp [State.loadSlot, hl', hs]

theorem loadSlot_malformed (hx : ∀ x ∈ slot, x.state = .loaded ∨ x.state = .retired)
    (hl : s.loadLevelOk h slot = true) (hst : parseStatic h.args = none) :
    (s.took h).loadSlot h d slot = s.answered h .malformed noWords := by
  have hl' : (s.took h).loadLevelOk h slot = true := hl
  cases slot with
  | none => simp [State.loadSlot, hl', hst]
  | some x => rcases hx x rfl with hs | hs <;> simp [State.loadSlot, hl', hs, hst]

theorem loadSlot_parsed {st : StaticPart} (hx : ∀ x ∈ slot, x.state = .loaded ∨ x.state = .retired)
    (hl : s.loadLevelOk h slot = true) (hst : parseStatic h.args = some st) :
    (s.took h).loadSlot h d slot =
      ((s.took h).loadDesc d ((slot.map Desc.owner).getD h.port) st).answer h .ok noWords := by
  have hl' : (s.took h).loadLevelOk h slot = true := hl
  cases slot with
  | none => simp [State.loadSlot, hl', hst]
  | some x => rcases hx x rfl with hs | hs <;> simp [State.loadSlot, hl', hs, hst]

end LoadSlot

theorem loadByChecks_claim : Claims.LoadByChecks := by
  intro s p id h w
  rw [exec_load w]
  unfold State.load
  refine ⟨fun hi => by rw [descriptorChecks_range hi], fun d hi => ⟨fun hx => ?_, fun x hx => ⟨?_, ?_⟩⟩⟩
  · rw [descriptorChecks_empty hi hx]
    have hpend : (s.took h).stillPending h = s.stillPending h := rfl
    refine ⟨fun hn => ?_, fun hp => ?_⟩
    · have : s.stillPending h = false := by
        rw [Bool.eq_false_iff, ne_eq, stillPending_iff]
        rintro ⟨c, hc, he⟩; exact hn c hc he
      simp [hpend, this]
    · have hp' := (stillPending_iff s h).2 hp
      simp only [hpend, hp', Option.isNone_none, Bool.not_true, Bool.and_false, Bool.false_eq_true, if_false]
      refine ⟨fun hl => ?_, fun hl hst => ?_, fun st hl hst => ?_⟩
      · rw [loadSlot_level (by simp) (by rw [ne_eq, loadLevelOk_empty_iff]; exact Nat.not_le.2 hl)]
      · rw [loadSlot_malformed (by simp) ((loadLevelOk_empty_iff s h).2 hl) hst]
      · rw [loadSlot_parsed (by simp) ((loadLevelOk_empty_iff s h).2 hl) hst]
        exact congrArg Outcome.next (loadDesc_answered s h d h.port st)
  · intro ho h0; rw [descriptorChecks_owner hi hx ho h0]
  · intro ho
    rw [descriptorChecks_allowed hi hx ho]
    simp only [Option.isNone_some, Bool.false_and, Bool.false_eq_true, if_false]
    refine ⟨fun h1 h2 => by rw [loadSlot_live h1 h2], fun hs => ⟨fun hl => ?_, fun hl hown => ?_⟩⟩
    · rw [loadSlot_level (by simpa using hs)]
      rw [ne_eq, loadLevelOk_record_iff]
      rintro ⟨h1, h2⟩
      rcases hl with hl | ⟨hne, hl⟩
      · omega
      · rcases h2 with h2 | h2
        · exact hne h2
        · omega
    · have level := (loadLevelOk_record_iff s h x).2 ⟨hl, hown⟩
      refine ⟨fun hst => ?_, fun st hst => ?_⟩
      · rw [loadSlot_malformed (by simpa using hs) level hst]
      · rw [loadSlot_parsed (by simpa using hs) level hst]
        exact congrArg Outcome.next (loadDesc_answered s h d x.owner st)

/-! ### READ_DESCRIPTOR -/

theorem readDescriptorByPart_claim : Claims.ReadDescriptorByPart := by
  intro s p id h w
  rw [exec_readDescriptor w]
  unfold State.readDescriptor
  refine ⟨fun hi => by rw [descriptorChecks_range hi], fun d hi => ⟨fun hx => ?_, fun x hx => ⟨?_, ?_⟩⟩⟩
  · rw [descriptorChecks_empty hi hx]
    refine ⟨fun hp => ?_, fun hp => ?_⟩
    · simp [hp]
    · have noContent : image [descriptorWord none] = noWords := by decide
      simp [Nat.not_lt.2 hp, noContent]
  · intro ho h0; rw [descriptorChecks_owner hi hx ho h0]
  · intro ho
    rw [descriptorChecks_allowed hi hx ho]
    refine ⟨fun hp => ?_, fun hp => ?_, fun hp => ?_⟩ <;> simp [hp]

/-! ### ARM -/

theorem armSide_fails {st : StaticPart} {side : Side} {name : SideName} {write : Bool} {code : Code}
    (hc : unitCheck s.windows side.window st.level write (.at side.start) st.unitSize.bytes = .error code) :
    s.armSide st (some side) name write = some (code, name, side.start) := by
  simp [State.armSide, hc]

theorem armSide_passes {st : StaticPart} {side : Option Side} {name : SideName} {write : Bool}
    (hc : ∀ w ∈ side, ∃ a, unitCheck s.windows w.window st.level write (.at w.start) st.unitSize.bytes = .ok a) :
    s.armSide st side name write = none := by
  cases side with
  | none => rfl
  | some w =>
    obtain ⟨a, ha⟩ := hc w rfl
    simp [State.armSide, ha]

/-- The word of a failing ARM's side. -/
theorem armImage_eq (side : SideName) (offset : Word) :
    armImage side offset = image [BitVec.ofNat 32 side.number, offset] := by
  simp [armImage, pack]

theorem armByChecks_claim : Claims.ArmByChecks := by
  intro s p id h w
  rw [exec_arm w]
  unfold State.arm
  refine ⟨fun hi => by rw [descriptorChecks_range hi], fun d hi => ⟨fun hx => ?_, fun x hx => ⟨?_, ?_⟩⟩⟩
  · rw [descriptorChecks_empty hi hx]; rfl
  · intro ho h0; rw [descriptorChecks_owner hi hx ho h0]
  · intro ho
    rw [descriptorChecks_allowed hi hx ho]
    refine ⟨fun h1 h2 => by simp [h1, h2], fun hs => ?_⟩
    have live : ¬ (x.state ≠ .loaded ∧ x.state ≠ .retired) := by rcases hs with hs | hs <;> simp [hs]
    simp only [live, if_false, State.armFailure]
    refine ⟨fun code offset hf => ?_, fun hsrc => ⟨fun code offset hf => ?_, fun hdst => ⟨fun g hg code hc => ?_,
      fun hg => ?_⟩⟩⟩
    · obtain ⟨side, hside, rfl, hc⟩ := hf
      rw [Option.mem_def.1 hside, armSide_fails (s := s.took h) hc]
      simp [armImage_eq]
    all_goals rw [armSide_passes (s := s.took h) (name := .source) hsrc]
    · obtain ⟨side, hside, rfl, hc⟩ := hf
      rw [Option.mem_def.1 hside, armSide_fails (s := s.took h) hc]
      simp [armImage_eq]
    all_goals rw [armSide_passes (s := s.took h) (name := .destination) hdst]
    · have : (s.took h).armGuard x.st = some (code, .guard, g.offset) := by
        simp [State.armGuard, Option.mem_def.1 hg, guardCheck, hc]
      simp [this, armImage_eq]
    · have : (s.took h).armGuard x.st = none := by
        unfold State.armGuard
        cases hgd : x.st.guard with
        | none => rfl
        | some g =>
          obtain ⟨a, ha⟩ := hg g hgd
          simp [guardCheck, ha]
      simp only [this, Option.or_none]
      rw [putDesc_unmarked _ _ _ (by simp [Desc.withProgress])]
      rfl

theorem progressInitialised_claim : Claims.ProgressInitialised := by
  intro st
  unfold Progress.initial
  cases st.movement.source? <;> cases st.movement.destination? <;> rfl

/-- Settles O20, by the order of the checks; the progress that an accepted ARM writes is the initial one. -/
theorem armStartsDescriptor : Obligations.ArmStartsDescriptor := ⟨armByChecks_claim, progressInitialised_claim⟩

end Sys2Proof.Machine
end

section
/-! The arguments of a LOAD (R15, section 9.8): when they parse, and to what. -/

namespace Sys2Proof.Machine

variable {a : PortWords}

/-- The presence marks of a LOAD match its kind (R3, R15). -/
def MarksFit (a : PortWords) : Prop :=
  (field (a.get 0) 16 4 = 0 ∧ bit (a.get 1) 27 = true ∧ bit (a.get 1) 28 = true ∧ bit (a.get 1) 29 = false) ∨
  (field (a.get 0) 16 4 = 1 ∧ bit (a.get 1) 27 = true ∧ bit (a.get 1) 28 = false ∧ bit (a.get 1) 29 = true) ∨
  (field (a.get 0) 16 4 = 2 ∧ bit (a.get 1) 27 = false ∧ bit (a.get 1) 28 = true ∧ bit (a.get 1) 29 = true) ∨
  (field (a.get 0) 16 4 = 3 ∧ bit (a.get 1) 27 = false ∧ bit (a.get 1) 28 = true ∧ bit (a.get 1) 29 = false)

/-- The sides and the strobe part that a LOAD marks present are in range (R15). -/
def PartsFit (a : PortWords) : Prop :=
  (bit (a.get 1) 27 = true → field (a.get 3) 0 8 ≤ 15 ∧ field (a.get 3) 8 4 ≤ 3) ∧
  (bit (a.get 1) 28 = true → field (a.get 3) 16 8 ≤ 15 ∧ field (a.get 3) 24 4 ≤ 3) ∧
  (bit (a.get 1) 29 = true → field (a.get 2) 16 4 ≤ 7)

/-- The movement has the kind, the presence marks and the parts that the arguments give (R3, section 9.8). -/
def MovementAs (a : PortWords) (m : Movement) : Prop :=
  m.number = field (a.get 0) 16 4 ∧ m.source?.isSome = bit (a.get 1) 27 ∧
  m.destination?.isSome = bit (a.get 1) 28 ∧ m.strobe?.isSome = bit (a.get 1) 29 ∧
  (∀ w ∈ m.source?, w.window.val = field (a.get 3) 0 8 ∧ w.stepping.number = field (a.get 3) 8 4 ∧
    w.start = a.get 4) ∧
  (∀ w ∈ m.destination?, w.window.val = field (a.get 3) 16 8 ∧ w.stepping.number = field (a.get 3) 24 4 ∧
    w.start = a.get 5) ∧
  (∀ c ∈ m.strobe?, c.channel.val = field (a.get 2) 16 4 ∧ c.endPulse = bit (a.get 2) 20) ∧
  (∀ v ∈ m.pattern?, v = a.get 7 ++ a.get 6)

/-- A movement whose marks and parts fit parses, to what the arguments give. -/
theorem parseMovement_accepted (hm : MarksFit a) (hp : PartsFit a) :
    ∃ m, parseMovement a = some m ∧ MovementAs a m := by
  obtain ⟨psrc, pdst, pstb⟩ := hp
  have source := fun h => parseSide_accepted (sw := 4) (psrc h).1 (psrc h).2
  have destination := fun h => parseSide_accepted (sw := 5) (pdst h).1 (pdst h).2
  have strobe := fun h => parseStrobe_accepted (pstb h)
  rcases hm with ⟨hk, hs, hd, ht⟩ | ⟨hk, hs, hd, ht⟩ | ⟨hk, hs, hd, ht⟩ | ⟨hk, hs, hd, ht⟩
  · obtain ⟨w, ew, fw⟩ := source hs
    obtain ⟨v, ev, fv⟩ := destination hd
    refine ⟨.copy w v, by simp [parseMovement, hk, hs, hd, ht, parseSource, parseDestination, ew, ev], ?_⟩
    simp [MovementAs, Movement.number, Movement.source?, Movement.destination?, Movement.strobe?, Movement.pattern?,
      hk, hs, hd, ht, fw, fv]
  · obtain ⟨w, ew, fw⟩ := source hs
    obtain ⟨c, ec, fc⟩ := strobe ht
    refine ⟨.send w c, by simp [parseMovement, hk, hs, hd, ht, parseSource, ew, ec], ?_⟩
    simp [MovementAs, Movement.number, Movement.source?, Movement.destination?, Movement.strobe?, Movement.pattern?,
      hk, hs, hd, ht, fw, fc]
  · obtain ⟨v, ev, fv⟩ := destination hd
    obtain ⟨c, ec, fc⟩ := strobe ht
    refine ⟨.receive v c, by simp [parseMovement, hk, hs, hd, ht, parseDestination, ev, ec], ?_⟩
    simp [MovementAs, Movement.number, Movement.source?, Movement.destination?, Movement.strobe?, Movement.pattern?,
      hk, hs, hd, ht, fv, fc]
  · obtain ⟨v, ev, fv⟩ := destination hd
    refine ⟨.fill v (parsePattern a), by simp [parseMovement, hk, hs, hd, ht, parseDestination, ev], ?_⟩
    simp [MovementAs, Movement.number, Movement.source?, Movement.destination?, Movement.strobe?, Movement.pattern?,
      hk, hs, hd, ht, fv, parsePattern]

/-- A side that parses is in range. -/
theorem parseSide_inRange {lo : Nat} {sw : Fin 16} {t : Side} (h : parseSide a lo sw = some t) :
    field (a.get 3) lo 8 ≤ 15 ∧ field (a.get 3) (lo + 8) 4 ≤ 3 := by
  by_contra hc
  rw [parseSide_refused hc] at h; cases h

/-- A strobe part that parses is in range. -/
theorem parseStrobe_inRange {t : Strobe} (h : parseStrobe a = some t) : field (a.get 2) 16 4 ≤ 7 := by
  by_contra hc
  rw [parseStrobe_refused hc] at h; cases h

/-- A movement that parses has marks and parts that fit. -/
theorem parseMovement_inRange {m : Movement} (h : parseMovement a = some m) : MarksFit a ∧ PartsFit a := by
  unfold parseMovement at h
  split at h
  case h_5 => cases h
  all_goals
    rename_i hk hs hd ht
    simp only [Option.bind_eq_bind, Option.pure_def, Option.bind_eq_some_iff] at h
  · obtain ⟨w, hw, v, hv, -⟩ := h
    exact ⟨.inl ⟨hk, hs, hd, ht⟩, fun _ => parseSide_inRange hw, fun _ => parseSide_inRange hv, by simp [ht]⟩
  · obtain ⟨w, hw, c, hc, -⟩ := h
    exact ⟨.inr (.inl ⟨hk, hs, hd, ht⟩), fun _ => parseSide_inRange hw, by simp [hd], fun _ => parseStrobe_inRange hc⟩
  · obtain ⟨v, hv, c, hc, -⟩ := h
    exact ⟨.inr (.inr (.inl ⟨hk, hs, hd, ht⟩)), by simp [hs], fun _ => parseSide_inRange hv,
      fun _ => parseStrobe_inRange hc⟩
  · obtain ⟨v, hv, -⟩ := h
    exact ⟨.inr (.inr (.inr ⟨hk, hs, hd, ht⟩)), by simp [hs], fun _ => parseSide_inRange hv, by simp [ht]⟩

/-- A number is an index below a bound exactly where it is below it. -/
theorem index?_eq_some_iff {n k : Nat} {i : Fin n} : index? n k = some i ↔ i.val = k := by
  unfold index?
  split
  · rw [Option.some.injEq, Fin.ext_iff]; exact eq_comm
  · have := i.isLt
    simp only [reduceCtorEq, false_iff]; omega

/-- An optional part that parses is present where it is marked, and then it is the part. -/
theorem parseOptional_eq_some {α : Type} {present : Bool} {part : Option α} {r : Option α}
    (h : parseOptional present part = some r) : r.isSome = present ∧ (∀ x ∈ r, part = some x) ∧
      (present = true → part.isSome = true) := by
  cases present with
  | false => cases h; simp
  | true =>
    rw [parseOptional_present, Option.map_eq_some_iff] at h
    obtain ⟨x, hx, rfl⟩ := h
    simp [hx]

/-- An optional part parses where it does if it is marked. -/
theorem parseOptional_accepted {α : Type} {present : Bool} {part : Option α}
    (h : present = true → ∃ x, part = some x) : ∃ r, parseOptional present part = some r := by
  cases present with
  | false => exact ⟨_, rfl⟩
  | true => obtain ⟨x, hx⟩ := h rfl; exact ⟨_, by rw [hx]; rfl⟩

/-- A guard that parses is in range (R4, R15). -/
theorem parseGuard_inRange {g : Guard} (h : parseGuard a = some g) :
    field (a.get 8) 0 8 ≤ 15 ∧ field (a.get 8) 8 4 ≤ 5 ∧ (a.get 9).toNat % 4 = 0 := by
  by_contra hc
  rw [parseGuard_refused hc] at h; cases h

/-- A guard that parses is the one the arguments give. -/
theorem parseGuard_fields {g : Guard} (h : parseGuard a = some g) :
    g.window.val = field (a.get 8) 0 8 ∧ g.condition.number = field (a.get 8) 8 4 ∧ g.offset = a.get 9 ∧
      g.mask = a.get 10 ∧ g.reference = a.get 11 := by
  obtain ⟨hw, hc, ha⟩ := parseGuard_inRange h
  obtain ⟨g', e, fields⟩ := parseGuard_accepted hw hc ha
  rw [h] at e; cases e
  exact fields

/-- A movement that parses is the one the arguments give. -/
theorem parseMovement_fields {m : Movement} (h : parseMovement a = some m) : MovementAs a m := by
  obtain ⟨hm, hp⟩ := parseMovement_inRange h
  obtain ⟨m', e, fields⟩ := parseMovement_accepted hm hp
  rw [h] at e; cases e
  exact fields

theorem mode_fields {n : Nat} {t : Mode} (h : Mode.ofNumber? n = some t) : n ≤ 2 ∧ t.number = n := by
  have hn : n ≤ 2 := by
    by_contra hc
    rw [mode_refused hc] at h; cases h
  obtain ⟨t', e, f⟩ := mode_accepted hn
  rw [h] at e; cases e
  exact ⟨hn, f⟩

theorem unitSize_fields {n : Nat} {t : UnitSize} (h : UnitSize.ofBytes? n = some t) :
    n ∈ [1, 2, 4, 8] ∧ t.bytes = n := by
  have hn : n ∈ [1, 2, 4, 8] := by
    by_contra hc
    rw [unitSize_refused hc] at h; cases h
  obtain ⟨t', e, f⟩ := unitSize_accepted hn
  rw [h] at e; cases e
  exact ⟨hn, f⟩

/-- What stands in the static part of a LOAD, part by part. -/
theorem parseStatic_eq_some_iff {st : StaticPart} : parseStatic a = some st ↔
    index? 4 (argLoadLevel a) = some st.level ∧ index? 8 (field (a.get 0) 12 4) = some st.priority ∧
    parseMovement a = some st.movement ∧ UnitSize.ofBytes? (field (a.get 0) 24 8) = some st.unitSize ∧
    Mode.ofNumber? (field (a.get 0) 20 4) = some st.mode ∧ parseBlockLen a = some st.blockLen ∧
    st.blockCount = parseBlockCount a ∧ st.reload = bit (a.get 1) 25 ∧ st.notice = bit (a.get 1) 26 ∧
    st.initialLease = field (a.get 2) 0 8 ∧ parseOptional (bit (a.get 1) 30) (parseGuard a) = some st.guard ∧
    parseOptional (bit (a.get 1) 31) (index? 128 (field (a.get 2) 8 8)) = some st.successor := by
  unfold parseStatic
  simp only [Option.bind_eq_bind, Option.pure_def, Option.bind_eq_some_iff]
  constructor
  · rintro ⟨lv, hlv, pr, hpr, mv, hmv, us, hus, md, hmd, bl, hbl, g, hg, su, hsu, h⟩
    cases h
    exact ⟨hlv, hpr, hmv, hus, hmd, hbl, rfl, rfl, rfl, rfl, hg, hsu⟩
  · rintro ⟨hlv, hpr, hmv, hus, hmd, hbl, hbc, hr, hn, hle, hg, hsu⟩
    refine ⟨_, hlv, _, hpr, _, hmv, _, hus, _, hmd, _, hbl, _, hg, _, hsu, ?_⟩
    rw [← hbc, ← hr, ← hn, ← hle]

theorem parseBlockLen_eq_some_iff {n : Nat} :
    parseBlockLen a = some n ↔ n = field (a.get 1) 16 9 ∧ 1 ≤ field (a.get 1) 16 9 ∧ field (a.get 1) 16 9 ≤ 256 := by
  unfold parseBlockLen
  simp only
  split
  · rename_i h
    simp [h, eq_comm]
  · rename_i h
    simp only [reduceCtorEq, false_iff]
    exact fun hc => h hc.2

/-- The arguments that R15 accepts. -/
def ArgumentsFit (a : PortWords) : Prop :=
  MarksFit a ∧ field (a.get 0) 20 4 ≤ 2 ∧ field (a.get 0) 8 4 ≤ 3 ∧ field (a.get 0) 12 4 ≤ 7 ∧
  field (a.get 0) 24 8 ∈ [1, 2, 4, 8] ∧ 1 ≤ field (a.get 1) 16 9 ∧ field (a.get 1) 16 9 ≤ 256 ∧
  (bit (a.get 1) 27 = true → field (a.get 3) 0 8 ≤ 15 ∧ field (a.get 3) 8 4 ≤ 3) ∧
  (bit (a.get 1) 28 = true → field (a.get 3) 16 8 ≤ 15 ∧ field (a.get 3) 24 4 ≤ 3) ∧
  (bit (a.get 1) 29 = true → field (a.get 2) 16 4 ≤ 7) ∧
  (bit (a.get 1) 30 = true → field (a.get 8) 0 8 ≤ 15 ∧ field (a.get 8) 8 4 ≤ 5 ∧ (a.get 9).toNat % 4 = 0) ∧
  (bit (a.get 1) 31 = true → field (a.get 2) 8 8 ≤ 127)

/-- Arguments that give a static part are accepted by R15. -/
theorem parseStatic_inRange {st : StaticPart} (h : parseStatic a = some st) : ArgumentsFit a := by
  obtain ⟨hlv, hpr, hmv, hus, hmd, hbl, -, -, -, -, hg, hsu⟩ := parseStatic_eq_some_iff.1 h
  obtain ⟨marks, hsrc, hdst, hstb⟩ := parseMovement_inRange hmv
  obtain ⟨-, hb1, hb2⟩ := parseBlockLen_eq_some_iff.1 hbl
  refine ⟨marks, (mode_fields hmd).1, ?_, ?_, (unitSize_fields hus).1, hb1, hb2, hsrc, hdst, hstb, fun hb => ?_,
    fun hb => ?_⟩
  · have : st.level.val = field (a.get 0) 8 4 := index?_eq_some_iff.1 hlv
    omega
  · have := index?_eq_some_iff.1 hpr
    omega
  · obtain ⟨g, e⟩ := Option.isSome_iff_exists.1 ((parseOptional_eq_some hg).2.2 hb)
    exact parseGuard_inRange e
  · obtain ⟨t, e⟩ := Option.isSome_iff_exists.1 ((parseOptional_eq_some hsu).2.2 hb)
    have := index?_eq_some_iff.1 e
    omega

/-- Arguments that R15 accepts give a static part. -/
theorem parseStatic_accepted (h : ArgumentsFit a) : ∃ st, parseStatic a = some st := by
  obtain ⟨marks, hmd, hlv, hpr, hus, hb1, hb2, hsrc, hdst, hstb, hg, hsu⟩ := h
  obtain ⟨mv, emv, -⟩ := parseMovement_accepted marks ⟨hsrc, hdst, hstb⟩
  obtain ⟨us, eus, -⟩ := unitSize_accepted hus
  obtain ⟨md, emd, -⟩ := mode_accepted hmd
  obtain ⟨g, eg⟩ := parseOptional_accepted (part := parseGuard a) fun hb => by
    obtain ⟨h1, h2, h3⟩ := hg hb
    obtain ⟨g, e, -⟩ := parseGuard_accepted h1 h2 h3
    exact ⟨g, e⟩
  obtain ⟨su, esu⟩ := parseOptional_accepted (part := index? 128 (field (a.get 2) 8 8)) fun hb =>
    ⟨_, index?_below (Nat.lt_succ_of_le (hsu hb))⟩
  exact ⟨{ level := ⟨_, Nat.lt_succ_of_le hlv⟩, priority := ⟨_, Nat.lt_succ_of_le hpr⟩, movement := mv, unitSize := us,
           mode := md, blockLen := field (a.get 1) 16 9, blockCount := parseBlockCount a, reload := bit (a.get 1) 25,
           notice := bit (a.get 1) 26, initialLease := field (a.get 2) 0 8, guard := g, successor := su },
    parseStatic_eq_some_iff.2 ⟨index?_below _, index?_below _, emv, eus, emd,
      parseBlockLen_eq_some_iff.2 ⟨rfl, hb1, hb2⟩, rfl, rfl, rfl, rfl, eg, esu⟩⟩

theorem loadArgumentsParsed_claim : Claims.LoadArgumentsParsed := by
  intro a source destination strobe kind marksFit accepted
  refine ⟨fun hn => ?_, fun hfit => ?_⟩
  · rw [Option.eq_none_iff_forall_ne_some]
    exact fun st hst => hn (parseStatic_inRange hst)
  · obtain ⟨st, hst⟩ := parseStatic_accepted hfit
    refine ⟨st, hst, ?_⟩
    obtain ⟨hlv, hpr, hmv, hus, hmd, hbl, hbc, hr, hn, hle, hg, hsu⟩ := parseStatic_eq_some_iff.1 hst
    obtain ⟨fk, fs, fd, ft, fsrc, fdst, fstb, fpat⟩ := parseMovement_fields hmv
    obtain ⟨gSome, gPart, -⟩ := parseOptional_eq_some hg
    obtain ⟨tSome, tPart, -⟩ := parseOptional_eq_some hsu
    exact ⟨index?_eq_some_iff.1 hlv, index?_eq_some_iff.1 hpr, fk, (mode_fields hmd).2, (unitSize_fields hus).2, hbc,
      (parseBlockLen_eq_some_iff.1 hbl).1, hr, hn, hle, fs, fd, ft, gSome, tSome, fsrc, fdst, fstb, fpat,
      fun g hg => parseGuard_fields (gPart g hg), fun t ht => index?_eq_some_iff.1 (tPart t ht)⟩

end Sys2Proof.Machine
end

section
/-! The images of READ_DESCRIPTOR and of INVOKE (R17, R50, section 9.8), word by word. -/

namespace Sys2Proof.Machine

/-! ### One field among those of a packed word -/

/-- A field of a packed word leaves the `len` bits from `lo` up alone: it ends below them or begins above them. -/
def Apart (f : Nat × Nat) (lo len : Nat) : Prop := f.1 * 2 ^ f.2 < 2 ^ lo ∨ lo + len ≤ f.2

/-- Of the fields packed, one at most holds the `len` bits from `lo` up, and what it holds there is v; with none, v
is 0. -/
def PacksAt (lo len v : Nat) : List (Nat × Nat) → Prop
  | [] => v = 0
  | f :: fs => (f.2 = lo ∧ f.1 = v ∧ PacksAt lo len 0 fs) ∨ (Apart f lo len ∧ PacksAt lo len v fs)

/-- A field that is apart from some bits sets none of them. -/
theorem Apart.testBit {f : Nat × Nat} {lo len j : Nat} (h : Apart f lo len) (hj : j < len) :
    (decide (f.2 ≤ lo + j) && f.1.testBit (lo + j - f.2)) = false := by
  rcases h with h | h
  · rw [← Nat.testBit_mul_two_pow]
    exact Nat.testBit_lt_two_pow (Nat.lt_of_lt_of_le h (Nat.pow_le_pow_right (by decide) (Nat.le_add_right lo j)))
  · simp [show ¬ f.2 ≤ lo + j by omega]

theorem PacksAt.testBit {lo len v j : Nat} {fs : List (Nat × Nat)} (h : PacksAt lo len v fs) (hj : j < len) :
    (fs.any fun f => decide (f.2 ≤ lo + j) && f.1.testBit (lo + j - f.2)) = v.testBit j := by
  induction fs generalizing v with
  | nil => rw [PacksAt] at h; simp [h]
  | cons f fs ih =>
    rw [List.any_cons]
    rcases h with ⟨rfl, rfl, h⟩ | ⟨h1, h2⟩
    · rw [ih h]; simp
    · rw [h1.testBit hj, ih h2, Bool.false_or]

/-- Fields that leave the bits alone may follow. -/
theorem PacksAt.append_zero {lo len v : Nat} {fs gs : List (Nat × Nat)} (h : PacksAt lo len v fs)
    (k : PacksAt lo len 0 gs) : PacksAt lo len v (fs ++ gs) := by
  induction fs generalizing v with
  | nil => rw [PacksAt] at h; subst h; exact k
  | cons f fs ih =>
    rcases h with ⟨h1, h2, h3⟩ | ⟨h1, h2⟩
    · exact .inl ⟨h1, h2, ih h3⟩
    · exact .inr ⟨h1, ih h2⟩

/-- Fields that leave the bits alone may come first. -/
theorem PacksAt.zero_append {lo len v : Nat} {fs gs : List (Nat × Nat)} (h : PacksAt lo len 0 fs)
    (k : PacksAt lo len v gs) : PacksAt lo len v (fs ++ gs) := by
  induction fs with
  | nil => exact k
  | cons f fs ih =>
    rcases h with ⟨h1, h2, h3⟩ | ⟨h1, h2⟩
    · refine .inr ⟨.inl ?_, ih h3⟩
      rw [h2, Nat.zero_mul]; exact Nat.two_pow_pos lo
    · exact .inr ⟨h1, ih h2⟩

/-- A field of a packed word shows what is packed there. -/
theorem field_pack_at {fs : List (Nat × Nat)} {lo len v : Nat} (h : PacksAt lo len v fs) (hv : v < 2 ^ len)
    (hl : lo + len ≤ 32) : field (pack fs) lo len = v :=
  field_pack hl hv fun _ hj => h.testBit hj

/-- A bit of a packed word shows the flag packed there. -/
theorem bit_pack_at {fs : List (Nat × Nat)} {i : Nat} {b : Bool} (h : PacksAt i 1 (flag b) fs) (hi : i < 32) :
    bit (pack fs) i = b := by
  have key := h.testBit (j := 0) Nat.one_pos
  unfold bit
  rw [pack_testBit fs i hi]
  simpa only [Nat.add_zero, flag_testBit, decide_true, Bool.and_true] using key

theorem bit_pack_set {fs : List (Nat × Nat)} {i : Nat} (h : PacksAt i 1 1 fs) (hi : i < 32) :
    bit (pack fs) i = true := bit_pack_at (b := true) h hi

theorem bit_pack_clear {fs : List (Nat × Nat)} {i : Nat} (h : PacksAt i 1 0 fs) (hi : i < 32) :
    bit (pack fs) i = false := bit_pack_at (b := false) h hi

/-! ### The numbers fit their fields -/

theorem flag_le (b : Bool) : flag b ≤ 1 := by cases b <;> decide

theorem stateNumber_le (x : Option Desc) : stateNumber x ≤ 6 := by
  unfold stateNumber
  split
  · decide
  · split <;> decide

theorem Movement.number_le (m : Movement) : m.number ≤ 3 := by cases m <;> simp [Movement.number]

theorem Mode.number_le (m : Mode) : m.number ≤ 2 := by cases m <;> decide

theorem Stepping.number_le (t : Stepping) : t.number ≤ 3 := by cases t <;> decide

theorem Condition.number_le (c : Condition) : c.number ≤ 5 := by cases c <;> decide

theorem UnitSize.bytes_le (u : UnitSize) : u.bytes ≤ 8 := by cases u <;> decide

theorem SideName.number_le (n : SideName) : n.number ≤ 3 := by cases n <;> decide

theorem StopRequest.number_le (r : StopRequest) : r.number ≤ 3 := by cases r <;> decide

theorem Code.value_lt (c : Code) : c.value < 256 := by cases c <;> decide

/-! ### Q0 of both parts -/

theorem descriptorWord_fields (x : Desc) :
    field (descriptorWord (some x)) 0 4 = stateNumber (some x) ∧ bit (descriptorWord (some x)) 4 = true ∧
      field (descriptorWord (some x)) 8 2 = x.owner.val := by
  have := stateNumber_le (some x)
  have := x.owner.isLt
  have e : descriptorWord (some x) = pack [(stateNumber (some x), 0), (1, 4), (x.owner.val, 8)] := rfl
  rw [e]
  refine ⟨field_pack_at ?_ ?_ ?_, bit_pack_set ?_ ?_, field_pack_at ?_ ?_ ?_⟩ <;> simp [PacksAt, Apart] <;> omega

/-! ### The LOAD image -/

variable {d : DescIx} {x : StaticPart}

theorem loadImage_word0 :
    let w := (loadImage d x).getD 0 0
    field w 0 8 = d.val ∧ field w 8 4 = x.level.val ∧ field w 12 4 = x.priority.val ∧
    field w 16 4 = x.movement.number ∧ field w 20 4 = x.mode.number ∧ field w 24 8 = x.unitSize.bytes := by
  have := x.movement.number_le
  have := x.mode.number_le
  have := x.unitSize.bytes_le
  have e : (loadImage d x).getD 0 0 = pack [(d.val, 0), (x.level.val, 8), (x.priority.val, 12),
    (x.movement.number, 16), (x.mode.number, 20), (x.unitSize.bytes, 24)] := rfl
  simp only [e]
  refine ⟨field_pack_at ?_ ?_ ?_, field_pack_at ?_ ?_ ?_, field_pack_at ?_ ?_ ?_, field_pack_at ?_ ?_ ?_,
    field_pack_at ?_ ?_ ?_, field_pack_at ?_ ?_ ?_⟩ <;> simp [PacksAt, Apart] <;> omega

theorem loadImage_word1 (hx : x.Ok) :
    let w := (loadImage d x).getD 1 0
    field w 0 16 = x.blockCount % 65536 ∧ field w 16 9 = x.blockLen ∧ bit w 25 = x.reload ∧ bit w 26 = x.notice ∧
    bit w 27 = x.movement.source?.isSome ∧ bit w 28 = x.movement.destination?.isSome ∧
    bit w 29 = x.movement.strobe?.isSome ∧ bit w 30 = x.guard.isSome ∧ bit w 31 = x.successor.isSome := by
  obtain ⟨-, hb, -⟩ := hx
  have := flag_le x.reload
  have := flag_le x.notice
  have := flag_le x.movement.source?.isSome
  have := flag_le x.movement.destination?.isSome
  have := flag_le x.movement.strobe?.isSome
  have := flag_le x.guard.isSome
  have := flag_le x.successor.isSome
  have e : (loadImage d x).getD 1 0 = pack [(x.blockCount % 65536, 0), (x.blockLen, 16), (flag x.reload, 25),
    (flag x.notice, 26), (flag x.movement.source?.isSome, 27), (flag x.movement.destination?.isSome, 28),
    (flag x.movement.strobe?.isSome, 29), (flag x.guard.isSome, 30), (flag x.successor.isSome, 31)] := rfl
  simp only [e]
  refine ⟨field_pack_at ?_ ?_ ?_, field_pack_at ?_ ?_ ?_, bit_pack_at ?_ ?_, bit_pack_at ?_ ?_, bit_pack_at ?_ ?_,
    bit_pack_at ?_ ?_, bit_pack_at ?_ ?_, bit_pack_at ?_ ?_, bit_pack_at ?_ ?_⟩ <;> simp [PacksAt, Apart] <;> omega

/-- The successor's index, 0 where there is none, fits its field. -/
theorem successor_lt (t : Option DescIx) : (t.map Fin.val).getD 0 < 128 := by
  cases t with
  | none => decide
  | some t => exact t.isLt

theorem loadImage_word2 (hx : x.Ok) :
    let w := (loadImage d x).getD 2 0
    field w 0 8 = x.initialLease ∧ field w 8 8 = (x.successor.map Fin.val).getD 0 ∧
    (x.movement.strobe? = none → field w 16 5 = 0) ∧
    (∀ c ∈ x.movement.strobe?, field w 16 4 = c.channel.val ∧ bit w 20 = c.endPulse) := by
  obtain ⟨-, -, -, -, hl⟩ := hx
  have := successor_lt x.successor
  have e : (loadImage d x).getD 2 0 = pack ([(x.initialLease, 0), ((x.successor.map Fin.val).getD 0, 8)] ++
      match x.movement.strobe? with
      | none => []
      | some s => [(s.channel.val, 16), (flag s.endPulse, 20)]) := rfl
  simp only [e]
  cases x.movement.strobe? with
  | none =>
    refine ⟨field_pack_at ?_ ?_ ?_, field_pack_at ?_ ?_ ?_, fun _ => field_pack_at ?_ ?_ ?_, by simp⟩ <;>
      simp [PacksAt, Apart] <;> omega
  | some c =>
    have := flag_le c.endPulse
    refine ⟨field_pack_at ?_ ?_ ?_, field_pack_at ?_ ?_ ?_, by simp, ?_⟩
    case refine_7 =>
      rintro _ ⟨⟩
      refine ⟨field_pack_at ?_ ?_ ?_, bit_pack_at ?_ ?_⟩ <;> simp [PacksAt, Apart] <;> omega
    all_goals simp [PacksAt, Apart] <;> omega

/-- What A3 shows of a side from bit `lo` up: its window and stepping, or 0 for an absent side. -/
def SideShown (w : Word) (lo : Nat) (side : Option Side) : Prop :=
  (side = none → field w lo 12 = 0) ∧
    (∀ v ∈ side, field w lo 8 = v.window.val ∧ field w (lo + 8) 4 = v.stepping.number)

/-- The source side's fields end below bit 12. -/
theorem sideFields_below (side : Option Side) {lo len : Nat} (h : 12 ≤ lo) : PacksAt lo len 0 (sideFields side 0) := by
  have hp : 2 ^ 12 ≤ 2 ^ lo := Nat.pow_le_pow_right (by decide) h
  cases side with
  | none => simp [sideFields, PacksAt]
  | some v =>
    have := v.stepping.number_le
    refine .inr ⟨.inl ?_, .inr ⟨.inl ?_, rfl⟩⟩ <;> simp <;> omega

/-- The destination side's fields begin at bit 16. -/
theorem sideFields_above (side : Option Side) {lo len : Nat} (h : lo + len ≤ 16) :
    PacksAt lo len 0 (sideFields side 16) := by
  cases side with
  | none => simp [sideFields, PacksAt]
  | some v => exact .inr ⟨.inr h, .inr ⟨.inr (by simp; omega), rfl⟩⟩

theorem loadImage_word3 :
    let w := (loadImage d x).getD 3 0
    SideShown w 0 x.movement.source? ∧ SideShown w 16 x.movement.destination? := by
  have e : (loadImage d x).getD 3 0 =
      pack (sideFields x.movement.source? 0 ++ sideFields x.movement.destination? 16) := rfl
  simp only [e]
  constructor
  · have above := fun {lo len : Nat} (h : lo + len ≤ 16) => sideFields_above x.movement.destination? h
    cases x.movement.source? with
    | none => exact ⟨fun _ => field_pack_at (above (by decide)) (by decide) (by decide), by simp⟩
    | some v =>
      have := v.stepping.number_le
      refine ⟨by simp, ?_⟩
      rintro _ ⟨⟩
      constructor <;> refine field_pack_at (PacksAt.append_zero ?_ (above (by decide))) ?_ ?_ <;>
        simp [sideFields, PacksAt, Apart] <;> omega
  · have below := fun {lo len : Nat} (h : 12 ≤ lo) => sideFields_below x.movement.source? (len := len) h
    cases x.movement.destination? with
    | none =>
      exact ⟨fun _ => field_pack_at (PacksAt.zero_append (below (by decide)) rfl) (by decide) (by decide), by simp⟩
    | some v =>
      have := v.stepping.number_le
      refine ⟨by simp, ?_⟩
      rintro _ ⟨⟩
      constructor <;> refine field_pack_at (PacksAt.zero_append (below (by decide)) ?_) ?_ ?_ <;>
        simp [sideFields, PacksAt, Apart] <;> omega

theorem loadImage_words4to7 :
    (loadImage d x).getD 4 0 = startWord x.movement.source? ∧
    (loadImage d x).getD 5 0 = startWord x.movement.destination? ∧
    (loadImage d x).getD 6 0 = (x.movement.pattern?.getD 0).setWidth 32 ∧
    (loadImage d x).getD 7 0 = ((x.movement.pattern?.getD 0) >>> 32).setWidth 32 := ⟨rfl, rfl, rfl, rfl⟩

/-- The two halves of a pattern make it up again. -/
theorem pattern_halves (v : UnitData) : (v >>> 32).setWidth 32 ++ v.setWidth 32 = v := by
  apply BitVec.eq_of_getLsbD_eq
  intro i hi
  rw [BitVec.getLsbD_append]
  by_cases h : i < 32
  · simp [h]
  · simp [h, show i - 32 < 32 by omega, show 32 + (i - 32) = i by omega]

theorem loadImage_guard :
    (x.guard = none → ∀ i, 8 ≤ i → i < 12 → (loadImage d x).getD i 0 = 0) ∧
    (∀ g ∈ x.guard, field ((loadImage d x).getD 8 0) 0 8 = g.window.val ∧
      field ((loadImage d x).getD 8 0) 8 4 = g.condition.number ∧ (loadImage d x).getD 9 0 = g.offset ∧
      (loadImage d x).getD 10 0 = g.mask ∧ (loadImage d x).getD 11 0 = g.reference) := by
  constructor
  · intro h i h1 h2
    unfold loadImage
    simp only [h]
    interval_cases i <;> rfl
  · intro g h
    have := g.condition.number_le
    unfold loadImage
    simp only [Option.mem_def.1 h]
    refine ⟨field_pack_at (fs := [(g.window.val, 0), (g.condition.number, 8)]) ?_ ?_ ?_,
      field_pack_at (fs := [(g.window.val, 0), (g.condition.number, 8)]) ?_ ?_ ?_, rfl, rfl, rfl⟩ <;>
      simp [PacksAt, Apart] <;> omega

theorem loadImage_length : (loadImage d x).length = 12 := by
  unfold loadImage
  cases x.guard <;> rfl

/-! ### The STATIC part -/

/-- Q1 to Q12 of the STATIC part are the LOAD image. -/
theorem staticImage_load (d : DescIx) (x : Desc) (i : Fin 16) (h1 : 1 ≤ i.val) (h2 : i.val ≤ 12) :
    (staticImage d x).get i = (loadImage d x.st).getD (i.val - 1) 0 := by
  have hl : (loadImage d x.st).length = 12 := loadImage_length
  unfold staticImage
  rw [image_get, List.getD_eq_getElem?_getD, List.getD_eq_getElem?_getD, List.append_assoc,
    List.getElem?_append_right (by simpa using h1), List.getElem?_append_left (by simp [hl]; omega)]
  rfl

/-- Q13 of the STATIC part is the block count, and the words after it are 0. -/
theorem staticImage_rest (d : DescIx) (x : Desc) (i : Fin 16) (h : 13 ≤ i.val) :
    (staticImage d x).get i = if i.val = 13 then BitVec.ofNat 32 x.st.blockCount else 0 := by
  have hl : (loadImage d x.st).length = 12 := loadImage_length
  unfold staticImage
  rw [image_get, List.getD_eq_getElem?_getD, List.getElem?_append_right (by simp [hl]; omega)]
  by_cases hi : i.val = 13
  · simp [hi, hl]
  · rw [List.getElem?_eq_none (by simp [hl]; omega), if_neg hi]; rfl

theorem staticImageWords_claim : Claims.StaticImageWords := by
  intro d x hx w m
  have w0 : w.get 0 = descriptorWord (some x) := image_get _ 0
  have w1 : w.get 1 = (loadImage d x.st).getD 0 0 := staticImage_load d x 1 (by decide) (by decide)
  have w2 : w.get 2 = (loadImage d x.st).getD 1 0 := staticImage_load d x 2 (by decide) (by decide)
  have w3 : w.get 3 = (loadImage d x.st).getD 2 0 := staticImage_load d x 3 (by decide) (by decide)
  have w4 : w.get 4 = (loadImage d x.st).getD 3 0 := staticImage_load d x 4 (by decide) (by decide)
  have w5 : w.get 5 = (loadImage d x.st).getD 4 0 := staticImage_load d x 5 (by decide) (by decide)
  have w6 : w.get 6 = (loadImage d x.st).getD 5 0 := staticImage_load d x 6 (by decide) (by decide)
  have w7 : w.get 7 = (loadImage d x.st).getD 6 0 := staticImage_load d x 7 (by decide) (by decide)
  have w8 : w.get 8 = (loadImage d x.st).getD 7 0 := staticImage_load d x 8 (by decide) (by decide)
  have w9 : w.get 9 = (loadImage d x.st).getD 8 0 := staticImage_load d x 9 (by decide) (by decide)
  have w10 : w.get 10 = (loadImage d x.st).getD 9 0 := staticImage_load d x 10 (by decide) (by decide)
  have w11 : w.get 11 = (loadImage d x.st).getD 10 0 := staticImage_load d x 11 (by decide) (by decide)
  have w12 : w.get 12 = (loadImage d x.st).getD 11 0 := staticImage_load d x 12 (by decide) (by decide)
  have w13 : w.get 13 = BitVec.ofNat 32 x.st.blockCount := staticImage_rest d x 13 (by decide)
  have w14 : w.get 14 = 0 := staticImage_rest d x 14 (by decide)
  have w15 : w.get 15 = 0 := staticImage_rest d x 15 (by decide)
  obtain ⟨q0, q1, q2⟩ := descriptorWord_fields x
  obtain ⟨a0, a1, a2, a3, a4, a5⟩ := loadImage_word0 (d := d) (x := x.st)
  obtain ⟨b0, b1, b2, b3, b4, b5, b6, b7, b8⟩ := loadImage_word1 (d := d) hx
  obtain ⟨c0, c1, c2, c3⟩ := loadImage_word2 (d := d) hx
  obtain ⟨⟨s0, s1⟩, ⟨t0, t1⟩⟩ := loadImage_word3 (d := d) (x := x.st)
  obtain ⟨e4, e5, e6, e7⟩ := loadImage_words4to7 (d := d) (x := x.st)
  obtain ⟨g0, g1⟩ := loadImage_guard (d := d) (x := x.st)
  generalize loadImage d x.st = load at *
  clear_value w
  rw [w0, w1, w2, w3, w4, w5, w6, w7, w8, w9, w10, w11, w12, e4, e5, e6, e7]
  refine ⟨q0, q1, q2, a0, a1, a2, a3, a4, a5, b0, b1, b2, b3, b4, b5, b6, b7, b8, c0, fun h => ?_, fun t h => ?_, c2,
    c3, fun h => ⟨s0 h, ?_⟩, fun v h => ⟨(s1 v h).1, (s1 v h).2, ?_⟩, fun h => ⟨t0 h, ?_⟩,
    fun v h => ⟨(t1 v h).1, (t1 v h).2, ?_⟩, fun h => ?_, fun v h => ?_,
    fun h => ⟨g0 h 8 (by decide) (by decide), g0 h 9 (by decide) (by decide), g0 h 10 (by decide) (by decide),
      g0 h 11 (by decide) (by decide)⟩, g1, w13, w14, w15⟩
  · rw [c1, h]; rfl
  · rw [c1, Option.mem_def.1 h]; rfl
  · rw [h]; rfl
  · rw [Option.mem_def.1 h]; rfl
  · rw [h]; rfl
  · rw [Option.mem_def.1 h]; rfl
  · rw [h]; exact ⟨rfl, rfl⟩
  · rw [Option.mem_def.1 h]; exact pattern_halves v

/-! ### The PROGRESS part -/

/-- The offset of an absent side is reported as 0 (R170; log 18). -/
theorem sideOffset_shown (side : Option Side) (o : Offset) :
    (side = none → (sideOffset side o).word = 0 ∧ (sideOffset side o).isBelow = false) ∧
      (side.isSome = true → (sideOffset side o).word = o.word ∧
        (sideOffset side o).isBelow = decide (o = .belowZero)) := by
  cases side with
  | none => simp [sideOffset, Offset.word, Offset.isBelow]
  | some v => cases o <;> simp [sideOffset, Offset.isBelow]

theorem retirementWords_fields (r : Option Retirement) :
    (r = none → retirementWords r = [0, 0]) ∧
    (∀ t ∈ r, ∃ w v : Word, retirementWords r = [w, v] ∧ field w 0 8 = t.reason.value ∧ bit w 8 = true ∧
      bit w 19 = t.detail.isSome ∧
      (t.detail = none → field w 16 2 = 0 ∧ bit w 20 = false ∧ v = 0) ∧
      (∀ side offset, t.detail = some (side, offset) → field w 16 2 = side.number ∧
        bit w 20 = decide (offset = .belowZero) ∧ v = offset.word)) := by
  refine ⟨fun h => by rw [h]; rfl, ?_⟩
  rintro ⟨reason, detail⟩ h
  rw [Option.mem_def.1 h]
  have := reason.value_lt
  cases detail with
  | none =>
    refine ⟨pack [(reason.value, 0), (1, 8)], 0, rfl, field_pack_at ?_ ?_ ?_, bit_pack_set ?_ ?_, bit_pack_clear ?_ ?_,
      fun _ => ⟨field_pack_at ?_ ?_ ?_, bit_pack_clear ?_ ?_, rfl⟩, by simp⟩ <;> simp [PacksAt, Apart] <;> omega
  | some detail =>
    obtain ⟨side, offset⟩ := detail
    have := side.number_le
    have := flag_le offset.isBelow
    have below : offset.isBelow = decide (offset = .belowZero) := by cases offset <;> simp [Offset.isBelow]
    refine ⟨pack [(reason.value, 0), (1, 8), (side.number, 16), (1, 19), (flag offset.isBelow, 20)], offset.word, rfl,
      field_pack_at ?_ ?_ ?_, bit_pack_set ?_ ?_, bit_pack_set ?_ ?_, by simp, ?_⟩
    case refine_8 =>
      rintro _ _ ⟨⟩
      rw [← below]
      refine ⟨field_pack_at ?_ ?_ ?_, bit_pack_at ?_ ?_, rfl⟩ <;> simp [PacksAt, Apart] <;> omega
    all_goals simp [PacksAt, Apart] <;> omega

theorem retirementWords_length (r : Option Retirement) : (retirementWords r).length = 2 := by
  unfold retirementWords
  split
  · rfl
  · split <;> rfl

/-- Q3 of the PROGRESS part: which sides are present, which are below zero, and the units in the block. -/
theorem progressWord3_fields (b0 b1 b2 b3 : Bool) (n : Nat) (hn : n < 256) :
    let w := pack [(flag b0, 0), (flag b1, 1), (flag b2, 2), (flag b3, 3), (n, 8)]
    bit w 0 = b0 ∧ bit w 1 = b1 ∧ bit w 2 = b2 ∧ bit w 3 = b3 ∧ field w 8 8 = n := by
  have := flag_le b0
  have := flag_le b1
  have := flag_le b2
  have := flag_le b3
  refine ⟨bit_pack_at ?_ ?_, bit_pack_at ?_ ?_, bit_pack_at ?_ ?_, bit_pack_at ?_ ?_, field_pack_at ?_ ?_ ?_⟩ <;>
    simp [PacksAt, Apart] <;> omega

/-- Q6 of the PROGRESS part: the counts of R5 with the resume mark and the stop request. -/
theorem progressWord6_fields (pr : Progress) (hl : pr.lease ≤ 255) (hp : pr.pending ≤ 2) (hm : pr.missed ≤ 255)
    (hr : pr.reloads ≤ 255) :
    let w := pack [(pr.lease, 0), (pr.pending, 8), (flag pr.resume, 10), (pr.stop.number, 12), (pr.missed, 16),
      (pr.reloads, 24)]
    field w 0 8 = pr.lease ∧ field w 8 2 = pr.pending ∧ bit w 10 = pr.resume ∧ field w 12 2 = pr.stop.number ∧
      field w 16 8 = pr.missed ∧ field w 24 8 = pr.reloads := by
  have := flag_le pr.resume
  have := pr.stop.number_le
  refine ⟨field_pack_at ?_ ?_ ?_, field_pack_at ?_ ?_ ?_, bit_pack_at ?_ ?_, field_pack_at ?_ ?_ ?_,
    field_pack_at ?_ ?_ ?_, field_pack_at ?_ ?_ ?_⟩ <;> simp [PacksAt, Apart] <;> omega

theorem progressImageWords_claim : Claims.ProgressImageWords := by
  intro x hx w m
  obtain ⟨⟨-, hblen, -, -, hlease⟩, ⟨-, hunits⟩, hpend, hmiss, hrel, hle⟩ := hx.bounded
  have w0 : w.get 0 = descriptorWord (some x) := image_get _ 0
  have w1 : w.get 1 = (sideOffset m.source? x.pr.src).word := image_get _ 1
  have w2 : w.get 2 = (sideOffset m.destination? x.pr.dst).word := image_get _ 2
  have w3 : w.get 3 = pack [(flag m.source?.isSome, 0), (flag (sideOffset m.source? x.pr.src).isBelow, 1),
    (flag m.destination?.isSome, 2), (flag (sideOffset m.destination? x.pr.dst).isBelow, 3),
    (x.pr.unitsInBlock, 8)] := image_get _ 3
  have w4 : w.get 4 = BitVec.ofNat 32 x.pr.blocksRem := image_get _ 4
  have w5 : w.get 5 = BitVec.ofNat 32 x.pr.unitsMoved := image_get _ 5
  have w6 : w.get 6 = pack [(x.pr.lease, 0), (x.pr.pending, 8), (flag x.pr.resume, 10), (x.pr.stop.number, 12),
    (x.pr.missed, 16), (x.pr.reloads, 24)] := image_get _ 6
  have w7 : w.get 7 = (retirementWords x.pr.retired).getD 0 0 := image_get _ 7
  have w8 : w.get 8 = (retirementWords x.pr.retired).getD 1 0 := image_get _ 8
  have rest : ∀ i : Fin 16, 9 ≤ i.val → w.get i = 0 := fun i hi => by
    refine (image_get _ i).trans ?_
    rw [List.getD_eq_getElem?_getD, List.getElem?_eq_none (by simp [retirementWords_length]; omega)]
    rfl
  obtain ⟨q0, q1, q2⟩ := descriptorWord_fields x
  obtain ⟨s0, s1⟩ := sideOffset_shown m.source? x.pr.src
  obtain ⟨d0, d1⟩ := sideOffset_shown m.destination? x.pr.dst
  obtain ⟨a0, a1, a2, a3, a4⟩ := progressWord3_fields m.source?.isSome (sideOffset m.source? x.pr.src).isBelow
    m.destination?.isSome (sideOffset m.destination? x.pr.dst).isBelow x.pr.unitsInBlock (by omega)
  obtain ⟨c0, c1, c2, c3, c4, c5⟩ := progressWord6_fields x.pr (by omega) hpend hmiss hrel
  obtain ⟨r0, r1⟩ := retirementWords_fields x.pr.retired
  clear_value w
  rw [w0, w1, w2, w3, w4, w5, w6, w7, w8, a1, a3]
  refine ⟨q0, q1, q2, a0, a2, s0, d0, s1, d1, rfl, fun _ => rfl, a4, rfl, rfl, c0, c1, c2, c3, c4, c5, fun h => ?_,
    fun t h => ?_, rest⟩
  · rw [r0 h]; exact ⟨rfl, rfl⟩
  · obtain ⟨w, v, e, fields⟩ := r1 t h
    rw [e]
    exact fields

/-! ### The numbers -/

theorem enumerationsHaveNumbers_claim : Claims.EnumerationsHaveNumbers := by
  refine ⟨⟨rfl, fun x => ?_⟩, fun m => ?_, rfl, rfl, rfl, rfl, rfl, rfl, rfl, rfl⟩
  · obtain ⟨state, owner, st, pr⟩ := x
    cases state <;> rfl
  · cases m <;> rfl

/-! ### INVOKE -/

theorem verbImageWords_claim : Claims.VerbImageWords := by
  intro s d x hx hp w
  have hw : w = image [pack [(d.val, 0), (1, 8)], pack [(stateNumber (some x), 0), (x.pr.pending, 8), (1, 16)]] := by
    show s.verbImage d = _
    unfold State.verbImage
    rw [hx]; rfl
  have w0 : w.get 0 = pack [(d.val, 0), (1, 8)] := hw ▸ image_get _ 0
  have w1 : w.get 1 = pack [(stateNumber (some x), 0), (x.pr.pending, 8), (1, 16)] := hw ▸ image_get _ 1
  have rest : ∀ i : Fin 16, 2 ≤ i.val → w.get i = 0 := fun i hi => by
    rw [hw, image_get, List.getD_eq_getElem?_getD, List.getElem?_eq_none (by simpa using hi)]
    rfl
  have := stateNumber_le (some x)
  clear_value w
  rw [w0, w1]
  refine ⟨field_pack_at ?_ ?_ ?_, bit_pack_set ?_ ?_, field_pack_at ?_ ?_ ?_, field_pack_at ?_ ?_ ?_,
    field_pack_at ?_ ?_ ?_, field_pack_at ?_ ?_ ?_, field_pack_at ?_ ?_ ?_, bit_pack_set ?_ ?_, field_pack_at ?_ ?_ ?_,
    rest⟩ <;> simp [PacksAt, Apart] <;> omega

end Sys2Proof.Machine
end

section
/-! Retirement, trigger acceptance, invocations at their target, chains, guard results and visits, case by case. -/

namespace Sys2Proof.Machine

open Host (Outcome)

variable {s : State} {d : DescIx} {x : Desc}

/-! ### Retirement and the retired sets -/

/-- A retired set is not empty where one of its marks is set (R178). -/
theorem anyRetired_iff (r : NoticeRec) : r.anyRetired = true ↔ ∃ e, r.retired.get e = true := by
  simp [NoticeRec.anyRetired]

theorem retiredSetChange_claim : Claims.RetiredSetChange := by
  intro s p d b
  refine ⟨_, rfl, ?_⟩
  have members : (∃ e, ((s.fnu.get p).retired.put d b).get e = true) ↔
      b = true ∨ ∃ e, e ≠ d ∧ (s.fnu.get p).retired.get e = true := by
    constructor
    · rintro ⟨e, he⟩
      rw [Tab.get_put] at he
      by_cases hd : d = e
      · exact .inl (by simpa [hd] using he)
      · exact .inr ⟨e, Ne.symm hd, by simpa [hd] using he⟩
    · rintro (hb | ⟨e, hd, he⟩)
      · exact ⟨d, by simp [hb]⟩
      · exact ⟨e, by rw [Tab.get_put_of_ne _ _ (Ne.symm hd)]; exact he⟩
  simp [State.intCondition, anyRetired_iff, members, and_assoc]

/-- The record of a retirement (R9) and the removal from the ready queue. -/
theorem retire_eq (s : State) (d : DescIx) (x : Desc) (reason : Code) (detail : Option (SideName × Offset)) :
    s.retire d x reason detail =
      let t := { s with
        descs := s.descs.put d (some (x.retire reason detail))
        sweepMarks := s.sweepMarks.put d false
        ready := if x.state = .queued then
            s.ready.put x.st.priority ((s.ready.get x.st.priority).filter fun e => e != d)
          else s.ready }
      if x.st.notice then t.setRetired x.owner d true else t := by
  unfold State.retire
  rw [leaveQueue_ready, putDesc_unmarked _ _ _ (by simp [Desc.retire, Desc.withProgress])]

theorem retirementWritesRecord_claim : Claims.RetirementWritesRecord := by
  intro s d x reason detail written
  rw [retire_eq]
  exact ⟨fun hn => by rw [hn]; rfl, fun hn => by rw [hn]; rfl⟩

/-- Settles O22: the changes of a retired set, and the record that a retirement writes. -/
theorem retirementAndRetiredSet : Obligations.RetirementAndRetiredSet :=
  ⟨retiredSetChange_claim, retirementWritesRecord_claim⟩

/-! ### Trigger acceptance and chains -/

theorem triggerAcceptance_claim : Claims.TriggerAcceptance := by
  intro s d x
  refine ⟨fun hp hs => ?_, fun hp hs => ?_, fun hp => ?_⟩
  · have hp' : x.pr.pending < Config.maxPending := Nat.lt_succ_of_le hp
    simp only [State.acceptTrigger, hp', hs, if_true]
    rw [putDesc_unmarked _ _ _ (by simp [Desc.withProgress])]
    rfl
  · have hp' : x.pr.pending < Config.maxPending := Nat.lt_succ_of_le hp
    simp only [State.acceptTrigger, hp', hs, if_true, if_false]
    rfl
  · have hp' : ¬ x.pr.pending < Config.maxPending := Nat.not_lt.2 hp
    simp only [State.acceptTrigger, hp', if_false]
    rfl

/-- A waiting chain is taken (R136). -/
theorem exec_chain {n : Nat} {c : Chain} (hr : s.resetHeld = false) (hc : s.chains[n]? = some c) :
    exec (.chain n) s = .next (State.takeChain { s with chains := s.chains.eraseIdx n } c) := by
  show execChain n s = _
  unfold execChain
  rw [whileRunning_released hr]
  simp only [hc]

theorem chainTriggersSuccessor_claim : Claims.ChainTriggersSuccessor := by
  intro s n c hr hc u fails
  rw [exec_chain hr hc]
  have failing : ∀ code, u.chainCheck c = .error code → u.takeChain c = fails code := fun code he => by
    unfold State.takeChain; rw [he]; rfl
  have passing : ∀ x, u.chainCheck c = .ok x → u.takeChain c = (u.acceptTrigger c.successor x).1 := fun x he => by
    unfold State.takeChain; rw [he]
  refine ⟨fun hx => ?_, fun x hx => ⟨fun hs => ?_, fun hs => ?_, fun h1 h2 hl => ?_, fun h1 h2 hl => ?_⟩⟩
  · rw [failing .chainAbsent (by simp [State.chainCheck, u, hx])]
  · rw [failing .chainNotArmed (by simp [State.chainCheck, u, hx, hs])]
  · rw [failing .chainRetired (by simp [State.chainCheck, u, hx, hs])]
  · rw [failing .chainLevel (by cases hs : x.state <;> simp_all [State.chainCheck, u])]
  · rw [passing x (by cases hs : x.state <;> simp_all [State.chainCheck, u])]

/-- Settles O37: the acceptance of a trigger, and the chain message that applies it. -/
theorem chainAppliesTrigger : Obligations.ChainAppliesTrigger :=
  ⟨triggerAcceptance_claim, chainTriggersSuccessor_claim⟩

/-! ### Invocations at their target -/

/-- A live target at or above the gate's author's level passes the tests at the target (R52). -/
theorem targetCheck_live {i : Invocation} (hx : s.descs.get i.target = some x) (hl : i.author ≤ x.st.level)
    (h1 : x.state ≠ .loaded) (h2 : x.state ≠ .retired) : s.targetCheck i = .ok x := by
  simp only [State.targetCheck, hx, Fin.not_lt.2 hl, if_false]
  split
  · exact absurd (by assumption) h1
  · exact absurd (by assumption) h2
  all_goals rfl

/-- Outside WAIT_PORT on the descriptor, or without a stop request, there is no stop request to take (R75). -/
theorem stopInWaitPort_none (hq : (s.engine.state ≠ .waitPort ∨ s.engine.active ≠ some d) ∨
    ∀ x, s.descs.get d = some x → x.pr.stop = .none) : s.stopInWaitPort d = s := by
  unfold State.stopInWaitPort
  split
  · rename_i hw
    rcases hq with (hq | hq) | hq
    · exact absurd hw.1 hq
    · exact absurd hw.2 hq
    · split
      · rfl
      · rename_i x hx
        rw [if_pos (hq x hx)]
  · rfl

/-- A waiting invocation is taken at its live target, which is not stopped by it at once. -/
theorem exec_invocation {n : Nat} {i : Invocation} {t : State} {code : Code} (hr : s.resetHeld = false)
    (hn : s.invocations[n]? = some i) (hx : s.descs.get i.target = some x) (hl : i.author ≤ x.st.level)
    (h1 : x.state ≠ .loaded) (h2 : x.state ≠ .retired)
    (ht : State.applyVerb { s with invocations := s.invocations.eraseIdx n } i.kind i.target x = (t, code))
    (hq : (t.engine.state ≠ .waitPort ∨ t.engine.active ≠ some i.target) ∨
      ∀ y, t.descs.get i.target = some y → y.pr.stop = .none) :
    exec (.invocationAtTarget n) s = .next (t.verdictTo i code (t.verbImage i.target)) := by
  show execInvocationAtTarget n s = _
  unfold execInvocationAtTarget
  rw [whileRunning_released hr]
  simp only [hn]
  have hc : State.targetCheck { s with invocations := s.invocations.eraseIdx n } i = .ok x :=
    targetCheck_live hx hl h1 h2
  unfold State.invokeTarget
  simp only [hc, ht]
  obtain ⟨v, hv⟩ := verdictTo_eq t i code (t.verbImage i.target)
  rw [hv]
  exact congrArg Outcome.next (stopInWaitPort_none hq)

theorem verbsTaken_claim : Claims.VerbsTaken := by
  intro s n i x hr hn hx hl h1 h2 u told quiet
  have run := fun {t : State} {code : Code} => exec_invocation (t := t) (code := code) hr hn hx hl h1 h2
  have tell : ∀ (t : State) (code : Code), t.verdictTo i code (t.verbImage i.target) = told t code := fun t code => rfl
  refine ⟨fun hk hq => ?_, fun hk hq => ?_, fun hk ha hq => ?_, fun hk ha hq => ?_⟩
  · have he : (u.acceptTrigger i.target x).1.engine = s.engine := acceptTrigger_engine u i.target x
    obtain ⟨x', hd, -, hstop, -⟩ := acceptTrigger_record u i.target x
    rw [run (t := (u.acceptTrigger i.target x).1) (code := (u.acceptTrigger i.target x).2) (by rw [hk]; rfl) ?_, tell]
    rw [he, hd]
    refine hq.imp_right fun hs y hy => ?_
    rw [Tab.get_put_same] at hy; cases hy
    exact hstop.trans hs
  · rw [run (t := u.putDesc i.target (some x.renew)) (code := .ok) (by rw [hk]; rfl) ?_, tell]
    · rfl
    · refine hq.imp_right fun hs y hy => ?_
      rw [State.putDesc_descs, Tab.get_put_same] at hy; cases hy
      simp [Desc.renew, hs]
  · rw [run (t := u.retire i.target x .cancelled none) (code := .ok) (by rw [hk]; exact if_neg ha) ?_, tell]
    rw [retire_engine]
    exact .inl hq
  · rw [run (t := u.putDesc i.target (some { x with pr := { x.pr with stop := x.pr.stop.meet .cancelled } }))
      (code := .ok) (by rw [hk]; exact if_pos ha) (.inl hq), tell]
    rfl

/-! ### Guard results -/

/-- A waiting guard result is taken (R120). -/
theorem exec_guardResult {n : Nat} {r : GuardResult} (hr : s.resetHeld = false) (hn : s.guardResults[n]? = some r) :
    exec (.guardResult n) s = .next (State.takeGuardResult { s with guardResults := s.guardResults.eraseIdx n } r) := by
  show execGuardResult n s = _
  unfold execGuardResult
  rw [whileRunning_released hr]
  simp only [hn]

/-- Settles O56, by the message: stale, guard false, or guard true in one of its reasons. -/
theorem guardResultApplied : Obligations.GuardResultApplied := by
  intro s n r hr hn u
  rw [exec_guardResult hr hn]
  have discarded : ¬ (u.sweepMarks.get r.desc = true ∧ r.past = false) → u.takeGuardResult r = u := fun h => by
    unfold State.takeGuardResult; rw [if_neg h]
  refine ⟨fun hm => ?_, fun hp => ?_, fun x hm hp hx => ?_⟩
  · rw [discarded fun h => by simp [u, hm] at h]
  · rw [discarded fun h => by simp [hp] at h]
  · intro v
    have applied : u.takeGuardResult r = v.applyGuardResult r x := by
      unfold State.takeGuardResult
      rw [if_pos ⟨hm, hp⟩]
      show (match s.descs.get r.desc with | none => v | some x => v.applyGuardResult r x) = _
      rw [hx]
    change (_ → Outcome.next (u.takeGuardResult r) = _) ∧ (_ → Outcome.next (u.takeGuardResult r) = _) ∧
      ∀ code, _ → Outcome.next (u.takeGuardResult r) = _
    rw [applied]
    unfold State.applyGuardResult
    refine ⟨fun ho => ?_, fun ho => ?_, fun code ho => ?_⟩ <;> rw [ho]
    · simp only
      rw [putDesc_unmarked _ _ _ (by simp)]
      simp [State.insertTail, State.putReady, v, u]
    · rfl

end Sys2Proof.Machine
end

section
/-! Visits of the sweep, case by case (R149, R150, R152). -/

namespace Sys2Proof.Machine

open Host (Outcome)

variable {s : State} {d : DescIx} {x : Desc}

/-! ### The lease step -/

theorem stepLease_counts (h : 2 ≤ x.pr.lease) :
    s.stepLease d x = s.putDesc d (some { x with pr := { x.pr with lease := x.pr.lease - 1 } }) := by
  unfold State.stepLease
  rw [if_pos (show 1 < x.pr.lease from h)]

theorem stepLease_retires (h : x.pr.lease ≤ 1) (ha : x.state ≠ .active) :
    s.stepLease d x = s.retire d { x with pr := { x.pr with lease := 0 } } .leaseExpired none := by
  unfold State.stepLease
  rw [if_neg (Nat.not_lt.2 h)]
  exact if_neg ha

/-- An expired lease of the ACTIVE descriptor is a stop request, which waits outside WAIT_PORT (R75, R125, R150). -/
theorem stepLease_stops (h : x.pr.lease ≤ 1) (ha : x.state = .active) (hw : s.engine.state ≠ .waitPort) :
    s.stepLease d x = s.putDesc d (some { x with pr := { x.pr with
      lease := 0, stop := if x.pr.stop = .none then .leaseExpired else x.pr.stop } }) := by
  unfold State.stepLease
  rw [if_neg (Nat.not_lt.2 h)]
  refine (if_pos ha).trans ?_
  exact stopInWaitPort_other (s.putDesc d (some { x with pr := { x.pr with
    lease := 0, stop := if x.pr.stop = .none then .leaseExpired else x.pr.stop } })) d hw

/-! ### A visit -/

theorem visit_empty (hx : s.descs.get d = none) : s.visit d = s := by
  unfold State.visit; rw [hx]

theorem visit_notLive (hx : s.descs.get d = some x) (hs : x.state = .loaded ∨ x.state = .retired) : s.visit d = s := by
  unfold State.visit; rw [hx]; exact if_pos hs

/-- The state after the lease step of a visit. -/
def State.leaseVisited (s : State) (d : DescIx) (x : Desc) : State :=
  if x.st.initialLease = 0 then s else s.stepLease d x

/-- A visit of a live descriptor: the lease step, and the re-read if the descriptor is WAITING after it. -/
theorem visit_live (hx : s.descs.get d = some x) (hs : ¬ (x.state = .loaded ∨ x.state = .retired)) {y : Desc}
    (hy : (s.leaseVisited d x).descs.get d = some y) :
    s.visit d = if y.state = .waiting then (s.leaseVisited d x).startReread d y else s.leaseVisited d x := by
  unfold State.visit
  rw [hx]
  refine (if_neg hs).trans ?_
  show (match (s.leaseVisited d x).descs.get d with
    | none => s.leaseVisited d x
    | some y =>
      if y.state = DescState.waiting then (s.leaseVisited d x).startReread d y else s.leaseVisited d x) = _
  rw [hy]

/-- A visit after whose lease step the descriptor is not WAITING is over with that step. -/
theorem visit_leaseOnly (hx : s.descs.get d = some x) (hs : ¬ (x.state = .loaded ∨ x.state = .retired)) {v : State}
    {y : Desc} (hv : s.leaseVisited d x = v) (hy : v.descs.get d = some y) (hw : y.state ≠ .waiting) :
    s.visit d = v := by
  subst hv
  rw [visit_live hx hs hy, if_neg hw]

/-- The record of a live descriptor after the lease step of a visit that its lease outlasts. -/
def Desc.leaseStepped (x : Desc) : Desc :=
  { x with pr := { x.pr with lease := if x.st.initialLease = 0 then x.pr.lease else x.pr.lease - 1 } }

/-- A lease that is off, or outlasts the visit, leaves the descriptor where it is. -/
theorem leaseVisited_outlasts (hx : s.descs.get d = some x) (h : x.st.initialLease = 0 ∨ 2 ≤ x.pr.lease) :
    (s.leaseVisited d x).descs = s.descs.put d (some x.leaseStepped) ∧
      ∃ b, s.leaseVisited d x =
        { s with descs := s.descs.put d (some x.leaseStepped), sweepMarks := s.sweepMarks.put d b } := by
  unfold State.leaseVisited Desc.leaseStepped
  by_cases h0 : x.st.initialLease = 0
  · have same : s.descs.put d (some x) = s.descs := by rw [← hx, Tab.put_get_self]
    have marks : s.sweepMarks.put d (s.sweepMarks.get d) = s.sweepMarks := Tab.put_get_self _ _
    simp only [h0, if_true, same]
    exact ⟨trivial, s.sweepMarks.get d, by rw [marks]⟩
  · rw [if_neg h0, if_neg h0, stepLease_counts (h.resolve_left h0)]
    exact ⟨rfl, _, rfl⟩

/-- A visit that re-reads the guard of a WAITING descriptor (R120, R152). -/
theorem visit_rereads {g : Guard} (hx : s.descs.get d = some x) (hw : x.state = .waiting) (hg : x.st.guard = some g)
    (h : x.st.initialLease = 0 ∨ 2 ≤ x.pr.lease) :
    s.visit d = State.startReread
      { s with descs := s.descs.put d (some x.leaseStepped), sweepMarks := s.sweepMarks.put d true } d
      x.leaseStepped := by
  obtain ⟨hd, b, hv⟩ := leaseVisited_outlasts hx h
  have live : ¬ (x.state = .loaded ∨ x.state = .retired) := by simp [hw]
  rw [visit_live hx live (y := x.leaseStepped) (by rw [hd, Tab.get_put_same])]
  refine (if_pos hw).trans ?_
  rw [hv]
  have hg' : x.leaseStepped.st.guard = some g := hg
  simp only [State.startReread, hg', Tab.put_put_same]

/-- Settles O54: one case per state of the visited descriptor. -/
theorem visitByState : Obligations.VisitByState := by
  intro s d u
  have hu : s.performVisit = u.visit d := rfl
  rw [hu]
  refine ⟨fun hx => visit_empty (s := u) hx, fun x hx => ?_⟩
  have hx : u.descs.get d = some x := hx
  refine ⟨fun hs => visit_notLive hx hs, fun hs => ?_, fun hs hl he => ?_, fun hs hl he hw => ?_, fun g hs hg hl => ?_⟩
  · have live : ¬ (x.state = .loaded ∨ x.state = .retired) := by rcases hs with h | h | h <;> simp [h]
    have still : x.state ≠ .waiting := by rcases hs with h | h | h <;> simp [h]
    refine ⟨fun hl => visit_leaseOnly hx live (if_pos hl) hx still, fun hl h2 => ?_⟩
    exact visit_leaseOnly hx live ((if_neg hl).trans (stepLease_counts h2)) (Tab.get_put_same _ _ _) still
  · have live : ¬ (x.state = .loaded ∨ x.state = .retired) := by rcases hs with h | h | h <;> simp [h]
    have still : x.state ≠ .active := by rcases hs with h | h | h <;> simp [h]
    exact visit_leaseOnly hx live ((if_neg hl).trans (stepLease_retires he still))
      (y := Desc.retire { x with pr := { x.pr with lease := 0 } } .leaseExpired none)
      (by rw [retire_descs, Tab.get_put_same]) (by simp [Desc.retire, Desc.withProgress])
  · exact visit_leaseOnly hx (by simp [hs]) ((if_neg hl).trans (stepLease_stops he hs hw)) (Tab.get_put_same _ _ _)
      (by simp [hs])
  · intro v
    rw [visit_rereads hx hs hg hl]
    have hg' : x.leaseStepped.st.guard = some g := hg
    simp only [State.startReread, hg', Tab.put_put_same]
    refine ⟨fun a ha => ?_, fun code hc => ?_⟩
    · have check : guardCheck s.windows g x.leaseStepped.st.level = .ok a := ha
      rw [show u.windows = s.windows from rfl, check]; rfl
    · have check : guardCheck s.windows g x.leaseStepped.st.level = .error code := hc
      rw [show u.windows = s.windows from rfl, check]; rfl

end Sys2Proof.Machine
end

section
/-! The end of the engine's guard read (R72, R82, R83, R116, R117). -/

namespace Sys2Proof.Machine

open Host (Outcome)

variable {s t : State} {d : DescIx} {x y : Desc}

/-! ### Visits while the engine reads its guard -/

/-- No descriptor has become EMPTY. -/
def KeepsPresent (s t : State) : Prop := ∀ d, (s.descs.get d).isSome = true → (t.descs.get d).isSome = true

theorem KeepsPresent.of_descs (h : t.descs = s.descs) : KeepsPresent s t := fun d hd => by rwa [h]

theorem KeepsPresent.of_put (h : t.descs = s.descs.put d (some x)) : KeepsPresent s t := fun e he => by
  rw [h, Tab.get_put]
  split
  · rfl
  · exact he

theorem KeepsPresent.trans {u : State} (h : KeepsPresent s t) (k : KeepsPresent t u) : KeepsPresent s u :=
  fun d hd => k d (h d hd)

theorem stepLease_present (s : State) (d : DescIx) (x : Desc) (hw : s.engine.state ≠ .waitPort) :
    KeepsPresent s (s.stepLease d x) := by
  unfold State.stepLease
  split
  · exact .of_put rfl
  · simp only
    split
    · unfold State.raiseStop
      rw [stopInWaitPort_other (s.putDesc d (some _)) d hw]
      exact .of_put rfl
    · exact .of_put (retire_descs _ _ _ _ _)

theorem startReread_descs (s : State) (d : DescIx) (x : Desc) : (s.startReread d x).descs = s.descs := by
  unfold State.startReread
  split
  · rfl
  · simp only
    split <;> rfl

/-- Outside WAIT_PORT a visit makes no descriptor EMPTY: it may retire one, or record a stop request (R150). -/
theorem visit_present (s : State) (d : DescIx) (hw : s.engine.state ≠ .waitPort) : KeepsPresent s (s.visit d) := by
  have same : KeepsPresent s s := .of_descs rfl
  unfold State.visit
  split
  · exact same
  · rename_i x _
    split
    · exact same
    · have key : KeepsPresent s (if x.st.initialLease = 0 then s else s.stepLease d x) := by
        split
        · exact same
        · exact stepLease_present s d x hw
      simp only
      split
      · exact key
      · split
        · exact key.trans (.of_descs (startReread_descs _ _ _))
        · exact key

theorem performVisit_present (s : State) (hw : s.engine.state ≠ .waitPort) : KeepsPresent s s.performVisit :=
  visit_present { s with sweep := { s.sweep with cursor := s.sweep.cursor + 1 } } s.sweep.cursor hw

theorem serveVisits_present (n : Nat) (s : State) (hw : s.engine.state ≠ .waitPort) :
    KeepsPresent s (State.serveVisits n s) := by
  induction n generalizing s with
  | zero => exact .of_descs rfl
  | succ n ih =>
    unfold State.serveVisits
    split
    · exact .of_descs rfl
    · have key : KeepsPresent s s.visited := performVisit_present { s with
        master := { s.master with holder := some .sweep }
        sweep := { s.sweep with deferred := s.sweep.deferred - 1 } } hw
      have he : s.visited.engine = s.engine := performVisit_engine { s with
        master := { s.master with holder := some .sweep }
        sweep := { s.sweep with deferred := s.sweep.deferred - 1 } } hw
      show KeepsPresent s (if s.visited.sweep.read.isSome then s.visited else _)
      split
      · exact key
      · exact key.trans (ih s.visited.freeHolder (by rw [State.freeHolder_engine, he]; exact hw))

/-! ### The port is given back -/

/-- What giving the port back leaves of the Master Port's record: no claim, the engine no holder, and no grant without a
holder (R82, R83). -/
structure GivenBack (s : State) : Prop where
  noClaim : s.master.engineClaim = false
  notEngine : s.master.holder ≠ some .engine
  notFree : ¬ (s.master.bus = .granted ∧ s.master.holder = none)

theorem handOnToSweep_givenBack (hc : s.master.engineClaim = false) : GivenBack s.handOnToSweep := by
  have key : (State.serveVisits s.sweep.deferred s.freeHolder).master.engineClaim = false := serveVisits_noClaim _ hc
  unfold State.handOnToSweep
  simp only
  split
  · rename_i hh
    exact ⟨key, by rw [hh]; simp, fun hc => by rw [hh] at hc; simp at hc⟩
  · exact ⟨key, by simp, by simp⟩

theorem engineGivesBack_givenBack (hh : s.master.holder = some .engine) (hc : s.master.engineClaim = false) :
    GivenBack s.engineGivesBack := by
  unfold State.engineGivesBack
  rw [if_pos hh]
  split
  · refine ⟨hc, by simp, ?_⟩
    rw [State.serveRelease_master]
    split <;> simp
  · exact handOnToSweep_givenBack hc

theorem engineGivesBack_present (s : State) (hw : s.engine.state ≠ .waitPort) :
    KeepsPresent s s.engineGivesBack := by
  unfold State.engineGivesBack
  split
  · split
    · exact .of_descs rfl
    · have key : KeepsPresent s (State.serveVisits s.sweep.deferred s.freeHolder) :=
        serveVisits_present s.sweep.deferred s.freeHolder hw
      unfold State.handOnToSweep
      simp only
      split
      · exact key
      · exact key.trans (.of_descs rfl)
  · exact .of_descs rfl

/-- With no visit waiting, an engine alone on the bus leaves the Master Port at rest (R82, R83). -/
theorem guardReadOver_alone (ha : s.AloneOnBus) (hc : s.master.engineClaim = false) :
    s.guardReadOver = { s with engine := { s.engine with inFlight := none }, master := MasterPort.reset } := by
  obtain ⟨hh, hd⟩ := ha
  unfold State.guardReadOver State.engineGivesBack
  rw [if_pos (by exact hh)]
  by_cases hr : s.master.releaseReq = true
  · rw [if_pos (by exact hr)]
    simp [State.serveRelease, hd, hc, MasterPort.reset]
  · have hr' : s.master.releaseReq = false := by simpa using hr
    rw [if_neg (by exact hr), handOnToSweep_eq (by exact hc), handOn_none (by exact hd) (by exact hc)]
    simp [hc, hr', MasterPort.reset]

/-! ### The guard read ends -/

section GuardRead

variable {g : Guard}

theorem State.Works.guardInFlight (w : s.Works .guard d x) (hg : x.st.guard = some g) :
    s.guardInFlight? = some g := by
  unfold State.guardInFlight?
  rw [if_pos w.2.1, w.activeDesc]
  exact hg

theorem exec_guardReadEnd_busError (w : s.Works .guard d x) (hg : x.st.guard = some g) :
    exec (.guardReadEnd .busError) s = .next (s.guardReadFails g .busError) := by
  show execGuardReadEnd .busError s = _
  unfold execGuardReadEnd
  rw [whileRunning_released w.1]
  simp only [w.guardInFlight hg]

theorem exec_guardReadEnd_word (w : s.Works .guard d x) (hg : x.st.guard = some g) (word : Word) :
    exec (.guardReadEnd (.word word)) s = .next (s.guardReadWord g word) := by
  show execGuardReadEnd (.word word) s = _
  unfold execGuardReadEnd
  rw [whileRunning_released w.1]
  simp only [w.guardInFlight hg]

/-- Giving the port back leaves the engine in GUARD with its descriptor, the read no longer in flight. -/
theorem State.Works.guardReadOver_engine (w : s.Works .guard d x) :
    s.guardReadOver.engine = { s.engine with inFlight := none } := by
  obtain ⟨-, hs, -⟩ := w
  exact engineGivesBack_engine _ (by show s.engine.state ≠ .waitPort; rw [hs]; simp)

theorem State.Works.guardReadOver_desc (w : s.Works .guard d x) : ∃ y, s.guardReadOver.descs.get d = some y := by
  obtain ⟨-, hs, -, hx⟩ := w
  have key := engineGivesBack_present { s with engine := { s.engine with inFlight := none } }
    (by show s.engine.state ≠ .waitPort; rw [hs]; simp)
  exact Option.isSome_iff_exists.1 (key d (by rw [hx]; rfl))

theorem State.Works.guardReadOver_activeDesc (w : s.Works .guard d x) (hy : s.guardReadOver.descs.get d = some y) :
    s.guardReadOver.activeDesc? = some (d, y) := by
  have ha : s.guardReadOver.engine.active = some d := by rw [w.guardReadOver_engine]; exact w.2.2.1
  simp [State.activeDesc?, ha, hy]

/-- The engine without its descriptor (R76). -/
def State.withoutDesc (s : State) (pauseReq : Bool) : State :=
  { s with engine := { Engine.reset with state := if pauseReq then .paused else .idle } }

/-- Once the port is given back there is no claim to withdraw. -/
theorem dropEngine_withoutDesc {b : Bool} (hc : s.master.engineClaim = false) (hp : s.engine.pauseReq = b) :
    s.dropEngine = s.withoutDesc b := by
  subst hp
  have : ({ s.master with engineClaim := false } : MasterPort) = s.master := by rw [← hc]
  unfold State.dropEngine State.withoutDesc Engine.dropped
  rw [this]

/-- The descriptor's record is settled for a failure, or by its stop request, and the engine is without it. -/
theorem settleFailure_dropEngine {b : Bool} (hc : s.master.engineClaim = false) (hp : s.engine.pauseReq = b)
    (code : Code) (window : WindowIx) (side : SideName) (offset : Offset) :
    (s.settleFailure d y code window side offset).dropEngine =
      (s.failed d y code window side offset).withoutDesc b := by
  obtain ⟨he, hm, -⟩ := s.settleFailure_port d y code window side offset
  rw [dropEngine_withoutDesc (b := b) (by rw [hm]; exact hc) (by rw [he]; exact hp), settleFailure_failed]

theorem guardReadFails_eq (w : s.Works .guard d x) (hy : s.guardReadOver.descs.get d = some y)
    (hb : GivenBack s.guardReadOver) (code : Code) :
    s.guardReadFails g code =
      (s.guardReadOver.failed d y code g.window .guard (.at g.offset)).withoutDesc s.engine.pauseReq := by
  unfold State.guardReadFails
  simp only [w.guardReadOver_activeDesc hy]
  exact settleFailure_dropEngine hb.noClaim (by rw [w.guardReadOver_engine]) _ _ _ _

/-- A stop request is taken before the word read is looked at (step 1 of R72). -/
theorem guardReadWord_stopped (w : s.Works .guard d x) (hy : s.guardReadOver.descs.get d = some y)
    (hb : GivenBack s.guardReadOver) (hs : y.pr.stop ≠ .none) (word : Word) :
    s.guardReadWord g word =
      (s.guardReadOver.failed d y .busError g.window .guard (.at g.offset)).withoutDesc s.engine.pauseReq := by
  have key := settleFailure_dropEngine (d := d) (y := y) hb.noClaim
    (show s.guardReadOver.engine.pauseReq = s.engine.pauseReq by rw [w.guardReadOver_engine])
    .busError g.window .guard (.at g.offset)
  unfold State.settleFailure at key
  rw [if_neg hs] at key
  unfold State.guardReadWord
  simp only [w.guardReadOver_activeDesc hy]
  rw [if_pos hs, key]

/-- A false guard brings the descriptor back to WAITING (step 3 of R72, R117). -/
theorem guardReadWord_false (w : s.Works .guard d x) (hy : s.guardReadOver.descs.get d = some y)
    (hb : GivenBack s.guardReadOver) (hs : y.pr.stop = .none) {word : Word} (hf : g.holds word = false) :
    s.guardReadWord g word = (s.guardReadOver.enterWaiting d y).withoutDesc s.engine.pauseReq := by
  unfold State.guardReadWord
  simp only [w.guardReadOver_activeDesc hy]
  rw [if_neg (not_not_intro hs), if_neg (by rw [hf]; simp)]
  exact dropEngine_withoutDesc hb.noClaim
    (show s.guardReadOver.engine.pauseReq = s.engine.pauseReq by rw [w.guardReadOver_engine])

/-- A spell that has moved no unit has not met its quota while blocks remain (R74). -/
theorem quotaMet_start (h : y.pr.blocksRem ≠ 0) : quotaMet y 0 = false := by
  unfold quotaMet
  split <;> simp [h]

/-- The record of a descriptor one of whose triggers is consumed (R71, R72). -/
def Desc.consumed (x : Desc) : Desc := { x with pr := { x.pr with pending := x.pr.pending - 1 } }

/-- The state at the boundary before a spell's first unit. -/
def State.spellStarted (s : State) (d : DescIx) (x : Desc) : State :=
  { s.putDesc d (some x.consumed) with engine := { s.engine with spellBegun := true } }

/-- At the boundary before its first unit a spell is paused, or goes on (steps 5 and 6 of R73). -/
theorem startSpell_eq (hblk : y.pr.blocksRem ≠ 0) (hs : y.pr.stop = .none) (hu : s.engine.unitsSince = 0) :
    s.startSpell d y = if s.engine.pauseReq then ((s.spellStarted d y).setAside d y.consumed true).letGo
      else (s.spellStarted d y).continueSpell d y.consumed false := by
  have hstop : ¬ y.consumed.pr.stop ≠ .none := by simp [Desc.consumed, hs]
  have hquota : quotaMet y.consumed (s.spellStarted d y).engine.unitsSince = false := by
    show quotaMet y.consumed s.engine.unitsSince = false
    rw [hu]; exact quotaMet_start hblk
  have hunits : (s.spellStarted d y).engine.unitsSince = 0 := hu
  show (s.spellStarted d y).boundary d y.consumed false = _
  unfold State.boundary
  rw [if_neg (show ¬ y.consumed.pr.blocksRem = 0 from hblk), if_neg hstop, hquota, hunits]
  simp
  rfl

/-- A true guard starts the spell (step 4 of R72). -/
theorem guardReadWord_true (w : s.Works .guard d x) (hy : s.guardReadOver.descs.get d = some y)
    (hs : y.pr.stop = .none) {word : Word} (hf : g.holds word = true) :
    s.guardReadWord g word = s.guardReadOver.startSpell d y := by
  unfold State.guardReadWord
  simp only [w.guardReadOver_activeDesc hy]
  rw [if_neg (not_not_intro hs), if_pos hf]

/-- The state after a descriptor is set aside at the head of its level, its resume mark on (R73, R75, R98). -/
def State.asideAt (s : State) (d : DescIx) (x : Desc) : State :=
  { s with
    descs := s.descs.put d (some { x with state := .queued, pr := { x.pr with resume := true } })
    sweepMarks := s.sweepMarks.put d false
    ready := s.ready.put x.st.priority (d :: s.ready.get x.st.priority) }

/-- A pause before the first unit sets the descriptor aside (R75); the port has gone back already. -/
theorem startSpell_paused (hb : GivenBack t) (hp : t.engine.pauseReq = true) (hblk : y.pr.blocksRem ≠ 0)
    (hs : y.pr.stop = .none) (hu : t.engine.unitsSince = 0) :
    t.startSpell d y = (t.asideAt d y.consumed).withoutDesc true := by
  rw [startSpell_eq hblk hs hu, if_pos hp]
  have drop : ((t.spellStarted d y).setAside d y.consumed true).dropEngine =
      ((t.spellStarted d y).setAside d y.consumed true).withoutDesc true := dropEngine_withoutDesc hb.noClaim hp
  have aside : ((t.spellStarted d y).setAside d y.consumed true).withoutDesc true =
      (t.asideAt d y.consumed).withoutDesc true := by
    unfold State.setAside
    rw [putDesc_unmarked _ _ _ (by simp [Desc.withProgress])]
    simp [State.spellStarted, State.putDesc, State.asideAt, State.insertHead, State.putReady, State.withoutDesc,
      Desc.withProgress]
  unfold State.letGo State.engineGivesBack
  rw [drop, aside]
  exact if_neg hb.notEngine

/-- The engine in WAIT_PORT with its claim put in. -/
def State.claimed (s : State) : State :=
  { s with
    engine := { s.engine with state := .waitPort, inFlight := none }
    master := { s.master with
      engineClaim := true
      bus := if s.master.bus = .notRequesting then .requesting else s.master.bus } }

theorem claimPort_claimed (hb : GivenBack t) : t.claimPort = t.claimed := by
  unfold State.claimPort
  simp only
  rw [if_neg hb.notEngine, if_neg fun h => hb.notFree ⟨h.1, h.2.1⟩]
  rfl

/-- Without a pause the port is claimed again, for it has gone back (step 6 of R73, R81). -/
theorem startSpell_claims (hb : GivenBack t) (hp : t.engine.pauseReq = false) (hblk : y.pr.blocksRem ≠ 0)
    (hs : y.pr.stop = .none) (hu : t.engine.unitsSince = 0) :
    t.startSpell d y = (t.spellStarted d y).claimed := by
  have started : GivenBack (t.spellStarted d y) := ⟨hb.noClaim, hb.notEngine, hb.notFree⟩
  rw [startSpell_eq hblk hs hu, if_neg (by simp [hp])]
  unfold State.continueSpell
  rw [if_neg fun h => started.notEngine h.1, claimPort_claimed started]

/-! ### With no visit waiting

The port is then at rest after the read, and the records are as they were; how a record is settled does not look at the
engine or the Master Port. -/

/-- The state with another engine and another Master Port. -/
def State.atPort (s : State) (e : Engine) (m : MasterPort) : State := { s with engine := e, master := m }

section AtPort

variable (s : State) (e : Engine) (m : MasterPort)

theorem retire_atPort (d : DescIx) (x : Desc) (reason : Code) (detail : Option (SideName × Offset)) :
    (s.atPort e m).retire d x reason detail = (s.retire d x reason detail).atPort e m := by
  rw [retire_eq, retire_eq]
  simp only
  split <;> rfl

theorem makeEmpty_atPort (d : DescIx) (x : Desc) : (s.atPort e m).makeEmpty d x = (s.makeEmpty d x).atPort e m := by
  unfold State.makeEmpty
  rw [leaveQueue_ready, leaveQueue_ready]
  rfl

theorem keepReport_atPort (p : PortIx) (r : Report) :
    (s.atPort e m).keepReport p r = (s.keepReport p r).atPort e m := by
  have record : ((s.atPort e m).fnu.get p).record = (s.fnu.get p).record := rfl
  unfold State.keepReport
  simp only [record]
  split <;> rfl

theorem takeReport_atPort (p : PortIx) (r : Report) :
    (s.atPort e m).takeReport p r = (s.takeReport p r).atPort e m := by
  have ports : (s.atPort e m).ports = s.ports := rfl
  unfold State.takeReport
  rw [ports, keepReport_atPort, keepReport_atPort]
  split
  · rfl
  · split <;> rfl

theorem drainReports_atPort : (s.atPort e m).drainReports = s.drainReports.atPort e m := by
  have fold : ∀ (l : List (PortIx × Report)) (t : State), l.foldl (fun s r => s.takeReport r.1 r.2) (t.atPort e m) =
      (l.foldl (fun s r => s.takeReport r.1 r.2) t).atPort e m := fun l => by
    induction l with
    | nil => exact fun t => rfl
    | cons r l ih => exact fun t => by rw [List.foldl_cons, List.foldl_cons, takeReport_atPort, ih]
  exact fold s.reports { s with reports := [] }

theorem reportNow_atPort (p : PortIx) (r : Report) : (s.atPort e m).reportNow p r = (s.reportNow p r).atPort e m := by
  unfold State.reportNow
  rw [drainReports_atPort, takeReport_atPort]

theorem failed_atPort (d : DescIx) (x : Desc) (code : Code) (window : WindowIx) (side : SideName) (offset : Offset) :
    (s.atPort e m).failed d x code window side offset = (s.failed d x code window side offset).atPort e m := by
  unfold State.failed
  simp only [retire_atPort, reportNow_atPort, makeEmpty_atPort]
  cases x.pr.stop <;> rfl

end AtPort

/-- A record settled after the engine, alone on the bus, has given the port back leaves the engine at rest. -/
theorem failed_rested (d : DescIx) (x : Desc) (code : Code) (window : WindowIx) (side : SideName) (offset : Offset) :
    ((s.atPort { s.engine with inFlight := none } MasterPort.reset).failed d x code window side offset).withoutDesc
      s.engine.pauseReq = (s.failed d x code window side offset).rested := by
  obtain ⟨he, -⟩ := s.settleFailure_port d x code window side offset
  rw [failed_atPort]
  unfold State.rested
  rw [← settleFailure_failed, he]
  rfl

/-! ### The two claims -/

theorem guardReadDecidesAlone_claim : Claims.GuardReadDecidesAlone := by
  intro s d x g w hg ha hc
  have alone : s.guardReadOver = s.atPort { s.engine with inFlight := none } MasterPort.reset :=
    guardReadOver_alone ha hc
  have hb : GivenBack s.guardReadOver := engineGivesBack_givenBack
    (s := { s with engine := { s.engine with inFlight := none } }) ha.1 hc
  have hx : s.guardReadOver.descs.get d = some x := by rw [alone]; exact w.2.2.2
  have fails : exec (.guardReadEnd .busError) s =
      .next (s.failed d x .busError g.window .guard (.at g.offset)).rested := by
    rw [exec_guardReadEnd_busError w hg, guardReadFails_eq w hx hb, alone, failed_rested]
  have stopped : x.pr.stop ≠ .none → ∀ result, exec (.guardReadEnd result) s =
      .next (s.failed d x .busError g.window .guard (.at g.offset)).rested := fun hs result => by
    cases result with
    | busError => exact fails
    | word word => rw [exec_guardReadEnd_word w hg, guardReadWord_stopped w hx hb hs, alone, failed_rested]
  unfold State.failed at fails stopped
  refine ⟨fun hs result => ⟨fun h => ?_, fun h => ?_, fun h => ?_⟩,
    fun hs => ⟨?_, fun word => ⟨fun hf => ?_, fun hf hblk hu => ⟨fun hp => ?_, fun hp => ?_⟩⟩⟩⟩
  · rw [stopped hs, h]
  · rw [stopped hs, h]
  · rw [stopped hs, h]
  · rw [fails, hs]
  · rw [exec_guardReadEnd_word w hg, guardReadWord_false w hx hb hs hf, alone]
    rfl
  · rw [exec_guardReadEnd_word w hg, guardReadWord_true w hx hs hf,
      startSpell_paused hb (by rw [alone]; exact hp) hblk hs (by rw [alone]; exact hu), alone]
    unfold State.rested
    simp only [hp]
    rfl
  · rw [exec_guardReadEnd_word w hg, guardReadWord_true w hx hs hf,
      startSpell_claims hb (by rw [alone]; exact hp) hblk hs (by rw [alone]; exact hu), alone]
    rfl

theorem guardReadDecidesAfterGiveBack_claim : Claims.GuardReadDecidesAfterGiveBack := by
  intro s d x g w hg hh hc t rest
  have hb : GivenBack s.guardReadOver := engineGivesBack_givenBack
    (s := { s with engine := { s.engine with inFlight := none } }) hh hc
  have he : s.guardReadOver.engine = { s.engine with inFlight := none } := w.guardReadOver_engine
  obtain ⟨y, hy⟩ := w.guardReadOver_desc
  refine ⟨y, hy, ?_, fun hs word => ?_, fun hs word => ⟨fun hf => ?_, fun hf hblk hu => ⟨fun hp => ?_, fun hp => ?_⟩⟩⟩
  · rw [exec_guardReadEnd_busError w hg, guardReadFails_eq w hy hb]
    rfl
  · rw [exec_guardReadEnd_word w hg, guardReadWord_stopped w hy hb hs]
    rfl
  · rw [exec_guardReadEnd_word w hg, guardReadWord_false w hy hb hs hf]
    rfl
  · rw [exec_guardReadEnd_word w hg, guardReadWord_true w hy hs hf,
      startSpell_paused hb (by rw [he]; exact hp) hblk hs (by rw [he]; exact hu)]
    simp only [rest, hp]
    rfl
  · rw [exec_guardReadEnd_word w hg, guardReadWord_true w hy hs hf,
      startSpell_claims hb (by rw [he]; exact hp) hblk hs (by rw [he]; exact hu)]
    simp only [State.claimed, State.spellStarted, he]
    rfl

/-- Settles O45: the read end is taken after the port is given back; alone on the bus that leaves every record as it
was. -/
theorem guardReadDecides : Obligations.GuardReadDecides :=
  ⟨guardReadDecidesAlone_claim, guardReadDecidesAfterGiveBack_claim⟩

end GuardRead

end Sys2Proof.Machine
end

section
/-! The obligations whose parts the sections above prove one by one. -/

namespace Sys2Proof.Machine

/-- Settles O18: the arguments of a LOAD, the record it writes and the checks before it. -/
theorem loadWritesDescriptor : Obligations.LoadWritesDescriptor :=
  ⟨loadArgumentsParsed_claim, progressInitialised_claim, loadByChecks_claim⟩

/-- Settles O19: the checks of READ_DESCRIPTOR and the words of its images. -/
theorem readDescriptorReports : Obligations.ReadDescriptorReports :=
  ⟨readDescriptorByPart_claim, staticImageWords_claim, progressImageWords_claim, enumerationsHaveNumbers_claim⟩

/-- Settles O32: what each verb does at its target, and the image that its verdict carries. -/
theorem verbActsOnTarget : Obligations.VerbActsOnTarget :=
  ⟨verbsTaken_claim, verbImageWords_claim⟩

end Sys2Proof.Machine
end

section
/-! The rules of ports, gates, routes, windows and deferred visits (O7), as one structure: each command either stays
inside the frame of Laws/Frame or writes one of the tables, and the rule of that table is then kept. -/

namespace Sys2Proof.Machine

open Host (Outcome)

variable {s t : State}

/-! ### The claims table by table -/

/-- What the rules say of the record of port p: P0 at level 0, another CLOSING port at level 3, and a command pending
at an OPEN port alone (R157, R161, R162, R181). -/
structure PortRec.Fits (r : PortRec) (p : PortIx) : Prop where
  levelZero : p = 0 → r.level = 0
  closing : p ≠ 0 → r.state = .closing → r.level = 3
  held : r.held.isSome = true → r.state = .opened

/-- A port record with the same state and level, and no command held that was not, is as it must be. -/
theorem PortRec.Fits.of_same {r r' : PortRec} {p : PortIx} (h : r.Fits p) (hs : r'.state = r.state)
    (hl : r'.level = r.level) (hh : r'.held.isSome = true → r.held.isSome = true) : r'.Fits p where
  levelZero := by rw [hl]; exact h.levelZero
  closing := by rw [hl, hs]; exact h.closing
  held := fun k => hs.trans (h.held (hh k))

/-- The claims of `State.TablesOk`, those about ports gathered by port. -/
structure Tables (s : State) : Prop where
  port : ∀ p, (s.ports.get p).Fits p
  overflow : s.OverflowOk
  nullGate : s.gates.get 0 = none
  route : ∀ l, (s.routes.get l).gate ≠ some 0
  window : s.WindowsOk
  deferred : s.DeferredOk

theorem tablesOk_iff_tables : s.TablesOk ↔ Tables s := by
  constructor
  · rintro ⟨⟨zero, closing⟩, pending, overflow, ⟨gate, route⟩, window, deferred⟩
    exact ⟨fun p => ⟨by rintro rfl; exact zero, closing p, pending p⟩, overflow, gate, route, window, deferred⟩
  · intro h
    exact ⟨⟨(h.port 0).levelZero rfl, fun p => (h.port p).closing⟩, fun p => (h.port p).held, h.overflow,
      ⟨h.nullGate, h.route⟩, h.window, h.deferred⟩

/-! ### One rule for each kind of change -/

/-- The claims read the ports, the notice records, the gates, the routes, the windows and the deferred count alone. -/
theorem Tables.congr (h : Tables s) (hp : t.ports = s.ports) (hf : t.fnu = s.fnu) (hg : t.gates = s.gates)
    (hr : t.routes = s.routes) (hw : t.windows = s.windows) (hd : t.sweep.deferred = s.sweep.deferred) : Tables t where
  port := by rw [hp]; exact h.port
  overflow := h.overflow.congr hf
  nullGate := by rw [hg]; exact h.nullGate
  route := by rw [hr]; exact h.route
  window := by unfold State.WindowsOk; rw [hw]; exact h.window
  deferred := by unfold State.DeferredOk; rw [hd]; exact h.deferred

/-- What stays inside the frame keeps the claims. -/
theorem Tables.frame (h : Tables s) (f : Frame s t) : Tables t where
  port := by rw [f.ports]; exact h.port
  overflow := f.overflow h.overflow
  nullGate := by rw [f.gates]; exact h.nullGate
  route := by rw [f.routes]; exact h.route
  window := by unfold State.WindowsOk; rw [f.windows]; exact h.window
  deferred := Nat.le_trans f.deferred h.deferred

theorem Tables.putPort (h : Tables s) {p : PortIx} {r : PortRec} (hr : r.Fits p) : Tables (s.putPort p r) :=
  { h with
    port := fun q => by
      rw [State.putPort_ports, Tab.get_put]
      split
      · rename_i hq; exact hq ▸ hr
      · exact h.port q }

/-- A port record rewritten with its state and level, and no command held that was not. -/
theorem Tables.putPort_same (h : Tables s) {p : PortIx} {r : PortRec} (hs : r.state = (s.ports.get p).state)
    (hl : r.level = (s.ports.get p).level) (hh : r.held.isSome = true → (s.ports.get p).held.isSome = true) :
    Tables (s.putPort p r) :=
  h.putPort ((h.port p).of_same hs hl hh)

theorem Tables.putNotice (h : Tables s) (p : PortIx) {r : NoticeRec}
    (hr : r.overflow = true → r.record.isSome = true) : Tables (s.putNotice p r) :=
  { h with overflow := putNotice_overflow p r hr h.overflow }

theorem Tables.evalInt (h : Tables s) (p : PortIx) : Tables (s.evalInt p) := h.congr rfl rfl rfl rfl rfl rfl

theorem Tables.putGate (h : Tables s) {g : GateIx} (hg : g ≠ 0) (gate : Option Gate) :
    Tables { s with gates := s.gates.put g gate } :=
  { h with nullGate := (Tab.get_put_of_ne _ _ hg).trans h.nullGate }

theorem Tables.putRoute (h : Tables s) (l : LineIx) {route : Route} (hr : route.gate ≠ some 0) :
    Tables { s with routes := s.routes.put l route } :=
  { h with
    route := fun k => by
      show ((s.routes.put l route).get k).gate ≠ some 0
      rw [Tab.get_put]
      split
      · exact hr
      · exact h.route k }

theorem Tables.putWindow (h : Tables s) (w : WindowIx) {win : Option Window} (hw : ∀ v ∈ win, v.Ok) :
    Tables { s with windows := s.windows.put w win } :=
  { h with
    window := fun k => by
      show ∀ v ∈ (s.windows.put w win).get k, v.Ok
      rw [Tab.get_put]
      split
      · exact hw
      · exact h.window k }

/-- A change of the engine's and the master port's records is none of the tables' concern. -/
theorem Tables.engine (h : Tables s) (e : Engine) (m : MasterPort) : Tables { s with engine := e, master := m } :=
  h.congr rfl rfl rfl rfl rfl rfl

theorem Tables.answer (h : Tables s) (hd : Handed) (c : Code) (w : PortWords) : Tables (s.answer hd c w) :=
  h.congr rfl rfl rfl rfl rfl rfl

theorem Tables.refuse (h : Tables s) (hd : Handed) (c : Code) : Tables (s.refuse hd c) := h.answer hd c _

/-! ### How a command reaches its operation, and the reset pin -/

theorem Tables.whileRunning (h : Tables s) {event : State → State} (he : Tables (event s))
    (ht : whileRunning event s = .next t) : Tables t := by
  unfold Sys2Proof.Machine.whileRunning at ht
  cases ht
  split
  · exact h
  · exact he

theorem Tables.ownerTakes (h : Tables s) {c : Command} {p : PortIx} {id : Word} {act : Handed → State → State}
    (ha : ∀ hd u, Tables u → Tables (act hd u)) (ht : ownerTakes c p id act s = .next t) : Tables t := by
  refine h.whileRunning ?_ ht
  split
  · exact h
  · exact ha _ _ (h.congr rfl rfl rfl rfl rfl rfl)

theorem Tables.reset : Tables State.reset where
  port := fun p => by
    rw [reset_port]
    exact ⟨fun hp => by rw [if_pos hp]; rfl, nofun, fun _ => rfl⟩
  overflow := fun p => by simp [State.reset, NoticeRec.reset]
  nullGate := by simp [State.reset]
  route := fun l => by simp [State.reset]
  window := fun w v hv => by simp [State.reset] at hv
  deferred := Nat.zero_le _

/-! ### Ports (chapters 9 and 11) -/

theorem Tables.writeArgument (h : Tables s) (p : PortIx) (i : Fin 16) (bytes : BitVec 4) (value : Word) :
    Tables (s.writeArgument p i bytes value) := by
  unfold State.writeArgument
  simp only
  split <;> exact h.putPort_same rfl rfl id

/-- A command write holds a command only at an OPEN port (R157). -/
theorem PortRec.Fits.commandWritten {r : PortRec} {p : PortIx} (h : r.Fits p) (code : Word) :
    (r.commandWritten code).Fits p := by
  unfold PortRec.commandWritten
  split
  · exact h.of_same rfl rfl id
  · split
    · exact h.of_same rfl rfl id
    · rename_i hopen
      refine ⟨h.levelZero, h.closing, fun _ => ?_⟩
      show r.state = .opened
      cases hs : r.state with
      | opened => rfl
      | closing => exact absurd hs hopen

theorem Tables.handCommand (h : Tables s) (p : PortIx) (hc : HeldCommand) (c : Command)
    (ho : (s.ports.get p).state = .opened) : Tables (s.handCommand p hc c) := by
  have key : Tables (s.putPort p
      { s.ports.get p with held := some { hc with admitted := true }, lastAdmitted := hc.code }) :=
    h.putPort ⟨(h.port p).levelZero, (h.port p).closing, fun _ => ho⟩
  unfold State.handCommand
  simp only
  split <;> exact key.congr rfl rfl rfl rfl rfl rfl

/-- A posted result leaves no command pending (R159). -/
theorem Tables.post (h : Tables s) (p : PortIx) (code : Code) (words : PortWords) :
    Tables (s.putPort p ((s.ports.get p).post code words)) :=
  h.putPort_same rfl rfl fun k => by cases k

theorem awaitingAdmission?_opened {p : PortIx} {hc : HeldCommand} (h : s.awaitingAdmission? p = some hc) :
    (s.ports.get p).state = .opened := by
  unfold State.awaitingAdmission? at h
  simp only at h
  split at h
  · assumption
  · cases h

theorem Tables.admitCommand (h : Tables s) {p : PortIx} {hc : HeldCommand} (hw : s.awaitingAdmission? p = some hc) :
    Tables (s.admitCommand p hc) := by
  unfold State.admitCommand
  simp only
  split
  · exact h.post _ _ _
  · exact h.handCommand _ _ _ (awaitingAdmission?_opened hw)

/-- SET_PORT_LEVEL writes neither P0 nor a CLOSING port (R162). -/
theorem Tables.setPortLevel (h : Tables s) (hd : Handed) : Tables (s.setPortLevel hd) := by
  unfold State.setPortLevel
  split
  · exact h.refuse _ _
  · split
    · exact h.refuse _ _
    · rename_i q _ hq
      split
      · exact h.refuse _ _
      · rename_i level _
        simp only
        split
        · exact h.refuse _ _
        · rename_i hopen
          have fits : PortRec.Fits { s.ports.get q with level } q :=
            ⟨fun hz => absurd hz hq, fun _ hc => absurd hc hopen, (h.port q).held⟩
          exact (h.putPort fits).answer _ _ _

/-- A port withdrawn holds no command, and has the level of its reset (R181). -/
theorem PortRec.withdrawn_fits (r : PortRec) (p : PortIx) (state : PortState) : (r.withdrawn p state).Fits p :=
  ⟨fun hp => if_pos hp, fun hp _ => if_neg hp, fun k => by cases k⟩

theorem withdrawDesc_frame (s : State) (p : PortIx) (d : DescIx) : Frame s (s.withdrawDesc p d) := by
  unfold State.withdrawDesc
  split
  · exact Frame.refl s
  · split
    · exact Frame.refl s
    · split
      · split
        · exact (s.makeEmpty_frame _ _).trans (State.dropEngine_frame _)
        · exact s.putDesc_frame _ _
      · exact s.makeEmpty_frame _ _

theorem withdrawDescs_frame (s : State) (p : PortIx) (l : List DescIx) :
    Frame s (l.foldl (State.withdrawDesc p) s) := by
  induction l generalizing s with
  | nil => exact Frame.refl s
  | cons d l ih => exact (withdrawDesc_frame s p d).trans (ih _)

theorem Tables.withdrawPort (h : Tables s) (p : PortIx) : Tables (s.withdrawPort p) := by
  unfold State.withdrawPort
  split
  · exact h
  · have freed := (h.frame (withdrawDescs_frame s p (List.finRange 128))).putNotice p (r := NoticeRec.reset) nofun
    exact (freed.putPort (PortRec.withdrawn_fits _ p _)).evalInt p

theorem Tables.withdrawCommand (h : Tables s) (hd : Handed) : Tables (s.withdrawCommand hd) := by
  unfold State.withdrawCommand
  split
  · exact h.refuse _ _
  · split
    · exact h.withdrawPort _
    · exact (h.withdrawPort _).answer _ _ _

/-! ### Descriptors (chapters 1, 3, 6 and 7) -/

theorem Tables.descriptorChecks (h : Tables s) (hd : Handed) {act : DescIx → Option Desc → State}
    (ha : ∀ d x, Tables (act d x)) : Tables (s.descriptorChecks hd act) := by
  unfold State.descriptorChecks
  split
  · exact h.refuse _ _
  · split
    · exact ha _ _
    · split
      · exact ha _ _
      · exact h.refuse _ _

theorem loadDesc_frame (s : State) (d : DescIx) (owner : PortIx) (st : StaticPart) :
    Frame s (s.loadDesc d owner st) :=
  (s.putDesc_frame _ _).trans (State.setRetired_frame _ _ _ _)

theorem Tables.loadSlot (h : Tables s) (hd : Handed) (d : DescIx) (x : Option Desc) : Tables (s.loadSlot hd d x) := by
  unfold State.loadSlot
  split
  · exact h.refuse _ _
  · split
    · exact h.refuse _ _
    · split
      · exact h.refuse _ _
      · exact (h.frame (loadDesc_frame s _ _ _)).answer _ _ _

theorem Tables.load (h : Tables s) (hd : Handed) : Tables (s.load hd) := by
  refine h.descriptorChecks hd fun d x => ?_
  split
  · exact h.refuse _ _
  · exact h.loadSlot _ _ _

theorem Tables.readDescriptor (h : Tables s) (hd : Handed) : Tables (s.readDescriptor hd) := by
  refine h.descriptorChecks hd fun d x => ?_
  simp only
  split
  · exact h.refuse _ _
  · split <;> exact h.answer _ _ _

theorem Tables.arm (h : Tables s) (hd : Handed) : Tables (s.arm hd) := by
  refine h.descriptorChecks hd fun d x => ?_
  split
  · exact h.refuse _ _
  · split
    · exact h.refuse _ _
    · split
      · exact h.answer _ _ _
      · exact (h.frame ((s.putDesc_frame _ _).trans (State.setRetired_frame _ _ _ _))).answer _ _ _

theorem Tables.disarm (h : Tables s) (hd : Handed) : Tables (s.disarm hd) := by
  refine h.descriptorChecks hd fun d x => ?_
  split
  · exact h.refuse _ _
  · rename_i x
    have disarmed := fun y : Option Desc => h.frame ((s.leaveQueue_frame d x).trans (State.putDesc_frame _ d y))
    split
    case h_4 => exact h.answer _ _ _
    case h_5 | h_6 => exact h.refuse _ _
    all_goals exact (disarmed _).answer _ _ _

theorem Tables.release (h : Tables s) (hd : Handed) : Tables (s.release hd) := by
  refine h.descriptorChecks hd fun d x => ?_
  split
  · exact h.refuse _ _
  · split
    · exact (h.frame (s.makeEmpty_frame _ _)).answer _ _ _
    · exact h.refuse _ _

theorem applyVerb_frame (s : State) (kind : GateKind) (d : DescIx) (x : Desc) : Frame s (s.applyVerb kind d x).1 := by
  unfold State.applyVerb
  cases kind with
  | trigger => exact s.acceptTrigger_frame d x
  | renew => exact s.putDesc_frame _ _
  | cancel =>
    simp only
    split
    · exact s.putDesc_frame _ _
    · exact s.retire_frame _ _ _ _

theorem Tables.verdictTo (h : Tables s) (i : Invocation) (c : Code) (w : PortWords) : Tables (s.verdictTo i c w) := by
  unfold State.verdictTo
  split
  · exact h.congr rfl rfl rfl rfl rfl rfl
  · exact h

theorem Tables.targetRefuses (h : Tables s) (i : Invocation) (c : Code) : Tables (s.targetRefuses i c) := by
  unfold State.targetRefuses
  split
  · exact h.verdictTo _ _ _
  · exact h.frame (s.handReport_frame _ _)

theorem Tables.invokeTarget (h : Tables s) (i : Invocation) : Tables (s.invokeTarget i) := by
  unfold State.invokeTarget
  split
  · exact h.targetRefuses _ _
  · exact ((h.frame (applyVerb_frame s _ _ _)).verdictTo _ _ _).frame (State.stopInWaitPort_frame _ _)

theorem takeChain_frame (s : State) (c : Chain) : Frame s (s.takeChain c) := by
  unfold State.takeChain
  split
  · exact s.handReport_frame _ _
  · exact s.acceptTrigger_frame _ _

theorem applyGuardResult_frame (s : State) (r : GuardResult) (x : Desc) : Frame s (s.applyGuardResult r x) := by
  unfold State.applyGuardResult
  split
  · exact (s.putDesc_frame _ _).trans (State.insertTail_frame _ _ _)
  · exact Frame.refl s
  · exact s.retireFault_frame _ _ _ _ _ _

theorem takeGuardResult_frame (s : State) (r : GuardResult) : Frame s (s.takeGuardResult r) := by
  unfold State.takeGuardResult
  split
  · have unmarked : Frame s { s with sweepMarks := s.sweepMarks.put r.desc false } :=
      Frame.inner s _ _ _ _ _ _ _ _ _ _ _ _ _ (Nat.le_refl _)
    simp only
    split
    · exact unmarked
    · exact unmarked.trans (applyGuardResult_frame _ _ _)
  · exact Frame.refl s

/-! ### Gates, routes and windows (chapters 2 and 3) -/

/-- SET_GATE and CLEAR_GATE act on a gate other than G0 alone (R46, R48). -/
theorem Tables.gateChecks (h : Tables s) (hd : Handed) {act : GateIx → State} (ha : ∀ g, g ≠ 0 → Tables (act g)) :
    Tables (s.gateChecks hd act) := by
  unfold State.gateChecks
  split
  · exact h.refuse _ _
  · split
    · exact h.refuse _ _
    · rename_i hg
      split
      · exact h.refuse _ _
      · exact ha _ hg

theorem Tables.setGate (h : Tables s) (hd : Handed) : Tables (s.setGate hd) := by
  refine h.gateChecks hd fun g hg => ?_
  split
  · exact h.refuse _ _
  · exact (h.putGate hg _).answer _ _ _

theorem Tables.clearGate (h : Tables s) (hd : Handed) : Tables (s.clearGate hd) :=
  h.gateChecks hd fun _ hg => (h.putGate hg none).answer _ _ _

theorem Tables.readGate (h : Tables s) (hd : Handed) : Tables (s.readGate hd) := by
  unfold State.readGate
  split
  · exact h.refuse _ _
  · exact h.answer _ _ _

theorem Tables.invoke (h : Tables s) (hd : Handed) : Tables (s.invoke hd) := by
  unfold State.invoke
  simp only
  split
  · exact h.congr rfl rfl rfl rfl rfl rfl
  · split
    · exact h.answer _ _ _
    · exact h.refuse _ _

theorem Tables.takeLineInvocation (h : Tables s) (i : LineInv) : Tables (s.takeLineInvocation i) := by
  unfold State.takeLineInvocation
  split <;> exact h.congr rfl rfl rfl rfl rfl rfl

theorem routeGate?_ne_zero (n : Nat) : routeGate? n ≠ some 0 := by
  unfold routeGate?
  split
  · exact nofun
  · rename_i hn
    rw [ne_eq, index?_eq_some_iff]
    exact fun h => hn h.symm

/-- No route that SET_ROUTE can give names G0 (R60, R61). -/
theorem parseRoute_ne_zero {a : PortWords} {route : Route} (h : parseRoute a = some route) : route.gate ≠ some 0 := by
  unfold parseRoute at h
  simp only [Option.bind_eq_bind, Option.pure_def, Option.bind_eq_some_iff, Option.some.injEq] at h
  obtain ⟨gate, hgate, level, -, rfl⟩ := h
  intro hz
  exact routeGate?_ne_zero _ ((parseOptional_eq_some hgate).2.1 0 hz)

theorem Tables.setRoute (h : Tables s) (hd : Handed) : Tables (s.setRoute hd) := by
  unfold State.setRoute
  split
  · exact h.refuse _ _
  · split
    · exact h.refuse _ _
    · rename_i hr
      exact (h.putRoute _ (parseRoute_ne_zero hr)).answer _ _ _

theorem Tables.readRoute (h : Tables s) (hd : Handed) : Tables (s.readRoute hd) := by
  unfold State.readRoute
  split
  · exact h.refuse _ _
  · exact h.answer _ _ _

theorem Tables.lineEvent (h : Tables s) (l : LineIx) : Tables (s.lineEvent l) := by
  unfold State.lineEvent
  simp only
  split <;> exact h.congr rfl rfl rfl rfl rfl rfl

/-- A window that SET_WINDOW can give lies in the address space (R27, R29). -/
theorem parseWindow_ok {a : PortWords} {win : Window} (h : parseWindow a = some win) : win.Ok := by
  unfold parseWindow at h
  simp only [Option.bind_eq_bind, Option.pure_def, Option.bind_eq_some_iff] at h
  obtain ⟨level, -, access, -, h⟩ := h
  split at h
  · rename_i fits
    obtain ⟨aligned, nonzero, whole, inside⟩ := fits
    cases h
    exact ⟨aligned, Nat.le_of_dvd (Nat.pos_of_ne_zero nonzero) (Nat.dvd_of_mod_eq_zero whole), whole, inside⟩
  · cases h

theorem Tables.windowChecks (h : Tables s) (hd : Handed) {act : WindowIx → State} (ha : ∀ w, Tables (act w)) :
    Tables (s.windowChecks hd act) := by
  unfold State.windowChecks
  split
  · exact h.refuse _ _
  · split
    · exact h.answer _ _ _
    · exact ha _

theorem Tables.setWindow (h : Tables s) (hd : Handed) : Tables (s.setWindow hd) := by
  refine h.windowChecks hd fun w => ?_
  split
  · exact h.refuse _ _
  · rename_i hw
    exact (h.putWindow w fun v hv => by cases hv; exact parseWindow_ok hw).answer _ _ _

theorem Tables.clearWindow (h : Tables s) (hd : Handed) : Tables (s.clearWindow hd) :=
  h.windowChecks hd fun w => (h.putWindow w (win := none) fun _ hv => by cases hv).answer _ _ _

theorem Tables.readWindow (h : Tables s) (hd : Handed) : Tables (s.readWindow hd) := by
  unfold State.readWindow
  split
  · exact h.refuse _ _
  · exact h.answer _ _ _

/-! ### Notices (chapter 10) -/

theorem Tables.takeFault (h : Tables s) (hd : Handed) : Tables (s.takeFault hd) := by
  unfold State.takeFault
  simp only
  split
  · exact h.answer _ _ _
  · refine ((h.putNotice _ ?_).evalInt _).answer _ _ _
    exact nofun

theorem Tables.takeRetired (h : Tables s) (hd : Handed) : Tables (s.takeRetired hd) := by
  unfold State.takeRetired
  split
  · exact h.answer _ _ _
  · exact (h.frame (s.setRetired_frame _ _ _)).answer _ _ _

theorem Tables.setNotice (h : Tables s) (hd : Handed) : Tables (s.setNotice hd) := by
  unfold State.setNotice
  split
  · exact h.refuse _ _
  · refine ((h.putNotice _ ?_).evalInt _).answer _ _ _
    exact h.overflow hd.port

/-! ### The engine and the strobe channels (chapters 4 to 7) -/

theorem enterWaiting_frame (s : State) (d : DescIx) (x : Desc) : Frame s (s.enterWaiting d x) :=
  Frame.inner s _ _ _ _ _ _ _ _ _ _ _ _ _ (Nat.le_refl _)

theorem pauseInWaitPort_frame (s : State) : Frame s s.pauseInWaitPort := by
  have paused : ∀ u : State, Frame u (State.dropEngine { u with engine := { u.engine with pauseReq := true } }) :=
    fun u => (u.engine_frame _ _ _).trans (State.dropEngine_frame _)
  unfold State.pauseInWaitPort
  cases s.activeDesc? with
  | none => exact paused s
  | some a => exact (s.setAside_frame _ _ _).trans (paused _)

theorem pauseEngine_frame (h : s.pauseEngine = some t) : Frame s t := by
  unfold State.pauseEngine at h
  split at h
  case h_2 => cases h; exact pauseInWaitPort_frame s
  case h_6 => cases h
  all_goals cases h; exact s.engine_frame _ _ _

theorem Tables.pause (h : Tables s) (hd : Handed) : Tables (s.pause hd) := by
  unfold State.pause
  split
  · exact h.refuse _ _
  · rename_i ht; exact (h.frame (pauseEngine_frame ht)).answer _ _ _

theorem resumeEngine_frame (h : s.resumeEngine = some t) : Frame s t := by
  unfold State.resumeEngine at h
  split at h
  case h_1 => cases h; exact s.engine_frame _ _ _
  case h_5 | h_6 => cases h
  all_goals
    split at h
    · cases h; exact s.engine_frame _ _ _
    · cases h

theorem Tables.resume (h : Tables s) (hd : Handed) : Tables (s.resume hd) := by
  unfold State.resume
  split
  · exact h.refuse _ _
  · rename_i ht; exact (h.frame (resumeEngine_frame ht)).answer _ _ _

theorem takeSelection_frame (s : State) (d : DescIx) (x : Desc) : Frame s (s.takeSelection d x) := by
  have taken : Frame s { s with engine := { s.engine with active := some d, unitsSince := 0 } } :=
    s.engine_frame _ _ _
  have written := fun (y : Desc) (b : Bool) => (taken.trans (State.putDesc_frame _ d (some y))).trans
    (State.engine_frame _ { s.engine with active := some d, unitsSince := 0, spellBegun := b } s.master s.channels)
  unfold State.takeSelection
  simp only
  split
  · exact (written _ true).trans (State.boundary_frame _ _ _ _)
  · split
    · exact (written _ false).trans (State.claimPort_frame _)
    · exact taken.trans (State.startSpell_frame _ _ _)

theorem select_frame (s : State) : Frame s s.select := by
  unfold State.select
  split
  · exact Frame.refl s
  · split
    · exact Frame.refl s
    · rename_i k _ _ d rest _
      simp only
      split
      · exact s.putReady_frame k rest
      · exact (s.putReady_frame k rest).trans (takeSelection_frame _ _ _)

theorem guardReadWord_frame (s : State) (g : Guard) (word : Word) : Frame s (s.guardReadWord g word) := by
  have ended := s.guardReadOver_frame
  unfold State.guardReadWord
  simp only
  split
  · exact ended
  · split
    · exact (ended.trans (State.settleStop_frame _ _ _)).trans (State.dropEngine_frame _)
    · split
      · exact ended.trans (State.startSpell_frame _ _ _)
      · exact (ended.trans (enterWaiting_frame _ _ _)).trans (State.dropEngine_frame _)

theorem sourceReadDone_frame (s : State) (d : DescIx) (x : Desc) (f : InFlight) (data : UnitData) :
    Frame s (s.sourceReadDone d x f data) := by
  unfold State.sourceReadDone
  cases x.st.movement with
  | copy src dst => exact s.startDestinationWrite_frame _ _ _ _
  | send src strobe => exact s.startOffer_frame _ _ _ _
  | receive dst strobe => exact Frame.refl s
  | fill dst pattern => exact Frame.refl s

theorem accepted_frame (s : State) (c : ChannelIx) : Frame s (s.accepted c) := by
  unfold State.accepted
  simp only
  split
  · exact s.endExchange_frame c
  · split
    · exact (s.endExchange_frame c).trans (State.unitCompletes_frame _ _ _)
    · exact s.endExchange_frame c

theorem supplied_frame (s : State) (c : ChannelIx) (data : UnitData) : Frame s (s.supplied c data) := by
  unfold State.supplied
  simp only
  split
  · split
    · exact (s.endExchange_frame c).trans (State.putInFlight_frame _ _ _)
    · exact s.endExchange_frame c
  · exact s.endExchange_frame c

theorem waitExpires_frame (s : State) (c : ChannelIx) : Frame s (s.waitExpires c) := by
  unfold State.waitExpires
  split
  · exact Frame.refl s
  · exact s.exchangeFails_frame _ _
  · exact s.exchangeFails_frame _ _

theorem Tables.setStrobeLimit (h : Tables s) (hd : Handed) : Tables (s.setStrobeLimit hd) := by
  unfold State.setStrobeLimit
  simp only
  split
  · exact h.refuse _ _
  · exact h.congr rfl rfl rfl rfl rfl rfl

/-! ### The sweep (chapter 8) -/

theorem Tables.setSweep (h : Tables s) (hd : Handed) : Tables (s.setSweep hd) := by
  unfold State.setSweep
  simp only
  split
  · exact h.refuse _ _
  · exact { h with deferred := Nat.zero_le _ }

/-- A visit is deferred only while fewer than two are (R147). -/
theorem Tables.deferVisit (h : Tables s) (hd : s.sweep.deferred < Config.maxDeferred) : Tables s.deferVisit :=
  { h with deferred := hd }

theorem Tables.visitDue (h : Tables s) : Tables s.visitDue := by
  unfold State.visitDue
  split
  · rename_i hz
    split
    · have deferred := h.deferVisit (by rw [hz]; decide)
      unfold State.sweepClaim
      split
      · exact deferred.frame (State.handOn_frame _)
      · exact deferred
    · exact h.frame s.performVisit_frame
  · split
    · exact h.deferVisit (by assumption)
    · exact h.congr rfl rfl rfl rfl rfl rfl

theorem Tables.sweepExpires (h : Tables s) : Tables s.sweepExpires := by
  unfold State.sweepExpires
  split
  · exact h
  · exact Tables.visitDue (h.congr rfl rfl rfl rfl rfl rfl)

theorem sweepReadOver_frame (s : State) (r : SweepRead) (result : ReadEnd) : Frame s (s.sweepReadOver r result) := by
  have ended : Frame s { s with
      sweep := { s.sweep with read := none }
      guardResults := s.guardResults ++
        [{ desc := r.desc, guard := r.guard, outcome := r.outcome result, past := false }] } :=
    Frame.inner s _ _ _ _ _ _ _ _ _ _ _ _ _ (Nat.le_refl _)
  unfold State.sweepReadOver
  simp only
  split
  · exact ended.trans (State.serveRelease_frame _)
  · exact ended.trans (State.handOn_frame _)

theorem Tables.timeBase (h : Tables s) : Tables s.timeBase := by
  unfold State.timeBase
  split
  · exact h
  · split
    · exact h.sweepExpires
    · split
      · exact h.frame (waitExpires_frame s _)
      · exact h.congr rfl rfl rfl rfl rfl rfl

/-! ### Every command -/

/-- Every command keeps the claims about tables. -/
theorem Tables.exec (h : Tables s) (c : Instr) (ht : exec c s = .next t) : Tables t := by
  unfold Machine.exec at ht
  cases c with
  | argumentWordWrite p i bytes value => exact h.whileRunning (h.writeArgument p i bytes value) ht
  | registerWriteIgnored p target value => exact h.whileRunning (event := fun s => s) h ht
  | commandWrite p code => exact h.whileRunning (h.putPort ((h.port p).commandWritten code)) ht
  | admission p =>
    refine h.whileRunning ?_ ht
    split
    · exact h
    · exact h.admitCommand (by assumption)
  | clearStatus p =>
    refine h.whileRunning ?_ ht
    split
    · exact h
    · split
      · exact h.admitCommand (by assumption)
      · exact h
  | verdictPost p id =>
    refine h.whileRunning ?_ ht
    split
    · exact h
    · rename_i v _
      have taken : Tables { s with verdicts := s.verdicts.erase v } := h.congr rfl rfl rfl rfl rfl rfl
      simp only
      split
      · exact taken.post p v.code v.words
      · exact taken
  | load p id => exact h.ownerTakes (fun hd u hu => hu.load hd) ht
  | readDescriptor p id => exact h.ownerTakes (fun hd u hu => hu.readDescriptor hd) ht
  | arm p id => exact h.ownerTakes (fun hd u hu => hu.arm hd) ht
  | disarm p id => exact h.ownerTakes (fun hd u hu => hu.disarm hd) ht
  | release p id => exact h.ownerTakes (fun hd u hu => hu.release hd) ht
  | invoke p id => exact h.ownerTakes (fun hd u hu => hu.invoke hd) ht
  | setGate p id => exact h.ownerTakes (fun hd u hu => hu.setGate hd) ht
  | clearGate p id => exact h.ownerTakes (fun hd u hu => hu.clearGate hd) ht
  | readGate p id => exact h.ownerTakes (fun hd u hu => hu.readGate hd) ht
  | setWindow p id => exact h.ownerTakes (fun hd u hu => hu.setWindow hd) ht
  | clearWindow p id => exact h.ownerTakes (fun hd u hu => hu.clearWindow hd) ht
  | readWindow p id => exact h.ownerTakes (fun hd u hu => hu.readWindow hd) ht
  | setRoute p id => exact h.ownerTakes (fun hd u hu => hu.setRoute hd) ht
  | readRoute p id => exact h.ownerTakes (fun hd u hu => hu.readRoute hd) ht
  | setSweep p id => exact h.ownerTakes (fun hd u hu => hu.setSweep hd) ht
  | setStrobeLimit p id => exact h.ownerTakes (fun hd u hu => hu.setStrobeLimit hd) ht
  | pause p id => exact h.ownerTakes (fun hd u hu => hu.pause hd) ht
  | resume p id => exact h.ownerTakes (fun hd u hu => hu.resume hd) ht
  | setPortLevel p id => exact h.ownerTakes (fun hd u hu => hu.setPortLevel hd) ht
  | readStatus p id => exact h.ownerTakes (fun hd u hu => hu.answer hd _ _) ht
  | takeFault p id => exact h.ownerTakes (fun hd u hu => hu.takeFault hd) ht
  | takeRetired p id => exact h.ownerTakes (fun hd u hu => hu.takeRetired hd) ht
  | setNotice p id => exact h.ownerTakes (fun hd u hu => hu.setNotice hd) ht
  | withdraw p id => exact h.ownerTakes (fun hd u hu => hu.withdrawCommand hd) ht
  | sweepLateClear p id =>
    refine h.whileRunning ?_ ht
    split
    · exact h
    · exact h.congr rfl rfl rfl rfl rfl rfl
  | invocationAtTarget n =>
    refine h.whileRunning ?_ ht
    split
    · exact h
    · apply Tables.invokeTarget
      exact h.congr rfl rfl rfl rfl rfl rfl
  | lineInvocation n =>
    refine h.whileRunning ?_ ht
    split
    · exact h
    · apply Tables.takeLineInvocation
      exact h.congr rfl rfl rfl rfl rfl rfl
  | chain n =>
    refine h.whileRunning ?_ ht
    split
    · exact h
    · refine Tables.frame ?_ (takeChain_frame _ _)
      exact h.congr rfl rfl rfl rfl rfl rfl
  | guardResult n =>
    refine h.whileRunning ?_ ht
    split
    · exact h
    · refine Tables.frame ?_ (takeGuardResult_frame _ _)
      exact h.congr rfl rfl rfl rfl rfl rfl
  | endRequest n =>
    refine h.whileRunning ?_ ht
    split
    · exact h
    · exact h.congr rfl rfl rfl rfl rfl rfl
  | faultReport =>
    refine h.whileRunning ?_ ht
    split
    · exact h
    · refine Tables.frame ?_ (State.takeReport_frame _ _ _)
      exact h.congr rfl rfl rfl rfl rfl rfl
  | triggerLineEvent l =>
    refine h.whileRunning ?_ ht
    split
    · exact h
    · exact h.lineEvent l
  | triggerLineRelease l => exact h.whileRunning (h.congr rfl rfl rfl rfl rfl rfl) ht
  | withdrawLineEvent p =>
    refine h.whileRunning ?_ ht
    split
    · exact h
    · apply Tables.withdrawPort
      exact h.congr rfl rfl rfl rfl rfl rfl
  | withdrawLineRelease p => exact h.whileRunning (h.congr rfl rfl rfl rfl rfl rfl) ht
  | portReturnOpen p =>
    refine h.whileRunning ?_ ht
    split
    · have noted : Tables { s with freed := s.freed.put p false } := h.congr rfl rfl rfl rfl rfl rfl
      refine (noted.putPort ?_).evalInt p
      exact ⟨(h.port p).levelZero, nofun, fun _ => rfl⟩
    · exact h
  | resetPin => cases ht; exact Tables.reset.congr rfl rfl rfl rfl rfl rfl
  | resetRelease lines withdrawLines =>
    cases ht
    split
    · exact h.congr rfl rfl rfl rfl rfl rfl
    · exact h
  | selection =>
    refine h.whileRunning ?_ ht
    split
    · exact h.frame (select_frame s)
    · exact h
  | busGrant =>
    refine h.whileRunning ?_ ht
    split
    · exact (h.engine _ _).frame (State.handOn_frame _)
    · exact h
  | releaseRequest =>
    refine h.whileRunning ?_ ht
    split
    · exact h.engine _ _
    · exact h
  | guardReadEnd result =>
    refine h.whileRunning ?_ ht
    split
    · exact h
    · cases result with
      | word w => exact h.frame (guardReadWord_frame s _ w)
      | busError => exact h.frame (s.guardReadFails_frame _ _)
  | unitReadEnd data =>
    refine h.whileRunning ?_ ht
    split
    · exact h
    · split
      · exact h.frame (sourceReadDone_frame s _ _ _ data)
      · exact h
  | unitCompletion =>
    refine h.whileRunning ?_ ht
    split
    · exact h
    · split
      · exact h.frame (s.unitCompletes_frame _ _)
      · exact h
  | accessBusError =>
    refine h.whileRunning ?_ ht
    split
    · exact h
    · exact h.frame (s.unitFails_frame _ _ _ _ _ _)
  | accept c =>
    refine h.whileRunning ?_ ht
    split
    · exact h.frame (accepted_frame s c)
    · exact h
    · exact h
  | supply c data =>
    refine h.whileRunning ?_ ht
    split
    · exact h.frame (supplied_frame s c data)
    · exact h
    · exact h
  | refuse c =>
    refine h.whileRunning ?_ ht
    split
    · exact h
    · exact h.frame (s.exchangeFails_frame c _)
    · exact h.frame (s.exchangeFails_frame c _)
  | waitTimerExpiry c => exact h.whileRunning (h.frame (waitExpires_frame s c)) ht
  | sweepTimerExpiry => exact h.whileRunning h.sweepExpires ht
  | sweepReadEnd result =>
    refine h.whileRunning ?_ ht
    split
    · exact h
    · exact h.frame (sweepReadOver_frame s _ result)

/-- A step, of a command or of the time base, keeps the claims about tables. -/
theorem Tables.step (h : Tables s) (ht : step s = .next t) : Tables t := by
  unfold Sys2Proof.Machine.step at ht
  split at ht
  · cases ht; exact h.timeBase
  · rename_i c rest _
    have queued : Tables { s with pending := rest } := h.congr rfl rfl rfl rfl rfl rfl
    exact queued.exec c ht

/-- Settles O7: the claims of `TablesOk`, gathered by table, are carried through every command and the time base. -/
theorem stepKeepsTables : Obligations.StepKeepsTables := by
  unfold Obligations.StepKeepsTables
  intro s t hs ht
  exact tablesOk_iff_tables.2 ((tablesOk_iff_tables.1 hs).step ht)

end Sys2Proof.Machine
end

section
/-! What a completed unit does to one side's offset, stepping by stepping (R40, R41, R91, R92), and the progress it
writes (O23). -/

namespace Sys2Proof.Machine

variable {side : Side} {size : UnitSize} {blockEnd : Bool} {o : Word}

/-! ### One side -/

theorem stepSide_fixed (h : side.stepping = .fixed) (before : Offset) :
    stepSide (some side) size blockEnd before = before := by
  cases before <;> simp [stepSide, Offset.step, h]

/-- Only the return of UP_WRAP brings an offset back from below zero (R40, R92). -/
theorem stepSide_belowZero (h : ¬ (side.stepping = .upWrap ∧ blockEnd = true)) :
    stepSide (some side) size blockEnd .belowZero = .belowZero := by
  simp only [stepSide, Offset.step, Bool.and_eq_true, beq_iff_eq]
  exact if_neg fun ⟨hb, hs⟩ => h ⟨hs, hb⟩

theorem stepSide_wraps (h : side.stepping = .upWrap) (before : Offset) :
    stepSide (some side) size true before = .at side.start := by
  simp [stepSide, h]

theorem stepSide_up (h : side.stepping = .up ∨ (side.stepping = .upWrap ∧ blockEnd = false)) :
    stepSide (some side) size blockEnd (.at o) = .at (BitVec.ofNat 32 (o.toNat + size.bytes)) := by
  have sum : o + BitVec.ofNat 32 size.bytes = BitVec.ofNat 32 (o.toNat + size.bytes) := by
    rw [BitVec.ofNat_add, BitVec.ofNat_toNat, BitVec.setWidth_eq]
  rcases h with h | ⟨h, hb⟩
  · simp [stepSide, Offset.step, h, sum]
  · simp [stepSide, Offset.step, h, hb, sum]

theorem stepSide_down_below (h : side.stepping = .down) (hlt : o.toNat < size.bytes) :
    stepSide (some side) size blockEnd (.at o) = .belowZero := by
  simp [stepSide, Offset.step, h, hlt]

theorem stepSide_down (h : side.stepping = .down) (hle : size.bytes ≤ o.toNat) :
    stepSide (some side) size blockEnd (.at o) = .at (BitVec.ofNat 32 (o.toNat - size.bytes)) := by
  have difference : o - BitVec.ofNat 32 size.bytes = BitVec.ofNat 32 (o.toNat - size.bytes) := by
    have := size.bytes_le
    bv_omega
  simp [stepSide, Offset.step, h, Nat.not_lt.2 hle, difference]

/-! ### Both sides -/

/-- How a side's offset before a completed unit and the one after it stand to each other, in the words of the claim
(R40, R41, R92). -/
def SideSteps (size : UnitSize) (blockEnd : Prop) (side : Option Side) (before after : Offset) : Prop :=
  (side = none → after = before) ∧
  (∀ w ∈ side,
    (w.stepping = .fixed → after = before) ∧
    (before = .belowZero → (w.stepping = .upWrap ∧ blockEnd ∨ after = .belowZero)) ∧
    (w.stepping = .upWrap → blockEnd → after = .at w.start) ∧
    (∀ o : Word, before = .at o →
      (w.stepping = .up ∨ (w.stepping = .upWrap ∧ ¬ blockEnd) →
        after = .at (BitVec.ofNat 32 (o.toNat + size.bytes))) ∧
      (w.stepping = .down → o.toNat < size.bytes → after = .belowZero) ∧
      (w.stepping = .down → size.bytes ≤ o.toNat → after = .at (BitVec.ofNat 32 (o.toNat - size.bytes)))))

theorem stepSide_steps (side : Option Side) (size : UnitSize) (blockEnd : Bool) (before : Offset) :
    SideSteps size (blockEnd = true) side before (stepSide side size blockEnd before) := by
  refine ⟨fun hnone => by rw [hnone]; rfl, fun w hw => ?_⟩
  cases hw
  refine ⟨fun h => stepSide_fixed h before, fun hb => ?_, fun h hb => ?_, fun o ho => ?_⟩
  · subst hb
    exact Classical.or_iff_not_imp_left.2 stepSide_belowZero
  · subst hb
    exact stepSide_wraps h before
  · subst ho
    exact ⟨fun h => stepSide_up (h.imp_right (And.imp_right Bool.eq_false_iff.2)), stepSide_down_below, stepSide_down⟩

/-- Settles O23: a case for each stepping at the side, and the counts by the block end. -/
theorem completedUnitProgress : Obligations.CompletedUnitProgress := by
  intro x
  have steps := fun side before =>
    stepSide_steps side x.st.unitSize (x.pr.unitsInBlock + 1 == x.st.blockLen) before
  simp only [beq_iff_eq] at steps
  refine ⟨?_, steps _ _, steps _ _⟩
  simp only [Progress.afterUnit, beq_iff_eq]

end Sys2Proof.Machine
end

section
/-! The unit check: the outcome of each of its five tests in turn (R34), and the address (R35) (O24). -/

namespace Sys2Proof.Machine

section Tests

variable {windows : Tab (Option Window) 16} {i : WindowIx} {level : Level} {write : Bool} {o : Offset} {bytes : Nat}
  {w : Window}

theorem unitCheck_absent (h : windows.get i = none) :
    unitCheck windows i level write o bytes = .error .windowAbsent := by
  simp [unitCheck, h]

theorem unitCheck_level (h : windows.get i = some w) (hl : w.level < level) :
    unitCheck windows i level write o bytes = .error .windowLevel := by
  simp [unitCheck, h, hl]

theorem unitCheck_access (h : windows.get i = some w) (hl : level ≤ w.level) (hw : write = true)
    (ha : w.access = .read) : unitCheck windows i level write o bytes = .error .windowAccess := by
  simp [unitCheck, h, Fin.not_lt.2 hl, hw, ha]

/-- Tests 4 and 5 are all that is left once the level and the access are granted. -/
theorem unitCheck_granted (h : windows.get i = some w) (hl : level ≤ w.level)
    (ha : write = true → w.access = .readWrite) :
    unitCheck windows i level write o bytes =
      if o.inside bytes w.size = false then .error .windowLimit
      else if bytes ∣ o.word.toNat then .ok (w.base + o.word) else .error .alignment := by
  have granted : (write && w.access == .read) = false := by
    cases write with
    | false => rfl
    | true => simp [ha rfl]
  simp only [unitCheck, h, if_neg (Fin.not_lt.2 hl), granted, Nat.dvd_iff_mod_eq_zero]
  by_cases hin : o.inside bytes w.size = true
  · by_cases hal : o.word.toNat % bytes = 0 <;> simp [hin, hal]
  · simp [hin]

end Tests

/-- Settles O24: test by test, the earlier ones passed. -/
theorem unitCheckTests : Obligations.UnitCheckTests := by
  intro windows i level write o size
  refine ⟨unitCheck_absent, fun w h => ⟨unitCheck_level h, fun hl => ⟨unitCheck_access h hl, fun ha => ?_⟩⟩⟩
  rw [unitCheck_granted h hl ha]
  refine ⟨fun ho => by rw [ho]; rfl, fun n ho => ?_⟩
  subst ho
  refine ⟨fun hout => if_pos ?_, fun hin => ?_⟩
  · simpa [Offset.inside] using hout
  · rw [if_neg (by simpa [Offset.inside] using hin)]
    exact ⟨fun hal => if_neg hal, fun hal => if_pos hal⟩

end Sys2Proof.Machine
end

section
/-! The commands of the Window Table (R29 to R33): their checks, then SET_WINDOW, CLEAR_WINDOW and READ_WINDOW case by
case (O25, O26, O27). -/

namespace Sys2Proof.Machine

variable {s : State} {p : PortIx} {id : Word} {h : Handed} {w : WindowIx} {d : DescIx}

theorem exec_setWindow (wt : s.Waits .setWindow p id h) :
    exec (.setWindow p id) s = .next ((s.took h).setWindow h) :=
  ownerTakes_waits wt fun h s => s.setWindow h

theorem exec_clearWindow (wt : s.Waits .clearWindow p id h) :
    exec (.clearWindow p id) s = .next ((s.took h).clearWindow h) :=
  ownerTakes_waits wt fun h s => s.clearWindow h

theorem exec_readWindow (wt : s.Waits .readWindow p id h) :
    exec (.readWindow p id) s = .next ((s.took h).readWindow h) :=
  ownerTakes_waits wt fun h s => s.readWindow h

/-! ### The checks of SET_WINDOW and CLEAR_WINDOW -/

theorem activeDesc?_eq_some_iff {x : Desc} :
    s.activeDesc? = some (d, x) ↔ s.engine.active = some d ∧ s.descs.get d = some x := by
  simp only [State.activeDesc?, Option.bind_eq_bind, Option.pure_def, Option.bind_eq_some_iff, Option.some.injEq,
    Prod.mk.injEq]
  constructor
  · rintro ⟨e, he, y, hy, rfl, rfl⟩; exact ⟨he, hy⟩
  · rintro ⟨hd, hx⟩; exact ⟨d, hd, x, hx, rfl, rfl⟩

/-- The user of a window is the ACTIVE descriptor, where it names it (R33). -/
theorem windowUser?_eq_some_iff : s.windowUser? w = some d ↔
    ∃ x, s.engine.active = some d ∧ s.descs.get d = some x ∧ x.st.names w = true := by
  unfold State.windowUser?
  constructor
  · intro hu
    split at hu
    · cases hu
    · rename_i e x hx
      split at hu
      · cases hu
        exact ⟨x, (activeDesc?_eq_some_iff.1 hx).1, (activeDesc?_eq_some_iff.1 hx).2, by assumption⟩
      · cases hu
  · rintro ⟨x, ha, hx, hn⟩
    simp [activeDesc?_eq_some_iff.2 ⟨ha, hx⟩, hn]

/-- A window that the ACTIVE descriptor does not name has no user. -/
theorem windowUser?_eq_none
    (hn : ∀ d x, s.engine.active = some d → s.descs.get d = some x → x.st.names w = false) :
    s.windowUser? w = none := by
  refine Option.eq_none_iff_forall_ne_some.2 fun d hd => ?_
  obtain ⟨x, ha, hx, hnames⟩ := windowUser?_eq_some_iff.1 hd
  rw [hn d x ha hx] at hnames
  cases hnames

@[simp] theorem took_windowUser? (s : State) (h : Handed) (w : WindowIx) :
    (s.took h).windowUser? w = s.windowUser? w := rfl

section Checks

variable {act : WindowIx → State}

theorem windowChecks_range (hi : 15 < argIndex h.args) :
    (s.took h).windowChecks h act = s.answered h .range noWords := by
  simp [State.windowChecks, index?_none (show 16 ≤ argIndex h.args from hi)]

/-- A window in use is refused with the descriptor that names it (R29, R31, R33). -/
theorem windowChecks_inUse (hi : argIndex h.args = w.val) {x : Desc} (ha : s.engine.active = some d)
    (hx : s.descs.get d = some x) (hn : x.st.names w = true) :
    (s.took h).windowChecks h act = s.answered h .inUse (image [BitVec.ofNat 32 d.val]) := by
  simp [State.windowChecks, index?_some w hi, windowUser?_eq_some_iff.2 ⟨x, ha, hx, hn⟩, inUseImage, pack]

theorem windowChecks_free (hi : argIndex h.args = w.val)
    (hn : ∀ d x, s.engine.active = some d → s.descs.get d = some x → x.st.names w = false) :
    (s.took h).windowChecks h act = act w := by
  simp [State.windowChecks, index?_some w hi, windowUser?_eq_none hn]

end Checks

/-! ### SET_WINDOW -/

theorem access_ofNumber? (n : Nat) :
    Access.ofNumber? n = if n ≤ 1 then some (if n = 0 then .read else .readWrite) else none := by
  rcases n with _ | _ | n
  · rfl
  · rfl
  · rw [if_neg (by omega)]; rfl

/-- When the arguments of a SET_WINDOW are in range (R29). -/
def WindowFits (a : PortWords) : Prop :=
  let base := a.get 1
  let size := (a.get 2).toNat + if bit (a.get 3) 0 then 2 ^ 32 else 0
  base.toNat % 8 = 0 ∧ size ≠ 0 ∧ size % 8 = 0 ∧ base.toNat + size ≤ 2 ^ 32 ∧ field (a.get 0) 8 4 ≤ 3 ∧
    field (a.get 0) 12 4 ≤ 1

/-- Bit 32 of the size, as the parser and as the claim write it. -/
theorem sizeBit (b : Bool) : 2 ^ 32 * flag b = if b then 2 ^ 32 else 0 := by cases b <;> rfl

theorem parseWindow_refused {a : PortWords} (hf : ¬ WindowFits a) : parseWindow a = none := by
  unfold parseWindow
  simp only [sizeBit, access_ofNumber?]
  by_cases hl : field (a.get 0) 8 4 ≤ 3
  · rw [index?_below (show field (a.get 0) 8 4 < 4 by omega)]
    by_cases ha : field (a.get 0) 12 4 ≤ 1
    · rw [if_pos ha]
      exact if_neg fun ⟨aligned, nonzero, whole, inside⟩ => hf ⟨aligned, nonzero, whole, inside, hl, ha⟩
    · rw [if_neg ha]; rfl
  · rw [index?_above (show ¬ field (a.get 0) 8 4 < 4 by omega)]; rfl

theorem parseWindow_accepted {a : PortWords} (hf : WindowFits a) {l : Level} (hl : l.val = field (a.get 0) 8 4) :
    parseWindow a = some
      { base := a.get 1, size := (a.get 2).toNat + if bit (a.get 3) 0 then 2 ^ 32 else 0, level := l,
        access := if field (a.get 0) 12 4 = 0 then .read else .readWrite } := by
  obtain ⟨aligned, nonzero, whole, inside, -, ha⟩ := hf
  unfold parseWindow
  simp only [sizeBit, access_ofNumber?, index?_some l hl.symm, if_pos ha]
  exact if_pos ⟨aligned, nonzero, whole, inside⟩

/-- Settles O25: the checks in their order, and the arguments accepted or refused as a whole. -/
theorem setWindowWritesWindow : Obligations.SetWindowWritesWindow := by
  intro s p id h wt
  rw [exec_setWindow wt]
  unfold State.setWindow
  refine ⟨fun hi => by rw [windowChecks_range hi], fun w hi => ⟨fun d x ha hx hn => ?_, fun hn => ?_⟩⟩
  · rw [windowChecks_inUse hi ha hx hn]
  · rw [windowChecks_free hi hn]
    refine ⟨fun hf => ?_, fun hf l hl => ?_⟩
    · rw [parseWindow_refused hf]; rfl
    · rw [parseWindow_accepted hf hl]; rfl

/-! ### CLEAR_WINDOW -/

/-- Settles O26: the checks in their order, and the window made absent. -/
theorem clearWindowMakesAbsent : Obligations.ClearWindowMakesAbsent := by
  intro s p id h wt
  rw [exec_clearWindow wt]
  unfold State.clearWindow
  refine ⟨fun hi => by rw [windowChecks_range hi], fun w hi => ⟨fun d x ha hx hn => ?_, fun hn => ?_⟩⟩
  · rw [windowChecks_inUse hi ha hx hn]
  · rw [windowChecks_free hi hn]
    exact ⟨rfl, fun _ _ _ _ => unitCheck_absent (Tab.get_put_same ..), fun _ => Tab.put_put_same ..⟩

/-! ### READ_WINDOW -/

theorem Access.number_le (a : Access) : a.number ≤ 1 := by cases a <;> decide

theorem readWindow_range (hi : 15 < argIndex h.args) : (s.took h).readWindow h = s.answered h .range noWords := by
  simp [State.readWindow, index?_none (show 16 ≤ argIndex h.args from hi)]

theorem readWindow_answered (hi : argIndex h.args = w.val) :
    (s.took h).readWindow h = s.answered h .ok (windowImage (s.windows.get w)) := by
  simp [State.readWindow, index?_some w hi]

/-- Of a size within the address space bit 32 is set in the largest alone. -/
theorem size_high {size : Nat} (h : size ≤ 2 ^ 32) : size / 2 ^ 32 = flag (decide (size = 2 ^ 32)) := by
  by_cases hs : size = 2 ^ 32
  · subst hs; rfl
  · rw [Nat.div_eq_of_lt (Nat.lt_of_le_of_ne h hs), decide_eq_false hs]; rfl

/-- The words of a present window's image (R32, section 9.8). -/
theorem windowImage_fields (win : Window) :
    let words := windowImage (some win)
    bit (words.get 0) 0 = true ∧ field (words.get 0) 8 4 = win.level.val ∧
      field (words.get 0) 12 4 = win.access.number ∧ words.get 1 = win.base ∧
      words.get 2 = BitVec.ofNat 32 win.size ∧
      (win.size ≤ 2 ^ 32 → bit (words.get 3) 0 = decide (win.size = 2 ^ 32)) := by
  have := win.level.isLt
  have := win.access.number_le
  have first : (windowImage (some win)).get 0 = pack [(1, 0), (win.level.val, 8), (win.access.number, 12)] :=
    image_get _ 0
  have last : (windowImage (some win)).get 3 = pack [(win.size / 2 ^ 32, 0)] := image_get _ 3
  simp only [first, last]
  refine ⟨bit_pack_set ?_ ?_, field_pack_at ?_ ?_ ?_, field_pack_at ?_ ?_ ?_, image_get _ 1, image_get _ 2,
    fun hs => bit_pack_at (.inl ⟨rfl, size_high hs, rfl⟩) (by decide)⟩ <;> simp [PacksAt, Apart] <;> omega

/-- Settles O27: RANGE, or the image of the window as it stands; admission refuses no level. -/
theorem readWindowReports : Obligations.ReadWindowReports := by
  intro s p id h wt
  rw [exec_readWindow wt]
  refine ⟨fun hi => by rw [readWindow_range hi], fun w hi => ⟨fun hw => ?_, fun win hw => ?_⟩, fun _ _ => rfl⟩
  · rw [readWindow_answered hi, hw]; rfl
  · rw [readWindow_answered hi, hw]
    exact ⟨_, rfl, windowImage_fields win⟩

end Sys2Proof.Machine
end

section
/-! The reset pin (R168): it holds every other event off, and resets the part (O4). -/

namespace Sys2Proof.Machine

/-- Every event but the pin's own is taken only while the pin is released. -/
theorem resetPinHoldsOffEvents_claim : Claims.ResetPinHoldsOffEvents := by
  intro c s held notPin notRelease
  cases c with
  | resetPin => exact absurd rfl notPin
  | resetRelease lines withdrawLines => exact absurd rfl (notRelease lines withdrawLines)
  | _ => apply whileRunning_held held

theorem resetPinAndRelease_claim : Claims.ResetPinAndRelease := by
  intro s lines withdrawLines
  have release : exec (.resetRelease lines withdrawLines) s = .next (if s.resetHeld then
      { s with resetHeld := false, lineSeen := lines, withdrawSeen := withdrawLines } else s) := rfl
  refine ⟨rfl, fun held => ?_, fun released => ?_⟩
  · rw [release, if_pos held]
  · rw [release, released]; rfl

/-- Settles O4: the events held off while the pin is asserted, and the pin's own two events. -/
theorem resetPinStopsAndResets : Obligations.ResetPinStopsAndResets :=
  ⟨resetPinHoldsOffEvents_claim, resetPinAndRelease_claim⟩

end Sys2Proof.Machine
end

section
/-! The commands of the Gate Table (R46 to R49): their checks, then SET_GATE, CLEAR_GATE and READ_GATE case by case
(O28, O29). -/

namespace Sys2Proof.Machine

variable {s : State} {p : PortIx} {id : Word} {h : Handed} {g : GateIx}

@[simp] theorem took_gates (s : State) (h : Handed) : (s.took h).gates = s.gates := rfl

theorem exec_setGate (wt : s.Waits .setGate p id h) : exec (.setGate p id) s = .next ((s.took h).setGate h) :=
  ownerTakes_waits wt fun h s => s.setGate h

theorem exec_clearGate (wt : s.Waits .clearGate p id h) :
    exec (.clearGate p id) s = .next ((s.took h).clearGate h) :=
  ownerTakes_waits wt fun h s => s.clearGate h

theorem exec_readGate (wt : s.Waits .readGate p id h) : exec (.readGate p id) s = .next ((s.took h).readGate h) :=
  ownerTakes_waits wt fun h s => s.readGate h

/-! ### The checks of SET_GATE and CLEAR_GATE -/

section Checks

variable {act : GateIx → State}

theorem gateChecks_range (hi : 63 < argIndex h.args) :
    (s.took h).gateChecks h act = s.answered h .range noWords := by
  simp [State.gateChecks, index?_none (show 64 ≤ argIndex h.args from hi)]

theorem gateChecks_nullGate (hi : argIndex h.args = 0) :
    (s.took h).gateChecks h act = s.answered h .nullGate noWords := by
  simp [State.gateChecks, index?_some (0 : GateIx) hi]

/-- The gate of a more privileged author is kept from the issuer (R46, R48). -/
theorem gateChecks_level (hg : g ≠ 0) (hi : argIndex h.args = g.val)
    (author : ∃ old ∈ s.gates.get g, old.author < h.level) :
    (s.took h).gateChecks h act = s.answered h .level noWords := by
  obtain ⟨old, hold, hl⟩ := author
  simp [State.gateChecks, index?_some g hi, hg, Option.mem_def.1 hold, hl]

/-- An absent gate passes, and one whose author is not more privileged than the issuer (R46, R48). -/
theorem gateChecks_allowed (hg : g ≠ 0) (hi : argIndex h.args = g.val)
    (author : ∀ old ∈ s.gates.get g, h.level ≤ old.author) : (s.took h).gateChecks h act = act g := by
  have allowed : ((s.gates.get g).any fun gate => decide (gate.author < h.level)) = false := by
    rw [Option.any_eq_false]
    exact fun old hold => by simpa using author old hold
  simp [State.gateChecks, index?_some g hi, hg, allowed]

end Checks

/-! ### SET_GATE -/

theorem GateKind.number_le (k : GateKind) : k.number ≤ 2 := by cases k <;> decide

theorem gateKind_ofNumber?_number (k : GateKind) : GateKind.ofNumber? k.number = some k := by cases k <;> rfl

theorem gateKind_refused {n : Nat} (hn : 2 < n) : GateKind.ofNumber? n = none := by
  obtain ⟨m, rfl⟩ := Nat.exists_eq_add_of_le' hn
  rfl

theorem parseGate_refused {a : PortWords} {author : Level}
    (bad : 2 < field (a.get 0) 8 4 ∨ 3 < field (a.get 0) 12 4 ∨ 127 < field (a.get 0) 16 8) :
    parseGate a author = none := by
  simp only [parseGate, Option.bind_eq_bind, Option.bind_eq_none_iff]
  intro kind hk reach hr target ht
  have := index?_eq_some_iff.1 hr
  have := index?_eq_some_iff.1 ht
  rcases bad with bad | bad | bad
  · rw [gateKind_refused bad] at hk; cases hk
  · omega
  · omega

theorem parseGate_accepted {a : PortWords} {author : Level} {k : GateKind} {r : Level} {d : DescIx}
    (hk : k.number = field (a.get 0) 8 4) (hr : r.val = field (a.get 0) 12 4) (hd : d.val = field (a.get 0) 16 8) :
    parseGate a author = some { kind := k, reach := r, author, target := d } := by
  simp [parseGate, ← hk, gateKind_ofNumber?_number, index?_some r hr.symm, index?_some d hd.symm]

theorem setGateWritesGate_claim : Claims.SetGateWritesGate := by
  intro s p id h wt
  rw [exec_setGate wt]
  unfold State.setGate
  refine ⟨fun hi => by rw [gateChecks_range hi], fun hi => by rw [gateChecks_nullGate hi], fun g hg hi =>
    ⟨fun author => by rw [gateChecks_level hg hi author], fun author => ?_⟩⟩
  rw [gateChecks_allowed hg hi author]
  refine ⟨fun bad => ?_, fun k r d hk hr hd => ?_⟩
  · rw [parseGate_refused bad]; rfl
  · rw [parseGate_accepted hk hr hd]; rfl

/-! ### CLEAR_GATE -/

theorem clearGateMakesAbsent_claim : Claims.ClearGateMakesAbsent := by
  intro s p id h wt
  rw [exec_clearGate wt]
  unfold State.clearGate
  refine ⟨fun hi => by rw [gateChecks_range hi], fun hi => by rw [gateChecks_nullGate hi], fun g hg hi =>
    ⟨fun author => by rw [gateChecks_level hg hi author], fun author => ?_⟩⟩
  rw [gateChecks_allowed hg hi author]
  rfl

/-- Settles O28, by the checks that SET_GATE and CLEAR_GATE share: each refuses with its code, and a gate that passes
them all is written or made absent. -/
theorem setAndClearGate : Obligations.SetAndClearGate :=
  ⟨setGateWritesGate_claim, clearGateMakesAbsent_claim⟩

/-! ### READ_GATE -/

theorem readGate_range (hi : 63 < argIndex h.args) : (s.took h).readGate h = s.answered h .range noWords := by
  simp [State.readGate, index?_none (show 64 ≤ argIndex h.args from hi)]

theorem readGate_answered (hi : argIndex h.args = g.val) :
    (s.took h).readGate h = s.answered h .ok (gateImage (s.gates.get g)) := by
  simp [State.readGate, index?_some g hi]

/-- The word of a present gate's image (R49, section 9.8). -/
theorem gateImage_fields (gate : Gate) :
    let w := (gateImage (some gate)).get 0
    bit w 0 = true ∧ field w 8 4 = gate.kind.number ∧ field w 12 4 = gate.reach.val ∧
      field w 16 4 = gate.author.val ∧ field w 24 8 = gate.target.val := by
  have := gate.kind.number_le
  have word : (gateImage (some gate)).get 0 = pack [(1, 0), (gate.kind.number, 8), (gate.reach.val, 12),
    (gate.author.val, 16), (gate.target.val, 24)] := image_get _ 0
  simp only [word]
  refine ⟨bit_pack_set ?_ ?_, field_pack_at ?_ ?_ ?_, field_pack_at ?_ ?_ ?_, field_pack_at ?_ ?_ ?_,
    field_pack_at ?_ ?_ ?_⟩ <;> simp [PacksAt, Apart] <;> omega

/-- Settles O29: RANGE, or the image of the gate as it stands; admission refuses no level. -/
theorem readGateReports : Obligations.ReadGateReports := by
  intro s p id h wt
  rw [exec_readGate wt]
  refine ⟨fun hi => by rw [readGate_range hi], fun g hi => ⟨fun hg => ?_, fun gate hg => ?_⟩, fun _ _ => rfl⟩
  · rw [readGate_answered hi, hg]; rfl
  · rw [readGate_answered hi, hg]
    exact ⟨_, rfl, gateImage_fields gate⟩

end Sys2Proof.Machine
end

section
/-! An invocation at the Gate Table: tests 1 to 4 of the gate check (R51), and what an INVOKE and a line's invocation
make of their outcome (R50, R63) (O30). -/

namespace Sys2Proof.Machine

variable {s : State} {p : PortIx} {id : Word} {h : Handed} {g : GateIx} {gate : Gate} {level : Level} {n : Nat}
  {i : LineInv} {code : Code}

/-! ### Tests 1 to 4 -/

theorem gateTests_nullGate : s.gateTests 0 level = .error .nullGate := rfl

theorem gateTests_range (hn : 63 < n) : s.gateTests n level = .error .gateRange := by
  simp [State.gateTests, index?_none (show 64 ≤ n from hn), show n ≠ 0 by omega]

theorem gateIx_named (hg : g ≠ 0) : g.val ≠ 0 := fun e => hg (Fin.ext e)

theorem gateTests_absent (hg : g ≠ 0) (hx : s.gates.get g = none) :
    s.gateTests g.val level = .error .gateAbsent := by
  simp only [State.gateTests, if_neg (gateIx_named hg), index?_some g rfl, hx]

theorem gateTests_level (hg : g ≠ 0) (hx : s.gates.get g = some gate) (hl : gate.reach < level) :
    s.gateTests g.val level = .error .gateLevel := by
  simp only [State.gateTests, if_neg (gateIx_named hg), index?_some g rfl, hx, if_pos hl]

theorem gateTests_passed (hg : g ≠ 0) (hx : s.gates.get g = some gate) (hl : level ≤ gate.reach) :
    s.gateTests g.val level = .ok (g, gate) := by
  simp only [State.gateTests, if_neg (gateIx_named hg), index?_some g rfl, hx, if_neg (Fin.not_lt.2 hl)]

/-! ### The target that a refusal reports -/

theorem gateTarget?_absent (hx : s.gates.get g = none) : s.gateTarget? g.val = none := by
  simp [State.gateTarget?, index?_some g rfl, hx]

theorem gateTarget?_present (hx : s.gates.get g = some gate) : s.gateTarget? g.val = some gate.target := by
  simp [State.gateTarget?, index?_some g rfl, hx]

theorem gateTarget?_range (hn : 63 < n) : s.gateTarget? n = none := by
  simp [State.gateTarget?, index?_none (show 64 ≤ n from hn)]

/-! ### INVOKE -/

theorem exec_invoke (wt : s.Waits .invoke p id h) : exec (.invoke p id) s = .next ((s.took h).invoke h) :=
  ownerTakes_waits wt fun h s => s.invoke h

/-- An INVOKE that fails a test is answered with its code, and with the target where the gate is present (R50). -/
theorem invoke_refused (ht : s.gateTests (argIndex h.args) h.level = .error code) :
    (s.took h).invoke h = s.answered h code
      (((s.gateTarget? (argIndex h.args)).map fun target => image [targetWord target]).getD noWords) := by
  have tests : (s.took h).gateTests (argIndex h.args) h.level = .error code := ht
  have target : (s.took h).gateTarget? (argIndex h.args) = s.gateTarget? (argIndex h.args) := rfl
  simp only [State.invoke, tests, target]
  cases s.gateTarget? (argIndex h.args) <;> rfl

/-- An INVOKE that passes the tests is handed to the target (R51). -/
theorem invoke_passed (ht : s.gateTests (argIndex h.args) h.level = .ok (g, gate)) :
    (s.took h).invoke h = (s.took h).handInvocation (.port h.port h.id) g gate := by
  have tests : (s.took h).gateTests (argIndex h.args) h.level = .ok (g, gate) := ht
  simp only [State.invoke, tests]

/-! ### A line's invocation -/

theorem exec_lineInvocation (hr : s.resetHeld = false) (hn : s.lineInvs[n]? = some i) : exec (.lineInvocation n) s =
    .next (State.takeLineInvocation { s with lineInvs := s.lineInvs.eraseIdx n } i) := by
  show execLineInvocation n s = _
  unfold execLineInvocation
  rw [whileRunning_released hr]
  simp only [hn]

/-- A line's invocation that fails a test is reported to P0, with the target where the gate is present (R51, R63). -/
theorem takeLineInvocation_refused {target : Option DescIx} (ht : s.gateTests i.gate.val i.level = .error code)
    (hd : s.gateTarget? i.gate.val = target) : s.takeLineInvocation i = s.handReport 0
      { code, descriptor := target, gate := some i.gate, line := some i.line, window := none, detail := none } := by
  simp only [State.takeLineInvocation, ht, hd]

/-- A line's invocation that passes the tests is handed to the target (R51). -/
theorem takeLineInvocation_passed (ht : s.gateTests i.gate.val i.level = .ok (g, gate)) :
    s.takeLineInvocation i = s.handInvocation (.line i.line) g gate := by
  simp only [State.takeLineInvocation, ht]

/-! ### The claims -/

theorem gateTestsTaken_claim : Claims.GateTestsTaken := by
  refine ⟨fun s p id h wt => ?_, fun s n i hr hn named => ?_⟩
  · rw [exec_invoke wt]
    refine ⟨fun hi hx => ?_, fun hi => ?_, fun g hg hi => ⟨fun hx => ?_, fun gate hx => ⟨fun hl => ?_, fun hl => ?_⟩⟩⟩
    · have absent : s.gateTarget? 0 = none := gateTarget?_absent hx
      rw [invoke_refused (code := .nullGate) (by rw [hi]; exact gateTests_nullGate), hi, absent]; rfl
    · rw [invoke_refused (gateTests_range hi), gateTarget?_range hi]; rfl
    · rw [invoke_refused (by rw [hi]; exact gateTests_absent hg hx), hi, gateTarget?_absent hx]; rfl
    · rw [invoke_refused (by rw [hi]; exact gateTests_level hg hx hl), hi, gateTarget?_present hx]; rfl
    · rw [invoke_passed (by rw [hi]; exact gateTests_passed hg hx hl)]; rfl
  · rw [exec_lineInvocation hr hn]
    refine ⟨fun hx => ?_, fun gate hx => ⟨fun hl => ?_, fun hl => ?_⟩⟩ <;> refine congrArg Host.Outcome.next ?_
    · exact takeLineInvocation_refused (gateTests_absent named hx) (gateTarget?_absent hx)
    · exact takeLineInvocation_refused (gateTests_level named hx hl) (gateTarget?_present hx)
    · exact takeLineInvocation_passed (gateTests_passed named hx hl)

/-- The image of a refusal with the gate present is one word, the target with its presence bit (R50, section 9.8). -/
theorem targetImageWords_claim : Claims.TargetImageWords := by
  intro target w
  have first : w.get 0 = pack [(target.val, 0), (1, 8)] := image_get _ 0
  have rest : ∀ i : Fin 16, i ≠ 0 → w.get i = 0 := fun i hi => by
    rw [show w.get i = _ from image_get _ i, List.getD_eq_getElem?_getD, List.getElem?_eq_none (by simp; omega)]
    rfl
  rw [first]
  refine ⟨field_pack_at ?_ ?_ ?_, bit_pack_set ?_ ?_, field_pack_at ?_ ?_ ?_, rest⟩ <;> simp [PacksAt, Apart] <;> omega

/-- Settles O30: the outcome of each test for a port and for a line, and the words that a refused port is given. -/
theorem gateTableTakesInvocation : Obligations.GateTableTakesInvocation :=
  ⟨gateTestsTaken_claim, targetImageWords_claim⟩

end Sys2Proof.Machine
end

section
/-! An invocation refused at its target (R50, R52, R63) (O31). -/

namespace Sys2Proof.Machine

variable {s : State} {n : Nat} {i : Invocation} {x : Desc} {code : Code}

theorem exec_invocationAtTarget (hr : s.resetHeld = false) (hn : s.invocations[n]? = some i) :
    exec (.invocationAtTarget n) s =
      .next (State.invokeTarget { s with invocations := s.invocations.eraseIdx n } i) := by
  show execInvocationAtTarget n s = _
  unfold execInvocationAtTarget
  rw [whileRunning_released hr]
  simp only [hn]

theorem invokeTarget_refused (hc : s.targetCheck i = .error code) : s.invokeTarget i = s.targetRefuses i code := by
  simp only [State.invokeTarget, hc]

theorem targetCheck_absent (hx : s.descs.get i.target = none) : s.targetCheck i = .error .targetAbsent := by
  simp only [State.targetCheck, hx]

theorem targetCheck_level (hx : s.descs.get i.target = some x) (hl : x.st.level < i.author) :
    s.targetCheck i = .error .targetLevel := by
  simp only [State.targetCheck, hx, if_pos hl]

theorem targetCheck_notArmed (hx : s.descs.get i.target = some x) (hl : i.author ≤ x.st.level)
    (hs : x.state = .loaded) : s.targetCheck i = .error .targetNotArmed := by
  simp only [State.targetCheck, hx, if_neg (Fin.not_lt.2 hl), hs]

theorem targetCheck_retired (hx : s.descs.get i.target = some x) (hl : i.author ≤ x.st.level)
    (hs : x.state = .retired) : s.targetCheck i = .error .targetRetired := by
  simp only [State.targetCheck, hx, if_neg (Fin.not_lt.2 hl), hs]

theorem targetTestsTaken_claim : Claims.TargetTestsTaken := by
  intro s n i hr hn refusedWith
  have refused : ∀ code, State.targetCheck { s with invocations := s.invocations.eraseIdx n } i = .error code →
      exec (.invocationAtTarget n) s = .next (refusedWith code) := fun code hc => by
    rw [exec_invocationAtTarget hr hn, invokeTarget_refused hc]
    cases hv : i.invoker <;> simp only [State.targetRefuses, State.verdictTo, State.handReport, refusedWith, hv]
  exact ⟨fun hx => refused _ (targetCheck_absent hx), fun x hx => ⟨fun hl => refused _ (targetCheck_level hx hl),
    fun hl hs => refused _ (targetCheck_notArmed hx hl hs), fun hl hs => refused _ (targetCheck_retired hx hl hs)⟩⟩

/-- Settles O31: each test at the target, and the words that a refused port is given. -/
theorem targetRefusesInvocation : Obligations.TargetRefusesInvocation :=
  ⟨targetTestsTaken_claim, targetImageWords_claim⟩

end Sys2Proof.Machine
end

section
/-! Stop requests: what one becomes when another event meets it (R125), and a CANCEL and a lease expiry that the engine
takes at once in WAIT_PORT (R58, R75, R126, R127, R150) (O33). -/

namespace Sys2Proof.Machine

open Host (Outcome)

variable {s t : State} {d : DescIx} {x : Desc} {n : Nat} {i : Invocation}

theorem stopRequestMeets_claim : Claims.StopRequestMeets := by
  intro found
  refine ⟨rfl, rfl, rfl, fun x hx => ?_⟩
  subst hx
  rfl

/-! ### A stop request taken at once -/

/-- The engine has let its descriptor go and withdrawn its claim on the master port (R76). -/
theorem dropEngine_of_same (he : t.engine = s.engine) (hm : t.master = s.master) : t.dropEngine = { t with
    engine := { Engine.reset with state := if s.engine.pauseReq then .paused else .idle }
    master := { s.master with engineClaim := false } } := by
  unfold State.dropEngine Engine.dropped
  rw [he, hm]

/-- A descriptor's record with a stop request written into it. -/
def Desc.withStop (x : Desc) (r : StopRequest) : Desc := { x with pr := { x.pr with stop := r } }

/-- A retirement writes the same record over a stop request as without one (R9). -/
theorem retire_withStop (ha : x.state = .active) (r : StopRequest) (reason : Code)
    (detail : Option (SideName × Offset)) :
    (s.putDesc d (some (x.withStop r))).retire d (x.withStop r) reason detail = s.retire d x reason detail := by
  have outside : (x.withStop r).state ≠ .waiting := by simp [Desc.withStop, ha]
  rw [putDesc_unmarked _ _ _ outside, retire_eq, retire_eq]
  simp only [Tab.put_put_same]
  rfl

/-- In WAIT_PORT the ACTIVE descriptor's stop request retires it as soon as it is raised, and the engine lets it go
(R75, R76, R127). -/
theorem raiseStop_inWaitPort (hw : s.engine.state = .waitPort) (hd : s.engine.active = some d)
    (ha : x.state = .active) (hs : x.pr.stop = .none) {r : StopRequest} {reason : Code}
    (hr : (r, reason) = (.cancelled, .cancelled) ∨ (r, reason) = (.leaseExpired, .leaseExpired)) :
    s.raiseStop d x r = { s.retire d x reason none with
      engine := { Engine.reset with state := if s.engine.pauseReq then .paused else .idle }
      master := { s.master with engineClaim := false } } := by
  obtain ⟨he, hm, -⟩ := s.retire_port d x reason none
  rw [← dropEngine_of_same he hm, ← retire_withStop ha r reason none]
  unfold State.raiseStop State.stopInWaitPort
  rw [if_pos (by exact ⟨hw, hd⟩), State.putDesc_descs, Tab.get_put_same, hs]
  rcases hr with hr | hr <;> cases hr <;> rfl

/-! ### CANCEL -/

/-- A CANCEL of the ACTIVE descriptor tells a port of the target as it stands and raises the stop request (R50, R58). -/
theorem invokeTarget_cancelActive (hx : s.descs.get i.target = some x) (hl : i.author ≤ x.st.level)
    (hk : i.kind = .cancel) (ha : x.state = .active) :
    s.invokeTarget i = (s.verdictTo i .ok (s.verbImage i.target)).raiseStop i.target x .cancelled := by
  have live : s.targetCheck i = .ok x := targetCheck_live hx hl (by rw [ha]; simp) (by rw [ha]; simp)
  have words : (s.putDesc i.target (some (x.withStop (x.pr.stop.meet .cancelled)))).verbImage i.target =
      s.verbImage i.target := by
    simp only [State.verbImage, State.putDesc_descs, Tab.get_put_same, hx]
    rfl
  have verb : s.applyVerb i.kind i.target x =
      (s.putDesc i.target (some (x.withStop (x.pr.stop.meet .cancelled))), .ok) := by rw [hk]; exact if_pos ha
  simp only [State.invokeTarget, live, verb, words]
  unfold State.verdictTo
  cases i.invoker <;> rfl

theorem cancelInWaitPort_claim : Claims.CancelInWaitPort := by
  intro s n i x hn hk works ha hs hl words
  obtain ⟨hr, hw, hd, hx⟩ := works
  refine ⟨?_, fun hp => ?_⟩
  · rw [exec_invocationAtTarget hr hn]
    refine congrArg Outcome.next
      ((invokeTarget_cancelActive (s := { s with invocations := s.invocations.eraseIdx n }) hx hl hk ha).trans ?_)
    unfold State.verdictTo
    cases i.invoker <;> exact raiseStop_inWaitPort (by exact hw) (by exact hd) ha hs (.inl rfl)
  · obtain ⟨target, targetPresent, -, state, -, pending, -, statePresent, -, rest⟩ :=
      verbImageWords_claim s i.target x hx hp
    refine ⟨target, targetPresent, state.trans ?_, pending, statePresent, rest⟩
    simp only [stateNumber, ha]

/-! ### A lease expiry -/

/-- A visit whose lease step expires the lease of the ACTIVE descriptor in WAIT_PORT (R75, R150). -/
theorem visit_expiresInWaitPort (hw : s.engine.state = .waitPort) (hd : s.engine.active = some d)
    (hx : s.descs.get d = some x) (ha : x.state = .active) (hs : x.pr.stop = .none) (leased : x.st.initialLease ≠ 0)
    (last : x.pr.lease ≤ 1) :
    s.visit d = { s.retire d { x with pr := { x.pr with lease := 0 } } .leaseExpired none with
      engine := { Engine.reset with state := if s.engine.pauseReq then .paused else .idle }
      master := { s.master with engineClaim := false } } := by
  have lease : s.leaseVisited d x = s.raiseStop d { x with pr := { x.pr with lease := 0 } } .leaseExpired := by
    unfold State.leaseVisited State.stepLease
    rw [if_neg leased, if_neg (Nat.not_lt.2 last)]
    exact if_pos ha
  have taken := lease.trans
    (raiseStop_inWaitPort (x := { x with pr := { x.pr with lease := 0 } }) hw hd ha hs (.inr rfl))
  refine visit_leaseOnly hx (by simp [ha]) taken
    (y := Desc.retire { x with pr := { x.pr with lease := 0 } } .leaseExpired none) ?_ ?_
  · exact (congrArg (Tab.get · d) (retire_descs ..)).trans (Tab.get_put_same ..)
  · simp [Desc.retire, Desc.withProgress]

/-- A visit that falls due with none deferred is performed at once where it does not need the port (R147). -/
theorem exec_sweepTimerExpiry_performs (hr : s.resetHeld = false) (on : s.sweep.interval ≠ 0)
    (hd : s.sweep.deferred = 0) (needs : s.visitNeedsPort = false) :
    exec .sweepTimerExpiry s = .next (State.performVisit { s with sweep := { s.sweep with timer := 0 } }) := by
  have needs' : State.visitNeedsPort { s with sweep := { s.sweep with timer := 0 } } = false := needs
  show execSweepTimerExpiry s = _
  unfold execSweepTimerExpiry
  rw [whileRunning_released hr]
  unfold State.sweepExpires State.visitDue
  rw [if_neg on, needs']
  exact congrArg Outcome.next (if_pos hd)

theorem leaseExpiryInWaitPort_claim : Claims.LeaseExpiryInWaitPort := by
  intro s d x works ha hs leased last cursor expired
  obtain ⟨hr, hw, hd, hx⟩ := works
  subst cursor
  refine ⟨visit_expiresInWaitPort hw hd hx ha hs leased last, fun on none => ?_⟩
  have needs : s.visitNeedsPort = false := by simp [State.visitNeedsPort, hx, ha]
  rw [exec_sweepTimerExpiry_performs hr on none needs]
  exact congrArg Outcome.next (visit_expiresInWaitPort hw hd hx ha hs leased last)

/-- Settles O33: the table of R125, and the stop request that CANCEL and a lease expiry raise in WAIT_PORT. -/
theorem stopRequestsRecordedAndTaken : Obligations.StopRequestsRecordedAndTaken :=
  ⟨cancelInWaitPort_claim, leaseExpiryInWaitPort_claim, stopRequestMeets_claim⟩

end Sys2Proof.Machine
end

section
/-! The Trigger Router: SET_ROUTE and READ_ROUTE (R61, R62), and the events of a trigger line (R63) (O34, O35, O36). -/

namespace Sys2Proof.Machine

variable {s : State} {p : PortIx} {id : Word} {h : Handed} {l : LineIx}

@[simp] theorem took_routes (s : State) (h : Handed) : (s.took h).routes = s.routes := rfl

theorem exec_setRoute (wt : s.Waits .setRoute p id h) : exec (.setRoute p id) s = .next ((s.took h).setRoute h) :=
  ownerTakes_waits wt fun h s => s.setRoute h

theorem exec_readRoute (wt : s.Waits .readRoute p id h) :
    exec (.readRoute p id) s = .next ((s.took h).readRoute h) :=
  ownerTakes_waits wt fun h s => s.readRoute h

/-! ### SET_ROUTE -/

theorem routeGate?_refused {k : Nat} (bad : k = 0 ∨ 63 < k) : routeGate? k = none := by
  unfold routeGate?
  rcases bad with bad | bad
  · rw [if_pos bad]
  · rw [if_neg (by omega), index?_none bad]

theorem routeGate?_accepted {g : GateIx} (hg : g ≠ 0) : routeGate? g.val = some g := by
  rw [routeGate?, if_neg (gateIx_named hg), index?_some g rfl]

theorem parseRoute_refused {a : PortWords} (bad : 3 < field (a.get 0) 24 4 ∨
    (bit (a.get 0) 8 = true ∧ (field (a.get 0) 16 8 = 0 ∨ 63 < field (a.get 0) 16 8))) : parseRoute a = none := by
  simp only [parseRoute, Option.bind_eq_bind, Option.bind_eq_none_iff]
  intro gate hg level hl
  rcases bad with bad | ⟨present, bad⟩
  · have := index?_eq_some_iff.1 hl
    omega
  · rw [present, routeGate?_refused bad] at hg
    cases hg

theorem parseRoute_unrouted {a : PortWords} {v : Level} (hv : v.val = field (a.get 0) 24 4)
    (absent : bit (a.get 0) 8 = false) : parseRoute a = some { gate := none, level := v } := by
  simp [parseRoute, absent, index?_some v hv.symm]

theorem parseRoute_routed {a : PortWords} {v : Level} {g : GateIx} (hv : v.val = field (a.get 0) 24 4) (hg : g ≠ 0)
    (hk : g.val = field (a.get 0) 16 8) (present : bit (a.get 0) 8 = true) :
    parseRoute a = some { gate := some g, level := v } := by
  simp [parseRoute, present, ← hk, routeGate?_accepted hg, index?_some v hv.symm]

theorem setRoute_range (hi : 31 < argIndex h.args) : (s.took h).setRoute h = s.answered h .range noWords := by
  simp [State.setRoute, index?_none (show 32 ≤ argIndex h.args from hi)]

theorem setRoute_malformed (hi : argIndex h.args = l.val) (hp : parseRoute h.args = none) :
    (s.took h).setRoute h = s.answered h .malformed noWords := by
  simp [State.setRoute, index?_some l hi, hp]

theorem setRoute_written (hi : argIndex h.args = l.val) {route : Route} (hp : parseRoute h.args = some route) :
    (s.took h).setRoute h = { s.answered h .ok noWords with routes := s.routes.put l route } := by
  simp only [State.setRoute, index?_some l hi, hp]
  rfl

/-- Settles O34: the checks in their order, and the route with its gate absent or present. -/
theorem setRouteWritesRoute : Obligations.SetRouteWritesRoute := by
  intro s p id h wt level gate
  rw [exec_setRoute wt]
  refine ⟨fun hi => by rw [setRoute_range hi], fun l hi => ⟨fun bad => ?_, fun v hv => ⟨fun absent => ?_,
    fun g hg hk present => ?_⟩⟩⟩
  · rw [setRoute_malformed hi (parseRoute_refused bad)]
  · rw [setRoute_written hi (parseRoute_unrouted hv absent)]
  · rw [setRoute_written hi (parseRoute_routed hv hg hk present)]

/-! ### READ_ROUTE -/

theorem readRoute_range (hi : 31 < argIndex h.args) : (s.took h).readRoute h = s.answered h .range noWords := by
  simp [State.readRoute, index?_none (show 32 ≤ argIndex h.args from hi)]

theorem readRoute_answered (hi : argIndex h.args = l.val) :
    (s.took h).readRoute h = s.answered h .ok (routeImage l (s.routes.get l)) := by
  simp [State.readRoute, index?_some l hi]

/-- The word of a route's image (R62, section 9.8; log 13). -/
theorem routeImage_fields (l : LineIx) (r : Route) :
    let w := (routeImage l r).get 0
    field w 0 8 = l.val ∧ field w 24 4 = r.level.val ∧ bit w 8 = r.gate.isSome ∧
      ∀ g ∈ r.gate, field w 16 8 = g.val := by
  obtain ⟨gate, level⟩ := r
  cases gate with
  | none =>
    have word : (routeImage l { gate := none, level }).get 0 = pack [(l.val, 0), (level.val, 24)] := image_get _ 0
    simp only [word]
    refine ⟨field_pack_at ?_ ?_ ?_, field_pack_at ?_ ?_ ?_, bit_pack_clear ?_ ?_, by simp⟩ <;>
      simp [PacksAt, Apart] <;> omega
  | some g =>
    have word : (routeImage l { gate := some g, level }).get 0 =
        pack [(l.val, 0), (1, 8), (g.val, 16), (level.val, 24)] := image_get _ 0
    simp only [word, Option.mem_some_iff, forall_eq']
    refine ⟨field_pack_at ?_ ?_ ?_, field_pack_at ?_ ?_ ?_, bit_pack_set ?_ ?_, field_pack_at ?_ ?_ ?_⟩ <;>
      simp [PacksAt, Apart] <;> omega

/-- Settles O35: RANGE, or the image of the route as it stands; admission refuses no level. -/
theorem readRouteReports : Obligations.ReadRouteReports := by
  intro s p id h wt
  rw [exec_readRoute wt]
  refine ⟨fun hi => by rw [readRoute_range hi], fun l hi => ?_, fun _ _ => rfl⟩
  rw [readRoute_answered hi]
  exact ⟨_, rfl, rfl, routeImage_fields l (s.routes.get l)⟩

/-! ### Trigger lines -/

theorem lineEvent_unrouted (hg : (s.routes.get l).gate = none) :
    s.lineEvent l = { s with lineSeen := s.lineSeen.put l true } := by
  simp only [State.lineEvent, hg]

theorem lineEvent_routed {g : GateIx} (hg : (s.routes.get l).gate = some g) : s.lineEvent l = { s with
    lineSeen := s.lineSeen.put l true
    lineInvs := s.lineInvs ++ [{ line := l, gate := g, level := (s.routes.get l).level }] } := by
  simp only [State.lineEvent, hg]

theorem exec_triggerLineEvent (hr : s.resetHeld = false) :
    exec (.triggerLineEvent l) s = .next (if s.lineSeen.get l then s else s.lineEvent l) := by
  show execTriggerLineEvent l s = _
  unfold execTriggerLineEvent
  rw [whileRunning_released hr]

theorem exec_triggerLineRelease (hr : s.resetHeld = false) :
    exec (.triggerLineRelease l) s = .next { s with lineSeen := s.lineSeen.put l false } := by
  show execTriggerLineRelease l s = _
  unfold execTriggerLineRelease
  rw [whileRunning_released hr]

/-- Settles O36: an assertion by the level last seen and by the route, and a release. -/
theorem triggerLineInvokes : Obligations.TriggerLineInvokes := by
  intro s l hr
  rw [exec_triggerLineEvent hr]
  refine ⟨fun seen => by rw [if_pos seen], fun fresh hg => ?_, fun g fresh hg => ?_, exec_triggerLineRelease hr⟩
  · rw [fresh, lineEvent_unrouted hg]; rfl
  · rw [fresh, lineEvent_routed hg]; rfl

end Sys2Proof.Machine
end

section
/-! The engine's record and the Master Port's (O10) under the commands that Laws/Port does not speak of, and then under
every command and every step. -/

namespace Sys2Proof.Machine

open Host (Outcome)

variable {s t : State}

/-! ### How a command reaches its operation, and the reset pin -/

theorem State.PortFits.whileRunning (h : s.PortFits) {event : State → State} (he : (event s).PortFits)
    (ht : whileRunning event s = .next t) : t.PortFits := by
  unfold Sys2Proof.Machine.whileRunning at ht
  cases ht
  split
  · exact h
  · exact he

theorem State.PortFits.ownerTakes (h : s.PortFits) {c : Command} {p : PortIx} {id : Word}
    {act : Handed → State → State} (ha : ∀ hd (u : State), u.PortFits → (act hd u).PortFits)
    (ht : ownerTakes c p id act s = .next t) : t.PortFits := by
  refine h.whileRunning ?_ ht
  split
  · exact h
  · exact ha _ _ h

/-- A command at an owner that has nothing to do with the port. -/
theorem State.PortFits.ownerTakes_apart (h : s.PortFits) {c : Command} {p : PortIx} {id : Word}
    {act : Handed → State → State} (ha : ∀ hd u, SamePort u (act hd u))
    (ht : Machine.ownerTakes c p id act s = .next t) : t.PortFits :=
  h.ownerTakes (fun hd u hu => hu.congr (ha hd u)) ht

theorem reset_portFits : State.reset.PortFits := by
  refine ⟨⟨fun _ => rfl, nofun, ?_⟩, ?_, ?_, ?_, ?_, fun _ => ⟨rfl, rfl⟩, nofun⟩ <;>
    simp [State.reset, Engine.reset, MasterPort.reset, Sweep.reset, EngineState.between]

/-! ### Ports and withdraws (chapters 9 and 11) -/

theorem answer_port (s : State) (hd : Handed) (code : Code) (words : PortWords) :
    SamePort s (s.answer hd code words) := ⟨rfl, rfl, rfl⟩

theorem refuse_port (s : State) (hd : Handed) (code : Code) : SamePort s (s.refuse hd code) := ⟨rfl, rfl, rfl⟩

theorem writeArgument_port (s : State) (p : PortIx) (i : Fin 16) (bytes : BitVec 4) (value : Word) :
    SamePort s (s.writeArgument p i bytes value) := by
  unfold State.writeArgument
  simp only
  split <;> exact ⟨rfl, rfl, rfl⟩

theorem handCommand_port (s : State) (p : PortIx) (hc : HeldCommand) (c : Command) :
    SamePort s (s.handCommand p hc c) := by
  unfold State.handCommand
  simp only
  split <;> exact ⟨rfl, rfl, rfl⟩

theorem admitCommand_port (s : State) (p : PortIx) (hc : HeldCommand) : SamePort s (s.admitCommand p hc) := by
  unfold State.admitCommand
  simp only
  split
  · exact ⟨rfl, rfl, rfl⟩
  · exact handCommand_port s p hc _

theorem setPortLevel_port (s : State) (hd : Handed) : SamePort s (s.setPortLevel hd) := by
  unfold State.setPortLevel
  split
  · exact refuse_port s hd _
  · split
    · exact refuse_port s hd _
    · split
      · exact refuse_port s hd _
      · simp only
        split <;> exact ⟨rfl, rfl, rfl⟩

/-- A withdraw takes a descriptor from an engine in WAIT_PORT, and leaves the port alone otherwise (R182). -/
theorem State.PortFits.withdrawDesc (h : s.PortFits) (p : PortIx) (d : DescIx) : (s.withdrawDesc p d).PortFits := by
  unfold State.withdrawDesc
  split
  · exact h
  · rename_i x _
    have emptied := s.makeEmpty_port d x
    split
    · exact h
    · split
      · split
        · rename_i hw
          exact dropEngine_waiting (h.congr emptied) (by rw [emptied.1]; exact hw.1)
        · exact h
      · exact h.congr emptied

theorem State.PortFits.withdrawDescs (h : s.PortFits) (p : PortIx) (l : List DescIx) :
    (l.foldl (State.withdrawDesc p) s).PortFits := by
  induction l generalizing s with
  | nil => exact h
  | cons d l ih => exact ih (h.withdrawDesc p d)

theorem State.PortFits.withdrawPort (h : s.PortFits) (p : PortIx) : (s.withdrawPort p).PortFits := by
  unfold State.withdrawPort
  split
  · exact h
  · have withdrawn := h.withdrawDescs p (List.finRange 128)
    generalize (List.finRange 128).foldl (State.withdrawDesc p) s = u at withdrawn ⊢
    exact withdrawn

theorem State.PortFits.withdrawCommand (h : s.PortFits) (hd : Handed) : (s.withdrawCommand hd).PortFits := by
  unfold State.withdrawCommand
  split
  · exact h
  · split
    · exact h.withdrawPort _
    · exact h.withdrawPort _

/-! ### Descriptors (chapters 1, 3, 6 and 7) -/

theorem descriptorChecks_port (s : State) (hd : Handed) {act : DescIx → Option Desc → State}
    (ha : ∀ d x, SamePort s (act d x)) : SamePort s (s.descriptorChecks hd act) := by
  unfold State.descriptorChecks
  split
  · exact refuse_port s hd _
  · split
    · exact ha _ _
    · split
      · exact ha _ _
      · exact refuse_port s hd _

theorem loadSlot_port (s : State) (hd : Handed) (d : DescIx) (x : Option Desc) : SamePort s (s.loadSlot hd d x) := by
  unfold State.loadSlot
  split
  · exact refuse_port s hd _
  · split
    · exact refuse_port s hd _
    · split <;> exact ⟨rfl, rfl, rfl⟩

theorem load_port (s : State) (hd : Handed) : SamePort s (s.load hd) :=
  descriptorChecks_port s hd fun d x => by
    split
    · exact refuse_port s hd _
    · exact loadSlot_port s hd d x

theorem readDescriptor_port (s : State) (hd : Handed) : SamePort s (s.readDescriptor hd) :=
  descriptorChecks_port s hd fun d x => by
    simp only
    split
    · exact refuse_port s hd _
    · split <;> exact answer_port s hd _ _

theorem arm_port (s : State) (hd : Handed) : SamePort s (s.arm hd) :=
  descriptorChecks_port s hd fun d x => by
    split
    · exact refuse_port s hd _
    · split
      · exact refuse_port s hd _
      · split <;> exact ⟨rfl, rfl, rfl⟩

theorem disarm_port (s : State) (hd : Handed) : SamePort s (s.disarm hd) :=
  descriptorChecks_port s hd fun d x => by
    split
    · exact refuse_port s hd _
    · rename_i x
      split
      case h_4 => exact answer_port s hd _ _
      case h_5 | h_6 => exact refuse_port s hd _
      all_goals exact (s.leaveQueue_port d x).trans ⟨rfl, rfl, rfl⟩

theorem release_port (s : State) (hd : Handed) : SamePort s (s.release hd) :=
  descriptorChecks_port s hd fun d x => by
    split
    · exact refuse_port s hd _
    · split
      · exact (s.makeEmpty_port d _).trans (answer_port _ hd _ _)
      · exact refuse_port s hd _

theorem applyVerb_port (s : State) (kind : GateKind) (d : DescIx) (x : Desc) :
    SamePort s (s.applyVerb kind d x).1 := by
  unfold State.applyVerb
  cases kind with
  | trigger => exact s.acceptTrigger_port d x
  | renew => exact ⟨rfl, rfl, rfl⟩
  | cancel =>
    simp only
    split
    · exact ⟨rfl, rfl, rfl⟩
    · exact s.retire_port d x _ _

theorem verdictTo_port (s : State) (i : Invocation) (code : Code) (words : PortWords) :
    SamePort s (s.verdictTo i code words) := by
  unfold State.verdictTo
  split <;> exact ⟨rfl, rfl, rfl⟩

theorem targetRefuses_port (s : State) (i : Invocation) (code : Code) : SamePort s (s.targetRefuses i code) := by
  unfold State.targetRefuses
  split
  · exact verdictTo_port s i _ _
  · exact ⟨rfl, rfl, rfl⟩

/-- An invocation at its target may raise a stop request, which an engine in WAIT_PORT takes at once (R58, R75). -/
theorem State.PortFits.invokeTarget (h : s.PortFits) (i : Invocation) : (s.invokeTarget i).PortFits := by
  unfold State.invokeTarget
  split
  · exact h.congr (targetRefuses_port s i _)
  · rename_i x _
    have applied := applyVerb_port s i.kind i.target x
    exact stopInWaitPort_fits (h.congr (applied.trans (verdictTo_port _ i _ _))) i.target

theorem takeChain_port (s : State) (c : Chain) : SamePort s (s.takeChain c) := by
  unfold State.takeChain
  split
  · exact ⟨rfl, rfl, rfl⟩
  · exact s.acceptTrigger_port _ _

theorem applyGuardResult_port (s : State) (r : GuardResult) (x : Desc) : SamePort s (s.applyGuardResult r x) := by
  unfold State.applyGuardResult
  split
  · exact ⟨rfl, rfl, rfl⟩
  · exact SamePort.refl s
  · exact s.retireFault_port _ _ _ _ _ _

theorem takeGuardResult_port (s : State) (r : GuardResult) : SamePort s (s.takeGuardResult r) := by
  unfold State.takeGuardResult
  split
  · simp only
    split
    · exact ⟨rfl, rfl, rfl⟩
    · exact SamePort.trans ⟨rfl, rfl, rfl⟩ (applyGuardResult_port _ r _)
  · exact SamePort.refl s

/-! ### Gates, routes and windows (chapters 2 and 3) -/

theorem gateChecks_port (s : State) (hd : Handed) {act : GateIx → State} (ha : ∀ g, SamePort s (act g)) :
    SamePort s (s.gateChecks hd act) := by
  unfold State.gateChecks
  split
  · exact refuse_port s hd _
  · split
    · exact refuse_port s hd _
    · split
      · exact refuse_port s hd _
      · exact ha _

theorem setGate_port (s : State) (hd : Handed) : SamePort s (s.setGate hd) :=
  gateChecks_port s hd fun g => by split <;> exact ⟨rfl, rfl, rfl⟩

theorem clearGate_port (s : State) (hd : Handed) : SamePort s (s.clearGate hd) :=
  gateChecks_port s hd fun _ => ⟨rfl, rfl, rfl⟩

theorem readGate_port (s : State) (hd : Handed) : SamePort s (s.readGate hd) := by
  unfold State.readGate
  split <;> exact ⟨rfl, rfl, rfl⟩

theorem invoke_port (s : State) (hd : Handed) : SamePort s (s.invoke hd) := by
  unfold State.invoke
  simp only
  split
  · exact ⟨rfl, rfl, rfl⟩
  · split <;> exact ⟨rfl, rfl, rfl⟩

theorem takeLineInvocation_port (s : State) (i : LineInv) : SamePort s (s.takeLineInvocation i) := by
  unfold State.takeLineInvocation
  split <;> exact ⟨rfl, rfl, rfl⟩

theorem setRoute_port (s : State) (hd : Handed) : SamePort s (s.setRoute hd) := by
  unfold State.setRoute
  split
  · exact refuse_port s hd _
  · split <;> exact ⟨rfl, rfl, rfl⟩

theorem readRoute_port (s : State) (hd : Handed) : SamePort s (s.readRoute hd) := by
  unfold State.readRoute
  split <;> exact ⟨rfl, rfl, rfl⟩

theorem lineEvent_port (s : State) (l : LineIx) : SamePort s (s.lineEvent l) := by
  unfold State.lineEvent
  simp only
  split <;> exact ⟨rfl, rfl, rfl⟩

theorem windowChecks_port (s : State) (hd : Handed) {act : WindowIx → State} (ha : ∀ w, SamePort s (act w)) :
    SamePort s (s.windowChecks hd act) := by
  unfold State.windowChecks
  split
  · exact refuse_port s hd _
  · split
    · exact answer_port s hd _ _
    · exact ha _

theorem setWindow_port (s : State) (hd : Handed) : SamePort s (s.setWindow hd) :=
  windowChecks_port s hd fun w => by split <;> exact ⟨rfl, rfl, rfl⟩

theorem clearWindow_port (s : State) (hd : Handed) : SamePort s (s.clearWindow hd) :=
  windowChecks_port s hd fun _ => ⟨rfl, rfl, rfl⟩

theorem readWindow_port (s : State) (hd : Handed) : SamePort s (s.readWindow hd) := by
  unfold State.readWindow
  split <;> exact ⟨rfl, rfl, rfl⟩

/-! ### Notices and the strobe limit (chapters 10 and 6) -/

theorem takeFault_port (s : State) (hd : Handed) : SamePort s (s.takeFault hd) := by
  unfold State.takeFault
  simp only
  split <;> exact ⟨rfl, rfl, rfl⟩

theorem takeRetired_port (s : State) (hd : Handed) : SamePort s (s.takeRetired hd) := by
  unfold State.takeRetired
  split <;> exact ⟨rfl, rfl, rfl⟩

theorem setNotice_port (s : State) (hd : Handed) : SamePort s (s.setNotice hd) := by
  unfold State.setNotice
  split <;> exact ⟨rfl, rfl, rfl⟩

theorem setStrobeLimit_port (s : State) (hd : Handed) : SamePort s (s.setStrobeLimit hd) := by
  unfold State.setStrobeLimit
  simp only
  split <;> exact ⟨rfl, rfl, rfl⟩

/-! ### The engine, the Master Port and the sweep (chapters 4 and 8) -/

theorem State.PortFits.pause (h : s.PortFits) (hd : Handed) : (s.pause hd).PortFits := by
  unfold State.pause
  split
  · exact h
  · rename_i ht; exact State.PortFits.congr (pauseEngine_port h ht) (answer_port _ hd _ _)

theorem State.PortFits.resume (h : s.PortFits) (hd : Handed) : (s.resume hd).PortFits := by
  unfold State.resume
  split
  · exact h
  · rename_i ht; exact State.PortFits.congr (resumeEngine_port h ht) (answer_port _ hd _ _)

/-- A new interval discards the visits that wait for the port, and leaves a read on the bus (R145). -/
theorem State.PortFits.setSweep (h : s.PortFits) (hd : Handed) : (s.setSweep hd).PortFits := by
  unfold State.setSweep
  simp only
  split
  · exact h
  · obtain ⟨record, held, engine, sweep, claim, quiet, release⟩ := h
    exact ⟨record, held, engine, sweep, claim, fun hb => ⟨(quiet hb).1, rfl⟩, release⟩

/-- A release request may be recorded under a grant (R83). -/
theorem State.PortFits.recordRelease (h : s.PortFits) (hb : s.master.bus = .granted) :
    State.PortFits { s with master := { s.master with releaseReq := true } } := by
  obtain ⟨record, held, engine, sweep, claim, quiet, -⟩ := h
  exact ⟨record, held, engine, sweep, claim, quiet, fun _ => hb⟩

/-- The destination write of a unit completes: the boundary after the unit is decided (R91). -/
theorem unitCompletes_port {C : Prop} (hrec : Recs C s) (h : s.PortFits) {d : DescIx} {x : Desc} {f : InFlight}
    (hx : s.accessInFlight? = some (d, x, f)) : (s.unitCompletes d x).PortFits := by
  obtain ⟨ha, hd, hb⟩ := hrec.accessActive hx
  have moving : s.engine.state = .move := by
    unfold State.accessInFlight? at hx
    split at hx
    · assumption
    · cases hx
  exact (hrec.unitCompletes ha hd hb).port h.mid (h.noClaim (by rw [moving]; simp))

/-! ### Every command -/

/-- Every command keeps the engine's record and the Master Port's in agreement. -/
theorem State.PortFits.exec (h : s.PortFits) (hrec : Recs False s) (c : Instr) (ht : exec c s = .next t) :
    t.PortFits := by
  unfold Machine.exec at ht
  cases c with
  | argumentWordWrite p i bytes value => exact h.whileRunning (h.congr (writeArgument_port s p i bytes value)) ht
  | registerWriteIgnored p target value => exact h.whileRunning (event := fun s => s) h ht
  | commandWrite p code => exact h.whileRunning h ht
  | admission p =>
    refine h.whileRunning ?_ ht
    split
    · exact h
    · exact h.congr (admitCommand_port s p _)
  | clearStatus p =>
    refine h.whileRunning ?_ ht
    split
    · exact h
    · split
      · exact h.congr (admitCommand_port s p _)
      · exact h
  | verdictPost p id =>
    refine h.whileRunning ?_ ht
    split
    · exact h
    · simp only
      split <;> exact h
  | load p id => exact h.ownerTakes_apart (fun hd u => load_port u hd) ht
  | readDescriptor p id => exact h.ownerTakes_apart (fun hd u => readDescriptor_port u hd) ht
  | arm p id => exact h.ownerTakes_apart (fun hd u => arm_port u hd) ht
  | disarm p id => exact h.ownerTakes_apart (fun hd u => disarm_port u hd) ht
  | release p id => exact h.ownerTakes_apart (fun hd u => release_port u hd) ht
  | invoke p id => exact h.ownerTakes_apart (fun hd u => invoke_port u hd) ht
  | setGate p id => exact h.ownerTakes_apart (fun hd u => setGate_port u hd) ht
  | clearGate p id => exact h.ownerTakes_apart (fun hd u => clearGate_port u hd) ht
  | readGate p id => exact h.ownerTakes_apart (fun hd u => readGate_port u hd) ht
  | setWindow p id => exact h.ownerTakes_apart (fun hd u => setWindow_port u hd) ht
  | clearWindow p id => exact h.ownerTakes_apart (fun hd u => clearWindow_port u hd) ht
  | readWindow p id => exact h.ownerTakes_apart (fun hd u => readWindow_port u hd) ht
  | setRoute p id => exact h.ownerTakes_apart (fun hd u => setRoute_port u hd) ht
  | readRoute p id => exact h.ownerTakes_apart (fun hd u => readRoute_port u hd) ht
  | setStrobeLimit p id => exact h.ownerTakes_apart (fun hd u => setStrobeLimit_port u hd) ht
  | setPortLevel p id => exact h.ownerTakes_apart (fun hd u => setPortLevel_port u hd) ht
  | readStatus p id => exact h.ownerTakes_apart (fun hd u => answer_port u hd _ _) ht
  | takeFault p id => exact h.ownerTakes_apart (fun hd u => takeFault_port u hd) ht
  | takeRetired p id => exact h.ownerTakes_apart (fun hd u => takeRetired_port u hd) ht
  | setNotice p id => exact h.ownerTakes_apart (fun hd u => setNotice_port u hd) ht
  | setSweep p id => exact h.ownerTakes (fun hd u hu => hu.setSweep hd) ht
  | pause p id => exact h.ownerTakes (fun hd u hu => hu.pause hd) ht
  | resume p id => exact h.ownerTakes (fun hd u hu => hu.resume hd) ht
  | withdraw p id => exact h.ownerTakes (fun hd u hu => hu.withdrawCommand hd) ht
  | sweepLateClear p id =>
    refine h.whileRunning ?_ ht
    split <;> exact h
  | invocationAtTarget n =>
    refine h.whileRunning ?_ ht
    split
    · exact h
    · apply State.PortFits.invokeTarget
      exact h
  | lineInvocation n =>
    refine h.whileRunning ?_ ht
    split
    · exact h
    · exact State.PortFits.congr h (takeLineInvocation_port _ _)
  | chain n =>
    refine h.whileRunning ?_ ht
    split
    · exact h
    · exact State.PortFits.congr h (takeChain_port _ _)
  | guardResult n =>
    refine h.whileRunning ?_ ht
    split
    · exact h
    · exact State.PortFits.congr h (takeGuardResult_port _ _)
  | endRequest n =>
    refine h.whileRunning ?_ ht
    split <;> exact h
  | faultReport =>
    refine h.whileRunning ?_ ht
    split
    · exact h
    · exact State.PortFits.congr h (State.takeReport_only _ _ _).samePort
  | triggerLineEvent l =>
    refine h.whileRunning ?_ ht
    split
    · exact h
    · exact h.congr (lineEvent_port s l)
  | triggerLineRelease l => exact h.whileRunning h ht
  | withdrawLineEvent p =>
    refine h.whileRunning ?_ ht
    split
    · exact h
    · apply State.PortFits.withdrawPort
      exact h
  | withdrawLineRelease p => exact h.whileRunning h ht
  | portReturnOpen p =>
    refine h.whileRunning ?_ ht
    split <;> exact h
  | resetPin => cases ht; exact reset_portFits
  | resetRelease lines withdrawLines =>
    cases ht
    split <;> exact h
  | selection =>
    refine h.whileRunning ?_ ht
    split
    · exact select_port hrec h (by assumption)
    · exact h
  | busGrant =>
    refine h.whileRunning ?_ ht
    split
    · exact busGranted_port hrec h (by assumption)
    · exact h
  | releaseRequest =>
    refine h.whileRunning ?_ ht
    split
    · rename_i granted; exact h.recordRelease granted.1
    · exact h
  | guardReadEnd result =>
    refine h.whileRunning ?_ ht
    split
    · exact h
    · rename_i g hg
      have reading := guardInFlight?_state hg
      cases result with
      | word w => exact guardReadWord_port hrec h reading g w
      | busError =>
        have elsewhere : s.engine.state ≠ .waitPort := by rw [reading]; simp
        exact guardReadFails_port hrec h.mid (h.noClaim elsewhere) elsewhere
          (hrec.working.1 (by rw [reading]; rfl)) g _
  | unitReadEnd data =>
    refine h.whileRunning ?_ ht
    split
    · exact h
    · rename_i hx
      split
      · exact sourceReadDone_port hrec h hx data
      · exact h
  | unitCompletion =>
    refine h.whileRunning ?_ ht
    split
    · exact h
    · rename_i hx
      split
      · exact unitCompletes_port hrec h hx
      · exact h
  | accessBusError =>
    refine h.whileRunning ?_ ht
    split
    · exact h
    · exact unitFails_port h.mid _ _ _ _ _ _
  | accept c =>
    refine h.whileRunning ?_ ht
    split
    · exact accepted_port hrec h c
    · exact h
    · exact h
  | supply c data =>
    refine h.whileRunning ?_ ht
    split
    · exact supplied_port hrec h c data
    · exact h
    · exact h
  | refuse c =>
    refine h.whileRunning ?_ ht
    split
    · exact h
    · exact exchangeFails_port h c _
    · exact exchangeFails_port h c _
  | waitTimerExpiry c => exact h.whileRunning (waitExpires_port h c) ht
  | sweepTimerExpiry => exact h.whileRunning (sweepExpires_port h) ht
  | sweepReadEnd result =>
    refine h.whileRunning ?_ ht
    split
    · exact h
    · rename_i hr
      exact sweepReadOver_port hrec h _ hr result

/-- A step, of a command or of the time base, keeps the two records in agreement. -/
theorem State.PortFits.step (h : s.PortFits) (hrec : Recs False s) (ht : step s = .next t) : t.PortFits := by
  unfold Sys2Proof.Machine.step at ht
  split at ht
  · cases ht; exact timeBase_port h
  · rename_i c rest _
    have taken : State.PortFits { s with pending := rest } := h
    exact taken.exec (hrec.sameRecords rfl rfl rfl rfl rfl) c ht

/-- Settles O10: the agreement is carried through every command and through the time base, the records fitting as they
do in every state (O9). -/
theorem stepKeepsMasterPort : Obligations.StepKeepsMasterPort := by
  unfold Obligations.StepKeepsMasterPort
  intro s t records fits ht
  exact fits.step (recordsOk_iff_recs.1 records) ht

end Sys2Proof.Machine
end

section
/-! The master port handed on to the engine in WAIT_PORT (R75, R81, R82, R115, R116), and with it the bus grant (O42),
the give-backs by the engine (O43) and the end of the sweep's read (O55). -/

namespace Sys2Proof.Machine

open Host (Outcome)

variable {s : State} {d : DescIx} {x : Desc} {g : Guard} {code : Code}

/-! ### A failure settled at the port -/

theorem failed_none (hs : x.pr.stop = .none) (code : Code) (window : WindowIx) (side : SideName) (offset : Offset) :
    s.failed d x code window side offset =
      State.reportNow (s.retire d x code (some (side, offset))) x.owner
        (failureReport d code window side offset) := by
  unfold State.failed
  rw [hs]

theorem failed_engine (s : State) (d : DescIx) (x : Desc) (code : Code) (window : WindowIx) (side : SideName)
    (offset : Offset) : (s.failed d x code window side offset).engine = s.engine := by
  rw [← settleFailure_failed]
  exact (s.settleFailure_port d x code window side offset).1

/-- What the engine and the Master Port were does not show in a part at rest, but for the pause request. -/
theorem failed_rested_atPort {e : Engine} (he : e.pauseReq = s.engine.pauseReq) (m : MasterPort) (d : DescIx) (x : Desc)
    (code : Code) (window : WindowIx) (side : SideName) (offset : Offset) :
    ((s.atPort e m).failed d x code window side offset).rested = (s.failed d x code window side offset).rested := by
  have same := failed_engine s d x code window side offset
  rw [failed_atPort]
  unfold State.rested
  rw [same, ← he]
  rfl

/-- A guard read that fails while the engine is alone on the bus retires the descriptor and leaves the port at rest. -/
theorem guardReadFails_alone (w : s.Works .guard d x) (ha : s.AloneOnBus) (hc : s.master.engineClaim = false)
    (g : Guard) (code : Code) :
    s.guardReadFails g code = (s.failed d x code g.window .guard (.at g.offset)).rested := by
  have alone : s.guardReadOver = s.atPort { s.engine with inFlight := none } MasterPort.reset :=
    guardReadOver_alone ha hc
  have back : GivenBack s.guardReadOver := engineGivesBack_givenBack
    (s := { s with engine := { s.engine with inFlight := none } }) ha.1 hc
  have hx : s.guardReadOver.descs.get d = some x := by rw [alone]; exact w.2.2.2
  rw [guardReadFails_eq w hx back, alone, failed_rested]

/-! ### The engine takes the port -/

/-- The engine's claim is granted: it holds the master port (R81). -/
def State.portTaken (s : State) : State :=
  { s with master := { s.master with holder := some .engine, engineClaim := false } }

/-- The engine is in GUARD, its guard read on the bus at the address a (R115). -/
def State.guardReadAt (s : State) (g : Guard) (a : Word) : State :=
  s.putInFlight .guard
    { kind := .guardRead, side := .guard, window := g.window, offset := .at g.offset, address := a, data := none }

theorem engineTakesPort_begun (ha : s.activeDesc? = some (d, x)) (hb : s.engine.spellBegun = true) :
    s.engineTakesPort = s.portTaken.startUnit d x := by
  have active : State.activeDesc?
      { s with master := { s.master with engineClaim := false, holder := some .engine } } = some (d, x) := ha
  unfold State.engineTakesPort
  simp only [active, hb, if_true]
  rfl

theorem engineTakesPort_guard (w : s.Works .waitPort d x) (hb : s.engine.spellBegun = false)
    (hg : x.st.guard = some g) : s.engineTakesPort = s.portTaken.startGuardRead x g := by
  have active : State.activeDesc?
      { s with master := { s.master with engineClaim := false, holder := some .engine } } = some (d, x) := w.activeDesc
  unfold State.engineTakesPort
  simp only [active, hb, hg, Bool.false_eq_true, if_false]
  rfl

theorem startGuardRead_passes {a : Word}
    (ha : unitCheck s.windows g.window x.st.level false (.at g.offset) 4 = .ok a) :
    s.startGuardRead x g = s.guardReadAt g a := by
  have passes : guardCheck s.windows g x.st.level = .ok a := ha
  unfold State.startGuardRead
  rw [passes]
  rfl

theorem startGuardRead_fails (hf : unitCheck s.windows g.window x.st.level false (.at g.offset) 4 = .error code) :
    s.startGuardRead x g = State.guardReadFails { s with engine := { s.engine with state := .guard } } g code := by
  have fails : guardCheck s.windows g x.st.level = .error code := hf
  unfold State.startGuardRead
  rw [fails]

/-- With no visit waiting, a guard whose check fails settles its descriptor's record, and the port is at rest again
(R116). -/
theorem engineTakesPort_guardFails (w : s.Works .waitPort d x) (hd : s.sweep.deferred = 0)
    (hb : s.engine.spellBegun = false) (hg : x.st.guard = some g)
    (hf : unitCheck s.windows g.window x.st.level false (.at g.offset) 4 = .error code) :
    s.engineTakesPort = (s.failed d x code g.window .guard (.at g.offset)).rested := by
  have reading : State.Works (s.atPort { s.engine with state := .guard } s.portTaken.master) .guard d x := by
    obtain ⟨running, -, active, desc⟩ := w
    exact ⟨running, rfl, active, desc⟩
  calc s.engineTakesPort
      = s.portTaken.startGuardRead x g := engineTakesPort_guard w hb hg
    _ = (s.atPort { s.engine with state := .guard } s.portTaken.master).guardReadFails g code :=
        startGuardRead_fails (s := s.portTaken) hf
    _ = _ := guardReadFails_alone reading ⟨rfl, hd⟩ rfl g code
    _ = _ := failed_rested_atPort (e := { s.engine with state := .guard }) rfl _ _ _ _ _ _ _

/-- What the engine in WAIT_PORT does with the port, by what it waits for it: t is the state that follows (R75,
R81, R115, R116). -/
structure TakesPort (s t : State) (d : DescIx) (x : Desc) : Prop where
  unit : s.engine.spellBegun = true → t = s.portTaken.startUnit d x
  guard : ∀ g a, s.engine.spellBegun = false → x.st.guard = some g →
    unitCheck s.windows g.window x.st.level false (.at g.offset) 4 = .ok a → t = s.portTaken.guardReadAt g a
  fails : ∀ g code, s.engine.spellBegun = false → x.st.guard = some g →
    unitCheck s.windows g.window x.st.level false (.at g.offset) 4 = .error code →
    t = (s.failed d x code g.window .guard (.at g.offset)).rested

/-- With no visit waiting the port is handed to the engine that claims it (step 2 of R82). -/
theorem handOn_takesPort (w : s.Works .waitPort d x) (hd : s.sweep.deferred = 0) (hc : s.master.engineClaim = true) :
    TakesPort s s.handOn d x := by
  rw [handOn_claim hd hc]
  exact ⟨engineTakesPort_begun w.activeDesc,
    fun g a hb hg ha => (engineTakesPort_guard w hb hg).trans (startGuardRead_passes (s := s.portTaken) ha),
    fun g code hb hg hf => engineTakesPort_guardFails w hd hb hg hf⟩

/-! ### The engine gives the port back (O43) -/

theorem exec_releaseRequest (hr : s.resetHeld = false) : exec .releaseRequest s =
    .next (if s.master.bus = .granted ∧ s.master.holder.isSome then
      { s with master := { s.master with releaseReq := true } } else s) := by
  show execReleaseRequest s = _
  unfold execReleaseRequest
  rw [whileRunning_released hr]

theorem releaseRequestRecorded_claim : Claims.ReleaseRequestRecorded := by
  intro s hr
  rw [exec_releaseRequest hr]
  refine ⟨fun holder hb hh => ?_, fun hb => ?_⟩
  · rw [if_pos ⟨hb, by rw [hh]; rfl⟩]
  · rw [if_neg fun h => hb h.1]

/-- A release request served: the bus is asked for again if a visit or the engine waits (R83). -/
theorem serveRelease_eq (s : State) : s.serveRelease = { s with master := { s.master with
    bus := if s.sweep.deferred = 0 ∧ s.master.engineClaim = false then .notRequesting else .requesting
    holder := none
    releaseReq := false } } := by
  unfold State.serveRelease
  by_cases hd : s.sweep.deferred = 0 <;> cases hc : s.master.engineClaim <;> simp [hd]

theorem engineGivesPortBack_claim : Claims.EngineGivesPortBack := by
  intro s
  have holding : s.master.holder = some .engine → s.engineGivesBack =
      if s.master.releaseReq then s.serveRelease else s.handOnToSweep := fun hh => if_pos hh
  refine ⟨fun hh => if_neg hh, fun hh hr => ?_, fun hh hr hd => ?_, fun hh hr hc => engineGivesBack_handOn hh hr hc⟩
  · rw [holding hh, if_pos hr, serveRelease_eq]
  · rw [holding hh, if_neg (by simp [hr])]
    simp [State.handOnToSweep, hd, State.serveVisits, State.freeHolder, State.giveGrantBack]

theorem handOn_visit_reads (hd : s.sweep.deferred ≠ 0) (hr : s.visited.sweep.read.isSome = true) :
    s.handOn = s.visited := by rw [handOn_visit hd, if_pos hr]

theorem handOn_visit_goesOn (hd : s.sweep.deferred ≠ 0) (hr : s.visited.sweep.read = none) :
    s.handOn = s.visited.handOn := by rw [handOn_visit hd, if_neg (by simp [hr])]

theorem portHandedOn_claim : Claims.PortHandedOn := by
  intro s
  refine ⟨fun hd => ⟨handOn_visit_reads hd, handOn_visit_goesOn hd⟩,
    fun hd => ⟨handOn_none hd, fun d x hc w => ?_⟩⟩
  have taken := handOn_takesPort w hd hc
  refine ⟨taken.unit, fun g hb hg => ⟨fun a ha => taken.guard g a hb hg ha, fun code hs hf => ?_⟩⟩
  rw [← failed_none hs]
  exact taken.fails g code hb hg hf

/-- Settles O43: the release request recorded, and where the engine gives the port back, served, or else the port handed
on. -/
theorem releaseRequestServed : Obligations.ReleaseRequestServed :=
  ⟨releaseRequestRecorded_claim, engineGivesPortBack_claim, portHandedOn_claim, fun _ => parted_rested⟩

/-! ### The bus grant (O42) -/

/-- The bus has been granted, and nobody has the port yet (R82). -/
def State.granted (s : State) : State := { s with master := { s.master with bus := .granted } }

theorem exec_busGrant (hr : s.resetHeld = false) (hb : s.master.bus = .requesting) :
    exec .busGrant s = .next s.granted.handOn := by
  show execBusGrant s = _
  unfold execBusGrant
  rw [whileRunning_released hr, if_pos hb]
  rfl

theorem exec_busGrant_ignored (hr : s.resetHeld = false) (hb : s.master.bus ≠ .requesting) :
    exec .busGrant s = .next s := by
  show execBusGrant s = _
  unfold execBusGrant
  rw [whileRunning_released hr, if_neg hb]

theorem performVisit_bus (s : State) : s.performVisit.master.bus = s.master.bus := by
  rcases (performVisit_port s).2 with ⟨-, hm⟩ | ⟨-, -, hm⟩ <;> rw [hm]

/-- Who held the port before it is handed on does not matter. -/
theorem handOn_freeHolder (s : State) : s.freeHolder.handOn = s.handOn := rfl

/-- Asked for and granted anew, a bus that was granted is as it was, with nobody holding the port. -/
theorem granted_anew {u : State} (hb : u.master.bus = .granted) :
    State.granted { u with master := { u.master with bus := .requesting, holder := none } } = u.freeHolder := by
  unfold State.granted State.freeHolder
  rw [← hb]

/-- Settles O42: the grant hands the port on, which is what O43 says of a freed port; a visit that leaves no read on the
bus leaves the port to be handed on anew. -/
theorem busGrantHandsOn : Obligations.BusGrantHandsOn := by
  intro s hr
  refine ⟨exec_busGrant_ignored hr, fun hb hd => ⟨fun hc => ?_, fun d x hc w => ?_⟩, fun n hb hd => ?_⟩
  · rw [exec_busGrant hr hb]
    exact congrArg Outcome.next (handOn_none (s := s.granted) hd hc)
  · have taken : TakesPort s.granted s.granted.handOn d x := handOn_takesPort w hd hc
    rw [exec_busGrant hr hb]
    refine ⟨fun hs => congrArg Outcome.next (taken.unit hs),
      fun g a hs hg ha => congrArg Outcome.next (taken.guard g a hs hg ha), fun g code hs hg hn hf => ?_⟩
    rw [← failed_none hn]
    exact congrArg Outcome.next ((taken.fails g code hs hg hf).trans
      (failed_rested_atPort (s := s) (e := s.engine) rfl _ d x code _ _ _))
  · have waiting : s.granted.sweep.deferred ≠ 0 := by
      show s.sweep.deferred ≠ 0
      omega
    intro u
    have first : s.granted.visited = u := by
      have left : s.sweep.deferred - 1 = n := by omega
      subst left
      rfl
    have running : u.resetHeld = false := (State.performVisit_frame _).resetHeld.trans hr
    have bus : u.master.bus = .granted := performVisit_bus _
    rw [exec_busGrant hr hb]
    refine ⟨fun read => ?_, fun read => ?_⟩
    · rw [handOn_visit_reads waiting (by rw [first]; exact read), first]
    · rw [handOn_visit_goesOn waiting (by rw [first]; exact read), first,
        exec_busGrant (by exact running) rfl, granted_anew bus, handOn_freeHolder]

/-! ### The end of the sweep's read (O55) -/

theorem exec_sweepReadEnd {r : SweepRead} (hr : s.resetHeld = false) (hs : s.sweep.read = some r) (result : ReadEnd) :
    exec (.sweepReadEnd result) s = .next (s.sweepReadOver r result) := by
  show execSweepReadEnd result s = _
  unfold execSweepReadEnd
  rw [whileRunning_released hr]
  simp only [hs]

/-- Settles O55: the result is handed on, and the port then as a release request asks, or as O43 says of a freed
port. -/
theorem sweepReadHandsResult : Obligations.SweepReadHandsResult := by
  intro s r result hr hs outcome u
  have ended : exec (.sweepReadEnd result) s = .next (if s.master.releaseReq then u.serveRelease else u.handOn) :=
    exec_sweepReadEnd hr hs result
  have handedOn : s.master.releaseReq = false → exec (.sweepReadEnd result) s = .next u.handOn := fun hq =>
    ended.trans (congrArg Outcome.next (if_neg (by simp [hq])))
  refine ⟨fun hq => ?_, handedOn, fun hq hd => ?_, fun hq hd => ⟨fun hc => ?_, fun hc d x w => ?_⟩⟩
  · rw [ended, if_pos hq, serveRelease_eq]
  · rw [handedOn hq]
    exact ⟨fun read => congrArg Outcome.next (handOn_visit_reads hd read),
      fun read => congrArg Outcome.next (handOn_visit_goesOn hd read)⟩
  · rw [handedOn hq]
    exact congrArg Outcome.next (handOn_none (s := u) hd hc)
  · have taken : TakesPort u u.handOn d x := handOn_takesPort w hd hc
    rw [handedOn hq]
    refine ⟨fun hb => congrArg Outcome.next (taken.unit hb),
      fun g a hb hg ha => congrArg Outcome.next (taken.guard g a hb hg ha), fun g code hb hg hn hf => ?_⟩
    rw [← failed_none hn]
    exact congrArg Outcome.next (taken.fails g code hb hg hf)

end Sys2Proof.Machine
end

section
/-! PAUSE and RESUME at the Transfer Engine, by the engine's state (R75, R77, R78) (O38). -/

namespace Sys2Proof.Machine

open Host (Outcome)

variable {s t : State} {p : PortIx} {id : Word} {h : Handed} {d : DescIx} {x : Desc}

theorem EngineState.number_le (e : EngineState) : e.number ≤ 5 := by cases e <;> decide

/-- The word of the engine's image (R77, R78, section 9.8). -/
theorem engineImage_fields (e : Engine) :
    field ((engineImage e).get 0) 0 4 = e.state.number ∧ bit ((engineImage e).get 0) 4 = e.pauseReq := by
  have := e.state.number_le
  have word : (engineImage e).get 0 = pack [(e.state.number, 0), (flag e.pauseReq, 4)] := image_get _ 0
  rw [word]
  refine ⟨field_pack_at ?_ ?_ ?_, bit_pack_at ?_ ?_⟩ <;> simp [PacksAt, Apart] <;> omega

/-! ### PAUSE -/

theorem exec_pause_refused (wt : s.Waits .pause p id h) (hp : (s.took h).pauseEngine = none) :
    exec (.pause p id) s = .next (s.answered h .state noWords) := by
  refine (ownerTakes_waits wt fun h s => s.pause h).trans (congrArg Outcome.next ?_)
  unfold State.pause
  rw [hp]
  rfl

/-- A PAUSE that is taken is answered with the image of the engine as it leaves it. -/
theorem exec_pause_taken (wt : s.Waits .pause p id h) (hp : (s.took h).pauseEngine = some t) :
    ∃ words : PortWords, field (words.get 0) 0 4 = t.engine.state.number ∧ bit (words.get 0) 4 = t.engine.pauseReq ∧
      exec (.pause p id) s = .next (t.answer h .ok words) := by
  obtain ⟨state, pause⟩ := engineImage_fields t.engine
  refine ⟨engineImage t.engine, state, pause,
    (ownerTakes_waits wt fun h s => s.pause h).trans (congrArg Outcome.next ?_)⟩
  unfold State.pause
  rw [hp]

theorem pauseEngine_paused (hs : s.engine.state = .paused) : s.pauseEngine = none := by
  unfold State.pauseEngine
  rw [hs]

theorem pauseEngine_idle (hs : s.engine.state = .idle) :
    s.pauseEngine = some { s with engine := { s.engine with state := .paused } } := by
  unfold State.pauseEngine
  rw [hs]

theorem pauseEngine_between (hs : s.engine.state = .guard ∨ s.engine.state = .move ∨ s.engine.state = .peripheral) :
    s.pauseEngine = some { s with engine := { s.engine with pauseReq := true } } := by
  unfold State.pauseEngine
  rcases hs with hs | hs | hs <;> rw [hs]

/-- From WAIT_PORT the descriptor goes back to the head of its level, with its resume mark if its spell has begun, and
the engine withdraws its claim (R75). -/
theorem pauseEngine_waitPort (w : s.Works .waitPort d x) : s.pauseEngine = some { s with
    descs := s.descs.put d (some { x with state := .queued, pr := { x.pr with resume := s.engine.spellBegun } })
    sweepMarks := s.sweepMarks.put d false
    ready := s.ready.put x.st.priority (d :: s.ready.get x.st.priority)
    engine := { Engine.reset with state := .paused }
    master := { s.master with engineClaim := false } } := by
  have waiting : s.engine.state = .waitPort := w.2.1
  unfold State.pauseEngine
  simp only [waiting]
  unfold State.pauseInWaitPort
  simp only [w.activeDesc]
  unfold State.setAside
  rw [putDesc_unmarked _ _ _ (by simp [Desc.withProgress])]
  rfl

theorem pauseStopsEngine_claim : Claims.PauseStopsEngine := by
  intro s p id h wt
  refine ⟨fun hs => ?_, fun hs => ?_, fun hs => ?_, fun d x w => ?_⟩
  · exact exec_pause_refused wt (pauseEngine_paused hs)
  · exact exec_pause_taken wt (pauseEngine_idle hs)
  · exact exec_pause_taken wt (pauseEngine_between hs)
  · have taken : (s.took h).Works .waitPort d x := w
    exact exec_pause_taken wt (pauseEngine_waitPort taken)

/-! ### RESUME -/

theorem exec_resume_refused (wt : s.Waits .resume p id h) (hp : (s.took h).resumeEngine = none) :
    exec (.resume p id) s = .next (s.answered h .state noWords) := by
  refine (ownerTakes_waits wt fun h s => s.resume h).trans (congrArg Outcome.next ?_)
  unfold State.resume
  rw [hp]
  rfl

/-- A RESUME that is taken is answered with the image of the engine as it leaves it. -/
theorem exec_resume_taken (wt : s.Waits .resume p id h) (hp : (s.took h).resumeEngine = some t) :
    ∃ words : PortWords, field (words.get 0) 0 4 = t.engine.state.number ∧ bit (words.get 0) 4 = t.engine.pauseReq ∧
      exec (.resume p id) s = .next (t.answer h .ok words) := by
  obtain ⟨state, pause⟩ := engineImage_fields t.engine
  refine ⟨engineImage t.engine, state, pause,
    (ownerTakes_waits wt fun h s => s.resume h).trans (congrArg Outcome.next ?_)⟩
  unfold State.resume
  rw [hp]

theorem resumeEngine_notPaused (hs : s.engine.state = .idle ∨ s.engine.state = .waitPort) :
    s.resumeEngine = none := by
  unfold State.resumeEngine
  rcases hs with hs | hs <;> rw [hs]

theorem resumeEngine_paused (hs : s.engine.state = .paused) :
    s.resumeEngine = some { s with engine := { s.engine with state := .idle } } := by
  unfold State.resumeEngine
  rw [hs]

theorem resumeEngine_between (hs : s.engine.state = .guard ∨ s.engine.state = .move ∨ s.engine.state = .peripheral) :
    s.resumeEngine = if s.engine.pauseReq then some { s with engine := { s.engine with pauseReq := false } }
      else none := by
  unfold State.resumeEngine
  rcases hs with hs | hs | hs <;> rw [hs]

theorem resumeRestartsEngine_claim : Claims.ResumeRestartsEngine := by
  intro s p id h wt
  refine ⟨fun hs => ?_, fun hs => ?_, fun hs => ?_⟩
  · exact exec_resume_refused wt (resumeEngine_notPaused hs)
  · exact exec_resume_taken wt (resumeEngine_paused hs)
  · have between := resumeEngine_between (s := s.took h) hs
    refine ⟨fun hp => ?_, fun hp => ?_⟩
    · exact exec_resume_refused wt (between.trans (if_neg (by simp [State.took, hp])))
    · exact exec_resume_taken wt (between.trans (if_pos hp))

/-- Settles O38, by the engine's state: each command is refused, or answered with the image of the engine it leaves. -/
theorem pauseAndResume : Obligations.PauseAndResume :=
  ⟨pauseStopsEngine_claim, resumeRestartsEngine_claim⟩

end Sys2Proof.Machine
end

section
/-! Selection (R66, R69, R71): the head of the highest level, and the port claimed for it (R81) (O39). -/

namespace Sys2Proof.Machine

open Host (Outcome)

variable {s : State} {k : Priority} {rest : List DescIx} {d : DescIx} {x : Desc}

/-! ### The highest level -/

/-- In a descending list the first priority found is the highest that fits. -/
theorem find?_descending {l : List Priority} {fits : Priority → Bool} (sorted : l.Pairwise (· > ·)) (mem : k ∈ l)
    (fit : fits k = true) (above : ∀ j, k < j → fits j = false) : l.find? fits = some k := by
  induction l with
  | nil => cases mem
  | cons j l ih =>
    obtain ⟨higher, sorted⟩ := List.pairwise_cons.1 sorted
    rcases List.mem_cons.1 mem with rfl | mem
    · exact List.find?_cons_of_pos fit
    · rw [List.find?_cons_of_neg (by simp [above j (higher k mem)])]
      exact ih sorted mem

theorem priorities_descending : priorities.Pairwise (· > ·) := by decide

theorem mem_priorities (k : Priority) : k ∈ priorities := by simp [priorities]

theorem topLevel?_some (hk : s.ready.get k ≠ []) (above : ∀ j, k < j → s.ready.get j = []) :
    s.topLevel? = some k :=
  find?_descending priorities_descending (mem_priorities k) (by simpa using hk) fun j hj => by simp [above j hj]

theorem topLevel?_none (empty : ∀ k, s.ready.get k = []) : s.topLevel? = none :=
  List.find?_eq_none.2 fun k _ => by simp [empty k]

/-! ### The claim of the port -/

/-- The port is claimed and waited for, unless the engine holds it or it is free under a grant (R81). -/
theorem claimPort_waits (hh : s.master.holder ≠ some .engine)
    (hf : ¬ (s.master.bus = .granted ∧ s.master.holder = none)) : s.claimPort = s.claimed := by
  unfold State.claimPort
  simp only
  rw [if_neg hh, if_neg fun h => hf ⟨h.1, h.2.1⟩]
  rfl

/-- At the boundary before its first unit a spell that nothing ends claims the port it does not hold (step 6 of R73). -/
theorem boundary_first (hblk : x.pr.blocksRem ≠ 0) (hs : x.pr.stop = .none) (hp : s.engine.pauseReq = false)
    (hu : s.engine.unitsSince = 0) (hh : s.master.holder ≠ some .engine) : s.boundary d x false = s.claimPort := by
  unfold State.boundary State.continueSpell
  rw [if_neg hblk, if_neg (not_not_intro hs), hu, quotaMet_start hblk]
  simp [hp, hh]

/-! ### The descriptor taken -/

/-- The record of a descriptor that is selected: ACTIVE without its resume mark, one trigger consumed unless it has the
mark or a guard (R69, R71). -/
def Desc.selected (x : Desc) : Desc :=
  { x with state := .active, pr := { x.pr with
      resume := false
      pending := if x.pr.resume = true ∨ x.st.guard.isSome = true then x.pr.pending else x.pr.pending - 1 } }

theorem Desc.selected_resumed (hr : x.pr.resume = true) :
    x.selected = { x with state := .active, pr := { x.pr with resume := false } } := by
  simp [Desc.selected, hr]

theorem Desc.selected_guarded (hr : x.pr.resume = false) (hg : x.st.guard.isSome = true) :
    x.selected = { x with state := .active } := by
  simp [Desc.selected, hg, ← hr]

theorem Desc.selected_fresh (hr : x.pr.resume = false) (hg : x.st.guard = none) :
    x.selected = Desc.consumed { x with state := .active } := by
  simp [Desc.selected, Desc.consumed, hg, ← hr]

/-- The engine has taken the head of a level off it, and works on it as y (R69, R71). -/
def State.selected (s : State) (k : Priority) (rest : List DescIx) (d : DescIx) (y : Desc) (begun : Bool) : State :=
  { s with
    ready := s.ready.put k rest
    descs := s.descs.put d (some y)
    sweepMarks := s.sweepMarks.put d false
    engine := { s.engine with active := some d, unitsSince := 0, spellBegun := begun } }

/-- Writing the record of the descriptor taken clears its sweep read mark (R25). -/
theorem putDesc_selected {y : Desc} (hy : y.state = .active) (begun : Bool) :
    let t : State := { s.putReady k rest with engine := { s.engine with active := some d, unitsSince := 0 } }
    { t.putDesc d (some y) with engine := { t.engine with spellBegun := begun } } = s.selected k rest d y begun := by
  intro t
  rw [putDesc_unmarked t d y (by simp [hy])]
  rfl

theorem takeSelection_resumed (hr : x.pr.resume = true) : (s.putReady k rest).takeSelection d x =
    (s.selected k rest d x.selected true).boundary d x.selected false := by
  rw [← putDesc_selected rfl true, Desc.selected_resumed hr]
  exact if_pos hr

theorem takeSelection_guarded (hr : x.pr.resume = false) {g : Guard} (hg : x.st.guard = some g) :
    (s.putReady k rest).takeSelection d x = (s.selected k rest d x.selected false).claimPort := by
  rw [← putDesc_selected rfl false, Desc.selected_guarded hr (by rw [hg]; rfl)]
  unfold State.takeSelection
  simp only [hr, hg]
  rfl

theorem takeSelection_fresh (hr : x.pr.resume = false) (hg : x.st.guard = none) :
    (s.putReady k rest).takeSelection d x = (s.selected k rest d x.selected true).boundary d x.selected false := by
  rw [← putDesc_selected rfl true, Desc.selected_fresh hr hg]
  unfold State.takeSelection
  simp only [hr, hg]
  rfl

/-- A descriptor taken with the engine at rest and the port not to be had claims the port: its spell has begun unless
its guard is still to be read (R71, R81). -/
theorem takeSelection_claimed (he : s.engine = Engine.reset) (hh : s.master.holder ≠ some .engine)
    (hf : ¬ (s.master.bus = .granted ∧ s.master.holder = none)) (hq : x.state = .queued) (ok : x.Ok) :
    (s.putReady k rest).takeSelection d x =
      (s.selected k rest d x.selected (x.pr.resume || x.st.guard.isNone)).claimed := by
  have hblk : x.pr.blocksRem ≠ 0 := fun h => by
    have retired := (ok.2.2.1 h).1
    rw [hq] at retired; cases retired
  have hs : x.pr.stop = .none := ok.stop_none (by rw [hq]; simp)
  have claims : ∀ begun, (s.selected k rest d x.selected begun).claimPort =
      (s.selected k rest d x.selected begun).claimed := fun begun => claimPort_waits hh hf
  have begins : (s.selected k rest d x.selected true).boundary d x.selected false =
      (s.selected k rest d x.selected true).claimed := by
    have noPause : (s.selected k rest d x.selected true).engine.pauseReq = false := by
      simp [State.selected, he, Engine.reset]
    rw [boundary_first (by exact hblk) (by exact hs) noPause rfl (by exact hh), claims]
  cases hr : x.pr.resume with
  | true => rw [takeSelection_resumed hr, begins, Bool.true_or]
  | false =>
    cases hg : x.st.guard with
    | some g => rw [takeSelection_guarded hr hg, claims, Option.isNone_some, Bool.or_false]
    | none => rw [takeSelection_fresh hr hg, begins, Option.isNone_none, Bool.or_true]

/-- Selection takes the head of the highest level that holds a descriptor (R69). -/
theorem select_head (hk : s.ready.get k = d :: rest) (above : ∀ j, k < j → s.ready.get j = [])
    (hx : s.descs.get d = some x) : s.select = (s.putReady k rest).takeSelection d x := by
  have top : s.topLevel? = some k := topLevel?_some (by rw [hk]; simp) above
  have hx' : (s.putReady k rest).descs.get d = some x := hx
  unfold State.select
  simp only [top, hk, hx']

theorem select_empty (empty : ∀ k, s.ready.get k = []) : s.select = s := by
  unfold State.select
  rw [topLevel?_none empty]

theorem exec_selection (hr : s.resetHeld = false) :
    exec .selection s = .next (if s.engine.state = .idle then s.select else s) := by
  show execSelection s = _
  unfold execSelection
  rw [whileRunning_released hr]

/-- Settles O39: an engine that is not idle selects nothing, nor does one with an empty queue; else the head of the
highest level is taken, and each of the three ways in which its spell starts comes to the claim of the port. -/
theorem selectionTakesHead : Obligations.SelectionTakesHead := by
  intro s hr
  rw [exec_selection hr]
  refine ⟨fun hi => by rw [if_neg hi], fun hi empty => by rw [if_pos hi, select_empty empty],
    fun k d rest x he hh hb hk above hx hq ok => ?_⟩
  have idle : s.engine.state = .idle := by rw [he]; rfl
  have notFree : ¬ (s.master.bus = .granted ∧ s.master.holder = none) := fun h => by
    have sweeping := hb h.1
    rw [h.2] at sweeping; cases sweeping
  rw [if_pos idle, select_head hk above hx, takeSelection_claimed he hh notFree hq ok]
  simp only [State.claimed, State.selected, he]
  rfl

end Sys2Proof.Machine
end

section
/-! A unit that fails while the engine holds the port, and the first check of a unit that fails it so (R86 to R89, R100,
R101) (O41). -/

namespace Sys2Proof.Machine

variable {s : State} {d : DescIx} {x : Desc} {code : Code} {src dst : Side} {strobe : Strobe} {pattern : UnitData}

/-! ### The first access or exchange of a unit, by its kind -/

theorem startUnit_copy (hm : x.st.movement = .copy src dst) : s.startUnit d x = s.startSourceRead d x src := by
  unfold State.startUnit
  rw [hm]

theorem startUnit_send (hm : x.st.movement = .send src strobe) : s.startUnit d x = s.startSourceRead d x src := by
  unfold State.startUnit
  rw [hm]

theorem startUnit_receive (hm : x.st.movement = .receive dst strobe) :
    s.startUnit d x = s.startAsk d x dst strobe := by
  unfold State.startUnit
  rw [hm]

theorem startUnit_fill (hm : x.st.movement = .fill dst pattern) :
    s.startUnit d x = s.startDestinationWrite d x dst pattern := by
  unfold State.startUnit
  rw [hm]

/-! ### A check that fails -/

theorem startSourceRead_fails
    (hf : unitCheck s.windows src.window x.st.level false x.pr.src x.st.unitSize.bytes = .error code) :
    s.startSourceRead d x src = s.unitFails d x code src.window .source x.pr.src := by
  have fails : s.sideCheck x src false x.pr.src = .error code := hf
  unfold State.startSourceRead
  rw [fails]

theorem startAsk_fails
    (hf : unitCheck s.windows dst.window x.st.level true x.pr.dst x.st.unitSize.bytes = .error code) :
    s.startAsk d x dst strobe = s.unitFails d x code dst.window .destination x.pr.dst := by
  have fails : s.sideCheck x dst true x.pr.dst = .error code := hf
  unfold State.startAsk
  rw [fails]

theorem startDestinationWrite_fails {data : UnitData}
    (hf : unitCheck s.windows dst.window x.st.level true x.pr.dst x.st.unitSize.bytes = .error code) :
    s.startDestinationWrite d x dst data = s.unitFails d x code dst.window .destination x.pr.dst := by
  have fails : s.sideCheck x dst true x.pr.dst = .error code := hf
  unfold State.startDestinationWrite
  rw [fails]

/-- Settles O41: the record is settled by the stop request it carries, if any, and the engine parts from it; each kind
of unit begins with a check of its own side. -/
theorem unitFails : Obligations.UnitFails := by
  intro s d x code window side offset hh
  have settled : s.unitFails d x code window side offset = (s.failed d x code window side offset).parted :=
    unitFails_parted hh d x code window side offset
  unfold State.failed at settled
  refine ⟨fun hs => ?_, fun hs => ?_, fun hs => ?_, fun hs => ?_,
    fun src dst hm hf => (startUnit_copy hm).trans (startSourceRead_fails hf),
    fun src strobe hm hf => (startUnit_send hm).trans (startSourceRead_fails hf),
    fun dst strobe hm hf => (startUnit_receive hm).trans (startAsk_fails hf),
    fun dst pattern hm hf => (startUnit_fill hm).trans (startDestinationWrite_fails hf)⟩
  all_goals rw [settled, hs]

end Sys2Proof.Machine
end

section
/-! The boundary after a unit (R73, R74): the first of its steps whose condition holds, where the descriptor leaves
ACTIVE (O47) and where the spell goes on (O48). -/

namespace Sys2Proof.Machine

variable {s t : State} {d : DescIx} {x y : Desc} {b : Bool}

/-! ### The steps of R73, in order -/

theorem boundary_completes (hblk : x.pr.blocksRem = 0) : s.boundary d x b = s.complete d x := if_pos hblk

theorem boundary_stops (hblk : x.pr.blocksRem ≠ 0) (hs : x.pr.stop ≠ .none) :
    s.boundary d x b = (s.settleStop d x).letGo := by
  unfold State.boundary
  rw [if_neg hblk, if_pos hs]

theorem boundary_spellEnds (hblk : x.pr.blocksRem ≠ 0) (hs : x.pr.stop = .none)
    (hq : quotaMet x s.engine.unitsSince = true) : s.boundary d x b = (s.spellEnds d x).letGo := by
  unfold State.boundary
  rw [if_neg hblk, if_neg (not_not_intro hs), if_pos hq]

theorem boundary_pauses (hblk : x.pr.blocksRem ≠ 0) (hs : x.pr.stop = .none)
    (hq : ¬ quotaMet x s.engine.unitsSince = true) (hp : s.engine.pauseReq = true) :
    s.boundary d x b = (s.setAside d x true).letGo := by
  unfold State.boundary
  rw [if_neg hblk, if_neg (not_not_intro hs), if_neg hq, if_pos hp]

theorem boundary_yields (hblk : x.pr.blocksRem ≠ 0) (hs : x.pr.stop = .none)
    (hq : ¬ quotaMet x s.engine.unitsSince = true) (hp : s.engine.pauseReq = false)
    (hy : x.st.mode = .run ∧ b = true ∧ s.readyAbove x.st.priority = true) :
    s.boundary d x b = (s.setAside d x true).letGo := by
  unfold State.boundary
  rw [if_neg hblk, if_neg (not_not_intro hs), if_neg hq, if_neg (by simp [hp]), if_pos hy]

theorem boundary_continues (hblk : x.pr.blocksRem ≠ 0) (hs : x.pr.stop = .none)
    (hq : ¬ quotaMet x s.engine.unitsSince = true) (hp : s.engine.pauseReq = false)
    (hy : ¬ (x.st.mode = .run ∧ b = true ∧ s.readyAbove x.st.priority = true)) (hm : x.st.mode ≠ .single) :
    s.boundary d x b = s.continueSpell d x b := by
  unfold State.boundary
  have notSingle : (x.st.mode == .single) = false := by simpa using hm
  rw [if_neg hblk, if_neg (not_not_intro hs), if_neg hq, if_neg (by simp [hp]), if_neg hy, notSingle, Bool.false_and,
    Bool.or_false]

/-- After a unit, with blocks remaining, the quota of SINGLE is met, that of BLOCK at a block's end, and that of RUN is
not (R74). -/
theorem quotaMet_after (hblk : x.pr.blocksRem ≠ 0) (n : Nat) :
    quotaMet x (n + 1) = true ↔ x.st.mode = .single ∨ (x.st.mode = .block ∧ x.pr.unitsInBlock = 0) := by
  unfold quotaMet
  cases x.st.mode <;> simp [hblk]

theorem readyAbove_iff (k : Priority) : s.readyAbove k = true ↔ ∃ j, k < j ∧ s.ready.get j ≠ [] := by
  simp [State.readyAbove, mem_priorities]

/-! ### The unit counted -/

/-- The record of a descriptor that has moved a unit more (R91). -/
def Desc.moved (x : Desc) : Desc := { x with pr := x.pr.afterUnit x.st }

/-- The engine has counted a unit, and has nothing in flight (R91). -/
def Engine.counted (e : Engine) : Engine := { e with unitsSince := e.unitsSince + 1, inFlight := none }

/-- The state at the boundary after a unit, the descriptor's record written (R91). -/
def State.counted (s : State) (d : DescIx) (y : Desc) : State :=
  (s.putDesc d (some y)).atPort s.engine.counted s.master

theorem unitCompletes_eq (s : State) (d : DescIx) (x : Desc) : s.unitCompletes d x =
    (s.counted d x.moved).boundary d x.moved (x.pr.unitsInBlock + 1 == x.st.blockLen) := rfl

theorem moved_unitsInBlock_ne (h : ¬ x.pr.unitsInBlock + 1 = x.st.blockLen) : x.moved.pr.unitsInBlock ≠ 0 := by
  simp [Desc.moved, Progress.afterUnit, h]

/-! ### What leaving ACTIVE writes

It writes over the record of the unit, and does not look at the engine's record; so it is the same before the unit is
counted. -/

theorem retire_counted (reason : Code) (detail : Option (SideName × Offset)) :
    (s.counted d y).retire d x reason detail = (s.retire d x reason detail).atPort s.engine.counted s.master := by
  unfold State.counted
  rw [retire_atPort, retire_eq, retire_eq]
  simp only [State.putDesc, Tab.put_put_same]

theorem makeEmpty_counted :
    (s.counted d y).makeEmpty d x = (s.makeEmpty d x).atPort s.engine.counted s.master := by
  unfold State.counted State.makeEmpty
  rw [leaveQueue_ready, leaveQueue_ready]
  simp only [putDesc_empty]
  simp only [State.putDesc, State.atPort, Tab.put_put_same]
  rfl

/-- A record in another state than WAITING, written over that of the unit. -/
theorem putDesc_counted (hx : x.state ≠ .waiting) :
    (s.counted d y).putDesc d (some x) = (s.putDesc d (some x)).atPort s.engine.counted s.master := by
  rw [putDesc_unmarked _ _ _ hx, putDesc_unmarked _ _ _ hx]
  simp only [State.counted, State.putDesc, State.atPort, Tab.put_put_same]

/-- The descriptor's record settled for the stop request it carries. -/
theorem settleStop_counted (hs : x.pr.stop ≠ .none) :
    (s.counted d y).settleStop d x = (s.settleStop d x).atPort s.engine.counted s.master := by
  unfold State.settleStop
  cases h : x.pr.stop with
  | none => exact absurd h hs
  | cancelled => exact retire_counted _ _
  | leaseExpired => exact retire_counted _ _
  | withdrawn => simp only [makeEmpty_counted]; rfl

/-- The descriptor back in the queue, at the tail of its level. -/
def State.queuedAt (s : State) (d : DescIx) (x : Desc) (pr : Progress) : State :=
  { s with
    descs := s.descs.put d (some { x with state := .queued, pr })
    sweepMarks := s.sweepMarks.put d false
    ready := s.ready.put x.st.priority (s.ready.get x.st.priority ++ [d]) }

/-- The descriptor ARMED again. -/
def State.armedAt (s : State) (d : DescIx) (x : Desc) (pr : Progress) : State :=
  { s with descs := s.descs.put d (some { x with state := .armed, pr }), sweepMarks := s.sweepMarks.put d false }

/-- Back to the tail of its level if a trigger is pending, else ARMED: so a spell ends, and so a reload does. -/
theorem requeue_counted (pr : Progress) :
    (if 0 < pr.pending then
      ((s.counted d y).putDesc d (some (x.withProgress .queued pr))).insertTail d x.st.priority
    else (s.counted d y).putDesc d (some (x.withProgress .armed pr))) =
      (if 0 < pr.pending then s.queuedAt d x pr else s.armedAt d x pr).atPort s.engine.counted s.master := by
  rw [putDesc_counted (by simp [Desc.withProgress]), putDesc_counted (by simp [Desc.withProgress]),
    putDesc_unmarked _ _ _ (by simp [Desc.withProgress]), putDesc_unmarked _ _ _ (by simp [Desc.withProgress])]
  split <;> rfl

theorem setAside_counted :
    (s.counted d y).setAside d x true = (s.asideAt d x).atPort s.engine.counted s.master := by
  unfold State.setAside
  rw [putDesc_counted (by simp [Desc.withProgress]), putDesc_unmarked _ _ _ (by simp [Desc.withProgress])]
  rfl

/-! ### Letting go -/

/-- The engine lets go from where it stands after the unit: its pause request alone is looked at (R76). -/
theorem letGo_counted (hp : SamePort s t) (hh : s.master.holder = some .engine) :
    (t.atPort s.engine.counted s.master).letGo = t.parted := by
  obtain ⟨engine, master, -⟩ := hp
  rw [letGo_parted (by exact hh), ← engine, ← master]
  rfl

/-! ### Completion (R130) -/

/-- The completed descriptor's record is settled: freed, reloaded or retired DONE (part 2 of R130). -/
theorem settleCompletion_counted :
    (s.counted d y).settleCompletion d x =
      (if (s.ports.get x.owner).state = .closing then { s.makeEmpty d x with freed := s.freed.put x.owner true }
      else if x.st.reload then
        if 0 < x.pr.pending then s.queuedAt d x (x.pr.afterReload x.st) else s.armedAt d x (x.pr.afterReload x.st)
      else s.retire d x .done none).atPort s.engine.counted s.master := by
  have ports : (s.counted d y).ports = s.ports := rfl
  unfold State.settleCompletion
  rw [ports]
  split
  · simp only [makeEmpty_counted]
    rw [← makeEmpty_freed s d x]
    rfl
  · split
    · exact requeue_counted (x.pr.afterReload x.st)
    · exact retire_counted _ _

/-- The end request of a completion (part 3 of R130, R134). -/
def StaticPart.endRequests (x : StaticPart) : List ChannelIx :=
  match x.movement.strobe? with
  | none => []
  | some strobe => if strobe.endPulse then [strobe.channel] else []

/-- The chain of a completion (part 4 of R130, R135). -/
def Desc.chainTo (x : Desc) (d : DescIx) : List Chain :=
  match x.st.successor with
  | none => []
  | some successor => [{ successor, completed := d, level := x.st.level, owner := x.owner }]

theorem handEndRequest_eq (s : State) (x : StaticPart) :
    s.handEndRequest x = { s with endReqs := s.endReqs ++ x.endRequests } := by
  unfold State.handEndRequest StaticPart.endRequests
  cases x.movement.strobe? with
  | none => simp
  | some strobe => cases h : strobe.endPulse <;> simp [h]

theorem handChain_eq (s : State) (d : DescIx) (x : Desc) :
    s.handChain d x = { s with chains := s.chains ++ x.chainTo d } := by
  unfold State.handChain Desc.chainTo
  cases x.st.successor <;> simp

/-- The end request and the chain are handed on, and the engine lets go. -/
theorem complete_counted {u : State}
    (settled : (s.counted d y).settleCompletion d x = u.atPort s.engine.counted s.master)
    (hp : SamePort s u) (he : u.endReqs = s.endReqs) (hc : u.chains = s.chains)
    (hh : s.master.holder = some .engine) : (s.counted d y).complete d x = State.parted { u with
      endReqs := s.endReqs ++ x.st.endRequests
      chains := s.chains ++ x.chainTo d } := by
  unfold State.complete
  rw [settled, handEndRequest_eq, handChain_eq, ← he, ← hc]
  exact letGo_counted (t := { u with
    endReqs := u.endReqs ++ x.st.endRequests
    chains := u.chains ++ x.chainTo d }) hp hh

theorem retire_handsNothing (reason : Code) (detail : Option (SideName × Offset)) :
    (s.retire d x reason detail).endReqs = s.endReqs ∧ (s.retire d x reason detail).chains = s.chains := by
  rw [retire_eq]
  simp only
  split <;> exact ⟨rfl, rfl⟩

theorem makeEmpty_handsNothing :
    (s.makeEmpty d x).endReqs = s.endReqs ∧ (s.makeEmpty d x).chains = s.chains := by
  unfold State.makeEmpty
  rw [leaveQueue_ready]
  exact ⟨rfl, rfl⟩

/-- A unit that ends the last block completes its descriptor, whose record is settled as u (R130). -/
theorem unitCompletes_last {u : State} (hblk : x.moved.pr.blocksRem = 0) (hh : s.master.holder = some .engine)
    (hu : (if (s.ports.get x.owner).state = .closing then
        { s.makeEmpty d x.moved with freed := s.freed.put x.owner true }
      else if x.st.reload then
        if 0 < x.pr.pending then s.queuedAt d x.moved (x.moved.pr.afterReload x.st)
        else s.armedAt d x.moved (x.moved.pr.afterReload x.st)
      else s.retire d x.moved .done none) = u)
    (hp : SamePort s u) (hands : u.endReqs = s.endReqs ∧ u.chains = s.chains) :
    s.unitCompletes d x = State.parted { u with
      endReqs := s.endReqs ++ x.st.endRequests
      chains := s.chains ++ x.chainTo d } := by
  rw [unitCompletes_eq, boundary_completes hblk]
  refine complete_counted ?_ hp hands.1 hands.2 hh
  rw [settleCompletion_counted, ← hu]
  rfl

/-! ### The descriptor leaves ACTIVE (O47) -/

theorem settleStop_cancelled (h : x.pr.stop = .cancelled) : s.settleStop d x = s.retire d x .cancelled none := by
  unfold State.settleStop
  rw [h]

theorem settleStop_leaseExpired (h : x.pr.stop = .leaseExpired) :
    s.settleStop d x = s.retire d x .leaseExpired none := by
  unfold State.settleStop
  rw [h]

theorem settleStop_withdrawn (h : x.pr.stop = .withdrawn) :
    s.settleStop d x = { s.makeEmpty d x with freed := s.freed.put x.owner true } := by
  unfold State.settleStop
  rw [h, ← makeEmpty_freed s d x]

/-- A stop request is taken at the boundary after the unit (step 2 of R73). -/
theorem unitCompletes_stops (hblk : x.moved.pr.blocksRem ≠ 0) (hh : s.master.holder = some .engine)
    (hs : x.pr.stop ≠ .none) : s.unitCompletes d x = (s.settleStop d x.moved).parted := by
  rw [unitCompletes_eq, boundary_stops hblk (by exact hs), settleStop_counted (by exact hs)]
  exact letGo_counted (s.settleStop_port d x.moved) hh

/-- The quota of the spell is met by this unit (R74). -/
def Desc.Quota (x : Desc) : Prop :=
  x.st.mode = .single ∨ (x.st.mode = .block ∧ x.moved.pr.unitsInBlock = 0)

theorem quotaMet_moved (hblk : x.moved.pr.blocksRem ≠ 0) :
    quotaMet x.moved (s.counted d x.moved).engine.unitsSince = true ↔ x.Quota := quotaMet_after hblk _

/-- The spell ends with its quota (step 4 of R73). -/
theorem unitCompletes_spellEnds (hblk : x.moved.pr.blocksRem ≠ 0) (hh : s.master.holder = some .engine)
    (hs : x.pr.stop = .none) (hq : x.Quota) : s.unitCompletes d x =
      (if 0 < x.pr.pending then s.queuedAt d x.moved x.moved.pr else s.armedAt d x.moved x.moved.pr).parted := by
  rw [unitCompletes_eq, boundary_spellEnds hblk (by exact hs) ((quotaMet_moved hblk).2 hq)]
  refine (congrArg State.letGo (requeue_counted x.moved.pr)).trans (letGo_counted ?_ hh)
  split <;> exact ⟨rfl, rfl, rfl⟩

/-- A pause sets the descriptor aside (step 3 of R73). -/
theorem unitCompletes_pauses (hblk : x.moved.pr.blocksRem ≠ 0) (hh : s.master.holder = some .engine)
    (hs : x.pr.stop = .none) (hq : ¬ x.Quota) (hp : s.engine.pauseReq = true) :
    s.unitCompletes d x = (s.asideAt d x.moved).parted := by
  rw [unitCompletes_eq, boundary_pauses hblk (by exact hs) (fun h => hq ((quotaMet_moved hblk).1 h)) (by exact hp),
    setAside_counted]
  exact letGo_counted ⟨rfl, rfl, rfl⟩ hh

/-- At the end of a RUN block the spell yields to a higher level (step 5 of R73, R98). -/
theorem unitCompletes_yields (hblk : x.moved.pr.blocksRem ≠ 0) (hh : s.master.holder = some .engine)
    (hs : x.pr.stop = .none) (hp : s.engine.pauseReq = false) (hm : x.st.mode = .run)
    (hb : x.pr.unitsInBlock + 1 = x.st.blockLen) (above : ∃ j, x.st.priority < j ∧ s.ready.get j ≠ []) :
    s.unitCompletes d x = (s.asideAt d x.moved).parted := by
  have noQuota : ¬ x.Quota := by simp [Desc.Quota, hm]
  rw [unitCompletes_eq, boundary_yields hblk (by exact hs) (fun h => noQuota ((quotaMet_moved hblk).1 h)) (by exact hp)
    ⟨hm, by simpa using hb, (readyAbove_iff _).2 above⟩, setAside_counted]
  exact letGo_counted ⟨rfl, rfl, rfl⟩ hh

theorem boundaryLetsGo_claim : Claims.BoundaryLetsGo := by
  intro s d x hh y blockEnd quota aside queuedAt armedAt handed
  refine ⟨fun hblk => ⟨fun closing => ?_, fun opened => ?_⟩, fun hblk => ⟨fun hs => ?_, fun hs => ?_, fun hs => ?_,
    fun hs => ⟨fun hq hp => ?_, fun hq hp => ?_, fun hq hp => ?_, fun _ hp hm hb above => ?_⟩⟩⟩
  · exact unitCompletes_last hblk hh (if_pos closing) ((s.makeEmpty_port d y).trans ⟨rfl, rfl, rfl⟩)
      makeEmpty_handsNothing
  · have notClosing : ¬ (s.ports.get x.owner).state = .closing := by rw [opened]; simp
    refine ⟨fun hr => ?_, fun hr hp => ?_, fun hr hp => ?_⟩
    · exact unitCompletes_last hblk hh ((if_neg notClosing).trans (if_neg (by simp [hr]))) (s.retire_port d y _ _)
        (retire_handsNothing _ _)
    · exact unitCompletes_last hblk hh ((if_neg notClosing).trans ((if_pos hr).trans (if_pos hp))) ⟨rfl, rfl, rfl⟩
        ⟨rfl, rfl⟩
    · exact unitCompletes_last hblk hh ((if_neg notClosing).trans ((if_pos hr).trans (if_neg (by simp [hp]))))
        ⟨rfl, rfl, rfl⟩ ⟨rfl, rfl⟩
  · rw [unitCompletes_stops hblk hh (by simp [hs]), settleStop_cancelled (by exact hs)]; rfl
  · rw [unitCompletes_stops hblk hh (by simp [hs]), settleStop_leaseExpired (by exact hs)]; rfl
  · rw [unitCompletes_stops hblk hh (by simp [hs]), settleStop_withdrawn (by exact hs)]; rfl
  · rw [unitCompletes_spellEnds hblk hh hs hq, if_pos hp]; rfl
  · rw [unitCompletes_spellEnds hblk hh hs hq, if_neg (by simp [hp])]; rfl
  · exact unitCompletes_pauses hblk hh hs hq hp
  · exact unitCompletes_yields hblk hh hs hp hm hb above

theorem reloadedProgress_claim : Claims.ReloadedProgress := by
  intro pr st
  refine ⟨rfl, fun w hw => ?_, fun w hw => ?_, rfl, rfl, rfl, rfl, rfl, rfl, rfl⟩ <;>
    simp [Progress.afterReload, Progress.initial, Option.mem_def.1 hw]

/-- Settles O47: each step of R73 that lets the descriptor go, and the progress of a reload. -/
theorem unitBoundaryLetsGo : Obligations.UnitBoundaryLetsGo :=
  ⟨boundaryLetsGo_claim, reloadedProgress_claim⟩

/-! ### The spell goes on (O48) -/

theorem continueSpell_starts (hh : s.master.holder = some .engine) (hr : s.master.releaseReq = false) :
    s.continueSpell d x false = s.startUnit d x := if_pos ⟨hh, rfl, hr⟩

/-- The engine gives back the port it holds and claims it in one event, or a release request takes the grant (R82,
R83). -/
theorem claimPort_holding (hh : s.master.holder = some .engine) : s.claimPort =
    let t := { s with
      engine := { s.engine with state := .waitPort, inFlight := none }
      master := { s.master with engineClaim := true } }
    if s.master.releaseReq then t.serveRelease else t.handOn := if_pos hh

/-- With the engine waiting for the port, the bus is asked for again (R83). -/
theorem serveRelease_claimed (hc : s.master.engineClaim = true) : s.serveRelease = { s with
    master := { bus := .requesting, holder := none, engineClaim := true, releaseReq := false } } := by
  simp [State.serveRelease, hc]

theorem continueSpell_claims (h : b = true ∨ s.master.releaseReq = true) :
    s.continueSpell d x b = s.claimPort := by
  refine if_neg fun ⟨_, hb, hr⟩ => ?_
  simp [hb, hr] at h

/-- Where neither completion, a stop request, the quota, a pause nor a yield ends it, the spell goes on (step 6 of
R73). -/
theorem unitCompletes_continues (hblk : x.moved.pr.blocksRem ≠ 0) (hs : x.pr.stop = .none)
    (hp : s.engine.pauseReq = false) (hm : x.st.mode ≠ .single)
    (hb : x.pr.unitsInBlock + 1 = x.st.blockLen →
      x.st.mode = .run ∧ ∀ k, x.st.priority < k → s.ready.get k = []) :
    s.unitCompletes d x =
      (s.counted d x.moved).continueSpell d x.moved (x.pr.unitsInBlock + 1 == x.st.blockLen) := by
  have noQuota : ¬ x.Quota := by
    rintro (single | ⟨block, whole⟩)
    · exact hm single
    · have ended : x.pr.unitsInBlock + 1 = x.st.blockLen := by
        by_contra h
        exact moved_unitsInBlock_ne h whole
      rw [(hb ended).1] at block
      cases block
  have noYield : ¬ (x.st.mode = .run ∧ (x.pr.unitsInBlock + 1 == x.st.blockLen) = true ∧
      s.readyAbove x.st.priority = true) := by
    rintro ⟨-, ended, above⟩
    obtain ⟨j, hj, nonempty⟩ := (readyAbove_iff _).1 above
    exact nonempty ((hb (by simpa using ended)).2 j hj)
  rw [unitCompletes_eq, boundary_continues hblk (by exact hs) (fun h => noQuota ((quotaMet_moved hblk).1 h))
    (by exact hp) (by exact noYield) (by exact hm)]

theorem counted_activeDesc (ha : s.engine.active = some d) : (s.counted d y).activeDesc? = some (d, y) :=
  activeDesc?_eq_some_iff.2 ⟨ha, Tab.get_put_same ..⟩

/-- Settles O48: the spell goes on, on the port held within the burst, and else by claiming the port in the event that
gives it back. -/
theorem unitBoundaryContinues : Obligations.UnitBoundaryContinues := by
  intro s d x hh ha hbegun hp hs y blockEnd counted hblk
  have handsOn : blockEnd → x.st.mode = .run → (∀ k : Priority, x.st.priority < k → s.ready.get k = []) →
      s.master.releaseReq = false → s.unitCompletes d x = State.handOn { counted with
        engine := { counted.engine with state := .waitPort }
        master := { s.master with engineClaim := true } } := fun hb hm above hr => by
    rw [unitCompletes_continues hblk hs hp (by simp [hm]) fun _ => ⟨hm, above⟩,
      continueSpell_claims (.inl (by simpa using hb)), claimPort_holding (by exact hh)]
    exact if_neg (by simp [State.counted, State.atPort, hr])
  refine ⟨fun hb hm hr => ?_, fun hb hm above hr hd => ?_, handsOn, fun hr hm hb => ?_⟩
  · have within : (x.pr.unitsInBlock + 1 == x.st.blockLen) = false := by simpa using hb
    rw [unitCompletes_continues hblk hs hp hm (fun h => absurd h hb), within,
      continueSpell_starts (by exact hh) (by exact hr)]
    rfl
  · rw [handsOn hb hm above hr, handOn_claim (by exact hd) rfl]
    refine (engineTakesPort_begun (x := y) (d := d) ?_ (by exact hbegun)).trans ?_
    · exact counted_activeDesc ha
    · unfold State.portTaken
      rw [← hh]
  · rw [unitCompletes_continues hblk hs hp hm hb, continueSpell_claims (.inr (by exact hr)),
      claimPort_holding (by exact hh)]
    exact (if_pos (by exact hr)).trans (serveRelease_claimed rfl)

end Sys2Proof.Machine
end

section
/-! The withdraw event of a port (R179, R181, R182, R185) (O59): what it does to one descriptor, and then to all of
them, one after another. -/

namespace Sys2Proof.Machine

variable {s t u : State} {p : PortIx} {d e : DescIx} {x : Desc}

/-! ### One descriptor -/

/-- The engine waits for the port with d (R75). -/
def State.WaitsWith (s : State) (d : DescIx) : Prop := s.engine.state = .waitPort ∧ s.engine.active = some d

/-- The port withdrawn owns the descriptor, which the engine waits for the port with (R75, R182). -/
def State.Drops (s : State) (p : PortIx) (d : DescIx) : Prop :=
  s.WaitsWith d ∧ ∃ x, s.descs.get d = some x ∧ x.owner = p ∧ x.state = .active

/-- What the withdraw of p makes of one descriptor (the table of R182): left as it is, taken from the engine that waits
for the port with it, stopped, or made EMPTY. -/
inductive Withdrawal (p : PortIx) (d : DescIx) (s : State) : State → Prop
  | other (h : ∀ x, s.descs.get d = some x → x.owner ≠ p) : Withdrawal p d s s
  | dropped {x : Desc} (hx : s.descs.get d = some x) (ho : x.owner = p) (ha : x.state = .active)
      (hw : s.WaitsWith d) : Withdrawal p d s (s.makeEmpty d x).dropEngine
  | stopped {x : Desc} (hx : s.descs.get d = some x) (ho : x.owner = p) (ha : x.state = .active)
      (hw : ¬ s.WaitsWith d) :
      Withdrawal p d s (s.putDesc d (some { x with pr := { x.pr with stop := .withdrawn } }))
  | emptied {x : Desc} (hx : s.descs.get d = some x) (ho : x.owner = p) (ha : x.state ≠ .active) :
      Withdrawal p d s (s.makeEmpty d x)

theorem withdrawDesc_withdrawal (s : State) (p : PortIx) (d : DescIx) : Withdrawal p d s (s.withdrawDesc p d) := by
  unfold State.withdrawDesc
  cases hx : s.descs.get d with
  | none => exact .other fun x h => by rw [hx] at h; cases h
  | some x =>
    simp only
    split
    · exact .other fun y h => by rw [hx] at h; cases h; assumption
    · rename_i ho
      have ho : x.owner = p := not_not.1 ho
      split
      · rename_i ha
        split
        · rename_i hw; exact .dropped hx ho ha hw
        · rename_i hw; exact .stopped hx ho ha hw
      · rename_i ha; exact .emptied hx ho ha

/-- A descriptor becomes EMPTY: its record, its mark, its place in the ready queue, and its owner's retired set (R10). -/
theorem makeEmpty_eq (s : State) (d : DescIx) (x : Desc) : s.makeEmpty d x = State.setRetired { s with
    descs := s.descs.put d none
    sweepMarks := s.sweepMarks.put d false
    ready := if x.state = .queued then
        s.ready.put x.st.priority ((s.ready.get x.st.priority).filter fun e => e != d)
      else s.ready } x.owner d false := by
  unfold State.makeEmpty
  rw [leaveQueue_ready, putDesc_empty]

/-! ### What one descriptor's withdraw changes -/

/-- The record that the withdraw of p leaves at d (the table of R182). -/
def State.withdrawnAt (s : State) (p : PortIx) (d : DescIx) : Option Desc :=
  (s.descs.get d).bind fun x =>
    if x.owner ≠ p then some x
    else if x.state = .active ∧ ¬ (s.engine.state = .waitPort ∧ s.engine.active = some d) then
      some { x with pr := { x.pr with stop := .withdrawn } }
    else none

/-- The withdraw of p takes d off level k of the ready queue (R182). -/
def State.withdrawsFrom (s : State) (p : PortIx) (k : Priority) (d : DescIx) : Bool :=
  (s.descs.get d).any fun x => x.owner == p && x.state == .queued && x.st.priority == k

theorem withdrawnAt_none (hx : s.descs.get d = none) : s.withdrawnAt p d = none := by
  simp [State.withdrawnAt, hx]

theorem withdrawnAt_other (hx : s.descs.get d = some x) (ho : x.owner ≠ p) : s.withdrawnAt p d = some x := by
  simp [State.withdrawnAt, hx, ho]

theorem withdrawnAt_stopped (hx : s.descs.get d = some x) (ho : x.owner = p) (ha : x.state = .active)
    (hw : ¬ s.WaitsWith d) : s.withdrawnAt p d = some { x with pr := { x.pr with stop := .withdrawn } } := by
  unfold State.WaitsWith at hw
  simp only [State.withdrawnAt, hx, Option.bind_some]
  rw [if_neg (not_not_intro ho), if_pos ⟨ha, hw⟩]

theorem withdrawnAt_emptied (hx : s.descs.get d = some x) (ho : x.owner = p)
    (h : x.state ≠ .active ∨ s.WaitsWith d) : s.withdrawnAt p d = none := by
  simp only [State.withdrawnAt, hx, Option.bind_some]
  rw [if_neg (not_not_intro ho), if_neg fun ⟨ha, hw⟩ => h.elim (fun h => h ha) hw]

theorem withdrawsFrom_eq (hx : s.descs.get d = some x) (k : Priority) :
    s.withdrawsFrom p k d = decide (x.owner = p ∧ x.state = .queued ∧ x.st.priority = k) := by
  rw [Bool.eq_iff_iff]
  simp [State.withdrawsFrom, hx, and_assoc]

/-- What the withdraw of p does at d: the record there, its mark, its place in the ready queue, and nothing that the
withdraw of another descriptor looks at. -/
structure WithdrawsAt (p : PortIx) (d : DescIx) (s t : State) : Prop where
  desc : t.descs.get d = s.withdrawnAt p d
  mark : t.sweepMarks.get d = (s.sweepMarks.get d && !(s.descs.get d).any fun x => x.owner == p)
  ready : ∀ k, t.ready.get k = (s.ready.get k).filter fun e => !(e == d && s.withdrawsFrom p k d)
  descs : ∀ e, e ≠ d → t.descs.get e = s.descs.get e
  marks : ∀ e, e ≠ d → t.sweepMarks.get e = s.sweepMarks.get e
  waits : ∀ e, e ≠ d → (t.WaitsWith e ↔ s.WaitsWith e)

/-- A descriptor that becomes EMPTY, with any engine that waits with the same others. -/
theorem WithdrawsAt.makeEmpty (hx : s.descs.get d = some x) (ho : x.owner = p)
    (h : x.state ≠ .active ∨ s.WaitsWith d) {en : Engine} {m : MasterPort}
    (waits : ∀ e, e ≠ d → ((en.state = .waitPort ∧ en.active = some e) ↔ s.WaitsWith e)) :
    WithdrawsAt p d s ((s.makeEmpty d x).atPort en m) := by
  rw [makeEmpty_eq]
  refine ⟨?_, ?_, fun k => ?_, fun e he => Tab.get_put_of_ne _ _ he.symm, fun e he => Tab.get_put_of_ne _ _ he.symm,
    waits⟩
  · exact (Tab.get_put_same ..).trans (withdrawnAt_emptied hx ho h).symm
  · exact (Tab.get_put_same ..).trans (by simp [hx, ho])
  · show (if x.state = .queued then
        s.ready.put x.st.priority ((s.ready.get x.st.priority).filter fun e => e != d) else s.ready).get k = _
    rw [withdrawsFrom_eq hx]
    by_cases hq : x.state = .queued
    · by_cases hk : x.st.priority = k
      · subst hk
        simp [ho, hq, bne]
      · simp [hq, hk, Tab.get_put_of_ne]
    · simp [hq]

theorem Withdrawal.withdrawsAt (h : Withdrawal p d s t) : WithdrawsAt p d s t := by
  cases h with
  | other h =>
    cases hx : s.descs.get d with
    | none =>
      exact ⟨by rw [hx, withdrawnAt_none hx], by simp [hx], fun k => by simp [State.withdrawsFrom, hx],
        fun _ _ => rfl, fun _ _ => rfl, fun _ _ => Iff.rfl⟩
    | some x =>
      have ho := h x hx
      exact ⟨by rw [hx, withdrawnAt_other hx ho], by simp [hx, ho], fun k => by simp [withdrawsFrom_eq hx, ho],
        fun _ _ => rfl, fun _ _ => rfl, fun _ _ => Iff.rfl⟩
  | dropped hx ho ha hw =>
    refine WithdrawsAt.makeEmpty hx ho (.inr hw) (en := (s.makeEmpty d _).engine.dropped) fun e he => ?_
    obtain ⟨-, -, -, notWaiting, -⟩ := (s.makeEmpty d _).engine.dropped_rest
    refine ⟨fun h => absurd h.1 notWaiting, fun h => ?_⟩
    exact absurd (Option.some.inj (h.2.symm.trans hw.2)) he
  | stopped hx ho ha hw =>
    refine ⟨?_, ?_, fun k => ?_, fun e he => Tab.get_put_of_ne _ _ he.symm,
      fun e he => Tab.get_put_of_ne _ _ he.symm, fun e _ => Iff.rfl⟩
    · exact (Tab.get_put_same ..).trans (withdrawnAt_stopped hx ho ha hw).symm
    · exact (Tab.get_put_same ..).trans (by simp [hx, ho, ha])
    · simp [withdrawsFrom_eq hx, ha]
  | emptied hx ho ha =>
    refine WithdrawsAt.makeEmpty hx ho (.inl ha) (en := (s.makeEmpty d _).engine) (m := (s.makeEmpty d _).master)
      fun e _ => ?_
    rw [(s.makeEmpty_port d _).1]
    rfl

/-- The withdraw of another descriptor does the same after this one. -/
theorem WithdrawsAt.withdrawnAt (h : WithdrawsAt p d s t) (he : e ≠ d) :
    t.withdrawnAt p e = s.withdrawnAt p e := by
  have waits := h.waits e he
  unfold State.WaitsWith at waits
  simp only [State.withdrawnAt, h.descs e he, waits]

theorem WithdrawsAt.withdrawsFrom (h : WithdrawsAt p d s t) (k : Priority) (he : e ≠ d) :
    t.withdrawsFrom p k e = s.withdrawsFrom p k e := by
  simp only [State.withdrawsFrom, h.descs e he]

/-! ### One after another -/

/-- What the withdraw of p has done once the descriptors of the list l have been withdrawn. -/
structure WithdrawsAll (p : PortIx) (l : List DescIx) (s t : State) : Prop where
  desc : ∀ d, t.descs.get d = if d ∈ l then s.withdrawnAt p d else s.descs.get d
  mark : ∀ d, t.sweepMarks.get d =
    if d ∈ l then s.sweepMarks.get d && !(s.descs.get d).any fun x => x.owner == p else s.sweepMarks.get d
  ready : ∀ k, t.ready.get k = (s.ready.get k).filter fun d => !(decide (d ∈ l) && s.withdrawsFrom p k d)

theorem withdrawDescs_withdrawsAll (p : PortIx) (l : List DescIx) (distinct : l.Nodup) (s : State) :
    WithdrawsAll p l s (l.foldl (State.withdrawDesc p) s) := by
  induction l generalizing s with
  | nil => exact ⟨fun d => by simp, fun d => by simp, fun k => by simp⟩
  | cons a l ih =>
    obtain ⟨notIn, others⟩ := List.nodup_cons.1 distinct
    have first := (withdrawDesc_withdrawal s p a).withdrawsAt
    have rest := ih others (s.withdrawDesc p a)
    refine ⟨fun d => ?_, fun d => ?_, fun k => ?_⟩
    · rw [List.foldl_cons, rest.desc d]
      by_cases hd : d = a
      · subst hd; simp [notIn, first.desc]
      · simp [hd, first.withdrawnAt hd, first.descs d hd]
    · rw [List.foldl_cons, rest.mark d]
      by_cases hd : d = a
      · subst hd; simp [notIn, first.mark]
      · simp [hd, first.marks d hd, first.descs d hd]
    · rw [List.foldl_cons, rest.ready k, first.ready k, List.filter_filter]
      refine List.filter_congr fun d _ => ?_
      by_cases hd : d = a
      · subst hd; simp [notIn]
      · simp [hd, first.withdrawsFrom k hd]

/-! ### The engine -/

/-- The engine and the Master Port stay as they are unless the engine waits for the port with the descriptor. -/
theorem Withdrawal.keepsPort (h : Withdrawal p d s t) (keeps : ¬ s.Drops p d) :
    t.engine = s.engine ∧ t.master = s.master := by
  cases h with
  | other => exact ⟨rfl, rfl⟩
  | dropped hx ho ha hw => exact absurd ⟨hw, _, hx, ho, ha⟩ keeps
  | stopped => exact ⟨rfl, rfl⟩
  | emptied =>
    obtain ⟨engine, master, -⟩ := s.makeEmpty_port d _
    exact ⟨engine, master⟩

/-- The engine drops the descriptor that it waits for the port with, and its claim (R75). -/
theorem Withdrawal.dropsEngine (h : Withdrawal p d s t) (drops : s.Drops p d) :
    t.engine = s.engine.dropped ∧ t.master = { s.master with engineClaim := false } := by
  obtain ⟨waits, x, hx, ho, ha⟩ := drops
  cases h with
  | other h => exact absurd ho (h x hx)
  | dropped =>
    obtain ⟨engine, master, -⟩ := s.makeEmpty_port d _
    rw [State.dropEngine_engine, State.dropEngine_master, engine, master]
    exact ⟨rfl, rfl⟩
  | stopped hy hp hb hw => exact absurd waits hw
  | emptied hy hp hb =>
    rw [hx] at hy
    cases hy
    exact absurd ha hb

/-- Whether the withdraw takes another descriptor from the engine is as it was. -/
theorem drops_withdrawDesc (he : e ≠ d) : (s.withdrawDesc p d).Drops p e ↔ s.Drops p e := by
  have step := (withdrawDesc_withdrawal s p d).withdrawsAt
  unfold State.Drops
  rw [step.waits e he, step.descs e he]

theorem withdrawDescs_keepsPort (p : PortIx) (l : List DescIx) (distinct : l.Nodup) (s : State)
    (h : ∀ d ∈ l, ¬ s.Drops p d) : (l.foldl (State.withdrawDesc p) s).engine = s.engine ∧
      (l.foldl (State.withdrawDesc p) s).master = s.master := by
  induction l generalizing s with
  | nil => exact ⟨rfl, rfl⟩
  | cons a l ih =>
    obtain ⟨notIn, others⟩ := List.nodup_cons.1 distinct
    obtain ⟨engine, master⟩ := (withdrawDesc_withdrawal s p a).keepsPort (h a List.mem_cons_self)
    obtain ⟨engine', master'⟩ := ih others (s.withdrawDesc p a) fun d hd => by
      rw [drops_withdrawDesc (by rintro rfl; exact notIn hd)]
      exact h d (List.mem_cons_of_mem _ hd)
    exact ⟨engine'.trans engine, master'.trans master⟩

/-- The engine drops the descriptor that it waits for the port with, and its claim (R75, R182). -/
theorem withdrawDescs_dropsEngine (p : PortIx) (l : List DescIx) (distinct : l.Nodup) (s : State) (hd : d ∈ l)
    (h : s.Drops p d) : (l.foldl (State.withdrawDesc p) s).engine = s.engine.dropped ∧
      (l.foldl (State.withdrawDesc p) s).master = { s.master with engineClaim := false } := by
  induction l generalizing s with
  | nil => cases hd
  | cons a l ih =>
    obtain ⟨notIn, others⟩ := List.nodup_cons.1 distinct
    by_cases hda : d = a
    · subst hda
      have dropped := (withdrawDesc_withdrawal s p d).dropsEngine h
      obtain ⟨engine, master⟩ := withdrawDescs_keepsPort p l others (s.withdrawDesc p d) fun e _ hdrops => by
        obtain ⟨-, -, -, notWaiting, -⟩ := s.engine.dropped_rest
        exact notWaiting (dropped.1 ▸ hdrops.1.1)
      exact ⟨engine.trans dropped.1, master.trans dropped.2⟩
    · have mem : d ∈ l := (List.mem_cons.1 hd).resolve_left hda
      have keeps : ¬ s.Drops p a := fun ha => hda (Option.some.inj (h.1.2.symm.trans ha.1.2))
      obtain ⟨engine, master⟩ := (withdrawDesc_withdrawal s p a).keepsPort keeps
      obtain ⟨engine', master'⟩ := ih others (s.withdrawDesc p a) mem ((drops_withdrawDesc hda).2 h)
      exact ⟨by rw [List.foldl_cons, engine', engine], by rw [List.foldl_cons, master', master]⟩

/-! ### What a withdraw leaves alone -/

/-- The withdraw of p's descriptors touches the descriptors, the ready queue, the engine's claim and the notices of p. -/
def OnlyWithdraws (p : PortIx) (s t : State) : Prop :=
  ∃ fnu intOut descs sweepMarks ready engine master,
    t = { s with fnu, intOut, descs, sweepMarks, ready, engine, master } ∧
      (∀ r, fnu.put p r = s.fnu.put p r) ∧ ∀ b, intOut.put p b = s.intOut.put p b

theorem OnlyWithdraws.refl (p : PortIx) (s : State) : OnlyWithdraws p s s :=
  ⟨_, _, _, _, _, _, _, rfl, fun _ => rfl, fun _ => rfl⟩

theorem OnlyWithdraws.trans (h : OnlyWithdraws p s t) (k : OnlyWithdraws p t u) : OnlyWithdraws p s u := by
  obtain ⟨_, _, _, _, _, _, _, rfl, fnu, intOut⟩ := h
  obtain ⟨_, _, _, _, _, _, _, rfl, fnu', intOut'⟩ := k
  exact ⟨_, _, _, _, _, _, _, rfl, fun r => (fnu' r).trans (fnu r), fun b => (intOut' b).trans (intOut b)⟩

theorem makeEmpty_onlyWithdraws (ho : x.owner = p) : OnlyWithdraws p s (s.makeEmpty d x) := by
  rw [makeEmpty_eq, ho]
  exact ⟨_, _, _, _, _, _, _, rfl, fun r => Tab.put_put_same .., fun b => Tab.put_put_same ..⟩

theorem Withdrawal.onlyWithdraws (h : Withdrawal p d s t) : OnlyWithdraws p s t := by
  cases h with
  | other => exact .refl p s
  | dropped hx ho =>
    exact (makeEmpty_onlyWithdraws ho).trans ⟨_, _, _, _, _, _, _, rfl, fun _ => rfl, fun _ => rfl⟩
  | stopped => exact ⟨_, _, _, _, _, _, _, rfl, fun _ => rfl, fun _ => rfl⟩
  | emptied hx ho => exact makeEmpty_onlyWithdraws ho

theorem withdrawDescs_onlyWithdraws (p : PortIx) (l : List DescIx) (s : State) :
    OnlyWithdraws p s (l.foldl (State.withdrawDesc p) s) := by
  induction l generalizing s with
  | nil => exact .refl p s
  | cons a l ih => exact (withdrawDesc_withdrawal s p a).onlyWithdraws.trans (ih _)

/-! ### The whole event -/

/-- The withdraw of an OPEN port, its descriptors withdrawn one after another (R179, R181, R185). -/
theorem withdrawPort_eq (ho : (s.ports.get p).state = .opened)
    (hu : (List.finRange 128).foldl (State.withdrawDesc p) s = u) : s.withdrawPort p = { s with
      ports := s.ports.put p ((s.ports.get p).withdrawn p (if u.ownsAny p then .closing else .opened))
      fnu := s.fnu.put p NoticeRec.reset
      intOut := s.intOut.put p false
      descs := u.descs
      sweepMarks := u.sweepMarks
      ready := u.ready
      engine := u.engine
      master := u.master } := by
  have notClosing : ¬ (s.ports.get p).state = .closing := by rw [ho]; simp
  have only : OnlyWithdraws p s u := hu ▸ withdrawDescs_onlyWithdraws p _ s
  unfold State.withdrawPort
  rw [if_neg notClosing, hu]
  obtain ⟨_, _, _, _, _, _, _, rfl, fnu, intOut⟩ := only
  simp only [State.evalInt, State.putPort, State.putNotice, State.intCondition, Tab.get_put_same, fnu, intOut]
  simp [NoticeRec.reset]

theorem ownsAny_iff : s.ownsAny p = true ↔ ∃ d x, s.descs.get d = some x ∧ x.owner = p := by
  simp [State.ownsAny, Option.any_eq_true]

/-- What the port still owns after its withdraw is what is ACTIVE and not let go at once (R183). -/
theorem withdrawnAt_owned : (∃ y, s.withdrawnAt p d = some y ∧ y.owner = p) ↔
    ∃ x, s.descs.get d = some x ∧ x.owner = p ∧ x.state = .active ∧ ¬ s.WaitsWith d := by
  cases hx : s.descs.get d with
  | none => simp [withdrawnAt_none hx]
  | some x =>
    by_cases ho : x.owner = p
    · by_cases h : x.state = .active ∧ ¬ s.WaitsWith d
      · simp [withdrawnAt_stopped hx ho h.1 h.2, ho, h]
      · have gone : x.state ≠ .active ∨ s.WaitsWith d := by
          by_contra hc
          push Not at hc
          exact h hc
        simp [withdrawnAt_emptied hx ho gone, ho, h]
    · simp [withdrawnAt_other hx ho, ho]

/-- Settles O59: a port already CLOSING is left as it is; else each part is what the withdraw of its descriptors, one
after another, leaves. -/
theorem withdrawEvent : Obligations.WithdrawEvent := by
  intro s p
  refine ⟨fun hc => if_pos hc, fun ho => ?_⟩
  have distinct : (List.finRange 128).Nodup := List.nodup_finRange 128
  have all := withdrawDescs_withdrawsAll p _ distinct s
  have keeps := withdrawDescs_keepsPort p _ distinct s
  have drops := fun d => withdrawDescs_dropsEngine (d := d) p _ distinct s (List.mem_finRange d)
  generalize hu : (List.finRange 128).foldl (State.withdrawDesc p) s = u at all keeps drops
  obtain ⟨descs, marks, ready⟩ := all
  simp only [List.mem_finRange, if_true, decide_true, Bool.true_and] at descs marks ready
  rw [withdrawPort_eq ho hu]
  intro t r waits
  refine ⟨rfl, ⟨_, rfl, ?_⟩, fun d x hx => ⟨fun hp => ?_, fun hp h => ?_, fun hp h => ?_⟩, fun d hx => ?_, ready,
    fun d x hw hx hp ha => drops d ⟨hw, x, hx, hp, ha⟩, fun h => ?_⟩
  · have owned : u.ownsAny p = true ↔ ∃ d x, s.descs.get d = some x ∧ x.owner = p ∧ x.state = .active ∧ ¬ waits d := by
      rw [ownsAny_iff]
      refine exists_congr fun d => ?_
      rw [descs d]
      exact withdrawnAt_owned
    rw [← owned]
    cases u.ownsAny p <;> simp
  · exact ⟨(descs d).trans (withdrawnAt_other hx hp), (marks d).trans (by simp [hx, hp])⟩
  · exact (descs d).trans (withdrawnAt_stopped hx hp h.1 h.2)
  · exact ⟨(descs d).trans (withdrawnAt_emptied hx hp h), (marks d).trans (by simp [hx, hp])⟩
  · exact (descs d).trans (withdrawnAt_none hx)
  · exact keeps fun d _ ⟨hw, x, hx, hp, ha⟩ => h d x hw hx hp ha

end Sys2Proof.Machine
end

section
/-! The first access or exchange of a unit whose check passes, by the kind (R85 to R89, R104, R105) (O40). -/

namespace Sys2Proof.Machine

variable {s : State} {d : DescIx} {x : Desc} {a : Word} {src dst : Side} {strobe : Strobe}

theorem startSourceRead_reads
    (ha : unitCheck s.windows src.window x.st.level false x.pr.src x.st.unitSize.bytes = .ok a) :
    s.startSourceRead d x src = s.putInFlight .move
      { kind := .sourceRead, side := .source, window := src.window, offset := x.pr.src, address := a,
        data := none } := by
  have passes : s.sideCheck x src false x.pr.src = .ok a := ha
  unfold State.startSourceRead
  rw [passes]

theorem startDestinationWrite_writes {data : UnitData}
    (ha : unitCheck s.windows dst.window x.st.level true x.pr.dst x.st.unitSize.bytes = .ok a) :
    s.startDestinationWrite d x dst data = s.putInFlight .move
      { kind := .destinationWrite, side := .destination, window := dst.window, offset := x.pr.dst, address := a,
        data := some (x.st.unitSize.trim data) } := by
  have passes : s.sideCheck x dst true x.pr.dst = .ok a := ha
  unfold State.startDestinationWrite
  rw [passes]

theorem startAsk_asks
    (ha : unitCheck s.windows dst.window x.st.level true x.pr.dst x.st.unitSize.bytes = .ok a) :
    s.startAsk d x dst strobe =
      (s.putChannel strobe.channel { state := .asking s.strobeLimit x.st.unitSize, timer := 0 }).putInFlight .peripheral
        { kind := .ask, side := .destination, window := dst.window, offset := x.pr.dst, address := a,
          data := none } := by
  have passes : s.sideCheck x dst true x.pr.dst = .ok a := ha
  unfold State.startAsk
  rw [passes]

/-- Settles O40: each kind of unit begins with its own access or exchange, at the address its check hands back. -/
theorem unitStarts : Obligations.UnitStarts := by
  intro s d x a inMove
  exact ⟨fun src dst hm ha => (startUnit_copy hm).trans (startSourceRead_reads ha),
    fun src strobe hm ha => (startUnit_send hm).trans (startSourceRead_reads ha),
    fun dst pattern hm ha => (startUnit_fill hm).trans (startDestinationWrite_writes ha),
    fun dst strobe hm ha => (startUnit_receive hm).trans (startAsk_asks ha)⟩

end Sys2Proof.Machine
end

section
/-! SET_STROBE_LIMIT, and the limit that an exchange takes when it begins (R109) (O51). -/

namespace Sys2Proof.Machine

variable {s : State} {p : PortIx} {id : Word} {h : Handed}

theorem exec_setStrobeLimit (wt : s.Waits .setStrobeLimit p id h) :
    exec (.setStrobeLimit p id) s = .next ((s.took h).setStrobeLimit h) :=
  ownerTakes_waits wt fun h s => s.setStrobeLimit h

theorem setStrobeLimit_malformed (bad : (h.args.get 0).toNat = 0 ∨ 4095 < (h.args.get 0).toNat) :
    (s.took h).setStrobeLimit h = s.answered h .malformed noWords :=
  if_pos bad

theorem setStrobeLimit_written (above : 1 ≤ (h.args.get 0).toNat) (below : (h.args.get 0).toNat ≤ 4095) :
    (s.took h).setStrobeLimit h =
      { s.answered h .ok (image [BitVec.ofNat 32 s.strobeLimit, BitVec.ofNat 32 (h.args.get 0).toNat]) with
        strobeLimit := (h.args.get 0).toNat } :=
  if_neg (show ¬ ((h.args.get 0).toNat = 0 ∨ 4095 < (h.args.get 0).toNat) by omega)

/-- A command of level 0 that is not a WITHDRAW is admitted from a port at level 0 alone (R163). -/
theorem admissionTest_levelZero {c : Command} (hw : c ≠ .withdraw) (hz : c.levelZero = true) (level : Level)
    (args : PortWords) : admissionTest c p level args = if level = 0 then none else some .level := by
  unfold admissionTest
  rw [if_neg hw]
  by_cases hl : level = 0
  · rw [if_neg fun ⟨_, above⟩ => above hl, if_pos hl]
  · rw [if_pos ⟨hz, hl⟩, if_neg hl]

theorem startOffer_channel (s : State) (x : Desc) (strobe : Strobe) (f : InFlight) (data : UnitData) :
    (s.startOffer x strobe f data).channels.get strobe.channel =
      { state := .offering s.strobeLimit x.st.unitSize (x.st.unitSize.trim data), timer := 0 } :=
  Tab.get_put_same ..

/-- Settles O51: the limit refused or written, the level that admission asks for, and the limit an offer takes. -/
theorem setStrobeLimitWritesLimit : Obligations.SetStrobeLimitWritesLimit := by
  intro s p id h wt
  rw [exec_setStrobeLimit wt]
  exact ⟨fun bad => by rw [setStrobeLimit_malformed bad],
    fun above below => by rw [setStrobeLimit_written above below],
    admissionTest_levelZero (by decide) rfl,
    fun x strobe f data => congrArg Channel.state (startOffer_channel s x strobe f data)⟩

end Sys2Proof.Machine
end

section
/-! The access or exchange in flight as the events that end it find it (R85, R103, R107): the shared steps of O46, O49
and O50. -/

namespace Sys2Proof.Machine

variable {s : State} {d : DescIx} {x : Desc} {f : InFlight} {strobe : Strobe} {c : ChannelIx} {kind : AccessKind}

/-- An event that would change nothing changes nothing, whatever the reset pin. -/
theorem whileRunning_ignored {event : State → State} (h : event s = s) : whileRunning event s = .next s := by
  unfold whileRunning
  rw [h, ite_self]

/-! ### Accesses -/

theorem accessInFlight?_none (h : s.engine.state ≠ .move) : s.accessInFlight? = none := if_neg h

theorem accessInFlight?_works (w : s.Works .move d x) (hf : s.engine.inFlight = some f) :
    s.accessInFlight? = some (d, x, f) := by
  have working := w.activeDesc
  obtain ⟨-, moving, -, -⟩ := w
  simp only [State.accessInFlight?, if_pos moving, working, hf]

/-! ### Exchanges -/

/-- The end of an exchange is no concern of the engine's record and of the descriptors. -/
theorem works_endExchange {e : EngineState} (w : s.Works e d x) : (s.endExchange c).Works e d x := w

theorem exchangeOn_works (w : s.Works .peripheral d x) (hf : s.engine.inFlight = some f) (hk : f.kind = kind)
    (hs : x.st.movement.strobe? = some strobe) : s.exchangeOn strobe.channel x kind = true := by
  obtain ⟨-, exchanging, -, -⟩ := w
  simp [State.exchangeOn, exchanging, hf, hk, hs]

end Sys2Proof.Machine
end

section
/-! What ends a unit: its write completed or its offer accepted; and the pulse of an end signal (R88, R91, R104, R107,
R108, R134) (O46). -/

namespace Sys2Proof.Machine

variable {s : State} {d : DescIx} {x : Desc} {f : InFlight} {strobe : Strobe} {c : ChannelIx}

theorem exec_unitCompletion (w : s.Works .move d x) (hf : s.engine.inFlight = some f) :
    exec .unitCompletion s = .next (if f.kind = .destinationWrite then s.unitCompletes d x else s) := by
  show execUnitCompletion s = _
  unfold execUnitCompletion
  rw [whileRunning_released w.1]
  simp only [accessInFlight?_works w hf]

theorem exec_unitCompletion_ignored (h : s.engine.state ≠ .move) : exec .unitCompletion s = .next s := by
  apply whileRunning_ignored
  simp only [accessInFlight?_none h]

/-- The offer of a SEND unit is accepted: the unit completes (R88, R104). -/
theorem accepted_completes (w : s.Works .peripheral d x) (hf : s.engine.inFlight = some f) (hk : f.kind = .offer)
    (hs : x.st.movement.strobe? = some strobe) :
    s.accepted strobe.channel = (s.endExchange strobe.channel).unitCompletes d x := by
  have ended : (s.endExchange strobe.channel).Works .peripheral d x := works_endExchange w
  simp only [State.accepted, ended.activeDesc, if_pos (exchangeOn_works ended hf hk hs)]

theorem exec_accept_offering {limit : Nat} {size : UnitSize} {data : UnitData} (hr : s.resetHeld = false)
    (hc : (s.channels.get c).state = .offering limit size data) : exec (.accept c) s = .next (s.accepted c) := by
  show execAccept c s = _
  unfold execAccept
  rw [whileRunning_released hr]
  simp only [hc]

/-- Only an offer can be accepted (R107). -/
theorem exec_accept_ignored (hc : (s.channels.get c).state = .idle ∨
    ∃ limit size, (s.channels.get c).state = .asking limit size) : exec (.accept c) s = .next s := by
  apply whileRunning_ignored
  rcases hc with idle | ⟨limit, size, asking⟩
  · simp only [idle]
  · simp only [asking]

theorem unitCompletionTaken_claim : Claims.UnitCompletionTaken := by
  intro s hr
  refine ⟨fun d x f w hf => ?_, exec_unitCompletion_ignored, fun d x f strobe limit size data w hf hk hs hc => ?_,
    fun c => exec_accept_ignored⟩
  · rw [exec_unitCompletion w hf]
    exact ⟨fun hk => by rw [if_pos hk], fun hk => by rw [if_neg hk]⟩
  · rw [exec_accept_offering hr hc, accepted_completes w hf hk hs]
    rfl

theorem endRequestPulses_claim : Claims.EndRequestPulses := by
  intro s n c hr hn
  show execEndRequest n s = _
  unfold execEndRequest
  rw [whileRunning_released hr]
  simp only [hn]

/-- Settles O46: the two events that complete a unit, and the pulse of an end request. -/
theorem unitEndsAndEndPulses : Obligations.UnitEndsAndEndPulses :=
  ⟨unitCompletionTaken_claim, endRequestPulses_claim⟩

end Sys2Proof.Machine
end

section
/-! The data of a unit arrive, and it goes on to its write or its offer (R86 to R89, R104, R105, R107) (O49). -/

namespace Sys2Proof.Machine

variable {s : State} {d : DescIx} {x : Desc} {f : InFlight} {src dst : Side} {strobe : Strobe} {c : ChannelIx}
  {data : UnitData}

/-- The mask of a unit's bytes keeps those bits and clears the rest (log 23). -/
theorem unitDataTrimmed_claim : Claims.UnitDataTrimmed := by
  intro size data i
  unfold UnitSize.trim
  rw [BitVec.getLsbD_and, BitVec.getLsbD_ofNat, Nat.testBit_two_pow_sub_one]
  by_cases hi : i < 64
  · rw [decide_eq_true hi, Bool.true_and, Bool.and_comm]
  · rw [BitVec.getLsbD_of_ge data i (by omega), Bool.false_and, Bool.and_false]

/-! ### The end of the source read -/

theorem exec_unitReadEnd (w : s.Works .move d x) (hf : s.engine.inFlight = some f) :
    exec (.unitReadEnd data) s = .next (if f.kind = .sourceRead then s.sourceReadDone d x f data else s) := by
  show execUnitReadEnd data s = _
  unfold execUnitReadEnd
  rw [whileRunning_released w.1]
  simp only [accessInFlight?_works w hf]

theorem exec_unitReadEnd_ignored (h : s.engine.state ≠ .move) : exec (.unitReadEnd data) s = .next s := by
  apply whileRunning_ignored
  simp only [accessInFlight?_none h]

theorem sourceReadDone_copy (hm : x.st.movement = .copy src dst) :
    s.sourceReadDone d x f data = s.startDestinationWrite d x dst data := by
  unfold State.sourceReadDone
  rw [hm]

theorem sourceReadDone_send (hm : x.st.movement = .send src strobe) :
    s.sourceReadDone d x f data = s.startOffer x strobe f data := by
  unfold State.sourceReadDone
  rw [hm]

theorem sourceReadGoesOn_claim : Claims.SourceReadGoesOn := by
  intro s data
  refine ⟨exec_unitReadEnd_ignored, fun d x f w hf => ?_⟩
  rw [exec_unitReadEnd w hf]
  refine ⟨fun hk => by rw [if_neg hk], fun hk => ?_⟩
  rw [if_pos hk]
  refine ⟨fun src dst a hm ha => ?_, fun src dst code hm fails => ?_, fun src strobe hm => ?_⟩
  · rw [sourceReadDone_copy hm, startDestinationWrite_writes ha]; rfl
  · rw [sourceReadDone_copy hm, startDestinationWrite_fails fails]
  · rw [sourceReadDone_send hm]; rfl

/-! ### Supplies -/

/-- A supply ends the ask of a RECEIVE unit, which goes on to its write (R89, R105). -/
theorem supplied_writes (w : s.Works .peripheral d x) (hf : s.engine.inFlight = some f) (hk : f.kind = .ask)
    (hs : x.st.movement.strobe? = some strobe) :
    s.supplied strobe.channel data = (s.endExchange strobe.channel).putInFlight .move
      { f with kind := .destinationWrite, data := some (x.st.unitSize.trim data) } := by
  have ended : (s.endExchange strobe.channel).Works .peripheral d x := works_endExchange w
  have flying : (s.endExchange strobe.channel).engine.inFlight = some f := hf
  simp only [State.supplied, ended.activeDesc, flying, if_pos (exchangeOn_works ended flying hk hs)]

theorem exec_supply_asking {limit : Nat} {size : UnitSize} (hr : s.resetHeld = false)
    (hc : (s.channels.get c).state = .asking limit size) : exec (.supply c data) s = .next (s.supplied c data) := by
  show execSupply c data s = _
  unfold execSupply
  rw [whileRunning_released hr]
  simp only [hc]

/-- Only an ask can be supplied (R107). -/
theorem exec_supply_ignored (hc : (s.channels.get c).state = .idle ∨
    ∃ limit size offered, (s.channels.get c).state = .offering limit size offered) :
    exec (.supply c data) s = .next s := by
  apply whileRunning_ignored
  rcases hc with idle | ⟨limit, size, offered, offering⟩
  · simp only [idle]
  · simp only [offering]

theorem supplyGoesOnToWrite_claim : Claims.SupplyGoesOnToWrite := by
  intro s data hr
  refine ⟨fun d x f strobe limit size w hf hk hs hc => ?_, fun c => exec_supply_ignored⟩
  rw [exec_supply_asking hr hc, supplied_writes w hf hk hs]
  rfl

/-- Settles O49: the bytes kept of a unit, the end of its source read, and a supply. -/
theorem unitGoesOnWithData : Obligations.UnitGoesOnWithData :=
  ⟨unitDataTrimmed_claim, sourceReadGoesOn_claim, supplyGoesOnToWrite_claim⟩

end Sys2Proof.Machine
end

section
/-! A bus error, a refusal and an expired wait timer fail the unit in flight (R90, R100, R101, R104, R105, R107)
(O50). -/

namespace Sys2Proof.Machine

open Host (Outcome)

variable {s : State} {d : DescIx} {x : Desc} {f : InFlight} {strobe : Strobe} {c : ChannelIx}

theorem exec_accessBusError (w : s.Works .move d x) (hf : s.engine.inFlight = some f) :
    exec .accessBusError s = .next (s.unitFails d x .busError f.window f.side f.offset) := by
  show execAccessBusError s = _
  unfold execAccessBusError
  rw [whileRunning_released w.1]
  simp only [accessInFlight?_works w hf]

theorem exec_accessBusError_ignored (h : s.engine.state ≠ .move) : exec .accessBusError s = .next s := by
  apply whileRunning_ignored
  simp only [accessInFlight?_none h]

theorem accessBusErrorFailsUnit_claim : Claims.AccessBusErrorFailsUnit := by
  intro s _
  refine ⟨exec_accessBusError_ignored, fun d x f w hf hh => ?_⟩
  rw [exec_accessBusError w hf, unitFails_parted hh]

/-! ### Refusals and expired wait timers -/

theorem waitExpires_idle (hc : (s.channels.get c).state = .idle) : s.waitExpires c = s := by
  simp only [State.waitExpires, hc]

theorem waitExpires_exchange (hc : (s.channels.get c).state ≠ .idle) :
    s.waitExpires c = s.exchangeFails c .peripheralTimeout := by
  unfold State.waitExpires
  cases hs : (s.channels.get c).state with
  | idle => exact absurd hs hc
  | offering limit size data => rfl
  | asking limit size => rfl

theorem exec_waitTimerExpiry (hr : s.resetHeld = false) : exec (.waitTimerExpiry c) s = .next (s.waitExpires c) :=
  whileRunning_released hr fun s => s.waitExpires c

theorem exec_refuse_ignored (hc : (s.channels.get c).state = .idle) : exec (.refuse c) s = .next s := by
  apply whileRunning_ignored
  simp only [hc]

theorem exec_refuse_exchange (hr : s.resetHeld = false) (hc : (s.channels.get c).state ≠ .idle) :
    exec (.refuse c) s = .next (s.exchangeFails c .peripheralError) := by
  show execRefuse c s = _
  unfold execRefuse
  rw [whileRunning_released hr]
  cases hs : (s.channels.get c).state with
  | idle => exact absurd hs hc
  | offering limit size data => rfl
  | asking limit size => rfl

/-- An exchange of either direction ends without its unit, which fails on side PERIPHERAL (R100, R104, R105). -/
theorem exchangeFails_parted (w : s.Works .peripheral d x) (hf : s.engine.inFlight = some f)
    (hk : f.kind = .offer ∨ f.kind = .ask) (hs : x.st.movement.strobe? = some strobe)
    (hh : s.master.holder = some .engine) (code : Code) : s.exchangeFails strobe.channel code =
      ((s.endExchange strobe.channel).failed d x code f.window .peripheral f.offset).parted := by
  have ended : (s.endExchange strobe.channel).Works .peripheral d x := works_endExchange w
  have flying : (s.endExchange strobe.channel).engine.inFlight = some f := hf
  have onChannel : ((s.endExchange strobe.channel).exchangeOn strobe.channel x .offer ||
      (s.endExchange strobe.channel).exchangeOn strobe.channel x .ask) = true :=
    Bool.or_eq_true_iff.2 (hk.imp (exchangeOn_works ended flying · hs) (exchangeOn_works ended flying · hs))
  simp only [State.exchangeFails, ended.activeDesc, flying, if_pos onChannel]
  exact unitFails_parted (s := s.endExchange strobe.channel) hh d x code f.window .peripheral f.offset

theorem exchangeFails_claim : Claims.ExchangeFails := by
  intro s hr
  refine ⟨fun c hc => ⟨exec_refuse_ignored hc, ?_⟩, fun d x f strobe w hf hk hs hc hh => ?_⟩
  · rw [exec_waitTimerExpiry hr, waitExpires_idle hc]
  · have fails := exchangeFails_parted w hf hk hs hh
    rw [exec_refuse_exchange hr hc, exec_waitTimerExpiry hr, waitExpires_exchange hc]
    exact ⟨congrArg Outcome.next (fails .peripheralError), congrArg Outcome.next (fails .peripheralTimeout)⟩

/-- Settles O50: the failure of an access, and that of an exchange. -/
theorem accessesAndExchangesFail : Obligations.AccessesAndExchangesFail :=
  ⟨accessBusErrorFailsUnit_claim, exchangeFails_claim⟩

end Sys2Proof.Machine
end

section
/-! One event of the time base: a sweep expiry that is due, else the expiry of the lowest channel that is due, else the
running timers count (R103, R104, R146) (O2). -/

namespace Sys2Proof.Machine

variable {s : State} {c : ChannelIx}

/-! ### The channel that is due -/

/-- The lowest channel whose wait timer has reached its limit is the one found. -/
theorem dueChannel?_some (due : ∃ l ∈ (s.channels.get c).state.limit?, l ≤ (s.channels.get c).timer)
    (below : ∀ e, e < c → ∀ l ∈ (s.channels.get e).state.limit?, (s.channels.get e).timer < l) :
    s.dueChannel? = some c := by
  refine List.find?_eq_some_iff_getElem.2 ⟨by simpa [Option.any_eq_true] using due, c, by simp, by simp, ?_⟩
  intro j hj
  simpa [Option.any_eq_false] using below ⟨j, hj.trans c.isLt⟩ hj

theorem dueChannel?_none (waits : ∀ c, ∀ l ∈ (s.channels.get c).state.limit?, (s.channels.get c).timer < l) :
    s.dueChannel? = none :=
  List.find?_eq_none.2 fun c _ => by simpa [Option.any_eq_true] using waits c

/-- A channel has a limit exactly while it is not IDLE (R103). -/
theorem count_eq (c : Channel) : c.count = { c with timer := if c.state = .idle then c.timer else c.timer + 1 } := by
  obtain ⟨state, timer⟩ := c
  cases state <;> rfl

/-! ### The three events of the time base -/

theorem step_timeBase (he : s.pending = []) : step s = .next s.timeBase := by
  unfold step
  rw [he]

theorem timeBase_held (hr : s.resetHeld = true) : s.timeBase = s := if_pos hr

theorem timeBase_sweepExpires (hr : s.resetHeld = false) (on : s.sweep.interval ≠ 0)
    (due : s.sweep.interval ≤ s.sweep.timer) : s.timeBase = s.sweepExpires := by
  unfold State.timeBase
  rw [if_neg (by simp [hr]), if_pos ⟨on, due⟩]

theorem timeBase_waitExpires (hr : s.resetHeld = false)
    (notDue : s.sweep.interval = 0 ∨ s.sweep.timer < s.sweep.interval) (hc : s.dueChannel? = some c) :
    s.timeBase = s.waitExpires c := by
  unfold State.timeBase
  rw [if_neg (by simp [hr]), if_neg (by omega)]
  simp only [hc]

theorem timeBase_counts (hr : s.resetHeld = false)
    (notDue : s.sweep.interval = 0 ∨ s.sweep.timer < s.sweep.interval) (hc : s.dueChannel? = none) :
    s.timeBase = { s with
      sweep := { s.sweep with timer := if s.sweep.interval = 0 then s.sweep.timer else s.sweep.timer + 1 }
      channels := s.channels.map fun c => { c with timer := if c.state = .idle then c.timer else c.timer + 1 } } := by
  unfold State.timeBase
  rw [if_neg (by simp [hr]), if_neg (by omega), funext count_eq]
  simp only [hc]

theorem exec_sweepTimerExpiry (hr : s.resetHeld = false) : exec .sweepTimerExpiry s = .next s.sweepExpires :=
  whileRunning_released hr fun s => s.sweepExpires

/-- Settles O2: the cases of the time base, each expiry the one that its own command is. -/
theorem emptyQueueStepIsTimeBase : Obligations.EmptyQueueStepIsTimeBase := by
  intro s he
  rw [step_timeBase he]
  refine ⟨fun hr => by rw [timeBase_held hr], fun hr on due => ?_,
    fun hr notDue => ⟨fun c due below => ?_, fun waits => ?_⟩⟩
  · rw [exec_sweepTimerExpiry hr, timeBase_sweepExpires hr on due]
  · rw [exec_waitTimerExpiry hr, timeBase_waitExpires hr notDue (dueChannel?_some due below)]
  · rw [timeBase_counts hr notDue (dueChannel?_none waits)]

end Sys2Proof.Machine
end

section
/-! Every command ends in a next state and leaves the queue as it is (O3): what stays inside the frame of Laws/Frame
does, and the other operations one by one. -/

namespace Sys2Proof.Machine

open Host (Outcome)

variable {s : State}

/-- The outcome is a next state, with the queue of s. -/
def Answers (s : State) (o : Outcome State Fault Refusal) : Prop := ∃ t, o = .next t ∧ t.pending = s.pending

/-! ### How a command reaches its operation -/

theorem whileRunning_answers {event : State → State} (h : (event s).pending = s.pending) :
    Answers s (whileRunning event s) := by
  refine ⟨_, rfl, ?_⟩
  split
  · rfl
  · exact h

theorem ownerTakes_answers {c : Command} {p : PortIx} {id : Word} {act : Handed → State → State}
    (h : ∀ hd u, (act hd u).pending = u.pending) : Answers s (ownerTakes c p id act s) := by
  refine whileRunning_answers ?_
  split
  · rfl
  · exact h _ _

/-! ### Ports (chapters 9 and 11) -/

theorem writeArgument_pending (p : PortIx) (i : Fin 16) (bytes : BitVec 4) (value : Word) :
    (s.writeArgument p i bytes value).pending = s.pending := by
  unfold State.writeArgument
  simp only
  split <;> rfl

theorem admitCommand_pending (p : PortIx) (hc : HeldCommand) : (s.admitCommand p hc).pending = s.pending := by
  unfold State.admitCommand State.handCommand
  simp only
  split
  · rfl
  · split <;> rfl

theorem setPortLevel_pending (hd : Handed) : (s.setPortLevel hd).pending = s.pending := by
  unfold State.setPortLevel
  split
  · rfl
  · split
    · rfl
    · split
      · rfl
      · simp only
        split <;> rfl

theorem withdrawPort_pending (p : PortIx) : (s.withdrawPort p).pending = s.pending := by
  unfold State.withdrawPort
  split
  · rfl
  · simp only [State.evalInt_pending, State.putPort_pending, State.putNotice_pending]
    exact (withdrawDescs_frame s p (List.finRange 128)).pending

theorem withdrawCommand_pending (hd : Handed) : (s.withdrawCommand hd).pending = s.pending := by
  unfold State.withdrawCommand
  split
  · rfl
  · split <;> exact withdrawPort_pending _

/-! ### Descriptors (chapters 1, 3, 6 and 7) -/

theorem descriptorChecks_pending {hd : Handed} {act : DescIx → Option Desc → State}
    (h : ∀ d x, (act d x).pending = s.pending) : (s.descriptorChecks hd act).pending = s.pending := by
  unfold State.descriptorChecks
  split
  · rfl
  · split
    · exact h _ _
    · split
      · exact h _ _
      · rfl

theorem loadSlot_pending (hd : Handed) (d : DescIx) (x : Option Desc) :
    (s.loadSlot hd d x).pending = s.pending := by
  unfold State.loadSlot
  split
  · rfl
  · split
    · rfl
    · split <;> rfl

theorem load_pending (hd : Handed) : (s.load hd).pending = s.pending := by
  refine descriptorChecks_pending fun d x => ?_
  split
  · rfl
  · exact loadSlot_pending _ _ _

theorem readDescriptor_pending (hd : Handed) : (s.readDescriptor hd).pending = s.pending := by
  refine descriptorChecks_pending fun d x => ?_
  simp only
  split
  · rfl
  · split <;> rfl

theorem arm_pending (hd : Handed) : (s.arm hd).pending = s.pending := by
  refine descriptorChecks_pending fun d x => ?_
  split
  · rfl
  · split
    · rfl
    · split <;> rfl

theorem disarm_pending (hd : Handed) : (s.disarm hd).pending = s.pending := by
  refine descriptorChecks_pending fun d x => ?_
  split
  · rfl
  · split
    case h_4 | h_5 | h_6 => rfl
    all_goals exact (s.leaveQueue_frame _ _).pending

theorem release_pending (hd : Handed) : (s.release hd).pending = s.pending := by
  refine descriptorChecks_pending fun d x => ?_
  split
  · rfl
  · split
    · exact (s.makeEmpty_frame _ _).pending
    · rfl

theorem verdictTo_pending (i : Invocation) (c : Code) (w : PortWords) :
    (s.verdictTo i c w).pending = s.pending := by
  unfold State.verdictTo
  split <;> rfl

theorem targetRefuses_pending (i : Invocation) (c : Code) : (s.targetRefuses i c).pending = s.pending := by
  unfold State.targetRefuses
  split
  · exact verdictTo_pending _ _ _
  · rfl

theorem invokeTarget_pending (i : Invocation) : (s.invokeTarget i).pending = s.pending := by
  unfold State.invokeTarget
  split
  · exact targetRefuses_pending _ _
  · rename_i x _
    calc (State.stopInWaitPort _ i.target).pending
      _ = (State.verdictTo _ i _ _).pending := (State.stopInWaitPort_frame _ _).pending
      _ = (s.applyVerb i.kind i.target x).1.pending := verdictTo_pending _ _ _
      _ = s.pending := (applyVerb_frame s _ _ _).pending

/-! ### Gates, routes and windows (chapters 2 and 3) -/

theorem gateChecks_pending {hd : Handed} {act : GateIx → State} (h : ∀ g, (act g).pending = s.pending) :
    (s.gateChecks hd act).pending = s.pending := by
  unfold State.gateChecks
  split
  · rfl
  · split
    · rfl
    · split
      · rfl
      · exact h _

theorem setGate_pending (hd : Handed) : (s.setGate hd).pending = s.pending := by
  refine gateChecks_pending fun g => ?_
  split <;> rfl

theorem clearGate_pending (hd : Handed) : (s.clearGate hd).pending = s.pending := gateChecks_pending fun _ => rfl

theorem readGate_pending (hd : Handed) : (s.readGate hd).pending = s.pending := by
  unfold State.readGate
  split <;> rfl

theorem invoke_pending (hd : Handed) : (s.invoke hd).pending = s.pending := by
  unfold State.invoke
  simp only
  split
  · rfl
  · split <;> rfl

theorem takeLineInvocation_pending (i : LineInv) : (s.takeLineInvocation i).pending = s.pending := by
  unfold State.takeLineInvocation
  split <;> rfl

theorem setRoute_pending (hd : Handed) : (s.setRoute hd).pending = s.pending := by
  unfold State.setRoute
  split
  · rfl
  · split <;> rfl

theorem readRoute_pending (hd : Handed) : (s.readRoute hd).pending = s.pending := by
  unfold State.readRoute
  split <;> rfl

theorem lineEvent_pending (l : LineIx) : (s.lineEvent l).pending = s.pending := by
  unfold State.lineEvent
  simp only
  split <;> rfl

theorem windowChecks_pending {hd : Handed} {act : WindowIx → State} (h : ∀ w, (act w).pending = s.pending) :
    (s.windowChecks hd act).pending = s.pending := by
  unfold State.windowChecks
  split
  · rfl
  · split
    · rfl
    · exact h _

theorem setWindow_pending (hd : Handed) : (s.setWindow hd).pending = s.pending := by
  refine windowChecks_pending fun w => ?_
  split <;> rfl

theorem clearWindow_pending (hd : Handed) : (s.clearWindow hd).pending = s.pending :=
  windowChecks_pending fun _ => rfl

theorem readWindow_pending (hd : Handed) : (s.readWindow hd).pending = s.pending := by
  unfold State.readWindow
  split <;> rfl

/-! ### Notices (chapter 10) -/

theorem takeFault_pending (hd : Handed) : (s.takeFault hd).pending = s.pending := by
  unfold State.takeFault
  simp only
  split <;> rfl

theorem takeRetired_pending (hd : Handed) : (s.takeRetired hd).pending = s.pending := by
  unfold State.takeRetired
  split <;> rfl

theorem setNotice_pending (hd : Handed) : (s.setNotice hd).pending = s.pending := by
  unfold State.setNotice
  split <;> rfl

/-! ### The engine, the strobe channels and the sweep (chapters 4 to 8) -/

theorem pause_pending (hd : Handed) : (s.pause hd).pending = s.pending := by
  unfold State.pause
  split
  · rfl
  · rename_i ht; exact (pauseEngine_frame ht).pending

theorem resume_pending (hd : Handed) : (s.resume hd).pending = s.pending := by
  unfold State.resume
  split
  · rfl
  · rename_i ht; exact (resumeEngine_frame ht).pending

theorem setStrobeLimit_pending (hd : Handed) : (s.setStrobeLimit hd).pending = s.pending := by
  unfold State.setStrobeLimit
  simp only
  split <;> rfl

theorem setSweep_pending (hd : Handed) : (s.setSweep hd).pending = s.pending := by
  unfold State.setSweep
  simp only
  split <;> rfl

theorem visitDue_pending : s.visitDue.pending = s.pending := by
  unfold State.visitDue State.sweepClaim
  split
  · split
    · split
      · exact (State.handOn_frame s.deferVisit).pending
      · rfl
    · exact s.performVisit_frame.pending
  · split <;> rfl

theorem sweepExpires_pending : s.sweepExpires.pending = s.pending := by
  unfold State.sweepExpires
  split
  · rfl
  · exact visitDue_pending

/-! ### Every command -/

theorem exec_answers (c : Instr) (s : State) : Answers s (exec c s) := by
  unfold exec
  cases c with
  | argumentWordWrite p i bytes value => exact whileRunning_answers (writeArgument_pending p i bytes value)
  | registerWriteIgnored p target value => exact whileRunning_answers (event := fun s => s) rfl
  | commandWrite p code | triggerLineRelease l | withdrawLineRelease p => exact whileRunning_answers rfl
  | admission p =>
    refine whileRunning_answers ?_
    split
    · rfl
    · exact admitCommand_pending _ _
  | clearStatus p =>
    refine whileRunning_answers ?_
    split
    · rfl
    · split
      · exact admitCommand_pending _ _
      · rfl
  | verdictPost p id =>
    refine whileRunning_answers ?_
    split
    · rfl
    · simp only
      split <;> rfl
  | load p id => exact ownerTakes_answers fun hd _ => load_pending hd
  | readDescriptor p id => exact ownerTakes_answers fun hd _ => readDescriptor_pending hd
  | arm p id => exact ownerTakes_answers fun hd _ => arm_pending hd
  | disarm p id => exact ownerTakes_answers fun hd _ => disarm_pending hd
  | release p id => exact ownerTakes_answers fun hd _ => release_pending hd
  | invoke p id => exact ownerTakes_answers fun hd _ => invoke_pending hd
  | setGate p id => exact ownerTakes_answers fun hd _ => setGate_pending hd
  | clearGate p id => exact ownerTakes_answers fun hd _ => clearGate_pending hd
  | readGate p id => exact ownerTakes_answers fun hd _ => readGate_pending hd
  | setWindow p id => exact ownerTakes_answers fun hd _ => setWindow_pending hd
  | clearWindow p id => exact ownerTakes_answers fun hd _ => clearWindow_pending hd
  | readWindow p id => exact ownerTakes_answers fun hd _ => readWindow_pending hd
  | setRoute p id => exact ownerTakes_answers fun hd _ => setRoute_pending hd
  | readRoute p id => exact ownerTakes_answers fun hd _ => readRoute_pending hd
  | setSweep p id => exact ownerTakes_answers fun hd _ => setSweep_pending hd
  | setStrobeLimit p id => exact ownerTakes_answers fun hd _ => setStrobeLimit_pending hd
  | pause p id => exact ownerTakes_answers fun hd _ => pause_pending hd
  | resume p id => exact ownerTakes_answers fun hd _ => resume_pending hd
  | setPortLevel p id => exact ownerTakes_answers fun hd _ => setPortLevel_pending hd
  | readStatus p id => exact ownerTakes_answers fun hd u => u.answer_pending hd _ _
  | takeFault p id => exact ownerTakes_answers fun hd _ => takeFault_pending hd
  | takeRetired p id => exact ownerTakes_answers fun hd _ => takeRetired_pending hd
  | setNotice p id => exact ownerTakes_answers fun hd _ => setNotice_pending hd
  | withdraw p id => exact ownerTakes_answers fun hd _ => withdrawCommand_pending hd
  | sweepLateClear p id | endRequest n | portReturnOpen p | releaseRequest =>
    refine whileRunning_answers ?_
    split <;> rfl
  | invocationAtTarget n =>
    refine whileRunning_answers ?_
    split
    · rfl
    · exact invokeTarget_pending _
  | lineInvocation n =>
    refine whileRunning_answers ?_
    split
    · rfl
    · exact takeLineInvocation_pending _
  | chain n =>
    refine whileRunning_answers ?_
    split
    · rfl
    · exact (takeChain_frame _ _).pending
  | guardResult n =>
    refine whileRunning_answers ?_
    split
    · rfl
    · exact (takeGuardResult_frame _ _).pending
  | faultReport =>
    refine whileRunning_answers ?_
    split
    · rfl
    · exact (State.takeReport_frame _ _ _).pending
  | triggerLineEvent l =>
    refine whileRunning_answers ?_
    split
    · rfl
    · exact lineEvent_pending l
  | withdrawLineEvent p =>
    refine whileRunning_answers ?_
    split
    · rfl
    · exact withdrawPort_pending p
  | resetPin => exact ⟨_, rfl, rfl⟩
  | resetRelease lines withdrawLines =>
    refine ⟨_, rfl, ?_⟩
    split <;> rfl
  | selection =>
    refine whileRunning_answers ?_
    split
    · exact (select_frame s).pending
    · rfl
  | busGrant =>
    refine whileRunning_answers ?_
    split
    · exact (State.handOn_frame _).pending
    · rfl
  | guardReadEnd result =>
    refine whileRunning_answers ?_
    split
    · rfl
    · cases result with
      | word w => exact (guardReadWord_frame s _ w).pending
      | busError => exact (s.guardReadFails_frame _ _).pending
  | unitReadEnd data =>
    refine whileRunning_answers ?_
    split
    · rfl
    · split
      · exact (sourceReadDone_frame s _ _ _ data).pending
      · rfl
  | unitCompletion =>
    refine whileRunning_answers ?_
    split
    · rfl
    · split
      · exact (s.unitCompletes_frame _ _).pending
      · rfl
  | accessBusError =>
    refine whileRunning_answers ?_
    split
    · rfl
    · exact (s.unitFails_frame _ _ _ _ _ _).pending
  | accept c =>
    refine whileRunning_answers ?_
    split
    · exact (accepted_frame s c).pending
    · rfl
    · rfl
  | supply c data =>
    refine whileRunning_answers ?_
    split
    · exact (supplied_frame s c data).pending
    · rfl
    · rfl
  | refuse c =>
    refine whileRunning_answers ?_
    split
    · rfl
    · exact (s.exchangeFails_frame c _).pending
    · exact (s.exchangeFails_frame c _).pending
  | waitTimerExpiry c => exact whileRunning_answers (waitExpires_frame s c).pending
  | sweepTimerExpiry => exact whileRunning_answers sweepExpires_pending
  | sweepReadEnd result =>
    refine whileRunning_answers ?_
    split
    · rfl
    · exact (sweepReadOver_frame s _ result).pending

/-- Settles O3: each command, by its operation. -/
theorem everyCommandAnswers : Obligations.EveryCommandAnswers := exec_answers

end Sys2Proof.Machine
end

section
/-! The six conditions of a guard on the masked word (R112, R113) (O44). -/

namespace Sys2Proof.Machine

variable {g : Guard} {word : Word}

/-! ### What each condition asks of the masked value and the masked reference -/

theorem holds_equal_iff (hc : g.condition = .equal) :
    g.holds word = true ↔ word &&& g.mask = g.reference &&& g.mask := by
  simp only [Guard.holds, hc, beq_iff_eq]

theorem holds_notEqual_iff (hc : g.condition = .notEqual) :
    g.holds word = true ↔ word &&& g.mask ≠ g.reference &&& g.mask := by
  simp only [Guard.holds, hc, bne_iff_ne]

theorem holds_above_iff (hc : g.condition = .above) :
    g.holds word = true ↔ (g.reference &&& g.mask).toNat < (word &&& g.mask).toNat := by
  simp only [Guard.holds, hc, decide_eq_true_iff]

theorem holds_notAbove_iff (hc : g.condition = .notAbove) :
    g.holds word = true ↔ (word &&& g.mask).toNat ≤ (g.reference &&& g.mask).toNat := by
  simp only [Guard.holds, hc, decide_eq_true_iff]

theorem holds_greater_iff (hc : g.condition = .greater) :
    g.holds word = true ↔ (g.reference &&& g.mask).toInt < (word &&& g.mask).toInt := by
  simp only [Guard.holds, hc, decide_eq_true_iff]

theorem holds_notGreater_iff (hc : g.condition = .notGreater) :
    g.holds word = true ↔ (word &&& g.mask).toInt ≤ (g.reference &&& g.mask).toInt := by
  simp only [Guard.holds, hc, decide_eq_true_iff]

/-! ### Each condition and the next are opposites -/

theorem holds_eq_not {k : Guard} (h : g.holds word = true ↔ ¬ k.holds word = true) :
    g.holds word = !k.holds word := by
  rw [Bool.eq_iff_iff, h, Bool.not_eq_true, Bool.not_eq_true']

theorem holds_equal_eq_not_notEqual :
    Guard.holds { g with condition := .equal } word = !Guard.holds { g with condition := .notEqual } word := by
  apply holds_eq_not
  rw [holds_equal_iff rfl, holds_notEqual_iff rfl]
  exact not_not.symm

theorem holds_above_eq_not_notAbove :
    Guard.holds { g with condition := .above } word = !Guard.holds { g with condition := .notAbove } word := by
  apply holds_eq_not
  rw [holds_above_iff rfl, holds_notAbove_iff rfl]
  exact not_le.symm

theorem holds_greater_eq_not_notGreater :
    Guard.holds { g with condition := .greater } word = !Guard.holds { g with condition := .notGreater } word := by
  apply holds_eq_not
  rw [holds_greater_iff rfl, holds_notGreater_iff rfl]
  exact not_le.symm

/-! ### A mask without bit 31 leaves no sign: GREATER is then ABOVE -/

theorem masked_toInt (hm : g.mask.getLsbD 31 = false) (w : Word) :
    (w &&& g.mask).toInt = (w &&& g.mask).toNat := by
  have sign : (w &&& g.mask).msb = false := by
    rw [BitVec.msb_eq_getLsbD_last, BitVec.getLsbD_and, hm, Bool.and_false]
  exact BitVec.toInt_eq_toNat_of_msb sign

theorem holds_greater_eq_above (hm : g.mask.getLsbD 31 = false) :
    Guard.holds { g with condition := .greater } word = Guard.holds { g with condition := .above } word := by
  rw [Bool.eq_iff_iff, holds_greater_iff rfl, holds_above_iff rfl, masked_toInt hm, masked_toInt hm, Int.ofNat_lt]

theorem holds_notGreater_eq_notAbove (hm : g.mask.getLsbD 31 = false) :
    Guard.holds { g with condition := .notGreater } word = Guard.holds { g with condition := .notAbove } word := by
  have opposite : (!Guard.holds { g with condition := .notGreater } word) =
      !Guard.holds { g with condition := .notAbove } word := by
    rw [← holds_greater_eq_not_notGreater, ← holds_above_eq_not_notAbove, holds_greater_eq_above hm]
  exact Bool.not_inj opposite

/-- Settles O44: what each condition asks, the three pairs of opposites, and the signed conditions where the mask leaves
no sign. -/
theorem guardConditions : Obligations.GuardConditions := fun _ _ =>
  ⟨holds_equal_iff, holds_notEqual_iff, holds_above_iff, holds_notAbove_iff, holds_greater_iff, holds_notGreater_iff,
    holds_equal_eq_not_notEqual, holds_above_eq_not_notAbove, holds_greater_eq_not_notGreater,
    fun hm => ⟨holds_greater_eq_above hm, holds_notGreater_eq_notAbove hm⟩⟩

end Sys2Proof.Machine
end

section
/-! Fault reports (R142, R173, R178): what becomes of one that is taken, and the report of a retirement after those that
wait (O57). -/

namespace Sys2Proof.Machine

open Host (Outcome)

variable (s : State) (p : PortIx) (r : Report)

/-! ### One report -/

/-- The notice record with one more report: held where none is, else only the overflow mark (R173). -/
def NoticeRec.keep (f : NoticeRec) (r : Report) : NoticeRec :=
  match f.record with
  | none => { f with record := some r }
  | some _ => { f with overflow := true }

theorem NoticeRec.keep_notice (f : NoticeRec) : (f.keep r).notice = f.notice := by
  unfold NoticeRec.keep
  split <;> rfl

/-- After a report is kept the record is held, whichever report holds it. -/
theorem NoticeRec.keep_record (f : NoticeRec) : (f.keep r).record.isSome = true := by
  unfold NoticeRec.keep
  split <;> simp [*]

theorem keepReport_eq : s.keepReport p r = (s.putNotice p ((s.fnu.get p).keep r)).evalInt p := by
  unfold State.keepReport NoticeRec.keep
  simp only
  split <;> simp only [*]

/-- A report is kept: the port's notice record, and its output, which the held record now lets the enable decide
(R173, R178). -/
theorem keepReport_record : s.keepReport p r = { s with
    fnu := s.fnu.put p ((s.fnu.get p).keep r)
    intOut := s.intOut.put p ((s.ports.get p).state == .opened && (s.fnu.get p).notice) } := by
  rw [keepReport_eq]
  simp [State.evalInt, State.putNotice, State.intCondition, NoticeRec.keep_notice, NoticeRec.keep_record]

theorem takeReport_opened (ho : (s.ports.get p).state = .opened) : s.takeReport p r = s.keepReport p r := if_pos ho

theorem takeReport_redirected (hc : (s.ports.get p).state = .closing) (ho : (s.ports.get 0).state = .opened) :
    s.takeReport p r = s.keepReport 0 r := by
  simp [State.takeReport, hc, ho]

theorem takeReport_dropped (hc : (s.ports.get p).state = .closing) (hz : (s.ports.get 0).state = .closing) :
    s.takeReport p r = { s with faultDropped := true } := by
  simp [State.takeReport, hc, hz]

/-! ### The reports that wait -/

/-- The reports that wait, replaced. -/
def State.withReports (l : List (PortIx × Report)) : State := { s with reports := l }

/-- Taking a report neither reads nor changes those that wait. -/
theorem takeReport_withReports (l : List (PortIx × Report)) :
    (s.withReports l).takeReport p r = (s.takeReport p r).withReports l := by
  cases hp : (s.ports.get p).state with
  | opened =>
    rw [takeReport_opened s p r hp, takeReport_opened (s.withReports l) p r hp, keepReport_record, keepReport_record]
    rfl
  | closing =>
    cases hz : (s.ports.get 0).state with
    | opened =>
      rw [takeReport_redirected s p r hp hz, takeReport_redirected (s.withReports l) p r hp hz, keepReport_record,
        keepReport_record]
      rfl
    | closing => rw [takeReport_dropped s p r hp hz, takeReport_dropped (s.withReports l) p r hp hz]; rfl

/-- With none waiting there is nothing to take. -/
theorem drainReports_nil (h : s.reports = []) : s.drainReports = s.withReports [] := by
  unfold State.drainReports
  rw [h]
  rfl

/-- Of the reports that wait the oldest is taken first, and then the others. -/
theorem drainReports_cons {q : PortIx} {e : Report} {rest : List (PortIx × Report)} (h : s.reports = (q, e) :: rest) :
    s.drainReports = ((s.withReports rest).takeReport q e).drainReports := by
  have waiting : s.drainReports =
      s.reports.foldl (fun s r => s.takeReport r.1 r.2) (s.withReports []) := rfl
  have rest_waiting : ((s.takeReport q e).withReports rest).drainReports =
      rest.foldl (fun s r => s.takeReport r.1 r.2) ((s.takeReport q e).withReports []) := rfl
  rw [takeReport_withReports, rest_waiting, waiting, h, List.foldl_cons, takeReport_withReports]

/-! ### FAULT_REPORT -/

/-- FAULT_REPORT takes the oldest report that waits (R173). -/
theorem exec_faultReport {rest : List (PortIx × Report)} (hr : s.resetHeld = false) (hw : s.reports = (p, r) :: rest) :
    exec .faultReport s = .next ((s.withReports rest).takeReport p r) := by
  show execFaultReport s = _
  unfold execFaultReport
  rw [whileRunning_released hr, hw]
  rfl

theorem faultReportKept : Claims.FaultReportKept := by
  intro s p r rest hr hw u kept
  have keeps : ∀ q, u.keepReport q r = kept q := fun q => keepReport_record u q r
  have taken : exec .faultReport s = .next (u.takeReport p r) := exec_faultReport s p r hr hw
  refine ⟨fun ho => ?_, fun hc ho => ?_, fun hc hz => ?_⟩
  · rw [taken, takeReport_opened u p r ho, keeps]
  · rw [taken, takeReport_redirected u p r hc ho, keeps]
  · rw [taken, takeReport_dropped u p r hc hz]

/-! ### The report of a retirement -/

theorem retirementReportTaken : Claims.RetirementReportTaken := by
  intro s p r hr
  refine ⟨fun hn => ?_, fun q e rest hw => ⟨_, exec_faultReport s q e hr hw, ?_, ?_⟩⟩
  · rw [State.reportNow, drainReports_nil s hn]
    exact exec_faultReport (s.withReports [(p, r)]) p r hr rfl
  · rw [takeReport_withReports]; rfl
  · rw [State.reportNow, drainReports_cons s hw, State.reportNow]

/-- Settles O57: a report taken is kept, redirected or dropped by the states of its port and of P0, and a retirement's
own report comes after the taking of those that wait, the oldest first. -/
theorem faultReportTaken : Obligations.FaultReportTaken := ⟨faultReportKept, retirementReportTaken⟩

end Sys2Proof.Machine
end

section
/-! Closing ports (R125, R183 to R185): the withdraw that closes a port, its return to OPEN, and every other command and
step (O11). -/

namespace Sys2Proof.Machine

open Host (Outcome)

variable {C : Prop} {s t : State} {p : PortIx} {d : DescIx} {x : Desc}

/-! ### The claims about closing ports beside those about records -/

theorem Recs.records (h : Recs C s) : Recs False s where
  held := ⟨h.held.marks, h.held.queue, h.held.active, h.held.sets, h.held.ok, False.elim, False.elim⟩
  working := h.working
  fits := h.fits

theorem ownsAny_eq_false_iff : s.ownsAny p = false ↔ ∀ d x, s.descs.get d = some x → x.owner ≠ p := by
  rw [Bool.eq_false_iff, Ne, ownsAny_iff]
  simp

/-- The claims of `State.ClosingOk` are those of `Recs` about closing ports. -/
theorem recs_iff_closingOk : Recs True s ↔ Recs False s ∧ s.ClosingOk := by
  constructor
  · intro h
    refine ⟨h.records, fun d x hx => h.own hx trivial, fun p => ?_⟩
    rw [ownsAny_eq_false_iff, ownsAny_iff]
    exact h.held.freed trivial p
  · rintro ⟨h, owners, freed⟩
    refine ⟨⟨h.held.marks, h.held.queue, h.held.active, h.held.sets, h.held.ok, fun _ d x _ hx => owners d x hx,
      fun _ p => ?_⟩, h.working, h.fits⟩
    rw [← ownsAny_eq_false_iff, ← ownsAny_iff]
    exact freed p

theorem Recs.closingOk (h : Recs True s) : s.ClosingOk := (recs_iff_closingOk.1 h).2

/-- The claims read who owns what, the stop requests, which ports are CLOSING, and the notices that a port is free. -/
theorem State.ClosingOk.congr (h : s.ClosingOk) (hd : t.descs = s.descs)
    (hp : ∀ p, (t.ports.get p).state = (s.ports.get p).state) (hf : t.freed = s.freed) : t.ClosingOk := by
  simpa only [State.ClosingOk, State.ownsAny, hd, hp, hf] using h

/-! ### Port records that keep their state (R156 to R162) -/

/-- The claims read no more of a port's record than its state. -/
theorem State.ClosingOk.putPort (h : s.ClosingOk) {r : PortRec} (hr : r.state = (s.ports.get p).state) :
    (s.putPort p r).ClosingOk := by
  refine h.congr rfl (fun q => ?_) rfl
  rw [State.putPort_ports, Tab.get_put]
  split
  · rename_i hq; rw [hr, hq]
  · rfl

theorem State.ClosingOk.writeArgument (h : s.ClosingOk) (p : PortIx) (i : Fin 16) (bytes : BitVec 4) (value : Word) :
    (s.writeArgument p i bytes value).ClosingOk := by
  unfold State.writeArgument
  simp only
  split <;> exact h.putPort rfl

theorem PortRec.commandWritten_state (r : PortRec) (code : Word) : (r.commandWritten code).state = r.state := by
  unfold PortRec.commandWritten
  split
  · rfl
  · split <;> rfl

theorem State.ClosingOk.handCommand (h : s.ClosingOk) (p : PortIx) (hc : HeldCommand) (c : Command) :
    (s.handCommand p hc c).ClosingOk := by
  have key : (s.putPort p
      { s.ports.get p with held := some { hc with admitted := true }, lastAdmitted := hc.code }).ClosingOk :=
    h.putPort rfl
  unfold State.handCommand
  simp only
  split <;> exact key

theorem State.ClosingOk.admitCommand (h : s.ClosingOk) (p : PortIx) (hc : HeldCommand) :
    (s.admitCommand p hc).ClosingOk := by
  unfold State.admitCommand
  simp only
  split
  · exact h.putPort rfl
  · exact h.handCommand p hc _

theorem State.ClosingOk.setPortLevel (h : s.ClosingOk) (hd : Handed) : (s.setPortLevel hd).ClosingOk := by
  unfold State.setPortLevel
  split
  · exact h
  · split
    · exact h
    · split
      · exact h
      · simp only
        split
        · exact h
        · exact h.putPort rfl

/-- A retired set that loses a member is none of the claims' concern (R177). -/
theorem State.ClosingOk.takeRetired (h : s.ClosingOk) (hd : Handed) : (s.takeRetired hd).ClosingOk := by
  unfold State.takeRetired
  split <;> exact h

/-! ### A port withdrawn, and its return to OPEN (R181 to R185) -/

/-- What a descriptor owned by the port withdrawn still is after the withdraw carries WITHDRAWN; the others are as they
were (R182). -/
theorem withdrawnAt_cases {y : Desc} (hy : s.withdrawnAt p d = some y) :
    (y.owner ≠ p ∧ s.descs.get d = some y) ∨ (y.owner = p ∧ y.pr.stop = .withdrawn) := by
  cases hx : s.descs.get d with
  | none => rw [withdrawnAt_none hx] at hy; cases hy
  | some x =>
    by_cases ho : x.owner = p
    · by_cases h : x.state = .active ∧ ¬ s.WaitsWith d
      · rw [withdrawnAt_stopped hx ho h.1 h.2] at hy
        cases hy
        exact .inr ⟨ho, rfl⟩
      · rw [withdrawnAt_emptied hx ho (by rwa [not_and_or, not_not] at h)] at hy
        cases hy
    · rw [withdrawnAt_other hx ho] at hy
      cases hy
      exact .inl ⟨ho, rfl⟩

/-- What another port owns is untouched by the withdraw. -/
theorem withdrawnAt_owner_iff {q : PortIx} (hq : q ≠ p) :
    (∃ y, s.withdrawnAt p d = some y ∧ y.owner = q) ↔ ∃ x, s.descs.get d = some x ∧ x.owner = q := by
  constructor
  · rintro ⟨y, hy, ho⟩
    obtain ⟨-, hx⟩ | ⟨hp, -⟩ := withdrawnAt_cases hy
    · exact ⟨y, hx, ho⟩
    · exact absurd (ho.symm.trans hp) hq
  · rintro ⟨x, hx, ho⟩
    exact ⟨x, withdrawnAt_other hx (by rw [ho]; exact hq), ho⟩

/-- The withdraw of an OPEN port: CLOSING exactly if a descriptor is left to it, and every one left carries WITHDRAWN;
no other port is concerned. -/
theorem State.ClosingOk.withdrawOpen (h : s.ClosingOk) (hp : (s.ports.get p).state = .opened) :
    (s.withdrawPort p).ClosingOk := by
  obtain ⟨owners, freed⟩ := h
  have all := (withdrawDescs_withdrawsAll p _ (List.nodup_finRange 128) s).desc
  generalize hu : (List.finRange 128).foldl (State.withdrawDesc p) s = u at all
  simp only [List.mem_finRange, if_true] at all
  rw [withdrawPort_eq hp hu]
  refine ⟨fun d y (hy : u.descs.get d = some y) => ?_, fun q => ?_⟩
  · show ((s.ports.put p _).get y.owner).state = .closing ↔ _
    rw [all] at hy
    obtain ⟨ho, hx⟩ | ⟨ho, hstop⟩ := withdrawnAt_cases hy
    · rw [Tab.get_put_of_ne _ _ ho.symm]
      exact owners d y hx
    · have owned : u.ownsAny p = true := ownsAny_iff.2 ⟨d, y, by rw [all, hy], ho⟩
      simp [ho, hstop, owned, PortRec.withdrawn]
  · show (s.freed.get q = true → ((s.ports.put p _).get q).state = .closing ∧ u.ownsAny q = false) ∧
      (((s.ports.put p _).get q).state = .closing → s.freed.get q = true ∨ u.ownsAny q = true)
    by_cases hq : q = p
    · subst hq
      have notFreed : s.freed.get q ≠ true := fun hf => by
        have closing := ((freed q).1 hf).1
        rw [hp] at closing
        cases closing
      refine ⟨fun hf => absurd hf notFreed, fun hc => .inr ?_⟩
      by_contra hn
      simp [PortRec.withdrawn, hn] at hc
    · have same : u.ownsAny q = s.ownsAny q := by
        rw [Bool.eq_iff_iff, ownsAny_iff, ownsAny_iff]
        exact exists_congr fun d => by rw [all]; exact withdrawnAt_owner_iff hq
      rw [Tab.get_put_of_ne _ _ (Ne.symm hq), same]
      exact freed q

theorem State.ClosingOk.withdrawPort (h : s.ClosingOk) (p : PortIx) : (s.withdrawPort p).ClosingOk := by
  cases hp : (s.ports.get p).state with
  | opened => exact h.withdrawOpen hp
  | closing => unfold State.withdrawPort; rwa [if_pos hp]

theorem State.ClosingOk.withdrawCommand (h : s.ClosingOk) (hd : Handed) : (s.withdrawCommand hd).ClosingOk := by
  unfold State.withdrawCommand
  split
  · exact h
  · split
    · exact h.withdrawPort _
    · exact h.withdrawPort _

/-- The port told that its last descriptor is free owns none, and is OPEN again (R185). -/
theorem State.ClosingOk.returnOpen (h : s.ClosingOk) (hf : s.freed.get p = true) :
    State.ClosingOk { s with
      freed := s.freed.put p false
      ports := s.ports.put p { s.ports.get p with state := .opened } } := by
  obtain ⟨owners, freed⟩ := h
  have free := ownsAny_eq_false_iff.1 ((freed p).1 hf).2
  refine ⟨fun d x (hx : s.descs.get d = some x) => ?_, fun q => ?_⟩
  · show ((s.ports.put p _).get x.owner).state = .closing ↔ _
    rw [Tab.get_put_of_ne _ _ (free d x hx).symm]
    exact owners d x hx
  · show ((s.freed.put p false).get q = true → ((s.ports.put p _).get q).state = .closing ∧ s.ownsAny q = false) ∧
      (((s.ports.put p _).get q).state = .closing → (s.freed.put p false).get q = true ∨ s.ownsAny q = true)
    by_cases hq : q = p
    · subst hq; simp
    · rw [Tab.get_put_of_ne _ _ (Ne.symm hq), Tab.get_put_of_ne _ _ (Ne.symm hq)]
      exact freed q

/-- Right after reset every port is OPEN, and none owns a descriptor. -/
theorem reset_closingOk : State.reset.ClosingOk := by
  have noDesc : ∀ d, State.reset.descs.get d = none := fun d => Tab.get_fill ..
  have opened : ∀ p, (State.reset.ports.get p).state = .opened := fun p => by rw [reset_port]; rfl
  refine ⟨fun d x hx => ?_, fun p => ⟨fun hf => ?_, fun hc => ?_⟩⟩
  · rw [noDesc] at hx; cases hx
  · simp [State.reset] at hf
  · rw [opened] at hc; cases hc

/-! ### How a command reaches its operation -/

theorem State.ClosingOk.whileRunning (h : s.ClosingOk) {event : State → State} (he : (event s).ClosingOk)
    (ht : whileRunning event s = .next t) : t.ClosingOk := by
  unfold Sys2Proof.Machine.whileRunning at ht
  cases ht
  split
  · exact h
  · exact he

theorem State.ClosingOk.ownerTakes (h : s.ClosingOk) {c : Command} {p : PortIx} {id : Word}
    {act : Handed → State → State} (ha : ∀ hd (u : State), u.ClosingOk → (act hd u).ClosingOk)
    (ht : ownerTakes c p id act s = .next t) : t.ClosingOk := by
  refine h.whileRunning ?_ ht
  split
  · exact h
  · exact ha _ _ h

/-- A command still pending is one of an OPEN port (R157, R181). -/
theorem State.PendingOk.opened (h : s.PendingOk) {hd : Handed} (hp : s.stillPending hd = true) :
    (s.ports.get hd.port).state ≠ .closing := by
  have held : (s.ports.get hd.port).held.isSome = true := by
    obtain ⟨c, hc, -⟩ := (Option.any_eq_true _ _).1 hp
    simp [hc]
  simp [h _ held]

/-- LOAD fills an EMPTY slot only while its command is pending at its port, and so while that port is OPEN (R12,
R181). -/
theorem execLoad_recs (h : Recs C s) (pending : s.PendingOk) {id : Word} (ht : execLoad p id s = .next t) :
    Recs C t := by
  unfold execLoad ownerTakes at ht
  refine h.whileRunning ?_ ht
  split
  · exact h
  · rename_i hd _
    have taken : Recs C { s with handed := s.handed.erase hd } :=
      h.congr rfl rfl rfl rfl (fun _ => rfl) (fun _ => rfl) rfl
    exact taken.load hd fun _ => pending.opened

/-- The claims read the engine, the records and their marks, the queue, the notices, the ports and the freed marks. -/
theorem Recs.unread (h : Recs C s) (he : t.engine = s.engine) (hd : t.descs = s.descs)
    (hm : t.sweepMarks = s.sweepMarks) (hr : t.ready = s.ready) (hf : t.fnu = s.fnu) (hp : t.ports = s.ports)
    (hfr : t.freed = s.freed) : Recs C t :=
  h.congr he hd hm hr (fun p => by rw [hf]) (fun p => by rw [hp]) hfr

theorem resetPin_closingOk (ht : execResetPin s = .next t) : t.ClosingOk :=
  Outcome.next.inj ht ▸ reset_closingOk.congr rfl (fun _ => rfl) rfl

/-! ### Every command -/

/-- Every command keeps the claims about closing ports with those about records. -/
theorem exec_keepsClosing (h : Recs True s) (pending : s.PendingOk) (c : Instr) (ht : exec c s = .next t) :
    Recs True t := by
  have closing := h.closingOk
  have alone : t.ClosingOk → Recs True t := fun k => recs_iff_closingOk.2 ⟨h.records.exec c ht, k⟩
  unfold Machine.exec at ht
  cases c with
  | argumentWordWrite p i bytes value => exact alone (closing.whileRunning (closing.writeArgument p i bytes value) ht)
  | commandWrite p code => exact alone (closing.whileRunning (closing.putPort (PortRec.commandWritten_state _ code)) ht)
  | admission p =>
    refine alone (closing.whileRunning ?_ ht)
    split
    · exact closing
    · exact closing.admitCommand p _
  | clearStatus p =>
    refine alone (closing.whileRunning ?_ ht)
    split
    · exact closing
    · split
      · exact closing.admitCommand p _
      · exact closing
  | verdictPost p id =>
    refine alone (closing.whileRunning ?_ ht)
    split
    · exact closing
    · rename_i v _
      have taken : State.ClosingOk { s with verdicts := s.verdicts.erase v } := closing
      simp only
      split
      · exact taken.putPort rfl
      · exact taken
  | load p id => exact execLoad_recs h pending ht
  | readDescriptor p id => exact h.ownerTakes (fun hd u hu => hu.readDescriptor hd) ht
  | arm p id => exact h.ownerTakes (fun hd u hu => hu.arm hd) ht
  | disarm p id => exact h.ownerTakes (fun hd u hu => hu.disarm hd) ht
  | release p id => exact h.ownerTakes (fun hd u hu => hu.release hd) ht
  | invoke p id => exact h.ownerTakes (fun hd u hu => hu.invoke hd) ht
  | setGate p id => exact h.ownerTakes (fun hd u hu => hu.setGate hd) ht
  | clearGate p id => exact h.ownerTakes (fun hd u hu => hu.clearGate hd) ht
  | readGate p id => exact h.ownerTakes (fun hd u hu => hu.readGate hd) ht
  | setWindow p id => exact h.ownerTakes (fun hd u hu => hu.setWindow hd) ht
  | clearWindow p id => exact h.ownerTakes (fun hd u hu => hu.clearWindow hd) ht
  | readWindow p id => exact h.ownerTakes (fun hd u hu => hu.readWindow hd) ht
  | setRoute p id => exact h.ownerTakes (fun hd u hu => hu.setRoute hd) ht
  | readRoute p id => exact h.ownerTakes (fun hd u hu => hu.readRoute hd) ht
  | setSweep p id => exact h.ownerTakes (fun hd u hu => hu.setSweep hd) ht
  | setStrobeLimit p id => exact h.ownerTakes (fun hd u hu => hu.setStrobeLimit hd) ht
  | pause p id => exact h.ownerTakes (fun hd u hu => hu.pause hd) ht
  | resume p id => exact h.ownerTakes (fun hd u hu => hu.resume hd) ht
  | setPortLevel p id => exact alone (closing.ownerTakes (fun hd u hu => hu.setPortLevel hd) ht)
  | readStatus p id => exact h.ownerTakes (fun hd u hu => hu.answer hd _ _) ht
  | takeFault p id => exact h.ownerTakes (fun hd u hu => hu.takeFault hd) ht
  | takeRetired p id => exact alone (closing.ownerTakes (fun hd u hu => hu.takeRetired hd) ht)
  | setNotice p id => exact h.ownerTakes (fun hd u hu => hu.setNotice hd) ht
  | withdraw p id => exact alone (closing.ownerTakes (fun hd u hu => hu.withdrawCommand hd) ht)
  | registerWriteIgnored _ _ _ | triggerLineRelease _ | withdrawLineRelease _ =>
    exact alone (closing.whileRunning closing ht)
  | sweepLateClear _ _ | endRequest _ | releaseRequest =>
    refine alone (closing.whileRunning ?_ ht)
    split <;> exact closing
  | invocationAtTarget n =>
    refine h.whileRunning ?_ ht
    split
    · exact h
    · apply Recs.invokeTarget
      exact h.unread rfl rfl rfl rfl rfl rfl rfl
  | lineInvocation n =>
    refine h.whileRunning ?_ ht
    split
    · exact h
    · apply Recs.takeLineInvocation
      exact h.unread rfl rfl rfl rfl rfl rfl rfl
  | chain n =>
    refine h.whileRunning ?_ ht
    split
    · exact h
    · apply Recs.takeChain
      exact h.unread rfl rfl rfl rfl rfl rfl rfl
  | guardResult n =>
    refine h.whileRunning ?_ ht
    split
    · exact h
    · apply Recs.takeGuardResult
      exact h.unread rfl rfl rfl rfl rfl rfl rfl
  | faultReport =>
    refine h.whileRunning ?_ ht
    split
    · exact h
    · exact Recs.reports (h.unread rfl rfl rfl rfl rfl rfl rfl) (State.takeReport_only _ _ _)
  | triggerLineEvent l =>
    refine h.whileRunning ?_ ht
    split
    · exact h
    · exact h.lineEvent l
  | withdrawLineEvent p =>
    refine alone (closing.whileRunning ?_ ht)
    split
    · exact closing
    · apply State.ClosingOk.withdrawPort
      exact closing
  | portReturnOpen p =>
    refine alone (closing.whileRunning ?_ ht)
    split
    · exact closing.returnOpen (by assumption)
    · exact closing
  | resetPin => exact alone (resetPin_closingOk ht)
  | resetRelease lines withdrawLines =>
    refine alone ?_
    cases ht
    split <;> exact closing
  | selection =>
    refine h.whileRunning ?_ ht
    split
    · exact h.select (by assumption)
    · exact h
  | busGrant =>
    refine h.whileRunning ?_ ht
    split
    · exact Recs.handOn (h.unread rfl rfl rfl rfl rfl rfl rfl)
    · exact h
  | guardReadEnd result =>
    refine h.whileRunning ?_ ht
    split
    · exact h
    · rename_i g hg
      cases result with
      | word w => exact h.guardReadWord (guardInFlight?_state hg) g w
      | busError => exact h.guardReadFails g _
  | unitReadEnd data =>
    refine h.whileRunning ?_ ht
    split
    · exact h
    · rename_i hx
      split
      · exact h.sourceReadDone hx data
      · exact h
  | unitCompletion =>
    refine h.whileRunning ?_ ht
    split
    · exact h
    · rename_i hx
      obtain ⟨ha, hd, hb⟩ := h.accessActive hx
      split
      · exact (h.unitCompletes ha hd hb).recs
      · exact h
  | accessBusError =>
    refine h.whileRunning ?_ ht
    split
    · exact h
    · rename_i hx
      obtain ⟨hb, hblk⟩ := h.access hx
      exact hb.unitFails hblk _ _ _ _
  | accept c =>
    refine h.whileRunning ?_ ht
    split
    · exact h.accepted c
    · exact h
    · exact h
  | supply c data =>
    refine h.whileRunning ?_ ht
    split
    · exact h.supplied c data
    · exact h
    · exact h
  | refuse c =>
    refine h.whileRunning ?_ ht
    split
    · exact h
    · exact h.exchangeFails c _
    · exact h.exchangeFails c _
  | waitTimerExpiry c => exact h.whileRunning (h.waitExpires c) ht
  | sweepTimerExpiry => exact h.whileRunning h.sweepExpires ht
  | sweepReadEnd result =>
    refine h.whileRunning ?_ ht
    split
    · exact h
    · exact h.sweepReadOver _ result

/-- A step, of a command or of the time base, keeps them. -/
theorem step_keepsClosing (h : Recs True s) (pending : s.PendingOk) (ht : step s = .next t) : Recs True t := by
  unfold step at ht
  split at ht
  · cases ht; exact h.timeBase
  · rename_i c rest _
    have taken : Recs True { s with pending := rest } := h.unread rfl rfl rfl rfl rfl rfl rfl
    exact exec_keepsClosing taken pending c ht

/-- Settles O11: the claims about closing ports are carried, with those about records (O9), through every command and
through the time base. -/
theorem stepKeepsClosing : Obligations.StepKeepsClosing := by
  unfold Obligations.StepKeepsClosing
  intro s t records pending closing ht
  have both : Recs True s := recs_iff_closingOk.2 ⟨recordsOk_iff_recs.1 records, closing⟩
  exact (step_keepsClosing both pending ht).closingOk

end Sys2Proof.Machine
end

section
/-! The expiry of the interval timer, and the visit that falls due at it (R81, R146 to R148) (O53). -/

namespace Sys2Proof.Machine

open Host (Outcome)

variable {s : State}

/-- A visit needs the port where its descriptor is WAITING and the lease step leaves it so (R147). -/
theorem visitNeedsPort_iff : s.visitNeedsPort = true ↔
    ∃ x, s.descs.get s.sweep.cursor = some x ∧ x.state = .waiting ∧ (x.st.initialLease = 0 ∨ 2 ≤ x.pr.lease) := by
  unfold State.visitNeedsPort
  cases s.descs.get s.sweep.cursor with
  | none => simp
  | some x => simp

/-! ### The visit that falls due -/

/-- The sweep's claim waits unless the port is free under a grant (R81). -/
theorem sweepClaim_deferred (taken : s.master.bus = .granted → s.master.holder.isSome = true) :
    s.sweepClaim = s.deferVisit := by
  refine if_neg fun ⟨granted, free⟩ => ?_
  have held := taken granted
  simp [free] at held

theorem visitDue_claims (clear : s.sweep.deferred = 0) (needs : s.visitNeedsPort = true) :
    s.visitDue = s.sweepClaim := by
  unfold State.visitDue
  rw [if_pos clear, if_pos needs]

/-- Behind a deferred visit the next one waits too, whatever the port (R148). -/
theorem visitDue_defers (behind : s.sweep.deferred ≠ 0) (room : s.sweep.deferred < Config.maxDeferred) :
    s.visitDue = s.deferVisit := by
  unfold State.visitDue
  rw [if_neg behind, if_pos room]

theorem visitDue_dropped (full : Config.maxDeferred ≤ s.sweep.deferred) :
    s.visitDue = { s with sweep := { s.sweep with late := true } } := by
  have behind : s.sweep.deferred ≠ 0 := (Nat.lt_of_lt_of_le (by decide : 0 < Config.maxDeferred) full).ne'
  unfold State.visitDue
  rw [if_neg behind, if_neg (Nat.not_lt.2 full)]

/-! ### The expiry -/

theorem exec_sweepTimerExpiry_off (hr : s.resetHeld = false) (off : s.sweep.interval = 0) :
    exec .sweepTimerExpiry s = .next s := by
  rw [exec_sweepTimerExpiry hr]
  exact congrArg Outcome.next (if_pos off)

theorem exec_sweepTimerExpiry_on (hr : s.resetHeld = false) (on : s.sweep.interval ≠ 0) :
    exec .sweepTimerExpiry s = .next (State.visitDue { s with sweep := { s.sweep with timer := 0 } }) := by
  rw [exec_sweepTimerExpiry hr]
  exact congrArg Outcome.next (if_neg on)

/-- Settles O53: the sweep off, and the visit that falls due by the visits already deferred: none, without and with need
of the port, one, and as many as there may be. -/
theorem sweepExpiryVisits : Obligations.SweepExpiryVisits := by
  intro s hr u deferred needsPort
  refine ⟨exec_sweepTimerExpiry_off hr, fun on => ?_⟩
  have due : exec .sweepTimerExpiry s = .next u.visitDue := exec_sweepTimerExpiry_on hr on
  refine ⟨fun clear free => ?_, fun clear needs taken => ?_, fun one => ?_, fun full => ?_⟩
  · exact exec_sweepTimerExpiry_performs hr on clear (Bool.eq_false_iff.2 (mt visitNeedsPort_iff.1 free))
  · have claims : u.visitDue = u.sweepClaim := visitDue_claims clear (visitNeedsPort_iff.2 needs)
    have waits : u.sweepClaim = u.deferVisit := sweepClaim_deferred taken
    rw [due, claims, waits]
    rfl
  · have behind : u.sweep.deferred ≠ 0 := one.trans_ne (by decide)
    have room : u.sweep.deferred < Config.maxDeferred := one.trans_lt (by decide)
    rw [due, visitDue_defers behind room]
    rfl
  · rw [due, visitDue_dropped (s := u) full]

end Sys2Proof.Machine
end

section
/-! SET_SWEEP at the Lease Sweep (R145) (O52). -/

namespace Sys2Proof.Machine

variable {s : State} {p : PortIx} {id : Word} {h : Handed}

theorem exec_setSweep (wt : s.Waits .setSweep p id h) :
    exec (.setSweep p id) s = .next ((s.took h).setSweep h) :=
  ownerTakes_waits wt fun h s => s.setSweep h

theorem setSweep_malformed (above : Config.maxInterval < (h.args.get 0).toNat) :
    (s.took h).setSweep h = s.answered h .malformed noWords :=
  if_pos above

/-- What is reported is the sweep as the command finds it, and the interval it writes. -/
theorem setSweep_written (within : (h.args.get 0).toNat ≤ Config.maxInterval) :
    (s.took h).setSweep h =
      { s.answered h .ok (image [BitVec.ofNat 32 s.sweep.interval, BitVec.ofNat 32 (h.args.get 0).toNat,
          BitVec.ofNat 32 s.sweep.cursor.val, BitVec.ofNat 32 s.sweep.deferred]) with
        sweep := { s.sweep with interval := (h.args.get 0).toNat, timer := 0, deferred := 0 } } :=
  if_neg (Nat.not_lt.2 within)

/-- Settles O52: the interval refused, or written and reported. -/
theorem setSweepWritesInterval : Obligations.SetSweepWritesInterval := by
  intro s p id h wt
  rw [exec_setSweep wt]
  exact ⟨fun above => by rw [setSweep_malformed above], fun within => by rw [setSweep_written within]⟩

end Sys2Proof.Machine
end

section
/-! Accesses at a port window: the word that an offset of the target space lies in, and what a write and a read do there
(R156, R164, R169, R178, section 9.8) (O12). -/

namespace Sys2Proof.Machine

/-! ### The decode of the target space -/

section Decode

variable {offset : TargetOffset} {p : PortIx} {byte : Nat}

theorem targetOffset_port (hb : byte < 0x100) (ho : offset.val = 0x100 * p.val + byte) : offset.port = p :=
  Fin.ext (show offset.val / 256 = p.val by omega)

theorem targetOffset_word (hb : byte < 0x100) (ho : offset.val = 0x100 * p.val + byte) :
    offset.word.val = byte / 4 :=
  show offset.val % 256 / 4 = byte / 4 by omega

end Decode

/-! ### Writes -/

section Write

variable {offset : TargetOffset} (bytes : BitVec 4) (value : Word)

theorem ofTargetWrite_argument {i : Fin 16} (hw : offset.word.val = i.val) :
    Instr.ofTargetWrite offset bytes value = .argumentWordWrite offset.port i bytes value := by
  unfold Instr.ofTargetWrite
  simp [hw]

theorem ofTargetWrite_command (hw : offset.word.val = 16) :
    Instr.ofTargetWrite offset bytes value = if bytes = 15 then .commandWrite offset.port value
      else .registerWriteIgnored offset.port (.narrowCommand bytes) value := by
  unfold Instr.ofTargetWrite
  simp [hw]

theorem ofTargetWrite_resultCode (hw : offset.word.val = 17) :
    Instr.ofTargetWrite offset bytes value = .registerWriteIgnored offset.port .resultCode value := by
  unfold Instr.ofTargetWrite
  simp [hw]

theorem ofTargetWrite_portStatus (hw : offset.word.val = 18) :
    Instr.ofTargetWrite offset bytes value = .registerWriteIgnored offset.port .portStatus value := by
  unfold Instr.ofTargetWrite
  simp [hw]

theorem ofTargetWrite_resultWord {i : Fin 16} (hw : offset.word.val = 32 + i.val) :
    Instr.ofTargetWrite offset bytes value = .registerWriteIgnored offset.port (.resultWord i) value := by
  unfold Instr.ofTargetWrite
  simp only
  rw [dif_neg (by omega), if_neg (by omega), if_neg (by omega), if_neg (by omega), dif_pos (by omega)]
  simp [hw]

theorem ofTargetWrite_unassigned (hw : (18 < offset.word.val ∧ offset.word.val < 32) ∨ 48 ≤ offset.word.val) :
    Instr.ofTargetWrite offset bytes value =
      .registerWriteIgnored offset.port (.unassigned (4 * offset.word.val)) value := by
  unfold Instr.ofTargetWrite
  simp only
  rw [dif_neg (by omega), if_neg (by omega), if_neg (by omega), if_neg (by omega), dif_neg (by omega)]

end Write

theorem targetWriteDecoded : Claims.TargetWriteDecoded := by
  intro p byte offset bytes value hb ho c
  have hw : offset.word.val = byte / 4 := targetOffset_word hb ho
  obtain rfl : offset.port = p := targetOffset_port hb ho
  refine ⟨fun i hi => ofTargetWrite_argument _ _ (hw.trans hi), fun _ _ => ?_, fun _ _ => ?_, fun _ _ => ?_,
    fun hu => ?_, fun i hi => ofTargetWrite_resultWord _ _ (hw.trans hi)⟩
  · have command := ofTargetWrite_command bytes value (show offset.word.val = 16 by omega)
    exact ⟨fun whole => command.trans (if_pos whole), fun narrow => command.trans (if_neg narrow)⟩
  · exact ofTargetWrite_resultCode _ _ (by omega)
  · exact ofTargetWrite_portStatus _ _ (by omega)
  · rw [← hw]
    exact ofTargetWrite_unassigned _ _ (by omega)

/-! ### Reads -/

section Read

variable (s : State) (p : PortIx) {w : Fin 64}

theorem readPort_argument {i : Fin 16} (hw : w.val = i.val) : s.readPort p w = (s.ports.get p).args.get i := by
  unfold State.readPort
  simp [hw]

theorem readPort_command (hw : w.val = 16) : s.readPort p w = (s.ports.get p).commandWord := by
  unfold State.readPort
  simp [hw]

theorem readPort_resultCode (hw : w.val = 17) :
    s.readPort p w = BitVec.ofNat 32 (s.ports.get p).lastResult.value := by
  unfold State.readPort
  simp [hw]

theorem readPort_portStatus (hw : w.val = 18) : s.readPort p w = s.portStatus p := by
  unfold State.readPort
  simp [hw]

theorem readPort_resultWord {i : Fin 16} (hw : w.val = 32 + i.val) :
    s.readPort p w = (s.ports.get p).results.get i := by
  unfold State.readPort
  simp only
  rw [dif_neg (by omega), if_neg (by omega), if_neg (by omega), if_neg (by omega), dif_pos (by omega)]
  simp [hw]

theorem readPort_unassigned (hw : (18 < w.val ∧ w.val < 32) ∨ 48 ≤ w.val) : s.readPort p w = 0 := by
  unfold State.readPort
  simp only
  rw [dif_neg (by omega), if_neg (by omega), if_neg (by omega), if_neg (by omega), dif_neg (by omega)]

/-- The fields of a word laid out as the port status word (section 9.8). -/
theorem statusWord_fields (pending refused closing notice held retired out : Bool) (level : Level) :
    let v := pack [(flag pending, 0), (flag refused, 1), (flag closing, 2), (level.val, 4), (flag notice, 8),
      (flag held, 9), (flag retired, 10), (flag out, 11)]
    bit v 0 = pending ∧ bit v 1 = refused ∧ bit v 2 = closing ∧ bit v 3 = false ∧ field v 4 2 = level.val ∧
      field v 6 2 = 0 ∧ bit v 8 = notice ∧ bit v 9 = held ∧ bit v 10 = retired ∧ bit v 11 = out ∧
      field v 12 20 = 0 := by
  have := level.isLt
  have := flag_le pending
  have := flag_le refused
  have := flag_le closing
  have := flag_le notice
  have := flag_le held
  have := flag_le retired
  have := flag_le out
  refine ⟨bit_pack_at ?_ ?_, bit_pack_at ?_ ?_, bit_pack_at ?_ ?_, bit_pack_clear ?_ ?_, field_pack_at ?_ ?_ ?_,
    field_pack_at ?_ ?_ ?_, bit_pack_at ?_ ?_, bit_pack_at ?_ ?_, bit_pack_at ?_ ?_, bit_pack_at ?_ ?_,
    field_pack_at ?_ ?_ ?_⟩ <;> simp [PacksAt, Apart] <;> omega

end Read

theorem targetReadReports : Claims.TargetReadReports := by
  intro s p byte offset hb ho r f v
  have hw : offset.word.val = byte / 4 := targetOffset_word hb ho
  obtain rfl : offset.port = p := targetOffset_port hb ho
  refine ⟨fun i hi => readPort_argument _ _ (hw.trans hi), fun _ _ => ?_, fun _ _ => ?_, fun _ _ => ?_, fun hu => ?_,
    fun i hi => readPort_resultWord _ _ (hw.trans hi)⟩
  · have command : v = r.commandWord := readPort_command _ _ (by omega)
    rw [command, PortRec.commandWord]
    exact ⟨fun h hh => by rw [Option.mem_def.1 hh], fun hn => by rw [hn]⟩
  · exact readPort_resultCode _ _ (by omega)
  · have status : v = s.portStatus offset.port := readPort_portStatus _ _ (by omega)
    obtain ⟨b0, b1, b2, b3, f4, f6, b8, b9, b10, b11, f12⟩ := statusWord_fields r.held.isSome r.writeRefused
      (r.state == .closing) f.notice f.record.isSome f.anyRetired (s.intOut.get offset.port) r.level
    rw [status, ← anyRetired_iff]
    exact ⟨b0, b1, b2, b3, f4, f6, b8, b9, Bool.eq_iff_iff.1 b10, b11, f12⟩
  · exact readPort_unassigned _ _ (by omega)

theorem codesHaveValues : Claims.CodesHaveValues := by
  unfold Claims.CodesHaveValues
  decide

/-! ### Argument words -/

/-- The bits of a word that lie in the marked bytes. -/
def byteMask (bytes : BitVec 4) : Word :=
  pack ((List.range 4).map fun i => (if bytes.getLsbD i then 0xFF else 0, 8 * i))

theorem mergeBytes_eq (bytes : BitVec 4) (old new : Word) :
    mergeBytes bytes old new = (new &&& byteMask bytes) ||| (old &&& ~~~byteMask bytes) := rfl

/-- A marked byte has its eight bits, and one not marked none. -/
theorem markedByte_testBit (marked : Bool) (j : Nat) :
    (if marked then 0xFF else 0 : Nat).testBit j = (marked && decide (j < 8)) := by
  cases marked with
  | false => simp
  | true => exact Nat.testBit_two_pow_sub_one 8 j

theorem byteMask_getLsbD (bytes : BitVec 4) {b : Nat} (hb : b < 32) :
    (byteMask bytes).getLsbD b = bytes.getLsbD (b / 8) := by
  rw [byteMask, pack_testBit _ _ hb, Bool.eq_iff_iff, List.any_map, List.any_eq_true]
  simp only [Function.comp_apply, markedByte_testBit, Bool.and_eq_true, decide_eq_true_eq, List.mem_range]
  constructor
  · rintro ⟨i, -, below, marked, within⟩
    rwa [show b / 8 = i by omega]
  · intro marked
    exact ⟨b / 8, by omega, by omega, marked, by omega⟩

/-- Each bit of the merged word is the one of the new word where its byte is marked, and else the old one. -/
theorem mergeBytes_getLsbD (bytes : BitVec 4) (old new : Word) {b : Nat} (hb : b < 32) :
    (mergeBytes bytes old new).getLsbD b = if bytes.getLsbD (b / 8) then new.getLsbD b else old.getLsbD b := by
  rw [mergeBytes_eq, BitVec.getLsbD_or, BitVec.getLsbD_and, BitVec.getLsbD_and, BitVec.getLsbD_not,
    byteMask_getLsbD bytes hb]
  cases bytes.getLsbD (b / 8) <;> simp [hb]

section Argument

variable {s : State} {p : PortIx} (i : Fin 16) (bytes : BitVec 4) (value : Word)

theorem exec_argumentWordWrite (hr : s.resetHeld = false) :
    exec (.argumentWordWrite p i bytes value) s = .next (s.writeArgument p i bytes value) :=
  whileRunning_released hr fun s => s.writeArgument p i bytes value

theorem writeArgument_stored (hn : (s.ports.get p).held = none) :
    s.writeArgument p i bytes value = { s with ports := s.ports.put p { s.ports.get p with
      args := (s.ports.get p).args.put i (mergeBytes bytes ((s.ports.get p).args.get i) value) } } := by
  simp only [State.writeArgument, hn, State.putPort]

theorem writeArgument_refused (hh : (s.ports.get p).held.isSome = true) :
    s.writeArgument p i bytes value =
      { s with ports := s.ports.put p { s.ports.get p with writeRefused := true } } := by
  obtain ⟨h, hh⟩ := Option.isSome_iff_exists.1 hh
  simp only [State.writeArgument, hh, State.putPort]

end Argument

theorem argumentWordWrite : Claims.ArgumentWordWrite := by
  intro s p i bytes value hr r
  rw [exec_argumentWordWrite i bytes value hr]
  refine ⟨fun hn => ⟨_, fun b hb => mergeBytes_getLsbD _ _ _ hb, ?_⟩, fun hh => ?_⟩
  · rw [writeArgument_stored i bytes value hn]
  · rw [writeArgument_refused i bytes value hh]

/-- An ignored write is no event, with the reset pin asserted or not. -/
theorem otherWordWritesIgnored : Claims.OtherWordWritesIgnored := fun s _ _ _ =>
  congrArg Host.Outcome.next (ite_self s)

/-- Settles O12: the word that an access lies in, and what a read returns and a write does there. -/
theorem portWindowAccesses : Obligations.PortWindowAccesses :=
  ⟨targetWriteDecoded, targetReadReports, codesHaveValues, argumentWordWrite, otherWordWritesIgnored⟩

end Sys2Proof.Machine
end

section
/-! The command codes (R163), and the admission of a held command: refused, or handed to its owner (R158, R167)
(O14). -/

namespace Sys2Proof.Machine

open Host (Outcome)

/-! ### The command codes -/

theorem mem_commandAll (c : Command) : c ∈ Command.all := by cases c <;> decide

/-- No two commands have one code, so the code of a command names it. -/
theorem ofCode_code (c : Command) : Command.ofCode (BitVec.ofNat 32 c.code) = some c := by cases c <;> decide

/-- A word that is no command's code names none. -/
theorem ofCode_none {code : Word} (h : ∀ c : Command, code.toNat ≠ c.code) : Command.ofCode code = none := by
  refine List.find?_eq_none.2 fun c _ same => h c ?_
  exact (beq_iff_eq.1 same).symm

/-- The claim's list of codes is the permission table with the code of each command. -/
theorem commandCodes : Claims.CommandCodes := by
  unfold Claims.CommandCodes
  intro codes
  have table : codes = Command.all.map fun c => (c.code, c) := rfl
  refine ⟨fun e he => ?_, fun code hn => ofCode_none fun c => ?_⟩
  · obtain ⟨c, -, rfl⟩ := List.mem_map.1 (table ▸ he)
    exact ofCode_code c
  · exact hn (c.code, c) (table ▸ List.mem_map.2 ⟨c, mem_commandAll c, rfl⟩)

/-! ### The admission test (R163) -/

theorem levelZero_iff (c : Command) : c.levelZero = true ↔
    c ∈ [.setWindow, .clearWindow, .setRoute, .setSweep, .setStrobeLimit, .pause, .resume, .setPortLevel,
      .clearStatus] := by
  cases c <;> decide

section Test

variable {c : Command} {p : PortIx} {level : Level} {args : PortWords}

theorem admissionTest_level (hz : c.levelZero = true) (hl : level ≠ 0) :
    admissionTest c p level args = some .level := by
  have notWithdraw : c ≠ .withdraw := by rintro rfl; exact absurd hz (by decide)
  rw [admissionTest_levelZero notWithdraw hz, if_neg hl]

theorem admissionTest_withdraw_range (above : 3 < (args.get 0).toNat) :
    admissionTest .withdraw p level args = some .range := by
  unfold admissionTest
  rw [if_pos rfl, index?_none above]

theorem admissionTest_withdraw_named (named : PortIx) (hn : (args.get 0).toNat = named.val) :
    admissionTest .withdraw p level args = if named = p ∨ level = 0 then none else some .level := by
  unfold admissionTest
  rw [if_pos rfl, index?_some named hn]

theorem admissionTest_withdraw_level (below : (args.get 0).toNat ≤ 3) (other : (args.get 0).toNat ≠ p.val)
    (hl : level ≠ 0) : admissionTest .withdraw p level args = some .level := by
  let named : PortIx := ⟨(args.get 0).toNat, by omega⟩
  rw [admissionTest_withdraw_named named rfl, if_neg]
  rintro (own | zero)
  · exact other (congrArg Fin.val own)
  · exact hl zero

/-- What the test lets pass: a command of level 0 at level 0, a WITHDRAW of its issuer or at level 0, and every other
command. -/
theorem admissionTest_passes (hz : c.levelZero = true → level = 0)
    (hw : c = .withdraw → (args.get 0).toNat ≤ 3 ∧ ((args.get 0).toNat = p.val ∨ level = 0)) :
    admissionTest c p level args = none := by
  by_cases withdraw : c = .withdraw
  · obtain ⟨below, allowed⟩ := hw withdraw
    let named : PortIx := ⟨(args.get 0).toNat, by omega⟩
    rw [withdraw, admissionTest_withdraw_named named rfl, if_pos]
    exact allowed.imp_left fun own => Fin.ext own
  · unfold admissionTest
    rw [if_neg withdraw, if_neg fun ⟨zero, above⟩ => above (hz zero)]

end Test

/-! ### The admission event (R158) -/

section Admission

variable {s : State} {p : PortIx} {h : HeldCommand} {c : Command} {code : Code}

theorem awaitingAdmission?_pending (ho : (s.ports.get p).state = .opened) (hh : (s.ports.get p).held = some h)
    (ha : h.admitted = false) : s.awaitingAdmission? p = some h := by
  simp [State.awaitingAdmission?, ho, hh, ha]

theorem exec_admission (hr : s.resetHeld = false) (hw : s.awaitingAdmission? p = some h) :
    exec (.admission p) s = .next (s.admitCommand p h) := by
  show execAdmission p s = _
  unfold execAdmission
  rw [whileRunning_released hr, hw]

/-- The row CLEAR_STATUS is the admission of a CLEAR_STATUS (log 15). -/
theorem exec_clearStatus (hr : s.resetHeld = false) (hw : s.awaitingAdmission? p = some h)
    (hc : Command.ofCode h.code = some .clearStatus) : exec (.clearStatus p) s = .next (s.admitCommand p h) := by
  show execClearStatus p s = _
  unfold execClearStatus
  rw [whileRunning_released hr, hw]
  simp only [hc, if_true]

theorem admitCommand_refused (hc : (s.ports.get p).admits p h = .error code) :
    s.admitCommand p h = s.putPort p ((s.ports.get p).post code noWords) := by
  unfold State.admitCommand
  simp only [hc]

theorem admitCommand_unknown (hc : Command.ofCode h.code = none) :
    s.admitCommand p h = s.putPort p ((s.ports.get p).post .unknown noWords) :=
  admitCommand_refused (by simp only [PortRec.admits, hc])

theorem admitCommand_failsTest (hc : Command.ofCode h.code = some c)
    (ht : admissionTest c p (s.ports.get p).level h.args = some code) :
    s.admitCommand p h = s.putPort p ((s.ports.get p).post code noWords) :=
  admitCommand_refused (by simp only [PortRec.admits, hc, ht])

theorem admitCommand_handed (hc : Command.ofCode h.code = some c)
    (ht : admissionTest c p (s.ports.get p).level h.args = none) : s.admitCommand p h = s.handCommand p h c := by
  unfold State.admitCommand
  simp only [PortRec.admits, hc, ht]

theorem handCommand_clearStatus : s.handCommand p h .clearStatus = { s with
    ports := s.ports.put p
      { s.ports.get p with held := some { h with admitted := true }, lastAdmitted := h.code }
    faultDropped := false
    lateClears := s.lateClears ++ [{ port := p, id := h.id, droppedNoted := s.faultDropped }] } := rfl

theorem handCommand_owner (hc : c ≠ .clearStatus) : s.handCommand p h c = { s with
    ports := s.ports.put p
      { s.ports.get p with held := some { h with admitted := true }, lastAdmitted := h.code }
    handed := s.handed ++
      [{ command := c, port := p, id := h.id, level := (s.ports.get p).level, args := h.args }] } :=
  if_neg hc

end Admission

theorem admissionTakesCommand : Claims.AdmissionTakesCommand := by
  intro s p h hr r refusedWith admitted ho hh ha
  have awaits : s.awaitingAdmission? p = some h := awaitingAdmission?_pending ho hh ha
  rw [exec_admission hr awaits]
  refine ⟨fun hc => by rw [admitCommand_unknown hc]; rfl, fun c hc => ?_⟩
  have refused : ∀ {code}, admissionTest c p r.level h.args = some code →
      (.next (s.admitCommand p h) : Outcome State Fault Refusal) = .next (refusedWith code) :=
    fun ht => by rw [admitCommand_failsTest hc ht]; rfl
  refine ⟨fun zero hl => refused (admissionTest_level ((levelZero_iff c).2 zero) hl), ?_, ?_, ?_, ?_⟩
  · rintro rfl above
    exact refused (admissionTest_withdraw_range above)
  · rintro rfl below other hl
    exact refused (admissionTest_withdraw_level below other hl)
  · rintro rfl hl
    have passes : admissionTest .clearStatus p r.level h.args = none := admissionTest_passes (fun _ => hl) nofun
    exact ⟨by rw [admitCommand_handed hc passes, handCommand_clearStatus], exec_clearStatus hr awaits hc⟩
  · intro notClear zero withdraw
    have levelZero : c.levelZero = true → r.level = 0 := fun hz =>
      zero (by simpa [notClear] using (levelZero_iff c).1 hz)
    rw [admitCommand_handed hc (admissionTest_passes levelZero withdraw), handCommand_owner notClear]

/-- Settles O14: the codes of the permission table, and what becomes of a held command by its code, its level and, for
a WITHDRAW, the port it names. -/
theorem admissionDecides : Obligations.AdmissionDecides := ⟨commandCodes, admissionTakesCommand⟩

end Sys2Proof.Machine
end

section
/-! The part status: READ_STATUS, and the half of CLEAR_STATUS at the Lease Sweep (R165 to R167) (O17). -/

namespace Sys2Proof.Machine

/-! ### The words of the part status -/

/-- A field inside one byte of a word leaves every other byte alone. -/
theorem apart_otherByte {v k p q lo len : Nat} (hv : v * 2 ^ k < 2 ^ 8) (hpq : p ≠ q) (hlo : 8 * q ≤ lo)
    (hlen : lo + len ≤ 8 * q + 8) : Apart (v, 8 * p + k) lo len := by
  rcases Nat.lt_or_gt_of_ne hpq with below | above
  · refine .inl ?_
    calc v * 2 ^ (8 * p + k) = v * 2 ^ k * 2 ^ (8 * p) := by rw [Nat.pow_add, Nat.mul_comm (2 ^ (8 * p)), Nat.mul_assoc]
      _ < 2 ^ 8 * 2 ^ (8 * p) := Nat.mul_lt_mul_of_pos_right hv (Nat.two_pow_pos _)
      _ = 2 ^ (8 + 8 * p) := (Nat.pow_add ..).symm
      _ ≤ 2 ^ lo := Nat.pow_le_pow_right (by decide) (by omega)
  · exact .inr (show lo + len ≤ 8 * p + k by omega)

/-- Of groups of fields, one for each entry of a list, the group of one entry alone holds the bits. -/
theorem PacksAt.flatMap {α : Type} {lo len v : Nat} {f : α → List (Nat × Nat)} {l : List α} {a : α}
    (distinct : l.Nodup) (ha : a ∈ l) (own : PacksAt lo len v (f a))
    (others : ∀ b, b ≠ a → PacksAt lo len 0 (f b)) : PacksAt lo len v (l.flatMap f) := by
  have without : ∀ m : List α, a ∉ m → PacksAt lo len 0 (m.flatMap f) := by
    intro m hm
    induction m with
    | nil => rfl
    | cons b m ih =>
      have hb : b ≠ a := fun e => hm (e ▸ List.mem_cons_self)
      exact (others b hb).append_zero (ih fun k => hm (List.mem_cons_of_mem b k))
  obtain ⟨before, after, rfl⟩ := List.append_of_mem ha
  obtain ⟨-, hafter, hbefore⟩ := List.nodup_append.1 distinct
  rw [List.flatMap_append, List.flatMap_cons]
  exact (without before fun k => hbefore a k a List.mem_cons_self rfl).zero_append
    (own.append_zero (without after (List.nodup_cons.1 hafter).1))

/-- What the part status packs for one port: level and state (R166). -/
def portFields (r : PortRec) (q : Nat) : List (Nat × Nat) :=
  [(r.level.val, 8 * q), (flag (r.state == .closing), 8 * q + 4)]

theorem portFields_otherByte (r : PortRec) {p q lo len : Nat} (hpq : p ≠ q) (hlo : 8 * q ≤ lo)
    (hlen : lo + len ≤ 8 * q + 8) : PacksAt lo len 0 (portFields r p) := by
  have level := r.level.isLt
  have state := flag_le (r.state == .closing)
  exact .inr ⟨apart_otherByte (k := 0) (by omega) hpq hlo hlen, .inr ⟨apart_otherByte (by omega) hpq hlo hlen, rfl⟩⟩

theorem portFields_level (r : PortRec) (q : Nat) : PacksAt (8 * q) 4 r.level.val (portFields r q) :=
  .inl ⟨rfl, rfl, .inr ⟨.inr (Nat.le_refl _), rfl⟩⟩

theorem portFields_state (r : PortRec) (q : Nat) :
    PacksAt (8 * q + 4) 1 (flag (r.state == .closing)) (portFields r q) := by
  have level := r.level.isLt
  have below : Apart (r.level.val, 8 * q) (8 * q + 4) 1 := by
    refine .inl ?_
    rw [Nat.pow_add, Nat.mul_comm]
    exact Nat.mul_lt_mul_of_pos_left (by omega) (Nat.two_pow_pos _)
  exact .inr ⟨below, .inl ⟨rfl, rfl, rfl⟩⟩

theorem statusImage_ports (s : State) (q : PortIx) :
    field (s.statusImage.get 2) (8 * q.val) 4 = (s.ports.get q).level.val ∧
      bit (s.statusImage.get 2) (8 * q.val + 4) = ((s.ports.get q).state == .closing) := by
  have word : s.statusImage.get 2 = pack ((List.finRange 4).flatMap fun p => portFields (s.ports.get p) p.val) :=
    image_get _ 2
  have level := (s.ports.get q).level.isLt
  rw [word]
  constructor
  · refine field_pack_at (PacksAt.flatMap (List.nodup_finRange 4) (List.mem_finRange q) (portFields_level _ _) ?_)
      (by omega) (by omega)
    exact fun p hp => portFields_otherByte _ (fun e => hp (Fin.ext e)) (by omega) (by omega)
  · refine bit_pack_at (PacksAt.flatMap (List.nodup_finRange 4) (List.mem_finRange q) (portFields_state _ _) ?_)
      (by omega)
    exact fun p hp => portFields_otherByte _ (fun e => hp (Fin.ext e)) (by omega) (by omega)

theorem statusImage_part (s : State) :
    field (s.statusImage.get 0) 0 4 = s.engine.state.number ∧ bit (s.statusImage.get 0) 4 = s.engine.pauseReq ∧
      bit (s.statusImage.get 0) 8 = s.sweep.late ∧ bit (s.statusImage.get 0) 9 = s.faultDropped := by
  have word : s.statusImage.get 0 = pack [(s.engine.state.number, 0), (flag s.engine.pauseReq, 4),
      (flag s.sweep.late, 8), (flag s.faultDropped, 9)] := image_get _ 0
  have := s.engine.state.number_le
  have := flag_le s.engine.pauseReq
  have := flag_le s.sweep.late
  rw [word]
  refine ⟨field_pack_at ?_ ?_ ?_, bit_pack_at ?_ ?_, bit_pack_at ?_ ?_, bit_pack_at ?_ ?_⟩ <;>
    simp [PacksAt, Apart] <;> omega

/-! ### READ_STATUS -/

theorem exec_readStatus {s : State} {p : PortIx} {id : Word} {h : Handed} (wt : s.Waits .readStatus p id h) :
    exec (.readStatus p id) s = .next (s.answered h .ok s.statusImage) :=
  ownerTakes_waits wt fun h s => s.answer h .ok s.statusImage

theorem readStatusReports : Claims.ReadStatusReports := by
  intro s p id h wt
  obtain ⟨engine, pause, late, dropped⟩ := statusImage_part s
  exact ⟨s.statusImage, exec_readStatus wt, engine, pause, late, dropped, image_get _ 1, statusImage_ports s,
    fun i hi => (image_get _ i).trans (List.getD_eq_default _ _ hi)⟩

/-! ### The clear of SWEEP_LATE -/

/-- What the Lease Sweep reports of SWEEP_LATE and FAULT_DROPPED as they were noted (R167). -/
def notedWord (late dropped : Bool) : Word := pack [(flag late, 8), (flag dropped, 9)]

theorem exec_sweepLateClear {s : State} {p : PortIx} {id : Word} {c : LateClear} (hr : s.resetHeld = false)
    (hc : s.lateClears.find? (fun c => c.port == p && c.id == id) = some c) :
    exec (.sweepLateClear p id) s = .next { s with
      lateClears := s.lateClears.erase c
      sweep := { s.sweep with late := false }
      verdicts := s.verdicts ++
        [{ port := p, id, code := .ok, words := image [notedWord s.sweep.late c.droppedNoted] }] } := by
  show execSweepLateClear p id s = _
  unfold execSweepLateClear
  rw [whileRunning_released hr]
  simp only [hc, notedWord]

theorem notedWord_bits (late dropped : Bool) :
    bit (notedWord late dropped) 8 = late ∧ bit (notedWord late dropped) 9 = dropped := by
  have := flag_le late
  refine ⟨bit_pack_at ?_ ?_, bit_pack_at ?_ ?_⟩ <;> simp [PacksAt, Apart]
  omega

theorem sweepLateCleared : Claims.SweepLateCleared := by
  intro s p id c hr hc
  obtain ⟨late, dropped⟩ := notedWord_bits s.sweep.late c.droppedNoted
  refine ⟨_, exec_sweepLateClear hr hc, ?_, ?_, fun i hi => ?_⟩
  · rw [image_get]; exact late
  · rw [image_get]; exact dropped
  · exact (image_get _ i).trans (List.getD_eq_default _ _ (Nat.one_le_iff_ne_zero.2 (Fin.val_ne_of_ne hi)))

/-- Settles O17: the words of the part status, field by field, and the clear of SWEEP_LATE with both noted values. -/
theorem partStatusReportedAndCleared : Obligations.PartStatusReportedAndCleared :=
  ⟨readStatusReports, sweepLateCleared⟩

end Sys2Proof.Machine
end

section
/-! TAKE_FAULT, TAKE_RETIRED and SET_NOTICE at the Fault and Notice Unit (R174, R177, R178, R181) (O58). -/

namespace Sys2Proof.Machine

variable {s : State} {p : PortIx} {id : Word} {h : Handed}

/-! ### A port's notice record replaced -/

/-- A port's notice record is replaced, and its output follows (R178). -/
theorem putNotice_evalInt (s : State) (p : PortIx) (f : NoticeRec) : (s.putNotice p f).evalInt p = { s with
    fnu := s.fnu.put p f
    intOut := s.intOut.put p ((s.ports.get p).state == .opened && f.notice && (f.record.isSome || f.anyRetired)) } := by
  simp [State.evalInt, State.putNotice, State.intCondition]

/-! ### TAKE_FAULT -/

/-- A word that packs one number from bit 0 is that number. -/
theorem pack_single (n : Nat) : pack [(n, 0)] = BitVec.ofNat 32 n := by simp [pack]

theorem optionVal_le {k m : Nat} (o : Option (Fin k)) (hk : k ≤ m + 1) : (o.map Fin.val).getD 0 ≤ m := by
  cases o with
  | none => exact Nat.zero_le m
  | some i => exact Nat.le_of_lt_succ (Nat.lt_of_lt_of_le i.isLt hk)

/-- The fields of a word laid out as Q0 of TAKE_FAULT (section 9.8). -/
theorem faultWord_fields (code : Code) (overflow descriptor gate line window side offset below : Bool) :
    let w := pack [(code.value, 0), (flag overflow, 8), (flag descriptor, 9), (flag gate, 10), (flag line, 11),
      (flag window, 12), (flag side, 13), (flag offset, 14), (flag below, 15)]
    field w 0 8 = code.value ∧ bit w 8 = overflow ∧ bit w 9 = descriptor ∧ bit w 10 = gate ∧ bit w 11 = line ∧
      bit w 12 = window ∧ bit w 13 = side ∧ bit w 14 = offset ∧ bit w 15 = below ∧ field w 16 16 = 0 := by
  have := code.value_lt
  have := flag_le overflow
  have := flag_le descriptor
  have := flag_le gate
  have := flag_le line
  have := flag_le window
  have := flag_le side
  have := flag_le offset
  have := flag_le below
  refine ⟨field_pack_at ?_ ?_ ?_, bit_pack_at ?_ ?_, bit_pack_at ?_ ?_, bit_pack_at ?_ ?_, bit_pack_at ?_ ?_,
    bit_pack_at ?_ ?_, bit_pack_at ?_ ?_, bit_pack_at ?_ ?_, bit_pack_at ?_ ?_, field_pack_at ?_ ?_ ?_⟩ <;>
    simp [PacksAt, Apart] <;> omega

/-- The fields of a word laid out as Q1 of TAKE_FAULT, one byte each (section 9.8). -/
theorem namedWord_fields {d g l w : Nat} (hd : d ≤ 127) (hg : g ≤ 63) (hl : l ≤ 31) (hw : w ≤ 15) :
    let v := pack [(d, 0), (g, 8), (l, 16), (w, 24)]
    field v 0 8 = d ∧ field v 8 8 = g ∧ field v 16 8 = l ∧ field v 24 8 = w := by
  refine ⟨field_pack_at ?_ ?_ ?_, field_pack_at ?_ ?_ ?_, field_pack_at ?_ ?_ ?_, field_pack_at ?_ ?_ ?_⟩ <;>
    simp [PacksAt, Apart] <;> omega

section Image

variable (r : Report) (overflow : Bool)

/-- Q0: the code, the overflow mark and what the report names (R174). -/
theorem faultImage_word0 :
    let w := (faultImage r overflow).get 0
    field w 0 8 = r.code.value ∧ bit w 8 = overflow ∧ bit w 9 = r.descriptor.isSome ∧ bit w 10 = r.gate.isSome ∧
      bit w 11 = r.line.isSome ∧ bit w 12 = r.window.isSome ∧ bit w 13 = r.detail.isSome ∧
      bit w 14 = r.detail.isSome ∧ bit w 15 = ((r.detail.map fun d : SideName × Offset => d.2).getD (.at 0)).isBelow ∧
      field w 16 16 = 0 := by
  have word : (faultImage r overflow).get 0 = _ := image_get _ 0
  simp only [word]
  exact faultWord_fields r.code overflow r.descriptor.isSome r.gate.isSome r.line.isSome r.window.isSome
    r.detail.isSome r.detail.isSome ((r.detail.map fun d : SideName × Offset => d.2).getD (.at 0)).isBelow

/-- Q1: the descriptor, gate, line and window named, an absent one as 0 (R170). -/
theorem faultImage_word1 :
    let w := (faultImage r overflow).get 1
    field w 0 8 = (r.descriptor.map Fin.val).getD 0 ∧ field w 8 8 = (r.gate.map Fin.val).getD 0 ∧
      field w 16 8 = (r.line.map Fin.val).getD 0 ∧ field w 24 8 = (r.window.map Fin.val).getD 0 := by
  have word : (faultImage r overflow).get 1 = _ := image_get _ 1
  simp only [word]
  exact namedWord_fields (optionVal_le _ (by decide)) (optionVal_le _ (by decide)) (optionVal_le _ (by decide))
    (optionVal_le _ (by decide))

/-- Q2 and Q3: the side and the offset, 0 where the report has none. -/
theorem faultImage_detail :
    (faultImage r overflow).get 2 = BitVec.ofNat 32 ((r.detail.map fun d : SideName × Offset => d.1.number).getD 0) ∧
      (faultImage r overflow).get 3 = ((r.detail.map fun d : SideName × Offset => d.2).getD (.at 0)).word :=
  ⟨(image_get _ 2).trans (pack_single _), image_get _ 3⟩

end Image

theorem exec_takeFault (wt : s.Waits .takeFault p id h) :
    exec (.takeFault p id) s = .next ((s.took h).takeFault h) :=
  ownerTakes_waits wt fun h s => s.takeFault h

theorem takeFault_none (hn : (s.fnu.get h.port).record = none) :
    (s.took h).takeFault h = s.answered h .none noWords := by
  have hn' : ((s.took h).fnu.get h.port).record = none := hn
  simp only [State.takeFault, hn', took_answer]

theorem takeFault_held {r : Report} (hf : (s.fnu.get h.port).record = some r) : (s.took h).takeFault h =
    { s.answered h .ok (faultImage r (s.fnu.get h.port).overflow) with
      fnu := s.fnu.put h.port { s.fnu.get h.port with record := none, overflow := false }
      intOut := s.intOut.put h.port ((s.ports.get h.port).state == .opened && (s.fnu.get h.port).notice &&
        (s.fnu.get h.port).anyRetired) } := by
  have hf' : ((s.took h).fnu.get h.port).record = some r := hf
  simp only [State.takeFault, hf', putNotice_evalInt]
  rfl

theorem takeFaultEmptiesRecord : Claims.TakeFaultEmptiesRecord := by
  intro s p id h wt f
  rw [exec_takeFault wt]
  refine ⟨fun hn => by rw [takeFault_none hn], fun r hf => ⟨faultImage r f.overflow, by rw [takeFault_held hf], ?_⟩⟩
  obtain ⟨code, overflow, descriptor, gate, line, window, side, offset, below, unused⟩ := faultImage_word0 r f.overflow
  obtain ⟨descriptorIx, gateIx, lineIx, windowIx⟩ := faultImage_word1 r f.overflow
  obtain ⟨sideWord, offsetWord⟩ := faultImage_detail r f.overflow
  refine ⟨code, overflow, descriptor, gate, line, window, side, fun d hd => ?_, fun g hg => ?_, fun l hl => ?_,
    fun w hw => ?_, offset, unused, fun hd => ?_, fun hg => ?_, fun hl => ?_, fun hw => ?_, fun hn => ?_,
    fun sd o hsd => ?_, fun i hi => (image_get _ i).trans (List.getD_eq_default _ _ hi)⟩
  · rw [descriptorIx, Option.mem_def.1 hd]; rfl
  · rw [gateIx, Option.mem_def.1 hg]; rfl
  · rw [lineIx, Option.mem_def.1 hl]; rfl
  · rw [windowIx, Option.mem_def.1 hw]; rfl
  · rw [descriptorIx, hd]; rfl
  · rw [gateIx, hg]; rfl
  · rw [lineIx, hl]; rfl
  · rw [windowIx, hw]; rfl
  · rw [below, sideWord, offsetWord, hn]
    exact ⟨rfl, rfl, rfl⟩
  · rw [below, sideWord, offsetWord, hsd]
    exact ⟨rfl, rfl, rfl⟩

/-! ### TAKE_RETIRED -/

/-- No index is the lowest of an empty set. -/
theorem lowest?_none {f : NoticeRec} (hn : ∀ d, f.retired.get d = false) : f.lowest? = none :=
  List.find?_eq_none.2 fun d _ => by rw [hn d]; exact Bool.false_ne_true

/-- The first index in order that is in the set is the lowest. -/
theorem lowest?_least {f : NoticeRec} {d : DescIx} (hd : f.retired.get d = true)
    (below : ∀ e, e < d → f.retired.get e = false) : f.lowest? = some d := by
  cases found : f.lowest? with
  | none => exact absurd hd (List.find?_eq_none.1 found d (List.mem_finRange d))
  | some e =>
    obtain ⟨he, before, after, split, skipped⟩ := List.find?_eq_some_iff_append.1 found
    have sorted : (before ++ e :: after).Pairwise (· < ·) := split ▸ List.pairwise_lt_finRange 128
    rcases lt_trichotomy e d with lt | rfl | gt
    · rw [below e lt] at he; cases he
    · rfl
    · have member : d ∈ before ++ e :: after := split ▸ List.mem_finRange d
      obtain ⟨-, tail, -⟩ := List.pairwise_append.1 sorted
      rcases List.mem_append.1 member with early | late
      · have := skipped d early
        rw [hd] at this
        cases this
      · rcases List.mem_cons.1 late with rfl | later
        · exact absurd gt (lt_irrefl _)
        · exact absurd (List.rel_of_pairwise_cons tail later) (lt_asymm gt)

/-- With one index taken out of the set the others are left (R177). -/
theorem count_without (f : NoticeRec) (d : DescIx) :
    NoticeRec.count { f with retired := f.retired.put d false } =
      (List.finRange 128).countP fun e => e != d && f.retired.get e := by
  refine List.countP_congr fun e _ => ?_
  rw [Tab.get_put]
  by_cases hd : d = e
  · simp [hd]
  · simp [hd, Ne.symm hd]

theorem exec_takeRetired (wt : s.Waits .takeRetired p id h) :
    exec (.takeRetired p id) s = .next ((s.took h).takeRetired h) :=
  ownerTakes_waits wt fun h s => s.takeRetired h

theorem takeRetired_none (hn : (s.fnu.get h.port).lowest? = none) :
    (s.took h).takeRetired h = s.answered h .none noWords := by
  have hn' : ((s.took h).fnu.get h.port).lowest? = none := hn
  simp only [State.takeRetired, hn', took_answer]

theorem takeRetired_taken {d : DescIx} (hd : (s.fnu.get h.port).lowest? = some d) : (s.took h).takeRetired h =
    State.setRetired (s.answered h .ok (image [BitVec.ofNat 32 d.val, BitVec.ofNat 32
      ((List.finRange 128).countP fun e => e != d && (s.fnu.get h.port).retired.get e)])) h.port d false := by
  have hd' : ((s.took h).fnu.get h.port).lowest? = some d := hd
  have left : ((s.took h).setRetired h.port d false).fnu.get h.port =
      { s.fnu.get h.port with retired := (s.fnu.get h.port).retired.put d false } := Tab.get_put_same ..
  simp only [State.takeRetired, hd', left, count_without]
  rfl

theorem takeRetiredTakesLowest : Claims.TakeRetiredTakesLowest := by
  intro s p id h wt f
  rw [exec_takeRetired wt]
  exact ⟨fun hn => by rw [takeRetired_none (lowest?_none hn)],
    fun d hd below => by rw [takeRetired_taken (lowest?_least hd below)]⟩

/-! ### SET_NOTICE -/

theorem exec_setNotice (wt : s.Waits .setNotice p id h) :
    exec (.setNotice p id) s = .next ((s.took h).setNotice h) :=
  ownerTakes_waits wt fun h s => s.setNotice h

theorem setNotice_closing (dropped : s.stillPending h = false) :
    (s.took h).setNotice h = s.answered h .closing noWords :=
  if_pos (show (!s.stillPending h) = true by rw [dropped]; rfl)

theorem formerNotice_word (b : Bool) : pack [(flag b, 0)] = if b then 1 else 0 := by cases b <;> rfl

theorem setNotice_written (pending : s.stillPending h = true) : (s.took h).setNotice h =
    { s.answered h .ok (image [if (s.fnu.get h.port).notice then 1 else 0]) with
      fnu := s.fnu.put h.port { s.fnu.get h.port with notice := bit (h.args.get 0) 0 }
      intOut := s.intOut.put h.port ((s.ports.get h.port).state == .opened && bit (h.args.get 0) 0 &&
        ((s.fnu.get h.port).record.isSome || (s.fnu.get h.port).anyRetired)) } := by
  have pending' : (s.took h).stillPending h = true := pending
  simp only [State.setNotice, pending', putNotice_evalInt, formerNotice_word]
  rfl

theorem setNoticeWritesEnable : Claims.SetNoticeWritesEnable := by
  intro s p id h wt f
  rw [exec_setNotice wt]
  refine ⟨fun dropped => ?_, fun pending => by rw [setNotice_written ((stillPending_iff s h).2 pending)]⟩
  have gone : s.stillPending h = false := by
    rw [Bool.eq_false_iff, Ne, stillPending_iff]
    rintro ⟨c, hc, same⟩
    exact dropped c hc same
  rw [setNotice_closing gone]

/-- Settles O58: the record reported and emptied, the lowest retired index reported and removed, and the enable
written, each with the output that follows. -/
theorem takesAndNotice : Obligations.TakesAndNotice :=
  ⟨takeFaultEmptiesRecord, takeRetiredTakesLowest, setNoticeWritesEnable⟩

end Sys2Proof.Machine
end

section
/-! A step at the front of the queue (O1), and the part right after reset (O6). -/

namespace Sys2Proof.Machine

/-- Settles O1: with a command at its front the queue is not empty, and the step is that command. -/
theorem stepRunsFrontCommand : Obligations.StepRunsFrontCommand := fun _ _ _ => rfl

/-- With no notice enabled no output is asserted (R178). -/
theorem reset_interruptsOk : State.reset.InterruptsOk := by
  intro p
  simp [State.intCondition, State.reset, NoticeRec.reset]

/-- Settles O6, claim by claim: the invariants that the steps are shown to keep, at the reset state. -/
theorem resetIsSound : Obligations.ResetIsSound :=
  ⟨tablesOk_iff_tables.2 Tables.reset, reset_interruptsOk, recordsOk_iff_recs.2 Recs.reset, reset_portFits,
    reset_closingOk⟩

end Sys2Proof.Machine
end

section
/-! A command write (R157), and the posting of a verdict with the words it carries (R159) (O13, O15). -/

namespace Sys2Proof.Machine

open Host (Outcome)

variable {s : State} {p : PortIx}

/-! ### A command write -/

section CommandWrite

variable {r : PortRec} {code : Word}

theorem commandWritten_busy (hh : r.held.isSome = true) : r.commandWritten code = { r with writeRefused := true } := by
  obtain ⟨h, hh⟩ := Option.isSome_iff_exists.1 hh
  simp only [PortRec.commandWritten, hh]

theorem commandWritten_closing (hn : r.held = none) (hc : r.state = .closing) :
    r.commandWritten code = { r with lastResult := .closing, results := noWords, writeRefused := false } := by
  simp only [PortRec.commandWritten, hn, hc, if_true]

theorem commandWritten_pending (hn : r.held = none) (ho : r.state = .opened) :
    r.commandWritten code = { r with
      count := r.count + 1, writeRefused := false
      held := some { code, id := r.count + 1, args := r.args, admitted := false } } := by
  simp [PortRec.commandWritten, hn, ho]

end CommandWrite

theorem exec_commandWrite (hr : s.resetHeld = false) (code : Word) :
    exec (.commandWrite p code) s =
      .next { s with ports := s.ports.put p ((s.ports.get p).commandWritten code) } :=
  whileRunning_released hr fun s => s.putPort p ((s.ports.get p).commandWritten code)

/-- Settles O13: a command write by the command already pending, and with none by the state of the port. -/
theorem commandWriteTaken : Obligations.CommandWriteTaken := by
  intro s p code hr r
  rw [exec_commandWrite hr code]
  exact ⟨fun hh => by rw [commandWritten_busy hh], fun hn hc => by rw [commandWritten_closing hn hc],
    fun hn ho => by rw [commandWritten_pending hn ho]⟩

/-! ### The posting of a verdict -/

/-- The command of the given identity is still the one held (R159). -/
theorem PortRec.holds_iff (r : PortRec) {id : Word} :
    (r.held.any fun h => h.id == id) = true ↔ ∃ h ∈ r.held, h.id = id := by
  simp [Option.any_eq_true, Option.mem_def]

/-- The verdict that arrives is taken, and posted if its command is still pending (R159). -/
theorem exec_verdictPost {id : Word} {v : Verdict} (hr : s.resetHeld = false)
    (hv : s.verdicts.find? (fun v => v.port == p && v.id == id) = some v) :
    exec (.verdictPost p id) s =
      .next (if (s.ports.get p).held.any fun h => h.id == id then
          { s with verdicts := s.verdicts.erase v, ports := s.ports.put p ((s.ports.get p).post v.code v.words) }
        else { s with verdicts := s.verdicts.erase v }) := by
  show execVerdictPost p id s = _
  unfold execVerdictPost
  rw [whileRunning_released hr]
  simp only [hv]
  rfl

theorem verdictPostedOrDiscarded : Claims.VerdictPostedOrDiscarded := by
  intro s p id v hr hv r
  rw [exec_verdictPost hr hv]
  refine ⟨fun pending => ?_, fun other => ?_⟩
  · rw [if_pos (r.holds_iff.2 pending)]
    rfl
  · rw [if_neg]
    intro pending
    obtain ⟨h, hh, same⟩ := r.holds_iff.1 pending
    exact other h hh same

theorem resultWordsListed : Claims.ResultWordsListed := ⟨image_get, fun i => Tab.get_fill 0 i⟩

/-- Settles O15: the verdict posted or discarded, and the words of a result image. -/
theorem verdictPosted : Obligations.VerdictPosted := ⟨verdictPostedOrDiscarded, resultWordsListed⟩

end Sys2Proof.Machine
end

section
/-! SET_PORT_LEVEL at the Port Interface (R162) (O16). -/

namespace Sys2Proof.Machine

variable {s : State} {p : PortIx} {id : Word} {h : Handed}

theorem exec_setPortLevel (wt : s.Waits .setPortLevel p id h) :
    exec (.setPortLevel p id) s = .next ((s.took h).setPortLevel h) :=
  ownerTakes_waits wt fun h s => s.setPortLevel h

/-- P0 has a level of its own, and no port above 3 has one. -/
theorem setPortLevel_range (out : (h.args.get 0).toNat = 0 ∨ 3 < (h.args.get 0).toNat) :
    (s.took h).setPortLevel h = s.answered h .range noWords := by
  unfold State.setPortLevel
  rcases out with zero | above
  · rw [index?_some (0 : PortIx) zero]
    exact if_pos rfl
  · rw [index?_none above]
    rfl

section Named

variable {named : PortIx} (hz : named ≠ 0) (hq : (h.args.get 0).toNat = named.val)

include hz hq

theorem setPortLevel_malformed (above : 3 < (h.args.get 1).toNat) :
    (s.took h).setPortLevel h = s.answered h .malformed noWords := by
  unfold State.setPortLevel
  rw [index?_some named hq, index?_none above]
  exact if_neg hz

/-- With port and level in range the state of the port decides. -/
theorem setPortLevel_byState {level : Level} (hl : (h.args.get 1).toNat = level.val) :
    (s.took h).setPortLevel h =
      if (s.ports.get named).state = .closing then s.answered h .state noWords
      else { s.answered h .ok (image [BitVec.ofNat 32 (s.ports.get named).level.val, BitVec.ofNat 32 level.val]) with
        ports := s.ports.put named { s.ports.get named with level } } := by
  unfold State.setPortLevel
  rw [index?_some named hq, index?_some level hl]
  exact if_neg hz

end Named

/-- Settles O16: the port that A0 names, the level that A1 gives, and the state of the port, in that order. -/
theorem setPortLevelWritesLevel : Obligations.SetPortLevelWritesLevel := by
  intro s p id h wt q l
  rw [exec_setPortLevel wt]
  refine ⟨fun out => by rw [setPortLevel_range out], fun low high above => ?_, fun named level hz hq hl => ?_⟩
  · let named : PortIx := ⟨q, by omega⟩
    have notZero : named ≠ 0 := Fin.ne_of_val_ne (Nat.ne_of_gt low)
    rw [setPortLevel_malformed (named := named) notZero rfl above]
  · rw [setPortLevel_byState hz hq hl]
    refine ⟨fun hc => congrArg Host.Outcome.next (if_pos hc), fun ho => congrArg Host.Outcome.next (if_neg ?_)⟩
    rw [ho]
    exact nofun

end Sys2Proof.Machine
end

section
/-! What starts a withdraw, and the return of a CLOSING port to OPEN (R180, R181, R185) (O60). -/

namespace Sys2Proof.Machine

variable {s : State} {p : PortIx} {id : Word} {h : Handed}

/-! ### A withdraw and the verdicts that wait -/

/-- The verdicts that wait, replaced. -/
def State.withVerdicts (s : State) (l : List Verdict) : State := { s with verdicts := l }

theorem makeEmpty_withVerdicts (s : State) (l : List Verdict) (d : DescIx) (x : Desc) :
    (s.withVerdicts l).makeEmpty d x = (s.makeEmpty d x).withVerdicts l := by
  rw [makeEmpty_eq, makeEmpty_eq]
  rfl

/-- The withdraw of a descriptor neither reads nor changes the verdicts that wait. -/
theorem withdrawDesc_withVerdicts (s : State) (l : List Verdict) (p : PortIx) (d : DescIx) :
    (s.withVerdicts l).withdrawDesc p d = (s.withdrawDesc p d).withVerdicts l := by
  have descs : (s.withVerdicts l).descs = s.descs := rfl
  have engine : (s.withVerdicts l).engine = s.engine := rfl
  unfold State.withdrawDesc
  cases hx : s.descs.get d with
  | none => simp only [descs, hx]
  | some x =>
    simp only [descs, engine, hx, makeEmpty_withVerdicts]
    split_ifs <;> rfl

theorem withdrawDescs_withVerdicts (s : State) (l : List Verdict) (p : PortIx) (ds : List DescIx) :
    ds.foldl (State.withdrawDesc p) (s.withVerdicts l) = (ds.foldl (State.withdrawDesc p) s).withVerdicts l := by
  induction ds generalizing s with
  | nil => rfl
  | cons d ds ih => rw [List.foldl_cons, withdrawDesc_withVerdicts, ih, List.foldl_cons]

/-- Nor does the withdraw of a port. -/
theorem withdrawPort_withVerdicts (s : State) (l : List Verdict) (p : PortIx) :
    (s.withVerdicts l).withdrawPort p = (s.withdrawPort p).withVerdicts l := by
  have ports : (s.withVerdicts l).ports = s.ports := rfl
  cases hp : (s.ports.get p).state with
  | opened =>
    have withdrawn := withdrawDescs_withVerdicts s l p (List.finRange 128)
    generalize hu : (List.finRange 128).foldl (State.withdrawDesc p) s = u at withdrawn
    rw [withdrawPort_eq (s := s.withVerdicts l) hp withdrawn, withdrawPort_eq hp hu]
    rfl
  | closing =>
    unfold State.withdrawPort
    rw [ports, if_pos hp, if_pos hp]

theorem withdrawPort_verdicts (s : State) (p : PortIx) : (s.withdrawPort p).verdicts = s.verdicts := by
  have unchanged : s.withdrawPort p = (s.withdrawPort p).withVerdicts s.verdicts :=
    withdrawPort_withVerdicts s s.verdicts p
  rw [unchanged]
  rfl

/-- So the answer to a WITHDRAW may be given before the withdraw as well as after it. -/
theorem withdrawPort_answer (s : State) (h : Handed) (code : Code) (words : PortWords) (p : PortIx) :
    (s.withdrawPort p).answer h code words = (s.answer h code words).withdrawPort p := by
  have answered : ∀ t : State, t.answer h code words =
      t.withVerdicts (t.verdicts ++ [{ port := h.port, id := h.id, code, words }]) := fun _ => rfl
  rw [answered s, withdrawPort_withVerdicts, answered (s.withdrawPort p), withdrawPort_verdicts]

/-! ### What starts a withdraw -/

theorem exec_withdraw (wt : s.Waits .withdraw p id h) :
    exec (.withdraw p id) s = .next ((s.took h).withdrawCommand h) :=
  ownerTakes_waits wt fun h s => s.withdrawCommand h

theorem withdrawCommand_range (above : 3 < (h.args.get 0).toNat) :
    (s.took h).withdrawCommand h = s.answered h .range noWords := by
  unfold State.withdrawCommand
  rw [index?_none above]
  rfl

/-- A port that withdraws itself is answered by the withdraw alone (R180). -/
theorem withdrawCommand_own (own : (h.args.get 0).toNat = h.port.val) :
    (s.took h).withdrawCommand h = (s.took h).withdrawPort h.port := by
  unfold State.withdrawCommand
  rw [index?_some h.port own]
  exact if_pos rfl

theorem withdrawCommand_other {q : PortIx} (other : q ≠ h.port) (named : (h.args.get 0).toNat = q.val) :
    (s.took h).withdrawCommand h = (s.answered h .ok noWords).withdrawPort q := by
  unfold State.withdrawCommand
  rw [index?_some q named]
  simp only [if_neg other]
  rw [withdrawPort_answer, took_answer]

theorem exec_withdrawLineEvent (hr : s.resetHeld = false) :
    exec (.withdrawLineEvent p) s = .next (if s.withdrawSeen.get p then s
      else State.withdrawPort { s with withdrawSeen := s.withdrawSeen.put p true } p) :=
  whileRunning_released hr fun s => if s.withdrawSeen.get p then s
    else State.withdrawPort { s with withdrawSeen := s.withdrawSeen.put p true } p

theorem exec_withdrawLineRelease (hr : s.resetHeld = false) :
    exec (.withdrawLineRelease p) s = .next { s with withdrawSeen := s.withdrawSeen.put p false } :=
  whileRunning_released hr fun s => { s with withdrawSeen := s.withdrawSeen.put p false }

theorem withdrawStarts : Claims.WithdrawStarts := by
  refine ⟨fun s p id h wt => ?_, fun s p hr => ?_⟩
  · rw [exec_withdraw wt]
    exact ⟨fun above => by rw [withdrawCommand_range above], fun own => by rw [withdrawCommand_own own],
      fun q other named => by rw [withdrawCommand_other other named]⟩
  · rw [exec_withdrawLineEvent hr]
    refine ⟨fun seen => by rw [if_pos seen], fun released => ?_, exec_withdrawLineRelease hr⟩
    rw [if_neg (by rw [released]; exact Bool.false_ne_true)]

/-! ### The return to OPEN -/

theorem exec_portReturnOpen (hr : s.resetHeld = false) :
    exec (.portReturnOpen p) s = .next (if s.freed.get p then
        (State.putPort { s with freed := s.freed.put p false } p { s.ports.get p with state := .opened }).evalInt p
      else s) :=
  whileRunning_released hr fun s => if s.freed.get p then
      (State.putPort { s with freed := s.freed.put p false } p { s.ports.get p with state := .opened }).evalInt p
    else s

/-- At an OPEN port the output is as the enable, the record and the retired set say (R178). -/
theorem putPort_opened_evalInt (s : State) (p : PortIx) {r : PortRec} (ho : r.state = .opened) :
    (s.putPort p r).evalInt p = { s with
      ports := s.ports.put p r
      intOut := s.intOut.put p ((s.fnu.get p).notice &&
        ((s.fnu.get p).record.isSome || (s.fnu.get p).anyRetired)) } := by
  simp [State.evalInt, State.putPort, State.intCondition, ho]

theorem portReturnsToOpen : Claims.PortReturnsToOpen := by
  intro s p hr
  rw [exec_portReturnOpen hr]
  refine ⟨fun owned => ?_, fun freed => ?_⟩
  · rw [if_neg (by rw [owned]; exact Bool.false_ne_true)]
  · rw [if_pos freed, putPort_opened_evalInt _ p rfl]

/-- Settles O60: the WITHDRAW command by the port it names, the withdraw line by the level last seen, and the return to
OPEN by the notice. -/
theorem withdrawStartsAndEnds : Obligations.WithdrawStartsAndEnds := ⟨withdrawStarts, portReturnsToOpen⟩

end Sys2Proof.Machine
end

section
/-! The interrupt outputs (R178) under every command and step (O8): what stays inside the frame of Laws/Frame keeps them
right, most other changes are to records that they do not read, and a port whose state or notice record is replaced has
its output evaluated again. -/

namespace Sys2Proof.Machine

open Host (Outcome)

variable {s t : State} {p : PortIx}

/-! ### One port's output evaluated again -/

/-- Every output but that of port p is as R178 says. -/
def State.OthersOk (s : State) (p : PortIx) : Prop := ∀ q : PortIx, q ≠ p → s.intOut.get q = s.intCondition q

theorem State.InterruptsOk.others (h : s.InterruptsOk) (p : PortIx) : s.OthersOk p := fun q _ => h q

/-- The other outputs do not read the record of port p. -/
theorem State.OthersOk.putPort (h : s.OthersOk p) (r : PortRec) : (s.putPort p r).OthersOk p := by
  intro q hq
  simpa [State.intCondition, Tab.get_put_of_ne _ _ hq.symm] using h q hq

/-- Nor do they read its notice record. -/
theorem State.OthersOk.putNotice (h : s.OthersOk p) (r : NoticeRec) : (s.putNotice p r).OthersOk p := by
  intro q hq
  simpa [State.intCondition, Tab.get_put_of_ne _ _ hq.symm] using h q hq

/-- With its own output evaluated again, all are right (R178). -/
theorem State.OthersOk.evalInt (h : s.OthersOk p) : (s.evalInt p).InterruptsOk := by
  intro q
  by_cases hq : q = p
  · subst hq
    exact Tab.get_put_same ..
  · exact (Tab.get_put_of_ne _ _ (Ne.symm hq)).trans (h q hq)

/-! ### How a command reaches its operation -/

theorem State.InterruptsOk.whileRunning (h : s.InterruptsOk) {event : State → State} (he : (event s).InterruptsOk)
    (ht : whileRunning event s = .next t) : t.InterruptsOk := by
  unfold Sys2Proof.Machine.whileRunning at ht
  cases ht
  split
  · exact h
  · exact he

theorem State.InterruptsOk.ownerTakes (h : s.InterruptsOk) {c : Command} {p : PortIx} {id : Word}
    {act : Handed → State → State} (ha : ∀ hd (u : State), u.InterruptsOk → (act hd u).InterruptsOk)
    (ht : ownerTakes c p id act s = .next t) : t.InterruptsOk := by
  refine h.whileRunning ?_ ht
  split
  · exact h
  · exact ha _ _ h

/-- The outputs do not read the verdicts that wait. -/
theorem State.InterruptsOk.answer (h : s.InterruptsOk) (hd : Handed) (c : Code) (w : PortWords) :
    (s.answer hd c w).InterruptsOk := h

/-! ### Ports (chapters 9 and 11) -/

/-- The outputs read no more of a port's record than its state. -/
theorem State.InterruptsOk.putPort (h : s.InterruptsOk) {r : PortRec} (hr : r.state = (s.ports.get p).state) :
    (s.putPort p r).InterruptsOk := by
  intro q
  refine (h q).trans ?_
  simp only [State.intCondition, State.putPort_ports, State.putPort_fnu, Tab.get_put]
  split
  · rename_i hq
    rw [hr, hq]
  · rfl

theorem State.InterruptsOk.writeArgument (h : s.InterruptsOk) (p : PortIx) (i : Fin 16) (bytes : BitVec 4)
    (value : Word) : (s.writeArgument p i bytes value).InterruptsOk := by
  unfold State.writeArgument
  simp only
  split <;> exact h.putPort rfl

theorem State.InterruptsOk.handCommand (h : s.InterruptsOk) (p : PortIx) (hc : HeldCommand) (c : Command) :
    (s.handCommand p hc c).InterruptsOk := by
  have marked : (s.putPort p
      { s.ports.get p with held := some { hc with admitted := true }, lastAdmitted := hc.code }).InterruptsOk :=
    h.putPort rfl
  unfold State.handCommand
  simp only
  split <;> exact marked

theorem State.InterruptsOk.admitCommand (h : s.InterruptsOk) (p : PortIx) (hc : HeldCommand) :
    (s.admitCommand p hc).InterruptsOk := by
  unfold State.admitCommand
  simp only
  split
  · exact h.putPort rfl
  · exact h.handCommand p hc _

theorem State.InterruptsOk.setPortLevel (h : s.InterruptsOk) (hd : Handed) : (s.setPortLevel hd).InterruptsOk := by
  unfold State.setPortLevel
  split
  · exact h
  · split
    · exact h
    · split
      · exact h
      · simp only
        split
        · exact h
        · exact h.putPort rfl

/-- A withdraw replaces the port's record and its notice record, and evaluates its output last (R179, R181). -/
theorem State.InterruptsOk.withdrawPort (h : s.InterruptsOk) (p : PortIx) : (s.withdrawPort p).InterruptsOk := by
  unfold State.withdrawPort
  split
  · exact h
  · have emptied := (withdrawDescs_frame s p (List.finRange 128)).interrupts h
    exact (((emptied.others p).putNotice NoticeRec.reset).putPort _).evalInt

theorem State.InterruptsOk.withdrawCommand (h : s.InterruptsOk) (hd : Handed) :
    (s.withdrawCommand hd).InterruptsOk := by
  unfold State.withdrawCommand
  split
  · exact h
  · split <;> exact h.withdrawPort _

/-- The return to OPEN replaces the port's state, and evaluates its output after that (R178, R185). -/
theorem State.InterruptsOk.returnOpen (h : s.InterruptsOk) (p : PortIx) :
    ((State.putPort { s with freed := s.freed.put p false } p { s.ports.get p with state := .opened }).evalInt
      p).InterruptsOk := by
  have noted : State.InterruptsOk { s with freed := s.freed.put p false } := h
  exact ((noted.others p).putPort _).evalInt

/-! ### Descriptors (chapters 1, 3, 6 and 7) -/

theorem State.InterruptsOk.descriptorChecks (h : s.InterruptsOk) (hd : Handed) {act : DescIx → Option Desc → State}
    (ha : ∀ d x, (act d x).InterruptsOk) : (s.descriptorChecks hd act).InterruptsOk := by
  unfold State.descriptorChecks
  split
  · exact h
  · split
    · exact ha _ _
    · split
      · exact ha _ _
      · exact h

theorem State.InterruptsOk.loadSlot (h : s.InterruptsOk) (hd : Handed) (d : DescIx) (x : Option Desc) :
    (s.loadSlot hd d x).InterruptsOk := by
  unfold State.loadSlot
  split
  · exact h
  · split
    · exact h
    · split
      · exact h
      · exact (loadDesc_frame s _ _ _).interrupts h

theorem State.InterruptsOk.load (h : s.InterruptsOk) (hd : Handed) : (s.load hd).InterruptsOk := by
  refine h.descriptorChecks hd fun d x => ?_
  split
  · exact h
  · exact h.loadSlot _ _ _

theorem State.InterruptsOk.readDescriptor (h : s.InterruptsOk) (hd : Handed) :
    (s.readDescriptor hd).InterruptsOk := by
  refine h.descriptorChecks hd fun d x => ?_
  simp only
  split
  · exact h
  · split <;> exact h

theorem State.InterruptsOk.arm (h : s.InterruptsOk) (hd : Handed) : (s.arm hd).InterruptsOk := by
  refine h.descriptorChecks hd fun d x => ?_
  split
  · exact h
  · split
    · exact h
    · split
      · exact h
      · exact ((s.putDesc_frame _ _).trans (State.setRetired_frame _ _ _ _)).interrupts h

theorem State.InterruptsOk.disarm (h : s.InterruptsOk) (hd : Handed) : (s.disarm hd).InterruptsOk := by
  refine h.descriptorChecks hd fun d x => ?_
  split
  · exact h
  · split
    case h_4 | h_5 | h_6 => exact h
    all_goals exact (s.leaveQueue_frame _ _).interrupts h

theorem State.InterruptsOk.release (h : s.InterruptsOk) (hd : Handed) : (s.release hd).InterruptsOk := by
  refine h.descriptorChecks hd fun d x => ?_
  split
  · exact h
  · split
    · exact (s.makeEmpty_frame _ _).interrupts h
    · exact h

theorem State.InterruptsOk.verdictTo (h : s.InterruptsOk) (i : Invocation) (c : Code) (w : PortWords) :
    (s.verdictTo i c w).InterruptsOk := by
  unfold State.verdictTo
  split <;> exact h

theorem State.InterruptsOk.targetRefuses (h : s.InterruptsOk) (i : Invocation) (c : Code) :
    (s.targetRefuses i c).InterruptsOk := by
  unfold State.targetRefuses
  split
  · exact h.verdictTo _ _ _
  · exact h

theorem State.InterruptsOk.invokeTarget (h : s.InterruptsOk) (i : Invocation) : (s.invokeTarget i).InterruptsOk := by
  unfold State.invokeTarget
  split
  · exact h.targetRefuses _ _
  · rename_i x _
    have applied := (applyVerb_frame s i.kind i.target x).interrupts h
    exact (State.stopInWaitPort_frame _ _).interrupts (applied.verdictTo _ _ _)

/-! ### Gates, routes and windows (chapters 2 and 3): tables that the outputs do not read -/

theorem State.InterruptsOk.gateChecks (h : s.InterruptsOk) (hd : Handed) {act : GateIx → State}
    (ha : ∀ g, (act g).InterruptsOk) : (s.gateChecks hd act).InterruptsOk := by
  unfold State.gateChecks
  split
  · exact h
  · split
    · exact h
    · split
      · exact h
      · exact ha _

theorem State.InterruptsOk.setGate (h : s.InterruptsOk) (hd : Handed) : (s.setGate hd).InterruptsOk := by
  refine h.gateChecks hd fun g => ?_
  split <;> exact h

theorem State.InterruptsOk.clearGate (h : s.InterruptsOk) (hd : Handed) : (s.clearGate hd).InterruptsOk :=
  h.gateChecks hd fun _ => h

theorem State.InterruptsOk.readGate (h : s.InterruptsOk) (hd : Handed) : (s.readGate hd).InterruptsOk := by
  unfold State.readGate
  split <;> exact h

theorem State.InterruptsOk.invoke (h : s.InterruptsOk) (hd : Handed) : (s.invoke hd).InterruptsOk := by
  unfold State.invoke
  simp only
  split
  · exact h
  · split <;> exact h

theorem State.InterruptsOk.takeLineInvocation (h : s.InterruptsOk) (i : LineInv) :
    (s.takeLineInvocation i).InterruptsOk := by
  unfold State.takeLineInvocation
  split <;> exact h

theorem State.InterruptsOk.setRoute (h : s.InterruptsOk) (hd : Handed) : (s.setRoute hd).InterruptsOk := by
  unfold State.setRoute
  split
  · exact h
  · split <;> exact h

theorem State.InterruptsOk.readRoute (h : s.InterruptsOk) (hd : Handed) : (s.readRoute hd).InterruptsOk := by
  unfold State.readRoute
  split <;> exact h

theorem State.InterruptsOk.lineEvent (h : s.InterruptsOk) (l : LineIx) : (s.lineEvent l).InterruptsOk := by
  unfold State.lineEvent
  simp only
  split <;> exact h

theorem State.InterruptsOk.windowChecks (h : s.InterruptsOk) (hd : Handed) {act : WindowIx → State}
    (ha : ∀ w, (act w).InterruptsOk) : (s.windowChecks hd act).InterruptsOk := by
  unfold State.windowChecks
  split
  · exact h
  · split
    · exact h
    · exact ha _

theorem State.InterruptsOk.setWindow (h : s.InterruptsOk) (hd : Handed) : (s.setWindow hd).InterruptsOk := by
  refine h.windowChecks hd fun w => ?_
  split <;> exact h

theorem State.InterruptsOk.clearWindow (h : s.InterruptsOk) (hd : Handed) : (s.clearWindow hd).InterruptsOk :=
  h.windowChecks hd fun _ => h

theorem State.InterruptsOk.readWindow (h : s.InterruptsOk) (hd : Handed) : (s.readWindow hd).InterruptsOk := by
  unfold State.readWindow
  split <;> exact h

/-! ### Notices (chapter 10): each change of a notice record is followed by its output -/

theorem State.InterruptsOk.takeFault (h : s.InterruptsOk) (hd : Handed) : (s.takeFault hd).InterruptsOk := by
  unfold State.takeFault
  simp only
  split
  · exact h
  · exact ((h.others _).putNotice _).evalInt

theorem State.InterruptsOk.takeRetired (h : s.InterruptsOk) (hd : Handed) : (s.takeRetired hd).InterruptsOk := by
  unfold State.takeRetired
  split
  · exact h
  · exact (s.setRetired_frame _ _ _).interrupts h

theorem State.InterruptsOk.setNotice (h : s.InterruptsOk) (hd : Handed) : (s.setNotice hd).InterruptsOk := by
  unfold State.setNotice
  split
  · exact h
  · exact ((h.others _).putNotice _).evalInt

/-! ### The engine, the strobe channels and the sweep (chapters 4 to 8) -/

theorem State.InterruptsOk.pause (h : s.InterruptsOk) (hd : Handed) : (s.pause hd).InterruptsOk := by
  unfold State.pause
  split
  · exact h
  · rename_i paused
    exact (pauseEngine_frame paused).interrupts h

theorem State.InterruptsOk.resume (h : s.InterruptsOk) (hd : Handed) : (s.resume hd).InterruptsOk := by
  unfold State.resume
  split
  · exact h
  · rename_i resumed
    exact (resumeEngine_frame resumed).interrupts h

theorem State.InterruptsOk.setStrobeLimit (h : s.InterruptsOk) (hd : Handed) :
    (s.setStrobeLimit hd).InterruptsOk := by
  unfold State.setStrobeLimit
  simp only
  split <;> exact h

theorem State.InterruptsOk.setSweep (h : s.InterruptsOk) (hd : Handed) : (s.setSweep hd).InterruptsOk := by
  unfold State.setSweep
  simp only
  split <;> exact h

theorem State.InterruptsOk.sweepClaim (h : s.InterruptsOk) : s.sweepClaim.InterruptsOk := by
  have deferred : s.deferVisit.InterruptsOk := h
  unfold State.sweepClaim
  split
  · exact s.deferVisit.handOn_frame.interrupts deferred
  · exact deferred

theorem State.InterruptsOk.visitDue (h : s.InterruptsOk) : s.visitDue.InterruptsOk := by
  unfold State.visitDue
  split
  · split
    · exact h.sweepClaim
    · exact s.performVisit_frame.interrupts h
  · split <;> exact h

theorem State.InterruptsOk.sweepExpires (h : s.InterruptsOk) : s.sweepExpires.InterruptsOk := by
  unfold State.sweepExpires
  split
  · exact h
  · have restarted : State.InterruptsOk { s with sweep := { s.sweep with timer := 0 } } := h
    exact restarted.visitDue

theorem State.InterruptsOk.timeBase (h : s.InterruptsOk) : s.timeBase.InterruptsOk := by
  unfold State.timeBase
  split
  · exact h
  · split
    · exact h.sweepExpires
    · split
      · exact (waitExpires_frame s _).interrupts h
      · exact h

/-! ### Every command -/

/-- Every command keeps the interrupt outputs equal to their conditions. -/
theorem State.InterruptsOk.exec (h : s.InterruptsOk) (c : Instr) (ht : exec c s = .next t) : t.InterruptsOk := by
  unfold Machine.exec at ht
  cases c with
  | argumentWordWrite p i bytes value => exact h.whileRunning (h.writeArgument p i bytes value) ht
  | commandWrite p code => exact h.whileRunning (h.putPort (PortRec.commandWritten_state _ code)) ht
  | admission p =>
    refine h.whileRunning ?_ ht
    split
    · exact h
    · exact h.admitCommand p _
  | clearStatus p =>
    refine h.whileRunning ?_ ht
    split
    · exact h
    · split
      · exact h.admitCommand p _
      · exact h
  | verdictPost p id =>
    refine h.whileRunning ?_ ht
    split
    · exact h
    · rename_i v _
      have taken : State.InterruptsOk { s with verdicts := s.verdicts.erase v } := h
      simp only
      split
      · exact taken.putPort rfl
      · exact taken
  | load p id => exact h.ownerTakes (fun hd u hu => hu.load hd) ht
  | readDescriptor p id => exact h.ownerTakes (fun hd u hu => hu.readDescriptor hd) ht
  | arm p id => exact h.ownerTakes (fun hd u hu => hu.arm hd) ht
  | disarm p id => exact h.ownerTakes (fun hd u hu => hu.disarm hd) ht
  | release p id => exact h.ownerTakes (fun hd u hu => hu.release hd) ht
  | invoke p id => exact h.ownerTakes (fun hd u hu => hu.invoke hd) ht
  | setGate p id => exact h.ownerTakes (fun hd u hu => hu.setGate hd) ht
  | clearGate p id => exact h.ownerTakes (fun hd u hu => hu.clearGate hd) ht
  | readGate p id => exact h.ownerTakes (fun hd u hu => hu.readGate hd) ht
  | setWindow p id => exact h.ownerTakes (fun hd u hu => hu.setWindow hd) ht
  | clearWindow p id => exact h.ownerTakes (fun hd u hu => hu.clearWindow hd) ht
  | readWindow p id => exact h.ownerTakes (fun hd u hu => hu.readWindow hd) ht
  | setRoute p id => exact h.ownerTakes (fun hd u hu => hu.setRoute hd) ht
  | readRoute p id => exact h.ownerTakes (fun hd u hu => hu.readRoute hd) ht
  | setSweep p id => exact h.ownerTakes (fun hd u hu => hu.setSweep hd) ht
  | setStrobeLimit p id => exact h.ownerTakes (fun hd u hu => hu.setStrobeLimit hd) ht
  | pause p id => exact h.ownerTakes (fun hd u hu => hu.pause hd) ht
  | resume p id => exact h.ownerTakes (fun hd u hu => hu.resume hd) ht
  | setPortLevel p id => exact h.ownerTakes (fun hd u hu => hu.setPortLevel hd) ht
  | readStatus p id => exact h.ownerTakes (fun hd u hu => hu.answer hd _ _) ht
  | takeFault p id => exact h.ownerTakes (fun hd u hu => hu.takeFault hd) ht
  | takeRetired p id => exact h.ownerTakes (fun hd u hu => hu.takeRetired hd) ht
  | setNotice p id => exact h.ownerTakes (fun hd u hu => hu.setNotice hd) ht
  | withdraw p id => exact h.ownerTakes (fun hd u hu => hu.withdrawCommand hd) ht
  | registerWriteIgnored _ _ _ | triggerLineRelease _ | withdrawLineRelease _ => exact h.whileRunning h ht
  | sweepLateClear _ _ | endRequest _ | releaseRequest =>
    refine h.whileRunning ?_ ht
    split <;> exact h
  | invocationAtTarget n =>
    refine h.whileRunning ?_ ht
    split
    · exact h
    · apply State.InterruptsOk.invokeTarget
      exact h
  | lineInvocation n =>
    refine h.whileRunning ?_ ht
    split
    · exact h
    · apply State.InterruptsOk.takeLineInvocation
      exact h
  | chain n =>
    refine h.whileRunning ?_ ht
    split
    · exact h
    · exact (takeChain_frame _ _).interrupts h
  | guardResult n =>
    refine h.whileRunning ?_ ht
    split
    · exact h
    · exact (takeGuardResult_frame _ _).interrupts h
  | faultReport =>
    refine h.whileRunning ?_ ht
    split
    · exact h
    · exact (State.takeReport_frame _ _ _).interrupts h
  | triggerLineEvent l =>
    refine h.whileRunning ?_ ht
    split
    · exact h
    · exact h.lineEvent l
  | withdrawLineEvent p =>
    refine h.whileRunning ?_ ht
    split
    · exact h
    · apply State.InterruptsOk.withdrawPort
      exact h
  | portReturnOpen p =>
    refine h.whileRunning ?_ ht
    split
    · exact h.returnOpen p
    · exact h
  | resetPin =>
    cases ht
    exact reset_interruptsOk
  | resetRelease lines withdrawLines =>
    cases ht
    split <;> exact h
  | selection =>
    refine h.whileRunning ?_ ht
    split
    · exact (select_frame s).interrupts h
    · exact h
  | busGrant =>
    refine h.whileRunning ?_ ht
    split
    · exact (State.handOn_frame _).interrupts h
    · exact h
  | guardReadEnd result =>
    refine h.whileRunning ?_ ht
    split
    · exact h
    · cases result with
      | word w => exact (guardReadWord_frame s _ w).interrupts h
      | busError => exact (s.guardReadFails_frame _ _).interrupts h
  | unitReadEnd data =>
    refine h.whileRunning ?_ ht
    split
    · exact h
    · split
      · exact (sourceReadDone_frame s _ _ _ data).interrupts h
      · exact h
  | unitCompletion =>
    refine h.whileRunning ?_ ht
    split
    · exact h
    · split
      · exact (s.unitCompletes_frame _ _).interrupts h
      · exact h
  | accessBusError =>
    refine h.whileRunning ?_ ht
    split
    · exact h
    · exact (s.unitFails_frame _ _ _ _ _ _).interrupts h
  | accept c =>
    refine h.whileRunning ?_ ht
    split
    · exact (accepted_frame s c).interrupts h
    · exact h
    · exact h
  | supply c data =>
    refine h.whileRunning ?_ ht
    split
    · exact (supplied_frame s c data).interrupts h
    · exact h
    · exact h
  | refuse c =>
    refine h.whileRunning ?_ ht
    split
    · exact h
    · exact (s.exchangeFails_frame c _).interrupts h
    · exact (s.exchangeFails_frame c _).interrupts h
  | waitTimerExpiry c => exact h.whileRunning ((waitExpires_frame s c).interrupts h) ht
  | sweepTimerExpiry => exact h.whileRunning h.sweepExpires ht
  | sweepReadEnd result =>
    refine h.whileRunning ?_ ht
    split
    · exact h
    · exact (sweepReadOver_frame s _ result).interrupts h

/-- A step, of a command or of the time base, keeps them. -/
theorem State.InterruptsOk.step (h : s.InterruptsOk) (ht : step s = .next t) : t.InterruptsOk := by
  unfold Sys2Proof.Machine.step at ht
  split at ht
  · cases ht
    exact h.timeBase
  · rename_i c rest _
    have queued : State.InterruptsOk { s with pending := rest } := h
    exact queued.exec c ht

/-- Settles O8: the outputs are carried through every command and through the time base, with no other claim about the
state. -/
theorem stepKeepsInterrupts : Obligations.StepKeepsInterrupts := fun _ _ h ht => h.step ht

end Sys2Proof.Machine
end
